-- ==== Sys2Proof/Word.lean ====
section
/-! DEFINITION. The word types of the part's frames: a byte of a frame and the 16-bit word of its check (R194). -/
namespace Sys2Proof

/-- One byte of a frame, a payload or an event entry (R191, R194). -/
abbrev Byte := BitVec 8

/-- The register of the CRC-16 that checks every frame (R194). -/
abbrev CrcWord := BitVec 16

end Sys2Proof
end

