-- ==== Sys2Proof/Syntax.lean ====
section
/-! DEFINITION. The part's names (feeders, districts, levels, ports), the containers that hold one value for each of them,
and the commands: one constructor of `Instr` for each row of spec/opcode_table.json. -/
namespace Sys2Proof

/-- Feeders F1 to F6 (00_scope.md, Names). -/
inductive Feeder where
  | f1 | f2 | f3 | f4 | f5 | f6
  deriving DecidableEq, Repr

/-- Districts D1 to D3. -/
inductive District where
  | d1 | d2 | d3
  deriving DecidableEq, Repr

/-- Fire danger levels L0 to L3, ordered by number. -/
inductive Level where
  | l0 | l1 | l2 | l3
  deriving DecidableEq, Repr

/-- The three ports; as claim and lock holders NETWORK, PANEL and CREW. -/
inductive Port where
  | network | panel | crew
  deriving DecidableEq, Repr

/-- The two ports that are serial slaves (R178). -/
inductive SerialPort where
  | network | panel
  deriving DecidableEq, Repr

/-- Which crew transaction stalled (R180): the write under way, whose frame REQUEST_FRAME_BEGINS began, at its stall deadline; or one that no
other command has told of, a write after its address alone, a write after one or more bytes of a frame, or a read (DESIGN CHOICE, log 60). -/
inductive StallPoint where
  | underWay | writeAfterAddress | writeAfterByte | read
  deriving DecidableEq, Repr

/-- The feeders in feeder order. -/
def Feeder.all : List Feeder := [.f1, .f2, .f3, .f4, .f5, .f6]

/-- The districts in order. -/
def District.all : List District := [.d1, .d2, .d3]

/-- The levels in order. -/
def Level.all : List Level := [.l0, .l1, .l2, .l3]

/-- The ports in the order network, panel, crew. -/
def Port.all : List Port := [.network, .panel, .crew]

/-- The number of a feeder (R191). -/
def Feeder.number : Feeder → Nat
  | .f1 => 1 | .f2 => 2 | .f3 => 3 | .f4 => 4 | .f5 => 5 | .f6 => 6

/-- The feeder of a number, if it is 1 to 6. -/
def Feeder.ofNumber : Nat → Option Feeder
  | 1 => some .f1 | 2 => some .f2 | 3 => some .f3 | 4 => some .f4 | 5 => some .f5 | 6 => some .f6 | _ => none

/-- The number of a district (R191). -/
def District.number : District → Nat
  | .d1 => 1 | .d2 => 2 | .d3 => 3

/-- The district of a number, if it is 1 to 3. -/
def District.ofNumber : Nat → Option District
  | 1 => some .d1 | 2 => some .d2 | 3 => some .d3 | _ => none

/-- The number of a level (R191). -/
def Level.number : Level → Nat
  | .l0 => 0 | .l1 => 1 | .l2 => 2 | .l3 => 3

/-- The level of a number, if it is 0 to 3. -/
def Level.ofNumber : Nat → Option Level
  | 0 => some .l0 | 1 => some .l1 | 2 => some .l2 | 3 => some .l3 | _ => none

/-- The higher of two levels. -/
def Level.higher (a b : Level) : Level := if a.number < b.number then b else a

/-- The port a serial port is. -/
def SerialPort.port : SerialPort → Port
  | .network => .network | .panel => .panel

/-- One value for each feeder. -/
structure PerFeeder (α : Type) where
  f1 : α
  f2 : α
  f3 : α
  f4 : α
  f5 : α
  f6 : α
  deriving DecidableEq, Repr

/-- The value held for one feeder. -/
def PerFeeder.get {α : Type} (x : PerFeeder α) : Feeder → α
  | .f1 => x.f1
  | .f2 => x.f2
  | .f3 => x.f3
  | .f4 => x.f4
  | .f5 => x.f5
  | .f6 => x.f6

/-- The container with one feeder's value replaced. -/
def PerFeeder.set {α : Type} (x : PerFeeder α) (k : Feeder) (v : α) : PerFeeder α :=
  match k with
  | .f1 => { x with f1 := v }
  | .f2 => { x with f2 := v }
  | .f3 => { x with f3 := v }
  | .f4 => { x with f4 := v }
  | .f5 => { x with f5 := v }
  | .f6 => { x with f6 := v }

/-- The container that holds a function's value for each feeder. -/
def PerFeeder.of {α : Type} (g : Feeder → α) : PerFeeder α :=
  ⟨g .f1, g .f2, g .f3, g .f4, g .f5, g .f6⟩

/-- The values in order. -/
def PerFeeder.toList {α : Type} (x : PerFeeder α) : List α := [x.f1, x.f2, x.f3, x.f4, x.f5, x.f6]

/-- One value for each district. -/
structure PerDistrict (α : Type) where
  d1 : α
  d2 : α
  d3 : α
  deriving DecidableEq, Repr

/-- The value held for one district. -/
def PerDistrict.get {α : Type} (x : PerDistrict α) : District → α
  | .d1 => x.d1
  | .d2 => x.d2
  | .d3 => x.d3

/-- The container with one district's value replaced. -/
def PerDistrict.set {α : Type} (x : PerDistrict α) (k : District) (v : α) : PerDistrict α :=
  match k with
  | .d1 => { x with d1 := v }
  | .d2 => { x with d2 := v }
  | .d3 => { x with d3 := v }

/-- The container that holds a function's value for each district. -/
def PerDistrict.of {α : Type} (g : District → α) : PerDistrict α :=
  ⟨g .d1, g .d2, g .d3⟩

/-- The values in order. -/
def PerDistrict.toList {α : Type} (x : PerDistrict α) : List α := [x.d1, x.d2, x.d3]

/-- One value for each fire level. -/
structure PerLevel (α : Type) where
  l0 : α
  l1 : α
  l2 : α
  l3 : α
  deriving DecidableEq, Repr

/-- The value held for one level. -/
def PerLevel.get {α : Type} (x : PerLevel α) : Level → α
  | .l0 => x.l0
  | .l1 => x.l1
  | .l2 => x.l2
  | .l3 => x.l3

/-- The container with one level's value replaced. -/
def PerLevel.set {α : Type} (x : PerLevel α) (k : Level) (v : α) : PerLevel α :=
  match k with
  | .l0 => { x with l0 := v }
  | .l1 => { x with l1 := v }
  | .l2 => { x with l2 := v }
  | .l3 => { x with l3 := v }

/-- The container that holds a function's value for each level. -/
def PerLevel.of {α : Type} (g : Level → α) : PerLevel α :=
  ⟨g .l0, g .l1, g .l2, g .l3⟩

/-- The values in order. -/
def PerLevel.toList {α : Type} (x : PerLevel α) : List α := [x.l0, x.l1, x.l2, x.l3]

/-- One value for each port. -/
structure PerPort (α : Type) where
  network : α
  panel : α
  crew : α
  deriving DecidableEq, Repr

/-- The value held for one port. -/
def PerPort.get {α : Type} (x : PerPort α) : Port → α
  | .network => x.network
  | .panel => x.panel
  | .crew => x.crew

/-- The container with one port's value replaced. -/
def PerPort.set {α : Type} (x : PerPort α) (k : Port) (v : α) : PerPort α :=
  match k with
  | .network => { x with network := v }
  | .panel => { x with panel := v }
  | .crew => { x with crew := v }

/-- The container that holds a function's value for each port. -/
def PerPort.of {α : Type} (g : Port → α) : PerPort α :=
  ⟨g .network, g .panel, g .crew⟩

/-- The values in order. -/
def PerPort.toList {α : Type} (x : PerPort α) : List α := [x.network, x.panel, x.crew]

/-- The raw levels of a feeder's two position contacts at a scan; true is active (R10, R11). -/
structure ContactLevels where
  closedContact : Bool
  openContact : Bool
  deriving DecidableEq, Repr

/-- The raw levels of the fifteen filtered inputs at a scan; true is active (R10). -/
structure ScanLevels where
  contacts : PerFeeder ContactLevels
  fireBan : Bool
  crewKey : Bool
  setProtect : Bool
  deriving DecidableEq, Repr

/-- The commands, one constructor for each row of spec/opcode_table.json. A request row carries the port it arrives on,
its target byte and its payload bytes, as the request frame lays them out (R192, R194). -/
inductive Instr where
  /-- POWER_ON. Power is applied, with the crew strap pins at the levels given (R16, R190). -/
  | powerOn (straps : BitVec 2)
  /-- POWER_LOSS. Power is lost (R64). -/
  | powerLoss
  /-- RESET_ASSERTED. A scan sees the RESET input active (R16). -/
  | resetAsserted
  /-- RESET_RELEASED. The first scan that sees RESET inactive, with the crew strap pins at the levels given (R16, R190). -/
  | resetReleased (straps : BitVec 2)
  /-- MEASUREMENT_FRAME. The link delivers one unit of bytes (R2, R194). -/
  | measurementFrame (unit : List Byte)
  /-- LINK_LOSS_DEADLINE. The part time reaches the link-loss deadline (R8). -/
  | linkLossDeadline
  /-- INPUT_SCAN. One scan of the fifteen filtered inputs (R10). -/
  | inputScan (levels : ScanLevels)
  /-- INVALID_TIMER_EXPIRY. The feeder's invalid timer reaches its deadline (R12). -/
  | invalidTimerExpiry (feeder : Feeder)
  /-- TRANSIT_TIMER_EXPIRY. The feeder's transit timer reaches its deadline (R13). -/
  | transitTimerExpiry (feeder : Feeder)
  /-- TRIP_DEADLINE. The deadline of the feeder's trip in flight is reached (R111). -/
  | tripDeadline (feeder : Feeder)
  /-- CLOSE_DEADLINE. The deadline of the feeder's close in flight is reached (R112). -/
  | closeDeadline (feeder : Feeder)
  /-- DEAD_TIME_EXPIRY. The feeder's dead-time deadline is reached (R131). -/
  | deadTimeExpiry (feeder : Feeder)
  /-- RECLAIM_EXPIRY. The feeder's reclaim deadline is reached (R134). -/
  | reclaimExpiry (feeder : Feeder)
  /-- CONFIRM_EXPIRY. The hunt's step deadline is reached in CONFIRM (R155). -/
  | confirmExpiry
  /-- TRIAL_WATCH_EXPIRY. The hunt's step deadline is reached in TRIAL_WATCH (R159). -/
  | trialWatchExpiry
  /-- EDIT_LEASE_EXPIRY. The edit buffer's lease deadline is reached (R60). -/
  | editLeaseExpiry
  /-- LOCK_LEASE_EXPIRY. The lease deadline of the feeder's port-held lock is reached (R120). -/
  | lockLeaseExpiry (feeder : Feeder)
  /-- CLAIM_EXPIRY. The expiry deadline of the NORECLOSE claim of this identity is reached; `tag` is 0 but for holder CREW (R86, R91). -/
  | claimExpiry (feeder : Feeder) (holder : Port) (tag : Nat)
  /-- STORE_WRITE_BEGINS. The write of the entry at the head of the store write queue begins (R62). -/
  | storeWriteBegins
  /-- STORE_WRITE_COMPLETE. The store write in flight completes (R63). -/
  | storeWriteComplete
  /-- LOWERING_APPLIED. The feeder is judged, and a pending change is applied if it is quiescent (R77). -/
  | loweringApplied (feeder : Feeder)
  /-- FETCH. A fetch transfer or crew read in which the master clocks `clocked` bytes of the response (R178, R179). -/
  | fetch (port : Port) (clocked : Nat)
  /-- BAD_TRANSFER_TYPE. A serial transfer with this type byte, no request and no fetch transfer (R178). -/
  | badTransferType (port : SerialPort) (type : Byte)
  /-- FRAME_ENDED_EARLY. A transfer ends after one or more bytes of a request frame and before its last (R175). -/
  | frameEndedEarly (port : Port)
  /-- COLLIDED_FRAME. A request frame arrives while the port is EXECUTING or WAITING (R176). -/
  | collidedFrame (port : Port)
  /-- CREW_STALL. 25 ms without a byte in an acknowledged crew transaction (R180). -/
  | crewStall (point : StallPoint)
  /-- BAD_FRAME. A whole request frame arrives that fails the frame check (R181). -/
  | badFrame (port : Port)
  /-- UNKNOWN_REQUEST. A whole request frame arrives whose code names no request (R181). -/
  | unknownRequest (port : Port)
  /-- IDENTIFY. The request of this name arrives whole and passes the frame check (R181). -/
  | identify (port : Port) (target : Byte) (payload : List Byte)
  /-- READ_PART. The request of this name arrives whole and passes the frame check (R181). -/
  | readPart (port : Port) (target : Byte) (payload : List Byte)
  /-- READ_FEEDER. The request of this name arrives whole and passes the frame check (R181). -/
  | readFeeder (port : Port) (target : Byte) (payload : List Byte)
  /-- READ_CLAIMS. The request of this name arrives whole and passes the frame check (R181). -/
  | readClaims (port : Port) (target : Byte) (payload : List Byte)
  /-- READ_EVENTS. The request of this name arrives whole and passes the frame check (R181). -/
  | readEvents (port : Port) (target : Byte) (payload : List Byte)
  /-- READ_FIRE. The request of this name arrives whole and passes the frame check (R181). -/
  | readFire (port : Port) (target : Byte) (payload : List Byte)
  /-- READ_EFFECTIVE. The request of this name arrives whole and passes the frame check (R181). -/
  | readEffective (port : Port) (target : Byte) (payload : List Byte)
  /-- READ_RECORD. The request of this name arrives whole and passes the frame check (R181). -/
  | readRecord (port : Port) (target : Byte) (payload : List Byte)
  /-- READ_STORE. The request of this name arrives whole and passes the frame check (R181). -/
  | readStore (port : Port) (target : Byte) (payload : List Byte)
  /-- READ_EDIT. The request of this name arrives whole and passes the frame check (R181). -/
  | readEdit (port : Port) (target : Byte) (payload : List Byte)
  /-- READ_HUNT. The request of this name arrives whole and passes the frame check (R181). -/
  | readHunt (port : Port) (target : Byte) (payload : List Byte)
  /-- TRIP. The request of this name arrives whole and passes the frame check (R181). -/
  | trip (port : Port) (target : Byte) (payload : List Byte)
  /-- CLOSE. The request of this name arrives whole and passes the frame check (R181). -/
  | close (port : Port) (target : Byte) (payload : List Byte)
  /-- TAKE_LOCK. The request of this name arrives whole and passes the frame check (R181). -/
  | takeLock (port : Port) (target : Byte) (payload : List Byte)
  /-- DROP_LOCK. The request of this name arrives whole and passes the frame check (R181). -/
  | dropLock (port : Port) (target : Byte) (payload : List Byte)
  /-- PLACE_CLAIM. The request of this name arrives whole and passes the frame check (R181). -/
  | placeClaim (port : Port) (target : Byte) (payload : List Byte)
  /-- RELEASE_CLAIM. The request of this name arrives whole and passes the frame check (R181). -/
  | releaseClaim (port : Port) (target : Byte) (payload : List Byte)
  /-- FORCE_RELEASE. The request of this name arrives whole and passes the frame check (R181). -/
  | forceRelease (port : Port) (target : Byte) (payload : List Byte)
  /-- CLEAR_BREAKER_FAIL. The request of this name arrives whole and passes the frame check (R181). -/
  | clearBreakerFail (port : Port) (target : Byte) (payload : List Byte)
  /-- CLEAR_HUNT_CLAIM. The request of this name arrives whole and passes the frame check (R181). -/
  | clearHuntClaim (port : Port) (target : Byte) (payload : List Byte)
  /-- CLEAR_STORE_HOLD. The request of this name arrives whole and passes the frame check (R181). -/
  | clearStoreHold (port : Port) (target : Byte) (payload : List Byte)
  /-- SET_FIRE_REQUEST. The request of this name arrives whole and passes the frame check (R181). -/
  | setFireRequest (port : Port) (target : Byte) (payload : List Byte)
  /-- SET_FLOOR. The request of this name arrives whole and passes the frame check (R181). -/
  | setFloor (port : Port) (target : Byte) (payload : List Byte)
  /-- SET_BAN_LEVEL. The request of this name arrives whole and passes the frame check (R181). -/
  | setBanLevel (port : Port) (target : Byte) (payload : List Byte)
  /-- OPEN_EDIT. The request of this name arrives whole and passes the frame check (R181). -/
  | openEdit (port : Port) (target : Byte) (payload : List Byte)
  /-- SET_FIELD. The request of this name arrives whole and passes the frame check (R181). -/
  | setField (port : Port) (target : Byte) (payload : List Byte)
  /-- COMMIT_EDIT. The request of this name arrives whole and passes the frame check (R181). -/
  | commitEdit (port : Port) (target : Byte) (payload : List Byte)
  /-- DISCARD_EDIT. The request of this name arrives whole and passes the frame check (R181). -/
  | discardEdit (port : Port) (target : Byte) (payload : List Byte)
  /-- SET_PROTECT_MODE. The request of this name arrives whole and passes the frame check (R181). -/
  | setProtectMode (port : Port) (target : Byte) (payload : List Byte)
  /-- FREEZE_SETTINGS. The request of this name arrives whole and passes the frame check (R181). -/
  | freezeSettings (port : Port) (target : Byte) (payload : List Byte)
  /-- START_HUNT. The request of this name arrives whole and passes the frame check (R181). -/
  | startHunt (port : Port) (target : Byte) (payload : List Byte)
  /-- SUSPEND_HUNT. The request of this name arrives whole and passes the frame check (R181). -/
  | suspendHunt (port : Port) (target : Byte) (payload : List Byte)
  /-- RESUME_HUNT. The request of this name arrives whole and passes the frame check (R181). -/
  | resumeHunt (port : Port) (target : Byte) (payload : List Byte)
  /-- ABORT_HUNT. The request of this name arrives whole and passes the frame check (R181). -/
  | abortHunt (port : Port) (target : Byte) (payload : List Byte)
  /-- RESTART. The request of this name arrives whole and passes the frame check (R181). -/
  | restart (port : Port) (target : Byte) (payload : List Byte)
  /-- REQUEST_FRAME_BEGINS. The first byte of a request frame arrives (R175). -/
  | requestFrameBegins (port : Port)
  deriving DecidableEq, Repr

end Sys2Proof
end

