-- ==== Sys2Proof/Machine/Bytes.lean ====
section
/-! DEFINITION. How numbers, options and lists are laid out in bytes (R191, R194), and the CRC-16 of every frame (R194). -/
namespace Sys2Proof.Machine

/-- A number in one byte (R191). -/
def be1 (n : Nat) : List Byte := [BitVec.ofNat 8 n]

/-- A number in two bytes, most significant first (R191, R194). -/
def be2 (n : Nat) : List Byte := [BitVec.ofNat 8 (n / 256), BitVec.ofNat 8 n]

/-- A number in four bytes, most significant first (R191, R194). -/
def be4 (n : Nat) : List Byte :=
  [BitVec.ofNat 8 (n / 16777216), BitVec.ofNat 8 (n / 65536), BitVec.ofNat 8 (n / 256), BitVec.ofNat 8 n]

/-- A part time or a deadline in part time: six bytes, most significant first (R191, R194). -/
def be6 (n : Nat) : List Byte :=
  [BitVec.ofNat 8 (n / 1099511627776), BitVec.ofNat 8 (n / 4294967296)] ++ be4 n

/-- Yes or no, present or absent, set or clear: 1 or 0 (R191). -/
def beFlag (b : Bool) : List Byte := be1 (if b then 1 else 0)

/-- An optional field: a presence byte, then the field when present (R191). -/
def beOpt {α : Type} (enc : α → List Byte) : Option α → List Byte
  | none => be1 0
  | some a => be1 1 ++ enc a

/-- A list: a count byte, then the entries (R191). -/
def beList {α : Type} (enc : α → List Byte) (xs : List α) : List Byte :=
  be1 xs.length ++ xs.flatMap enc

/-- The number that a run of bytes spells, most significant first (R194). -/
def readNumber (bs : List Byte) : Nat := bs.foldl (fun acc b => acc * 256 + b.toNat) 0

/-- The level of a contact or station input as a named value: active 0, inactive 1, the order of the list that defines it
(R193, section 1.4; DEDUCED, log 21). -/
def levelCode (active : Bool) : Nat := if active then 0 else 1

/-- One bit of the CRC-16: generator x^16 + x^12 + x^5 + 1, most significant bit first (R194). -/
def crcRound (c : CrcWord) : CrcWord :=
  if c.msb then (c <<< 1) ^^^ 0x1021#16 else c <<< 1

/-- The CRC-16 taken over one more byte (R194). -/
def crcByte (c : CrcWord) (b : Byte) : CrcWord :=
  let c0 := c ^^^ ((b.setWidth 16) <<< 8)
  crcRound (crcRound (crcRound (crcRound (crcRound (crcRound (crcRound (crcRound c0)))))))

/-- The CRC-16 of a run of bytes: initial value 0xFFFF, no reflection, no final inversion (R194). -/
def crc16 (bs : List Byte) : CrcWord := bs.foldl crcByte 0xFFFF#16

/-- The check field of a frame whose earlier bytes are `body`: the CRC-16, most significant byte first (R194). -/
def checkField (body : List Byte) : List Byte := be2 (crc16 body).toNat

end Sys2Proof.Machine
end

