-- ==== Sys2Proof/Machine/Records.lean ====
section
/-! DEFINITION. The records of the settings store: their fields, ranges, cross-checks, defaults, field numbers and layouts
(chapter 3, R44 to R52; R191 to R193). -/
namespace Sys2Proof.Machine

/-- The curve an IDMT element names (R29, R30). -/
inductive Curve where
  | a | b | c | u1 | u2
  deriving DecidableEq, Repr

/-- The two user curve records (R50). -/
inductive UserCurveName where
  | u1 | u2
  deriving DecidableEq, Repr

/-- The reset mode of an IDMT element (R23). -/
inductive ResetMode where
  | instant | timed
  deriving DecidableEq, Repr

/-- The fire block level of a commissioning record: L1, L2, L3 or NEVER (R47, R80). -/
inductive FireBlock where
  | l1 | l2 | l3 | never
  deriving DecidableEq, Repr

/-- The protect mode (R51, R54). -/
inductive ProtectMode where
  | open_ | pin | networkOnly
  deriving DecidableEq, Repr

/-- One breakpoint of a curve: m in sixteenths of pickup, t in ms at TMS 1.00 (R26). -/
structure Breakpoint where
  m : Nat
  t : Nat
  deriving DecidableEq, Repr

/-- The settings of one IDMT element (R19): pickup in 0.1 A, TMS in hundredths, times in ms. -/
structure IdmtSettings where
  pickup : Nat
  curve : Curve
  tms : Nat
  minTime : Nat
  resetMode : ResetMode
  resetTime : Nat
  deriving DecidableEq, Repr

/-- A group record (R45): its thirty fields. A dead time of `none` is UNSET. -/
structure Group where
  phase : IdmtSettings
  highSetEnable : Bool
  highSetPickup : Nat
  highSetDelay : Nat
  earthEnable : Bool
  earth : IdmtSettings
  sefEnable : Bool
  sefPickup : Nat
  sefDelay : Nat
  sefDirectional : Bool
  shots : Nat
  dead1 : Option Nat
  dead2 : Option Nat
  dead3 : Option Nat
  dead4 : Option Nat
  reclaim : Nat
  permitPhase : Bool
  permitHighSet : Bool
  permitEarth : Bool
  permitSef : Bool
  deriving DecidableEq, Repr

/-- A commissioning record (R47). -/
structure Commissioning where
  fitted : Bool
  district : District
  fireBlock : FireBlock
  trialPriority : Nat
  huntExclude : Bool
  tripConfirm : Nat
  closeConfirm : Nat
  deriving DecidableEq, Repr

/-- A hunt record (R49). -/
structure HuntSettings where
  vnPickup : Nat
  hysteresis : Nat
  detectTime : Nat
  identifyEnable : Bool
  identifyWindow : Nat
  identifyThreshold : Nat
  identifyRatio : Nat
  confirmTime : Nat
  trialEnable : Bool
  trialWatchTime : Nat
  deriving DecidableEq, Repr

/-- A user curve record (R50): the breakpoint count and the twelve breakpoints. -/
structure UserCurve where
  count : Nat
  points : List Breakpoint
  deriving DecidableEq, Repr

/-- One entry of the persisted claim record (R52): a HOLD_OPEN port claim. The tag is present when the holder is CREW. -/
structure PersistedClaim where
  feeder : Feeder
  holder : Port
  tag : Option Nat
  reason : Nat
  deriving DecidableEq, Repr

/-- The name of a record of the store (section 3.1). -/
inductive RecordName where
  | group (feeder : Feeder) (level : Level)
  | commissioning (feeder : Feeder)
  | hunt (level : Level)
  | userCurve (curve : UserCurveName)
  | seasonFloor (district : District)
  | banLevel (district : District)
  | protectMode
  | claims
  deriving DecidableEq, Repr

/-- The content of one record of the store. -/
inductive RecordContent where
  | group (g : Group)
  | commissioning (c : Commissioning)
  | hunt (h : HuntSettings)
  | userCurve (u : UserCurve)
  | level (l : Level)
  | protectMode (m : ProtectMode)
  | claims (cs : List PersistedClaim)
  deriving DecidableEq, Repr

/-- The written copy of a record in the non-volatile cells (R44). `torn`: a write was ended before it completed, and the
copy's check does not match its content (R64). -/
inductive Written (α : Type) where
  | intact (content : α)
  | torn
  deriving DecidableEq, Repr

/-- One record of the store in its two forms, with its defaulted mark (R44, R66). -/
structure Cell (α : Type) where
  held : α
  written : Written α
  defaulted : Bool
  deriving DecidableEq, Repr

/-! ### Ranges and cross-checks -/

/-- A number lies in a range that is inclusive at both ends. -/
def within (lo hi v : Nat) : Bool := decide (lo ≤ v) && decide (v ≤ hi)

/-- A phase IDMT setting lies within the ranges of fields 1 to 6 (R45). -/
def IdmtSettings.inRange (pickupLo pickupHi : Nat) (i : IdmtSettings) : Bool :=
  within pickupLo pickupHi i.pickup && within 5 200 i.tms && within 0 10000 i.minTime && within 100 60000 i.resetTime

/-- A dead time is UNSET or lies within 200 to 180,000 ms (R45). -/
def deadTimeInRange : Option Nat → Bool
  | none => true
  | some d => within 200 180000 d

/-- Every field of a group record lies within its range (R45). -/
def Group.inRange (g : Group) : Bool :=
  g.phase.inRange 100 20000 && within 500 60000 g.highSetPickup && within 0 2000 g.highSetDelay &&
  g.earth.inRange 10 5000 && within 2 500 g.sefPickup && within 100 60000 g.sefDelay && within 0 4 g.shots &&
  deadTimeInRange g.dead1 && deadTimeInRange g.dead2 && deadTimeInRange g.dead3 && deadTimeInRange g.dead4 &&
  within 1000 300000 g.reclaim

/-- Dead time k of a group (R45, fields 22 to 25). -/
def Group.deadTime (g : Group) : Nat → Option Nat
  | 1 => g.dead1
  | 2 => g.dead2
  | 3 => g.dead3
  | 4 => g.dead4
  | _ => none

/-- The cross-checks of a group record (R45): the high-set pickup above the phase pickup when it is enabled, and a dead time
for each shot. -/
def Group.consistent (g : Group) : Bool :=
  (!g.highSetEnable || decide (g.phase.pickup < g.highSetPickup)) &&
  (List.range g.shots).all (fun k => (g.deadTime (k + 1)).isSome)

/-- Every field of a commissioning record lies within its range (R47). -/
def Commissioning.inRange (c : Commissioning) : Bool :=
  within 1 6 c.trialPriority && within 40 500 c.tripConfirm && within 60 1000 c.closeConfirm

/-- Every field of a hunt record lies within its range (R49). -/
def HuntSettings.inRange (h : HuntSettings) : Bool :=
  within 20 500 h.vnPickup && within 5 100 h.hysteresis && within 500 60000 h.detectTime && within 5 50 h.identifyWindow &&
  within 2 500 h.identifyThreshold && within 150 1000 h.identifyRatio && within 200 10000 h.confirmTime &&
  within 200 10000 h.trialWatchTime

/-- The dropout of a hunt record: the pickup less the hysteresis (R49, R145). -/
def HuntSettings.dropout (h : HuntSettings) : Nat := h.vnPickup - h.hysteresis

/-- The cross-check of a hunt record: its dropout is at least 10 (R49). -/
def HuntSettings.consistent (h : HuntSettings) : Bool := decide (10 + h.hysteresis ≤ h.vnPickup)

/-- Every field of a user curve record lies within its range (R50). -/
def UserCurve.inRange (u : UserCurve) : Bool :=
  within 4 12 u.count && decide (u.points.length = 12) &&
  u.points.all (fun p => within 17 640 p.m && within 10 600000 p.t)

/-- The breakpoints of a user curve: breakpoints 1 to its count (R50). -/
def UserCurve.breakpoints (u : UserCurve) : List Breakpoint := u.points.take u.count

/-- Each m is greater than the m before it and each t no greater than the t before it (R50). -/
def curveAscends : List Breakpoint → Bool
  | p :: q :: rest => decide (p.m < q.m) && decide (q.t ≤ p.t) && curveAscends (q :: rest)
  | _ => true

/-- The cross-check of a user curve record, over breakpoints 1 to its count (R50). -/
def UserCurve.consistent (u : UserCurve) : Bool := curveAscends u.breakpoints

/-- Two persisted entries share feeder, holder and, for CREW, tag (R94). -/
def PersistedClaim.alike (x y : PersistedClaim) : Bool :=
  decide (x.feeder = y.feeder) && decide (x.holder = y.holder) && decide (x.tag = y.tag)

/-- One entry of the persisted claim record is sound: a CREW entry carries a tag of 1 to 9999, every other entry none, and the
reason code is 0 to 255 (R94). -/
def PersistedClaim.sound (x : PersistedClaim) : Bool :=
  within 0 255 x.reason &&
  match x.holder, x.tag with
  | .crew, some t => within 1 9999 t
  | .crew, none => false
  | _, none => true
  | _, some _ => false

/-- No two entries of a persisted list are alike (R94). -/
def noneAlike : List PersistedClaim → Bool
  | [] => true
  | x :: rest => rest.all (fun y => !x.alike y) && noneAlike rest

/-- The content checks of the persisted claim record (R94). -/
def claimsSound (cs : List PersistedClaim) : Bool :=
  decide (cs.length ≤ 32) && cs.all PersistedClaim.sound && noneAlike cs

/-- The cross-checks made at COMMIT_EDIT on the content of an edit buffer (R57). -/
def RecordContent.consistent : RecordContent → Bool
  | .group g => g.consistent
  | .hunt h => h.consistent
  | .userCurve u => u.consistent
  | _ => true

/-- What a written copy gives when it passes: its content, if the check matches, every field is in range and the
cross-checks hold (R44). -/
def Written.passing {α : Type} (ok : α → Bool) : Written α → Option α
  | .intact c => if ok c then some c else none
  | .torn => none

/-- The record loaded at start-up: its written content if it passes, else its default with the defaulted mark (R65). -/
def Cell.load {α : Type} (ok : α → Bool) (dflt : α) (c : Cell α) : Cell α :=
  match c.written.passing ok with
  | some v => { held := v, written := c.written, defaulted := false }
  | none => { held := dflt, written := c.written, defaulted := true }

/-- A record as it leaves manufacture: its default, written (R45, R47; DEDUCED, log 3). -/
def Cell.fresh {α : Type} (v : α) : Cell α := { held := v, written := .intact v, defaulted := false }

/-! ### Defaults -/

/-- Built-in curve A (R29). -/
def curveA : List Breakpoint :=
  [⟨17, 60000⟩, ⟨20, 22000⟩, ⟨24, 13000⟩, ⟨32, 8000⟩, ⟨48, 5500⟩, ⟨64, 4500⟩, ⟨96, 3500⟩, ⟨128, 3000⟩, ⟨160, 2700⟩, ⟨320, 2200⟩]

/-- Built-in curve B (R29). -/
def curveB : List Breakpoint :=
  [⟨17, 90000⟩, ⟨20, 36000⟩, ⟨24, 18000⟩, ⟨32, 9000⟩, ⟨48, 4500⟩, ⟨64, 3000⟩, ⟨96, 1800⟩, ⟨128, 1300⟩, ⟨160, 1000⟩, ⟨320, 500⟩]

/-- Built-in curve C (R29). -/
def curveC : List Breakpoint :=
  [⟨17, 200000⟩, ⟨20, 80000⟩, ⟨24, 35000⟩, ⟨32, 15000⟩, ⟨48, 5500⟩, ⟨64, 3000⟩, ⟨96, 1400⟩, ⟨128, 800⟩, ⟨160, 550⟩, ⟨320, 200⟩]

/-- The default group record of a level (R45). -/
def defaultGroup : Level → Group
  | .l0 =>
    { phase := ⟨4000, .a, 20, 50, .instant, 1000⟩, highSetEnable := true, highSetPickup := 20000, highSetDelay := 50,
      earthEnable := true, earth := ⟨400, .b, 20, 50, .instant, 1000⟩, sefEnable := true, sefPickup := 40, sefDelay := 10000,
      sefDirectional := true, shots := 2, dead1 := some 5000, dead2 := some 30000, dead3 := none, dead4 := none,
      reclaim := 30000, permitPhase := true, permitHighSet := false, permitEarth := true, permitSef := false }
  | .l1 =>
    { phase := ⟨4000, .a, 15, 50, .instant, 1000⟩, highSetEnable := true, highSetPickup := 16000, highSetDelay := 50,
      earthEnable := true, earth := ⟨300, .b, 15, 50, .instant, 1000⟩, sefEnable := true, sefPickup := 30, sefDelay := 5000,
      sefDirectional := true, shots := 1, dead1 := some 10000, dead2 := none, dead3 := none, dead4 := none,
      reclaim := 60000, permitPhase := true, permitHighSet := false, permitEarth := false, permitSef := false }
  | .l2 =>
    { phase := ⟨4000, .c, 10, 50, .timed, 10000⟩, highSetEnable := true, highSetPickup := 12000, highSetDelay := 0,
      earthEnable := true, earth := ⟨200, .c, 10, 50, .timed, 10000⟩, sefEnable := true, sefPickup := 20, sefDelay := 2000,
      sefDirectional := true, shots := 0, dead1 := none, dead2 := none, dead3 := none, dead4 := none,
      reclaim := 60000, permitPhase := false, permitHighSet := false, permitEarth := false, permitSef := false }
  | .l3 =>
    { phase := ⟨4000, .c, 5, 50, .timed, 20000⟩, highSetEnable := true, highSetPickup := 10000, highSetDelay := 0,
      earthEnable := true, earth := ⟨150, .c, 5, 50, .timed, 20000⟩, sefEnable := true, sefPickup := 10, sefDelay := 1000,
      sefDirectional := true, shots := 0, dead1 := none, dead2 := none, dead3 := none, dead4 := none,
      reclaim := 60000, permitPhase := false, permitHighSet := false, permitEarth := false, permitSef := false }

/-- The default commissioning record of a feeder (R47). -/
def defaultCommissioning (f : Feeder) : Commissioning :=
  { fitted := false, district := .d1, fireBlock := .l2, trialPriority := f.number, huntExclude := false, tripConfirm := 150,
    closeConfirm := 300 }

/-- The default hunt record of a level (R49). -/
def defaultHunt : Level → HuntSettings
  | .l0 => ⟨100, 20, 10000, true, 10, 20, 200, 2000, true, 2000⟩
  | .l1 => ⟨80, 20, 5000, true, 10, 15, 200, 2000, true, 2000⟩
  | .l2 => ⟨60, 15, 3000, true, 10, 10, 200, 2000, true, 2000⟩
  | .l3 => ⟨50, 15, 2000, true, 10, 10, 200, 2000, false, 2000⟩

/-- The default user curves: U1 is curve A and U2 curve B, with breakpoints 11 and 12 each m 640 and t 10 (R50). -/
def defaultCurve : UserCurveName → UserCurve
  | .u1 => { count := 10, points := curveA ++ [⟨640, 10⟩, ⟨640, 10⟩] }
  | .u2 => { count := 10, points := curveB ++ [⟨640, 10⟩, ⟨640, 10⟩] }

/-! ### Setting a field by its number (R55, R192) -/

/-- A value that is yes or no: 1 or 0 (R192). -/
def asFlag : Nat → Option Bool
  | 0 => some false
  | 1 => some true
  | _ => none

/-- A number within a range, or none (RANGE; a value is never clamped, R55). -/
def asWithin (lo hi v : Nat) : Option Nat := if within lo hi v then some v else none

/-- A curve by its code (R193). -/
def Curve.ofCode : Nat → Option Curve
  | 0 => some .a | 1 => some .b | 2 => some .c | 3 => some .u1 | 4 => some .u2 | _ => none

/-- The code of a curve (R193). -/
def Curve.code : Curve → Nat
  | .a => 0 | .b => 1 | .c => 2 | .u1 => 3 | .u2 => 4

/-- The code of a user curve's name, as a curve (R193). -/
def UserCurveName.code : UserCurveName → Nat
  | .u1 => 3 | .u2 => 4

/-- A reset mode by its code (R193). -/
def ResetMode.ofCode : Nat → Option ResetMode
  | 0 => some .instant | 1 => some .timed | _ => none

/-- The code of a reset mode (R193). -/
def ResetMode.code : ResetMode → Nat
  | .instant => 0 | .timed => 1

/-- A fire block level by its code: 1 to 3, and 255 for NEVER (R191, R192). -/
def FireBlock.ofCode : Nat → Option FireBlock
  | 1 => some .l1 | 2 => some .l2 | 3 => some .l3 | 255 => some .never | _ => none

/-- The code of a fire block level (R191). -/
def FireBlock.code : FireBlock → Nat
  | .l1 => 1 | .l2 => 2 | .l3 => 3 | .never => 255

/-- A protect mode by its code (R193). -/
def ProtectMode.ofCode : Nat → Option ProtectMode
  | 0 => some .open_ | 1 => some .pin | 2 => some .networkOnly | _ => none

/-- The code of a protect mode (R193). -/
def ProtectMode.code : ProtectMode → Nat
  | .open_ => 0 | .pin => 1 | .networkOnly => 2

/-- A dead time by its number: 0 is UNSET (R192). -/
def asDeadTime (v : Nat) : Option (Option Nat) :=
  if v = 0 then some none else (asWithin 200 180000 v).map some

/-- The IDMT settings with field `no` of 1 to 6 set (fields 1 to 6 and, six further on from 11, the earth fields; R45). -/
def IdmtSettings.setField (pickupLo pickupHi : Nat) (i : IdmtSettings) (no v : Nat) : Option IdmtSettings :=
  match no with
  | 1 => (asWithin pickupLo pickupHi v).map fun x => { i with pickup := x }
  | 2 => (Curve.ofCode v).map fun x => { i with curve := x }
  | 3 => (asWithin 5 200 v).map fun x => { i with tms := x }
  | 4 => (asWithin 0 10000 v).map fun x => { i with minTime := x }
  | 5 => (ResetMode.ofCode v).map fun x => { i with resetMode := x }
  | 6 => (asWithin 100 60000 v).map fun x => { i with resetTime := x }
  | _ => none

/-- The group record with one field set by its number (R45, R55). -/
def Group.setField (g : Group) (no v : Nat) : Option Group :=
  match no with
  | 7 => (asFlag v).map fun x => { g with highSetEnable := x }
  | 8 => (asWithin 500 60000 v).map fun x => { g with highSetPickup := x }
  | 9 => (asWithin 0 2000 v).map fun x => { g with highSetDelay := x }
  | 10 => (asFlag v).map fun x => { g with earthEnable := x }
  | 17 => (asFlag v).map fun x => { g with sefEnable := x }
  | 18 => (asWithin 2 500 v).map fun x => { g with sefPickup := x }
  | 19 => (asWithin 100 60000 v).map fun x => { g with sefDelay := x }
  | 20 => (asFlag v).map fun x => { g with sefDirectional := x }
  | 21 => (asWithin 0 4 v).map fun x => { g with shots := x }
  | 22 => (asDeadTime v).map fun x => { g with dead1 := x }
  | 23 => (asDeadTime v).map fun x => { g with dead2 := x }
  | 24 => (asDeadTime v).map fun x => { g with dead3 := x }
  | 25 => (asDeadTime v).map fun x => { g with dead4 := x }
  | 26 => (asWithin 1000 300000 v).map fun x => { g with reclaim := x }
  | 27 => (asFlag v).map fun x => { g with permitPhase := x }
  | 28 => (asFlag v).map fun x => { g with permitHighSet := x }
  | 29 => (asFlag v).map fun x => { g with permitEarth := x }
  | 30 => (asFlag v).map fun x => { g with permitSef := x }
  | n =>
    if within 1 6 n then (g.phase.setField 100 20000 n v).map fun x => { g with phase := x }
    else if within 11 16 n then (g.earth.setField 10 5000 (n - 10) v).map fun x => { g with earth := x }
    else none

/-- The commissioning record with one field set by its number (R47, R55). -/
def Commissioning.setField (c : Commissioning) (no v : Nat) : Option Commissioning :=
  match no with
  | 1 => (asFlag v).map fun x => { c with fitted := x }
  | 2 => (District.ofNumber v).map fun x => { c with district := x }
  | 3 => (FireBlock.ofCode v).map fun x => { c with fireBlock := x }
  | 4 => (asWithin 1 6 v).map fun x => { c with trialPriority := x }
  | 5 => (asFlag v).map fun x => { c with huntExclude := x }
  | 6 => (asWithin 40 500 v).map fun x => { c with tripConfirm := x }
  | 7 => (asWithin 60 1000 v).map fun x => { c with closeConfirm := x }
  | _ => none

/-- The hunt record with one field set by its number (R49, R55). -/
def HuntSettings.setField (h : HuntSettings) (no v : Nat) : Option HuntSettings :=
  match no with
  | 1 => (asWithin 20 500 v).map fun x => { h with vnPickup := x }
  | 2 => (asWithin 5 100 v).map fun x => { h with hysteresis := x }
  | 3 => (asWithin 500 60000 v).map fun x => { h with detectTime := x }
  | 4 => (asFlag v).map fun x => { h with identifyEnable := x }
  | 5 => (asWithin 5 50 v).map fun x => { h with identifyWindow := x }
  | 6 => (asWithin 2 500 v).map fun x => { h with identifyThreshold := x }
  | 7 => (asWithin 150 1000 v).map fun x => { h with identifyRatio := x }
  | 8 => (asWithin 200 10000 v).map fun x => { h with confirmTime := x }
  | 9 => (asFlag v).map fun x => { h with trialEnable := x }
  | 10 => (asWithin 200 10000 v).map fun x => { h with trialWatchTime := x }
  | _ => none

/-- The user curve record with one field set by its number: 1 the count, 2k the m and 2k + 1 the t of breakpoint k (R50). -/
def UserCurve.setField (u : UserCurve) (no v : Nat) : Option UserCurve :=
  if no = 1 then (asWithin 4 12 v).map fun x => { u with count := x }
  else if within 2 25 no then
    let k := no / 2 - 1
    if no % 2 = 0 then
      (asWithin 17 640 v).map fun x => { u with points := u.points.modify k fun p => { p with m := x } }
    else
      (asWithin 10 600000 v).map fun x => { u with points := u.points.modify k fun p => { p with t := x } }
  else none

/-- The content of an edit buffer with one field set by its number; none is RANGE (R55). -/
def RecordContent.setField (c : RecordContent) (no v : Nat) : Option RecordContent :=
  match c with
  | .group g => (g.setField no v).map .group
  | .commissioning x => (x.setField no v).map .commissioning
  | .hunt h => (h.setField no v).map .hunt
  | .userCurve u => (u.setField no v).map .userCurve
  | _ => none

/-! ### Layouts (R191 to R193) -/

/-- The six fields of an IDMT element in order. -/
def IdmtSettings.bytes (i : IdmtSettings) : List Byte :=
  be2 i.pickup ++ be1 i.curve.code ++ be1 i.tms ++ be2 i.minTime ++ be1 i.resetMode.code ++ be2 i.resetTime

/-- A dead time in a read: 4 bytes (R191). UNSET is sent as 0 with no presence byte, as SET_FIELD spells it (R192; DESIGN CHOICE, log 54). -/
def deadTimeBytes (d : Option Nat) : List Byte := be4 (d.getD 0)

/-- The thirty fields of a group record in order (R45, R191). -/
def Group.bytes (g : Group) : List Byte :=
  g.phase.bytes ++ beFlag g.highSetEnable ++ be2 g.highSetPickup ++ be2 g.highSetDelay ++ beFlag g.earthEnable ++
  g.earth.bytes ++ beFlag g.sefEnable ++ be2 g.sefPickup ++ be2 g.sefDelay ++ beFlag g.sefDirectional ++ be1 g.shots ++
  deadTimeBytes g.dead1 ++ deadTimeBytes g.dead2 ++ deadTimeBytes g.dead3 ++ deadTimeBytes g.dead4 ++ be4 g.reclaim ++
  beFlag g.permitPhase ++ beFlag g.permitHighSet ++ beFlag g.permitEarth ++ beFlag g.permitSef

/-- The seven fields of a commissioning record in order (R47, R191). -/
def Commissioning.bytes (c : Commissioning) : List Byte :=
  beFlag c.fitted ++ be1 c.district.number ++ be1 c.fireBlock.code ++ be1 c.trialPriority ++ beFlag c.huntExclude ++
  be2 c.tripConfirm ++ be2 c.closeConfirm

/-- The ten fields of a hunt record in order (R49, R191). -/
def HuntSettings.bytes (h : HuntSettings) : List Byte :=
  be2 h.vnPickup ++ be1 h.hysteresis ++ be2 h.detectTime ++ beFlag h.identifyEnable ++ be1 h.identifyWindow ++
  be2 h.identifyThreshold ++ be2 h.identifyRatio ++ be2 h.confirmTime ++ beFlag h.trialEnable ++ be2 h.trialWatchTime

/-- A breakpoint: m, then t. -/
def Breakpoint.bytes (b : Breakpoint) : List Byte := be2 b.m ++ be4 b.t

/-- The fields of a user curve record in order (R50, R191). -/
def UserCurve.bytes (u : UserCurve) : List Byte := be1 u.count ++ u.points.flatMap Breakpoint.bytes

/-- The code of a port as a holder, owner or role (R193). -/
def portCode : Port → Nat
  | .network => 1 | .panel => 2 | .crew => 3

/-- A holder of a port claim by its code (R193). -/
def portOfCode : Nat → Option Port
  | 1 => some .network | 2 => some .panel | 3 => some .crew | _ => none

/-- One entry of the persisted claim record (R52, R191). -/
def PersistedClaim.bytes (p : PersistedClaim) : List Byte :=
  be1 p.feeder.number ++ be1 (portCode p.holder) ++ beOpt be2 p.tag ++ be1 p.reason

/-- The content of a record in its fields' order (R67, R191). -/
def RecordContent.bytes : RecordContent → List Byte
  | .group g => g.bytes
  | .commissioning c => c.bytes
  | .hunt h => h.bytes
  | .userCurve u => u.bytes
  | .level l => be1 l.number
  | .protectMode m => be1 m.code
  | .claims cs => beList PersistedClaim.bytes cs

/-- The code of a record's kind (R193). -/
def RecordName.kindCode : RecordName → Nat
  | .group _ _ => 0
  | .commissioning _ => 1
  | .hunt _ => 2
  | .userCurve _ => 3
  | .seasonFloor _ => 4
  | .banLevel _ => 5
  | .protectMode => 6
  | .claims => 7

/-- The three bytes of a record name (R192). -/
def RecordName.bytes (r : RecordName) : List Byte :=
  be1 r.kindCode ++
  match r with
  | .group f l => be1 f.number ++ be1 l.number
  | .commissioning f => be1 f.number ++ be1 0
  | .hunt l => be1 0 ++ be1 l.number
  | .userCurve u => be1 u.code ++ be1 0
  | .seasonFloor d => be1 d.number ++ be1 0
  | .banLevel d => be1 d.number ++ be1 0
  | .protectMode => be1 0 ++ be1 0
  | .claims => be1 0 ++ be1 0

/-- The record that three bytes name, or none (RANGE): kind; feeder, district or curve; level; a byte a kind does not use
is 0 (R192). -/
def RecordName.ofNumbers (kind second third : Nat) : Option RecordName :=
  match kind with
  | 0 =>
    match Feeder.ofNumber second, Level.ofNumber third with
    | some f, some l => some (.group f l)
    | _, _ => none
  | 1 => if third = 0 then (Feeder.ofNumber second).map .commissioning else none
  | 2 => if second = 0 then (Level.ofNumber third).map .hunt else none
  | 3 =>
    if third = 0 then
      if second = 3 then some (.userCurve .u1) else if second = 4 then some (.userCurve .u2) else none
    else none
  | 4 => if third = 0 then (District.ofNumber second).map .seasonFloor else none
  | 5 => if third = 0 then (District.ofNumber second).map .banLevel else none
  | 6 => if second = 0 ∧ third = 0 then some .protectMode else none
  | 7 => if second = 0 ∧ third = 0 then some .claims else none
  | _ => none

/-- The record is of one of the four kinds changed through the edit buffer (R53). -/
def RecordName.editable : RecordName → Bool
  | .group _ _ => true
  | .commissioning _ => true
  | .hunt _ => true
  | .userCurve _ => true
  | _ => false

/-- The feeder a record is of, if it is a feeder's. -/
def RecordName.feeder? : RecordName → Option Feeder
  | .group f _ => some f
  | .commissioning f => some f
  | _ => none

/-- The district of a season floor or ban level. -/
def RecordName.district? : RecordName → Option District
  | .seasonFloor d => some d
  | .banLevel d => some d
  | _ => none

/-- The level of a group or hunt record. -/
def RecordName.level? : RecordName → Option Level
  | .group _ l => some l
  | .hunt l => some l
  | _ => none

/-- The curve of a user curve record. -/
def RecordName.curve? : RecordName → Option UserCurveName
  | .userCurve u => some u
  | _ => none

end Sys2Proof.Machine
end

