-- ==== Sys2Proof/Config.lean ====
section
/-! DEFINITION. What one part fixes, and the values the manual leaves open: constants with no body, so that every claim holds
whatever they are. -/
namespace Sys2Proof.Config

/-- One less than the hardware revision that IDENTIFY returns, 1 to 255 (R188). Each part fixes it; the manual gives no
value (DESIGN CHOICE, log 4). -/
opaque hardwareRevisionLessOne : Fin 255

/-- The hardware revision, 1 to 255 (R188). -/
def hardwareRevision : Nat := hardwareRevisionLessOne.val + 1

/-- What READ_RECORD of the persisted claim record lists while its written copy is torn: the manual gives the list "as last
written" (R67) and no content for a copy whose write was ended (R64). A free value, one for each read (DESIGN CHOICE, log 5). -/
opaque tornClaims : Nat → List Machine.PersistedClaim

/-- The low two bits of the crew port's address are those of the strap pins; the others are fixed (R188, section 9.3). -/
def crewAddressBase : BitVec 7 := 0x58#7

end Sys2Proof.Config
end

