-- ==== Sys2Proof/Machine/Events.lean ====
section
/-! DEFINITION. The named values that the blocks share, the entries of the event queues, and their layouts
(chapter 10, R193, R194, R195). -/
namespace Sys2Proof.Machine

/-! ### Named values -/

/-- The cause of a start-up (R16, R187). -/
inductive StartCause where
  | powerOn | reset | restart
  deriving DecidableEq, Repr

/-- The code of a start cause: its place in the list of READ_PART (R187, R193). -/
def StartCause.code : StartCause → Nat
  | .powerOn => 0 | .reset => 1 | .restart => 2

/-- The four elements of a feeder (R18). -/
inductive ElementName where
  | phaseIdmt | highSet | earthIdmt | sef
  deriving DecidableEq, Repr

/-- The code of an element (R193). -/
def ElementName.code : ElementName → Nat
  | .phaseIdmt => 0 | .highSet => 1 | .earthIdmt => 2 | .sef => 3

/-- The position of a breaker (R11). -/
inductive Position where
  | closed | opened | transit | invalid
  deriving DecidableEq, Repr

/-- The code of a position (R193). -/
def Position.code : Position → Nat
  | .closed => 0 | .opened => 1 | .transit => 2 | .invalid => 3

/-- The two kinds of position fault (R12, R13). -/
inductive FaultKind where
  | invalid | transit
  deriving DecidableEq, Repr

/-- The code of a fault kind in a POSITION_FAULT entry: its place in the list (INVALID, TRANSIT) of R195 (DEDUCED, log 22). -/
def FaultKind.code : FaultKind → Nat
  | .invalid => 0 | .transit => 1

/-- The kind of a switching operation. -/
inductive OpKind where
  | trip | close
  deriving DecidableEq, Repr

/-- The code of an operation kind (R193). -/
def OpKind.code : OpKind → Nat
  | .trip => 0 | .close => 1

/-- Who asked for a switching operation. -/
inductive Origin where
  | protection | reclose | hunt | port (p : Port)
  deriving DecidableEq, Repr

/-- The code of an origin (R193). -/
def Origin.code : Origin → Nat
  | .protection => 0 | .reclose => 1 | .hunt => 2 | .port .network => 3 | .port .panel => 4 | .port .crew => 5

/-- The outcome of a completed operation. -/
inductive OpOutcome where
  | done | already | failed | superseded
  deriving DecidableEq, Repr

/-- The code of an outcome (R193). -/
def OpOutcome.code : OpOutcome → Nat
  | .done => 0 | .already => 1 | .failed => 2 | .superseded => 3

/-- Why a switching request was refused to a block or a port (R106, R109, R110, R193). -/
inductive RefusalReason where
  | held | state | busy | blocked
  deriving DecidableEq, Repr

/-- The code of a refusal reason (R193). -/
def RefusalReason.code : RefusalReason → Nat
  | .held => 0 | .state => 1 | .busy => 2 | .blocked => 3

/-- The kinds of claim (chapter 5). -/
inductive ClaimKind where
  | noReclose | holdOpen
  deriving DecidableEq, Repr

/-- The code of a claim kind (R193). -/
def ClaimKind.code : ClaimKind → Nat
  | .noReclose => 0 | .holdOpen => 1

/-- A claim kind by its code (R193). -/
def ClaimKind.ofCode : Nat → Option ClaimKind
  | 0 => some .noReclose | 1 => some .holdOpen | _ => none

/-- The five system claims of a feeder (section 5.6). -/
inductive SystemClaim where
  | fire | hunt | measure | breaker | store
  deriving DecidableEq, Repr

/-- The code of a system claim's name (R193). -/
def SystemClaim.code : SystemClaim → Nat
  | .fire => 0 | .hunt => 1 | .measure => 2 | .breaker => 3 | .store => 4

/-- The system claims in the order of R127. -/
def SystemClaim.all : List SystemClaim := [.fire, .hunt, .measure, .breaker, .store]

/-- The kind of a system claim (section 5.6). -/
def SystemClaim.kind : SystemClaim → ClaimKind
  | .store => .holdOpen
  | _ => .noReclose

/-- The states of a reclose sequencer (section 7.1). -/
inductive ArState where
  | starting | ready | deadTime | closing | reclaim | lockout | openManual | outOfService
  deriving DecidableEq, Repr

/-- The code of an AR state (R193). -/
def ArState.code : ArState → Nat
  | .starting => 0 | .ready => 1 | .deadTime => 2 | .closing => 3 | .reclaim => 4 | .lockout => 5 | .openManual => 6
  | .outOfService => 7

/-- The causes of AR_STATE and LOCKOUT, in the order of the table of R142. -/
inductive ArCause where
  | startPosition | commission | protectionTrip | noPermit | noShots | blocked | tripOutsideSequence | claim | shotsReduced
  | deadTimeExpired | reclosed | closeRefused | closeFailed | reclaimExpired | manualTrip | tripFailed | closedByRequest
  | externalOpen | externalClose
  deriving DecidableEq, Repr

/-- The code of a cause: its place in the table of R142 (R193). -/
def ArCause.code : ArCause → Nat
  | .startPosition => 0 | .commission => 1 | .protectionTrip => 2 | .noPermit => 3 | .noShots => 4 | .blocked => 5
  | .tripOutsideSequence => 6 | .claim => 7 | .shotsReduced => 8 | .deadTimeExpired => 9 | .reclosed => 10
  | .closeRefused => 11 | .closeFailed => 12 | .reclaimExpired => 13 | .manualTrip => 14 | .tripFailed => 15
  | .closedByRequest => 16 | .externalOpen => 17 | .externalClose => 18

/-- The states of the displacement detector (section 8.1). -/
inductive DetectorState where
  | quiet | timing | detected | unresolved
  deriving DecidableEq, Repr

/-- The code of a detector state: its place in the table of section 8.1 (R193). -/
def DetectorState.code : DetectorState → Nat
  | .quiet => 0 | .timing => 1 | .detected => 2 | .unresolved => 3

/-- The states of the hunt (section 8.2). -/
inductive HuntState where
  | idle | identify | isolate | confirm | trialOpen | trialWatch | trialRestore | suspended
  deriving DecidableEq, Repr

/-- The code of a hunt state: its place in the table of section 8.2 (R193). -/
def HuntState.code : HuntState → Nat
  | .idle => 0 | .identify => 1 | .isolate => 2 | .confirm => 3 | .trialOpen => 4 | .trialWatch => 5 | .trialRestore => 6
  | .suspended => 7

/-- The cause of a hunt. -/
inductive HuntCause where
  | detected | requested
  deriving DecidableEq, Repr

/-- The code of a hunt cause (R193). -/
def HuntCause.code : HuntCause → Nat
  | .detected => 0 | .requested => 1

/-- Where a suspended hunt resumes. -/
inductive ResumePoint where
  | identify | trialEntry | nextCandidate
  deriving DecidableEq, Repr

/-- The code of a resume point (R193). -/
def ResumePoint.code : ResumePoint → Nat
  | .identify => 0 | .trialEntry => 1 | .nextCandidate => 2

/-- The results of a hunt (section 8.6). -/
inductive HuntResult where
  | foundIdentified | foundByTrial | clearedSpontaneous | clearedByProtection | notFound | abortedRequest | abortedLink
  deriving DecidableEq, Repr

/-- The code of a hunt result: its place in the table of section 8.6 (R193). -/
def HuntResult.code : HuntResult → Nat
  | .foundIdentified => 0 | .foundByTrial => 1 | .clearedSpontaneous => 2 | .clearedByProtection => 3 | .notFound => 4
  | .abortedRequest => 5 | .abortedLink => 6

/-- The isolate outcome of an identified feeder, in the order of R171. -/
inductive IsolateOutcome where
  | found | misidentified | opened | tripFailed | skippedLocked | skippedOpen | notOpen
  deriving DecidableEq, Repr

/-- The code of an isolate outcome: its place in the list of R171 (R193). -/
def IsolateOutcome.code : IsolateOutcome → Nat
  | .found => 0 | .misidentified => 1 | .opened => 2 | .tripFailed => 3 | .skippedLocked => 4 | .skippedOpen => 5
  | .notOpen => 6

/-- The end restore outcome of an identified feeder, in the order of R171. -/
inductive EndRestore where
  | healthyRestored | stranded | notNeeded
  deriving DecidableEq, Repr

/-- The code of an end restore outcome: its place in the list of R171 (R193). -/
def EndRestore.code : EndRestore → Nat
  | .healthyRestored => 0 | .stranded => 1 | .notNeeded => 2

/-- The outcome of a candidate, in the order of R171. -/
inductive CandidateOutcome where
  | notTried | skippedLocked | skippedOpen | skippedBlocked | tripFailed | healthyRestored | stranded | found
  deriving DecidableEq, Repr

/-- The code of a candidate's outcome: its place in the list of R171 (R193). -/
def CandidateOutcome.code : CandidateOutcome → Nat
  | .notTried => 0 | .skippedLocked => 1 | .skippedOpen => 2 | .skippedBlocked => 3 | .tripFailed => 4 | .healthyRestored => 5
  | .stranded => 6 | .found => 7

/-- One entry of the candidate list: a feeder and its outcome (R156). -/
structure Candidate where
  feeder : Feeder
  outcome : CandidateOutcome
  deriving DecidableEq, Repr

/-- The identified feeder with its isolate outcome and its end restore outcome (R151, R163). -/
structure Identified where
  feeder : Feeder
  isolate : IsolateOutcome
  endRestore : Option EndRestore
  deriving DecidableEq, Repr

/-- The last hunt record (R171). -/
structure HuntReport where
  cause : HuntCause
  startTime : Nat
  endTime : Nat
  level : Level
  sums : Option (PerFeeder Nat)
  identified : Option Identified
  candidates : Option (List Candidate)
  result : HuntResult
  found : Option Feeder
  deriving DecidableEq, Repr

/-- The holder of a switching lock in an entry or a read (R193). -/
inductive Holder where
  | nobody | port (p : Port) | hunt
  deriving DecidableEq, Repr

/-- The code of a holder (R193). -/
def Holder.code : Holder → Nat
  | .nobody => 0
  | .port p => portCode p
  | .hunt => 4

/-- The last end position of a breaker (section 6.5). -/
inductive LastEnd where
  | closed | opened | unknown
  deriving DecidableEq, Repr

/-- The code of a last end position (R193). -/
def LastEnd.code : LastEnd → Nat
  | .closed => 0 | .opened => 1 | .unknown => 2

/-! ### Event entries -/

/-- The cause of MEAS_LOST. -/
inductive MeasLostCause where
  | records | link
  deriving DecidableEq, Repr

/-- The movement of BREAKER_EXTERNAL. -/
inductive Movement where
  | opened | closed
  deriving DecidableEq, Repr

/-- The cause of SETTINGS_APPLIED; RAISE and LOWER are also the causes of APPLIED_LEVEL. -/
inductive ApplyCause where
  | raise | lower | commit | commission
  deriving DecidableEq, Repr

/-- The cause of CLAIM_RELEASED (R100). -/
inductive ReleaseCause where
  | released | expired | forced | cleared
  deriving DecidableEq, Repr

/-- The cause of LOCK_CHANGE. -/
inductive LockCause where
  | taken | dropped | expired | cleared
  deriving DecidableEq, Repr

/-- The claim that an entry names: a system claim, or a port claim with its fields (R100). -/
inductive ClaimInfo where
  | system (name : SystemClaim)
  | port (kind : ClaimKind) (holder : Port) (tag : Option Nat) (reason : Nat) (expiry : Option Nat)
  deriving DecidableEq, Repr

/-- The last trip record of a feeder (R37). -/
structure TripRecord where
  elements : List ElementName
  ia : Nat
  ib : Nat
  ic : Nat
  residual : Nat
  level : Level
  shot : Nat
  permitted : Bool
  time : Nat
  deriving DecidableEq, Repr

/-- The optional fields of a HUNT_STATE entry (R195): Vn of the frame, the hunt level, the hunt cause, s1, s2 and the feeder
of s1, the candidate list, and the resume point. -/
structure HuntDetail where
  level : Option Level := none
  vn : Option Nat := none
  cause : Option HuntCause := none
  sums : Option (Nat × Nat × Option Feeder) := none
  candidates : Option (List Candidate) := none
  resume : Option ResumePoint := none
  deriving DecidableEq, Repr

/-- The optional fields of a LOCKOUT entry (R141, R195). -/
structure LockoutDetail where
  claim : Option ClaimInfo := none
  opId : Option Nat := none
  reason : Option RefusalReason := none
  deriving DecidableEq, Repr

/-- What an event entry reports: its kind with its feeder, district and detail (R195). -/
inductive Event where
  | start (cause : StartCause)
  | trip (f : Feeder) (r : TripRecord)
  | lockout (f : Feeder) (cause : ArCause) (shotsUsed : Nat) (detail : LockoutDetail)
  | arState (f : Feeder) (old new : ArState) (shotsUsed : Nat) (shot deadline : Option Nat) (cause : ArCause)
  | breakerFail (f : Feeder) (opId : Nat) (kind : OpKind) (requesters : List Origin) (position : Position)
  | positionFault (f : Feeder) (kind : FaultKind)
  | breakerExternal (f : Feeder) (movement : Movement) (opId : Option Nat) (outcome : Option OpOutcome)
  | linkLost (lastFrame : Option Nat)
  | linkRestored (sequence : Nat)
  | measLost (f : Feeder) (cause : MeasLostCause)
  | measRestored (f : Feeder)
  | fireTarget (d : District) (old new network panel ban floor : Level) (counted : Bool)
  | appliedLevel (f : Feeder) (old new : Level) (cause : ApplyCause)
  | settingsApplied (f : Feeder) (level : Level) (cause : ApplyCause)
  | claimPlaced (f : Feeder) (claim : ClaimInfo)
  | claimReleased (f : Feeder) (claim : ClaimInfo) (cause : ReleaseCause)
  | lockChange (f : Feeder) (old new : Holder) (cause : LockCause)
  | huntState (oldDetector newDetector : DetectorState) (oldHunt newHunt : HuntState) (detectorLevel : Level)
      (detail : HuntDetail)
  | huntResult (r : HuntReport)
  | storeDefaulted (r : RecordName)
  | opDone (f : Feeder) (opId : Nat) (kind : OpKind) (origin : Origin) (requesters : List Origin) (outcome : OpOutcome)
      (started completed : Nat) (superseding : Option (Nat × Origin))
  | editExpired (r : RecordName)
  | overflow
  deriving DecidableEq, Repr

/-- One entry of an event queue: the part time at which it was placed, and what it reports (R195). -/
structure EventEntry where
  time : Nat
  event : Event
  deriving DecidableEq, Repr

/-! ### Layouts -/

/-- The code of a MEAS_LOST cause. -/
def MeasLostCause.code : MeasLostCause → Nat
  | .records => 0 | .link => 1

/-- The code of a movement. -/
def Movement.code : Movement → Nat
  | .opened => 0 | .closed => 1

/-- The code of a SETTINGS_APPLIED or APPLIED_LEVEL cause. -/
def ApplyCause.code : ApplyCause → Nat
  | .raise => 0 | .lower => 1 | .commit => 2 | .commission => 3

/-- The code of a CLAIM_RELEASED cause. -/
def ReleaseCause.code : ReleaseCause → Nat
  | .released => 0 | .expired => 1 | .forced => 2 | .cleared => 3

/-- The code of a LOCK_CHANGE cause. -/
def LockCause.code : LockCause → Nat
  | .taken => 0 | .dropped => 1 | .expired => 2 | .cleared => 3

/-- The fields of CLAIM_PLACED in order (R195): the system claim name, the kind, the holder, the tag, the reason and the expiry,
all but the kind optional. -/
def ClaimInfo.bytes : ClaimInfo → List Byte
  | .system n => beOpt be1 (some n.code) ++ be1 n.kind.code ++ be1 0 ++ be1 0 ++ be1 0 ++ be1 0
  | .port k h tag reason expiry =>
    be1 0 ++ be1 k.code ++ beOpt be1 (some (portCode h)) ++ beOpt be2 tag ++ beOpt be1 (some reason) ++ beOpt be6 expiry

/-- The fields of a trip record in order (R37, R195). -/
def TripRecord.bytes (r : TripRecord) : List Byte :=
  beList (fun e : ElementName => be1 e.code) r.elements ++ be2 r.ia ++ be2 r.ib ++ be2 r.ic ++ be2 r.residual ++
  be1 r.level.number ++ be1 r.shot ++ beFlag r.permitted ++ be6 r.time

/-- A candidate: its feeder, then its outcome. -/
def Candidate.bytes (c : Candidate) : List Byte := be1 c.feeder.number ++ be1 c.outcome.code

/-- The identified feeder: the feeder, its isolate outcome, its end restore outcome (R171). -/
def Identified.bytes (i : Identified) : List Byte :=
  be1 i.feeder.number ++ be1 i.isolate.code ++ beOpt (fun e : EndRestore => be1 e.code) i.endRestore

/-- Six sums, F1 to F6, four bytes each (R191). -/
def sumsBytes (x : PerFeeder Nat) : List Byte := x.toList.flatMap be4

/-- The fields of the last hunt record in the order of R171. -/
def HuntReport.bytes (r : HuntReport) : List Byte :=
  be1 r.cause.code ++ be6 r.startTime ++ be6 r.endTime ++ be1 r.level.number ++ beOpt sumsBytes r.sums ++
  beOpt Identified.bytes r.identified ++ beOpt (beList Candidate.bytes) r.candidates ++ be1 r.result.code ++
  beOpt (fun f : Feeder => be1 f.number) r.found

/-- The origins of a requester list. -/
def originsBytes (xs : List Origin) : List Byte := beList (fun o : Origin => be1 o.code) xs

/-- s1, s2 and the feeder of s1, which is absent when no feeder is fitted (R151). -/
def windowSumsBytes (x : Nat × Nat × Option Feeder) : List Byte :=
  be4 x.1 ++ be4 x.2.1 ++ beOpt (fun f : Feeder => be1 f.number) x.2.2

/-- The record fields of STORE_DEFAULTED and EDIT_EXPIRED: the kind, the level and the curve (R195). -/
def recordDetail (r : RecordName) : List Byte :=
  be1 r.kindCode ++ beOpt (fun l : Level => be1 l.number) r.level? ++ beOpt (fun u : UserCurveName => be1 u.code) r.curve?

/-- The kind code of an entry (section 9.8). -/
def Event.kindCode : Event → Nat
  | .start _ => 0x01
  | .trip _ _ => 0x02
  | .lockout _ _ _ _ => 0x03
  | .arState _ _ _ _ _ _ _ => 0x04
  | .breakerFail _ _ _ _ _ => 0x05
  | .positionFault _ _ => 0x06
  | .breakerExternal _ _ _ _ => 0x07
  | .linkLost _ => 0x08
  | .linkRestored _ => 0x09
  | .measLost _ _ => 0x0A
  | .measRestored _ => 0x0B
  | .fireTarget _ _ _ _ _ _ _ _ => 0x0C
  | .appliedLevel _ _ _ _ => 0x0D
  | .settingsApplied _ _ _ => 0x0E
  | .claimPlaced _ _ => 0x0F
  | .claimReleased _ _ _ => 0x10
  | .lockChange _ _ _ _ => 0x11
  | .huntState _ _ _ _ _ _ => 0x12
  | .huntResult _ => 0x13
  | .storeDefaulted _ => 0x14
  | .opDone _ _ _ _ _ _ _ _ _ => 0x15
  | .editExpired _ => 0x16
  | .overflow => 0x17

/-- The feeder field of an entry (R195). -/
def Event.feeder? : Event → Option Feeder
  | .start _ => none
  | .trip f _ => some f
  | .lockout f _ _ _ => some f
  | .arState f _ _ _ _ _ _ => some f
  | .breakerFail f _ _ _ _ => some f
  | .positionFault f _ => some f
  | .breakerExternal f _ _ _ => some f
  | .linkLost _ => none
  | .linkRestored _ => none
  | .measLost f _ => some f
  | .measRestored f => some f
  | .fireTarget _ _ _ _ _ _ _ _ => none
  | .appliedLevel f _ _ _ => some f
  | .settingsApplied f _ _ => some f
  | .claimPlaced f _ => some f
  | .claimReleased f _ _ => some f
  | .lockChange f _ _ _ => some f
  | .huntState _ _ _ _ _ _ => none
  | .huntResult _ => none
  | .storeDefaulted r => r.feeder?
  | .opDone f _ _ _ _ _ _ _ _ => some f
  | .editExpired r => r.feeder?
  | .overflow => none

/-- The district field of an entry: FIRE_TARGET, and STORE_DEFAULTED of a floor or ban level (R195). -/
def Event.district? : Event → Option District
  | .fireTarget d _ _ _ _ _ _ _ => some d
  | .storeDefaulted r => r.district?
  | _ => none

/-- The detail of an entry, its fields in the order of R195. -/
def Event.detail : Event → List Byte
  | .start c => be1 c.code
  | .trip _ r => r.bytes
  | .lockout _ cause shots d =>
    be1 cause.code ++ be1 shots ++ beOpt ClaimInfo.bytes d.claim ++ beOpt be2 d.opId ++
    beOpt (fun r : RefusalReason => be1 r.code) d.reason
  | .arState _ old new shots shot deadline cause =>
    be1 old.code ++ be1 new.code ++ be1 shots ++ beOpt be1 shot ++ beOpt be6 deadline ++ be1 cause.code
  | .breakerFail _ id kind reqs pos => be2 id ++ be1 kind.code ++ originsBytes reqs ++ be1 pos.code
  | .positionFault _ k => be1 k.code
  | .breakerExternal _ m id o => be1 m.code ++ beOpt be2 id ++ beOpt (fun x : OpOutcome => be1 x.code) o
  | .linkLost t => beOpt be6 t
  | .linkRestored n => be1 n
  | .measLost _ c => be1 c.code
  | .measRestored _ => []
  | .fireTarget _ old new net panel ban floor counted =>
    be1 old.number ++ be1 new.number ++ be1 net.number ++ be1 panel.number ++ be1 ban.number ++ be1 floor.number ++
    beFlag counted
  | .appliedLevel _ old new cause => be1 old.number ++ be1 new.number ++ be1 cause.code
  | .settingsApplied _ l cause => be1 l.number ++ be1 cause.code
  | .claimPlaced _ c => c.bytes
  | .claimReleased _ c cause => c.bytes ++ be1 cause.code
  | .lockChange _ old new cause => be1 old.code ++ be1 new.code ++ be1 cause.code
  | .huntState od nd oh nh dl x =>
    be1 od.code ++ be1 nd.code ++ be1 oh.code ++ be1 nh.code ++ be1 dl.number ++ beOpt (fun l : Level => be1 l.number) x.level ++
    beOpt be2 x.vn ++ beOpt (fun c : HuntCause => be1 c.code) x.cause ++ beOpt windowSumsBytes x.sums ++
    beOpt (beList Candidate.bytes) x.candidates ++ beOpt (fun r : ResumePoint => be1 r.code) x.resume
  | .huntResult r => r.bytes
  | .storeDefaulted r => recordDetail r
  | .opDone _ id kind origin reqs outcome started completed sup =>
    be2 id ++ be1 kind.code ++ be1 origin.code ++ originsBytes reqs ++ be1 outcome.code ++ be6 started ++ be6 completed ++
    beOpt be2 (sup.map (·.1)) ++ beOpt (fun o : Origin => be1 o.code) (sup.map (·.2))
  | .editExpired r => recordDetail r
  | .overflow => []

/-- An event entry as READ_EVENTS returns it (section 9.8): kind, part time, feeder or 0, district or 0, detail length,
detail. -/
def EventEntry.bytes (e : EventEntry) : List Byte :=
  be1 e.event.kindCode ++ be6 e.time ++ be1 ((e.event.feeder?.map Feeder.number).getD 0) ++
  be1 ((e.event.district?.map District.number).getD 0) ++ be1 e.event.detail.length ++ e.event.detail

end Sys2Proof.Machine
end

