-- ==== Sys2Proof/Machine/State.lean ====
section
/-! DEFINITION. The state of the part: every piece of state the manual gives its blocks, the queue of waiting commands, and
the values right after a power-on of a new part (R17, R43, R66, R84, R103, R122, R144, R173, R190, R200). -/
namespace Sys2Proof.Machine

/-- Whether the part has power and runs: without power, held at its start-up values by the RESET input, or running (R16). -/
inductive Phase where
  | off | held | running
  deriving DecidableEq, Repr

/-- What the part sends in one transfer at a port (sections 9.2, 9.3): these bytes, in a fetch those after its type byte; or 0xFF for every
byte of the transfer, however many the master clocks. -/
inductive Driven where
  | bytes (sent : List Byte)
  | allOnes
  deriving DecidableEq, Repr

/-- One filtered contact input (section 1.4): its filtered level, absent until it settles; the candidate level; the count of
consecutive scans that showed the candidate. True is active. -/
structure FilteredInput where
  level : Option Bool
  candidate : Bool
  count : Nat
  deriving DecidableEq, Repr

/-- The state of the measurement link (R8). -/
inductive LinkState where
  | awaiting | up | lost
  deriving DecidableEq, Repr

/-- The measurement state of a feeder (R4). -/
inductive MeasState where
  | awaiting | valid | holding | lost
  deriving DecidableEq, Repr

/-- The latest bus record: Vn and its validity (R8). -/
structure BusRecord where
  vn : Nat
  valid : Bool
  deriving DecidableEq, Repr

/-- The state of an element (R18). -/
inductive ElementState where
  | normal | pickedUp | held | operated
  deriving DecidableEq, Repr

/-- An element: its state and its progress (IDMT) or accumulation in µs (high-set, SEF) (R18). -/
structure Element where
  state : ElementState
  amount : Nat
  deriving DecidableEq, Repr

/-- The effective settings of a feeder: a group record and the breakpoints of its two curves (R79). -/
structure Effective where
  group : Group
  phaseCurve : List Breakpoint
  earthCurve : List Breakpoint
  deriving DecidableEq, Repr

/-- What the fire level unit holds for a fitted feeder (section 4.2). The target level is its district's target and the
lowering pending flag is read from the two levels (R73), so neither is held again. -/
structure FeederFire where
  applied : Level
  settingsPending : Bool
  effective : Effective
  deriving DecidableEq, Repr

/-- The five system claims of a feeder, each present or absent (section 5.6). -/
structure SystemClaims where
  fire : Bool
  hunt : Bool
  measure : Bool
  breaker : Bool
  store : Bool
  deriving DecidableEq, Repr

/-- A switching operation (section 6.1): `permit` is present once a PROTECTION request has joined a trip. -/
structure Operation where
  id : Nat
  kind : OpKind
  origin : Origin
  requesters : List Origin
  permit : Option Bool
  started : Nat
  deriving DecidableEq, Repr

/-- The operation in flight, with its deadline (R104). -/
structure InFlight where
  op : Operation
  deadline : Nat
  deriving DecidableEq, Repr

/-- The last completed operation, with its outcome and the part time of its completion (R104). -/
structure Completed where
  op : Operation
  outcome : OpOutcome
  completed : Nat
  deriving DecidableEq, Repr

/-- A feeder's switching lock (section 6.6): free, held by a port until a lease deadline, or held by the hunt. -/
inductive Lock where
  | free
  | port (p : Port) (lease : Nat)
  | hunt
  deriving DecidableEq, Repr

/-- The record of a reclose sequencer (R123). -/
structure ArRecord where
  state : ArState
  shotsUsed : Nat
  currentShot : Option Nat
  deadline : Option Nat
  closeOp : Option Nat
  reclaim : Option Nat
  cause : Option ArCause
  since : Nat
  deriving DecidableEq, Repr

/-- Everything the blocks hold for one feeder. -/
structure FeederState where
  -- measurement intake (section 1.2)
  meas : MeasState
  invalidCount : Nat
  recoveryCount : Nat
  -- input filter and position faults (sections 1.4, 1.5)
  closedContact : FilteredInput
  openContact : FilteredInput
  invalidTimer : Option Nat
  transitTimer : Option Nat
  positionFault : Option FaultKind
  -- protection elements (chapter 2); `pickedUp` is the last report to the fire level unit (R42)
  phaseIdmt : Element
  highSet : Element
  earthIdmt : Element
  sef : Element
  tripRecord : Option TripRecord
  pickedUp : Bool
  -- fire level unit (section 4.2); absent for an unfitted feeder
  fire : Option FeederFire
  -- claim table (section 5.6)
  claims : SystemClaims
  -- switching unit (chapter 6)
  inFlight : Option InFlight
  lastOp : Option Completed
  lastEnd : LastEnd
  lock : Lock
  -- reclose sequencer (chapter 7)
  ar : ArRecord
  deriving DecidableEq, Repr

/-- The volatile part of a district record (section 4.1). -/
structure DistrictState where
  network : Level
  panel : Level
  target : Level
  deriving DecidableEq, Repr

/-- The edit buffer (section 3.7). -/
inductive EditBuffer where
  | free
  | editing (owner : Port) (record : RecordName) (content : RecordContent) (lease : Nat)
  | committing (owner : Port) (record : RecordName) (content : RecordContent)
  deriving DecidableEq, Repr

/-- One entry of the store write queue: the port that asked and the record to be written (section 3.9). -/
structure WriteEntry where
  port : Port
  record : RecordName
  deriving DecidableEq, Repr

/-- The write in flight, that of the oldest entry: the content it writes (R62) and the part time it began at. -/
structure StoreWrite where
  content : RecordContent
  began : Nat
  deriving DecidableEq, Repr

/-- The settings store: each record in its two forms, the edit buffer, the freeze flag and the write queue. -/
structure Store where
  groups : PerFeeder (PerLevel (Cell Group))
  commissioning : PerFeeder (Cell Commissioning)
  hunts : PerLevel (Cell HuntSettings)
  curveU1 : Cell UserCurve
  curveU2 : Cell UserCurve
  floors : PerDistrict (Cell Level)
  bans : PerDistrict (Cell Level)
  protectMode : Cell ProtectMode
  -- the held content of the persisted claim record is the pool itself (R44)
  claimsWritten : Written (List PersistedClaim)
  claimsDefaulted : Bool
  edit : EditBuffer
  frozen : Bool
  queue : List WriteEntry
  writing : Option StoreWrite
  deriving DecidableEq, Repr

/-- A port claim (section 5.2). `tag` is 0 but for holder CREW; `persisted` is meant for HOLD_OPEN claims alone. `inWrite` is
the model's own: the claim is one of those the claim write in flight took from the pool when it began (R93). -/
structure PortClaim where
  feeder : Feeder
  kind : ClaimKind
  holder : Port
  tag : Nat
  reason : Nat
  placedAt : Nat
  expiry : Option Nat
  persisted : Bool
  inWrite : Bool
  deriving DecidableEq, Repr

/-- The displacement detector: its state and its accumulation in µs (section 8.1). -/
structure Detector where
  state : DetectorState
  amount : Nat
  deriving DecidableEq, Repr

/-- An identify window: its length, the frames counted, and a sum for each feeder (R150). -/
structure Window where
  length : Nat
  counted : Nat
  sums : PerFeeder Nat
  deriving DecidableEq, Repr

/-- The hunt's own operation in flight (section 8.2). -/
structure HuntOp where
  id : Nat
  kind : OpKind
  feeder : Feeder
  deriving DecidableEq, Repr

/-- The record of the hunt in progress (section 8.2); absent while the hunt is IDLE. `current` counts places from 0. -/
structure HuntRun where
  state : HuntState
  cause : HuntCause
  startTime : Nat
  level : Level
  window : Option Window
  sums : Option (PerFeeder Nat)
  identified : Option Identified
  dropoutSeen : Option Bool
  candidates : Option (List Candidate)
  current : Option Nat
  locked : Option Feeder
  op : Option HuntOp
  deadline : Option Nat
  tripInWatch : Option Bool
  pendingSuspend : Bool
  resume : Option ResumePoint
  pendingResult : Option HuntResult
  deriving DecidableEq, Repr

/-- The status of a response (section 9.4). -/
inductive Status where
  | ok | accepted | badFrame | unknown | rights | range | notFitted | state | held | busy | full | noEdit | inconsistent
  | isProtected | frozen
  deriving DecidableEq, Repr

/-- A response waiting: its status, its two flags and its payload; its check is computed from these (R194). -/
structure Response where
  status : Status
  collided : Bool
  incomplete : Bool
  payload : List Byte
  deriving DecidableEq, Repr

/-- The state of a port unit, with the request executing or the response waiting (R174). -/
inductive PortState where
  | idle
  | receiving
  | executing (code : Nat) (target : Nat)
  | waiting (response : Response)
  deriving DecidableEq, Repr

/-- A port unit (R174). The response-ready line is asserted exactly while it is WAITING. -/
structure PortUnit where
  state : PortState
  collided : Bool
  incomplete : Bool
  deriving DecidableEq, Repr

/-- The write transaction under way at the crew port, one or more bytes of its frame arrived: whether it began with the port WAITING, so that
its frame is to be discarded as COLLIDED, and the part time at which it stalls unless a byte or its end comes before (R180). -/
structure CrewWrite where
  collides : Bool
  stall : Nat
  deriving DecidableEq, Repr

/-- The whole part, with the queue of commands that wait. -/
structure State where
  /-- The commands waiting, first in first out: the model's own. -/
  pending : List Instr
  /-- Power and the RESET input (R16). -/
  phase : Phase
  /-- The levels of the crew port's two strap pins. -/
  strapPins : BitVec 2
  -- timebase
  partTime : Nat
  startCause : StartCause
  opCounter : Nat
  -- measurement intake
  link : LinkState
  lastSequence : Option Nat
  lastFrameTime : Option Nat
  linkDeadline : Option Nat
  bus : BusRecord
  -- station inputs
  fireBan : FilteredInput
  crewKey : FilteredInput
  setProtect : FilteredInput
  -- feeders and districts
  feeders : PerFeeder FeederState
  districts : PerDistrict DistrictState
  -- settings store
  store : Store
  -- claim pool, oldest placement first
  pool : List PortClaim
  -- earth-fault hunt unit
  detector : Detector
  hunt : Option HuntRun
  lastHunt : Option HuntReport
  -- port units and the crew port's bus address as read at start-up
  ports : PerPort PortUnit
  crewAddress : BitVec 7
  crewWrite : Option CrewWrite
  -- event queues, oldest first
  queues : PerPort (List EventEntry)
  /-- What the part sent in the latest transfer at each port: the model's own record of an output. -/
  sent : PerPort Driven
  /-- Which free value is used next: the model's own (DESIGN CHOICE, log 5). -/
  freeIndex : Nat
  deriving DecidableEq, Repr

/-- Why the part stops: no rule of the manual makes it stop, so there is no fault. -/
inductive Fault where
  deriving DecidableEq, Repr

/-- Why a command has no outcome in this model. -/
inductive Refusal where
  /-- Raised by `exec` for a command of the table that has no meaning yet. Safe: no claim can be proved of what it does. -/
  | notModelled (mnemonic : String)
  deriving DecidableEq, Repr

/-! ### Start-up values -/

/-- An input that has not settled (R17). The candidate level before the first scan is the model's choice (DESIGN CHOICE, log 6). -/
def FilteredInput.unsettled : FilteredInput := { level := none, candidate := false, count := 0 }

/-- An element in NORMAL with progress or accumulation 0 (R43). -/
def Element.rest : Element := { state := .normal, amount := 0 }

/-- No system claim. -/
def SystemClaims.none : SystemClaims := { fire := false, hunt := false, measure := false, breaker := false, store := false }

/-- A sequencer that has just entered a state that holds no other field (R123). -/
def ArRecord.bare (st : ArState) (now : Nat) : ArRecord :=
  { state := st, shotsUsed := 0, currentShot := .none, deadline := .none, closeOp := .none, reclaim := .none, cause := .none,
    since := now }

/-- The start-up values of an unfitted feeder (R17, R43, R103, R122, R144). -/
def FeederState.unfitted : FeederState :=
  { meas := .awaiting, invalidCount := 0, recoveryCount := 0,
    closedContact := .unsettled, openContact := .unsettled,
    invalidTimer := none, transitTimer := none, positionFault := none,
    phaseIdmt := .rest, highSet := .rest, earthIdmt := .rest, sef := .rest, tripRecord := none, pickedUp := false,
    fire := none, claims := .none, inFlight := none, lastOp := none, lastEnd := .unknown, lock := .free,
    ar := .bare .outOfService 0 }

/-- A port unit after start-up (R190). -/
def PortUnit.idle : PortUnit := { state := .idle, collided := false, incomplete := false }

/-- The store of a new part: every record at its default and written (R45, R47, R52; DEDUCED, log 3). -/
def Store.manufactured : Store :=
  { groups := .of fun _ => .of fun l => .fresh (defaultGroup l)
    commissioning := .of fun f => .fresh (defaultCommissioning f)
    hunts := .of fun l => .fresh (defaultHunt l)
    curveU1 := .fresh (defaultCurve .u1)
    curveU2 := .fresh (defaultCurve .u2)
    floors := .of fun _ => .fresh .l0
    bans := .of fun _ => .fresh .l2
    protectMode := .fresh .pin
    claimsWritten := .intact []
    claimsDefaulted := false
    edit := .free
    frozen := false
    queue := []
    writing := none }

/-- The entry START of a power-on, placed at part time 0 (R200). -/
def startEntry : EventEntry := { time := 0, event := .start .powerOn }

/-- The part right after the power-on of a new part: no feeder is fitted, every district stands at its ban level L2, START is
in the network and panel queues, and the crew queue is empty (R17, R84, R190, R200; DEDUCED, logs 1, 3; DESIGN CHOICE, logs 6, 7). -/
def State.reset : State :=
  { pending := []
    phase := .running
    strapPins := 0#2
    partTime := 0
    startCause := .powerOn
    opCounter := 1
    link := .awaiting
    lastSequence := none
    lastFrameTime := none
    linkDeadline := some 100
    bus := { vn := 0, valid := false }
    fireBan := .unsettled
    crewKey := .unsettled
    setProtect := .unsettled
    feeders := .of fun _ => .unfitted
    districts := .of fun _ => { network := .l0, panel := .l0, target := .l2 }
    store := .manufactured
    pool := []
    detector := { state := .quiet, amount := 0 }
    hunt := none
    lastHunt := none
    ports := .of fun _ => .idle
    crewAddress := 0x58#7
    crewWrite := none
    queues := { network := [startEntry], panel := [startEntry], crew := [] }
    sent := .of fun _ => .bytes []
    freeIndex := 0 }

end Sys2Proof.Machine
end

