-- ==== Sys2Proof/Machine/Flags.lean ====
section
/-! DEFINITION. The conditions and views that the blocks read off the state: levels read, positions, the fitted check, block
sets and their queries, quiescence, output and attention lines. Nothing here changes the state. -/
namespace Sys2Proof.Machine

/-! ### Inputs and positions -/

/-- The level an input reads at: its filtered level, or the given level until it first settles (R15, R17). -/
def FilteredInput.reads (x : FilteredInput) (unsettled : Bool) : Bool := x.level.getD unsettled

/-- FIRE_BAN as read: active until it settles (R15). -/
def fireBanActive (s : State) : Bool := s.fireBan.reads true

/-- CREW_KEY as read: inactive until it settles (R15). -/
def crewKeyActive (s : State) : Bool := s.crewKey.reads false

/-- SET_PROTECT as read: active until it settles (R15). -/
def setProtectActive (s : State) : Bool := s.setProtect.reads true

/-- The position two contact levels decode to (R11). -/
def decodePosition (closedContact openContact : Bool) : Position :=
  match closedContact, openContact with
  | true, false => .closed
  | false, true => .opened
  | false, false => .transit
  | true, true => .invalid

/-- Both contacts of the feeder have settled: the filter has handed its start-up position on (R11, R126). -/
def FeederState.settled (x : FeederState) : Bool := x.closedContact.level.isSome && x.openContact.level.isSome

/-- The breaker position of a feeder: TRANSIT until both its contacts have settled (R13, R17; with one settled alone R11's table would give
another position: DEDUCED, log 42), then decoded from their filtered levels (R11). -/
def FeederState.position (x : FeederState) : Position :=
  if x.settled then decodePosition (x.closedContact.reads false) (x.openContact.reads false) else .transit

/-! ### Records of the state -/

/-- The state of one feeder. -/
def State.feeder (s : State) (f : Feeder) : FeederState := s.feeders.get f

/-- The commissioning record of a feeder as held (R47). -/
def State.commissioning (s : State) (f : Feeder) : Commissioning := (s.store.commissioning.get f).held

/-- A feeder is fitted by its commissioning record as held. -/
def State.fitted (s : State) (f : Feeder) : Bool := (s.commissioning f).fitted

/-- The fitted feeders in feeder order. -/
def State.fittedFeeders (s : State) : List Feeder := Feeder.all.filter s.fitted

/-- The held group record of a feeder and level. -/
def State.group (s : State) (f : Feeder) (l : Level) : Group := ((s.store.groups.get f).get l).held

/-- The held hunt record of a level. -/
def State.huntSettings (s : State) (l : Level) : HuntSettings := (s.store.hunts.get l).held

/-- The held content of a user curve. -/
def State.userCurve (s : State) : UserCurveName → UserCurve
  | .u1 => s.store.curveU1.held
  | .u2 => s.store.curveU2.held

/-- The breakpoints of a curve as held at this moment (R29, R79). -/
def State.breakpoints (s : State) : Curve → List Breakpoint
  | .a => curveA
  | .b => curveB
  | .c => curveC
  | .u1 => (s.userCurve .u1).breakpoints
  | .u2 => (s.userCurve .u2).breakpoints

/-- The effective settings that a reload takes for a feeder at a level (R79). -/
def State.effectiveFor (s : State) (f : Feeder) (l : Level) : Effective :=
  let g := s.group f l
  { group := g, phaseCurve := s.breakpoints g.phase.curve, earthCurve := s.breakpoints g.earth.curve }

/-- A season floor as held. -/
def State.floor (s : State) (d : District) : Level := (s.store.floors.get d).held

/-- A ban level as held. -/
def State.ban (s : State) (d : District) : Level := (s.store.bans.get d).held

/-! ### Fire levels -/

/-- The target of a district computed from its sources: the highest of the two requests, the floor and, while FIRE_BAN reads
active, the ban level (R68). -/
def computedTarget (s : State) (d : District) : Level :=
  let x := s.districts.get d
  let base := (x.network.higher x.panel).higher (s.floor d)
  if fireBanActive s then base.higher (s.ban d) else base

/-- A feeder's target level: the target of its district (R73). -/
def targetLevel (s : State) (f : Feeder) : Level := (s.districts.get (s.commissioning f).district).target

/-- A fitted feeder's lowering is pending: its target level is below its applied level (R73). -/
def loweringPending (s : State) (f : Feeder) : Bool :=
  match (s.feeder f).fire with
  | none => false
  | some x => decide ((targetLevel s f).number < x.applied.number)

/-- A fitted feeder's settings are pending (R78). -/
def settingsPending (s : State) (f : Feeder) : Bool :=
  match (s.feeder f).fire with
  | none => false
  | some x => x.settingsPending

/-- The detector level: the highest applied level over the fitted feeders, L0 when none is fitted (R81). -/
def detectorLevel (s : State) : Level :=
  s.fittedFeeders.foldl (fun l f =>
    match (s.feeder f).fire with
    | none => l
    | some x => l.higher x.applied) .l0

/-- The applied level is at or above the fire block level; NEVER is above every level (R80). -/
def atFireBlock (applied : Level) : FireBlock → Bool
  | .l1 => decide (1 ≤ applied.number)
  | .l2 => decide (2 ≤ applied.number)
  | .l3 => decide (3 ≤ applied.number)
  | .never => false

/-- The sequencer's state admits quiescence: READY, LOCKOUT or OPEN_MANUAL (R76). -/
def ArState.quiet : ArState → Bool
  | .ready => true
  | .lockout => true
  | .openManual => true
  | _ => false

/-- The hunt does not hold the lock. -/
def Lock.notHunt : Lock → Bool
  | .hunt => false
  | _ => true

/-- A feeder is quiescent (R76). -/
def quiescent (s : State) (f : Feeder) : Bool :=
  let x := s.feeder f
  s.fitted f && !x.pickedUp && x.ar.state.quiet && x.inFlight.isNone && x.lock.notHunt

/-! ### Claims -/

/-- Whether one system claim is present. -/
def SystemClaims.has (c : SystemClaims) : SystemClaim → Bool
  | .fire => c.fire
  | .hunt => c.hunt
  | .measure => c.measure
  | .breaker => c.breaker
  | .store => c.store

/-- The tag an entry or a read shows: present for holder CREW (section 5.2). -/
def PortClaim.shownTag (c : PortClaim) : Option Nat := if c.holder = .crew then some c.tag else none

/-- The claim as an entry names it (R100). -/
def PortClaim.info (c : PortClaim) : ClaimInfo := .port c.kind c.holder c.shownTag c.reason c.expiry

/-- The claim has this identity: feeder, kind and holder, and for CREW the tag (R86). -/
def PortClaim.is (c : PortClaim) (f : Feeder) (k : ClaimKind) (h : Port) (tag : Nat) : Bool :=
  decide (c.feeder = f) && decide (c.kind = k) && decide (c.holder = h) && (decide (h ≠ .crew) || decide (c.tag = tag))

/-- The port claims that name a feeder, in pool order. -/
def portClaims (s : State) (f : Feeder) : List PortClaim := s.pool.filter fun c => decide (c.feeder = f)

/-- A feeder's block set: the system claims present in the order of R127, then its port claims in pool order (R85, R127). -/
def blockSet (s : State) (f : Feeder) : List ClaimInfo :=
  (SystemClaim.all.filter (s.feeder f).claims.has).map .system ++ (portClaims s f).map PortClaim.info

/-- The kind of a claim. -/
def ClaimInfo.kind : ClaimInfo → ClaimKind
  | .system n => n.kind
  | .port k _ _ _ _ => k

/-- The claim blocks a hunt restore: HOLD_OPEN, or NORECLOSE other than FIRE and HUNT (R99). -/
def ClaimInfo.blocksRestore : ClaimInfo → Bool
  | .system .fire => false
  | .system .hunt => false
  | _ => true

/-- The query "empty" (R99). -/
def blockSetEmpty (s : State) (f : Feeder) : Bool := (blockSet s f).isEmpty

/-- The query "holds HOLD_OPEN" (R99). -/
def holdsHoldOpen (s : State) (f : Feeder) : Bool := (blockSet s f).any fun c => decide (c.kind = .holdOpen)

/-- The query "blocks restore" (R99). -/
def restoreBlocked (s : State) (f : Feeder) : Bool := (blockSet s f).any ClaimInfo.blocksRestore

/-! ### Switching -/

/-- The trip output of a feeder is driven: a TRIP is in flight (R104). -/
def tripOutput (s : State) (f : Feeder) : Bool :=
  match (s.feeder f).inFlight with
  | some x => decide (x.op.kind = .trip)
  | none => false

/-- The close output of a feeder is driven: a CLOSE is in flight (R104). -/
def closeOutput (s : State) (f : Feeder) : Bool :=
  match (s.feeder f).inFlight with
  | some x => decide (x.op.kind = .close)
  | none => false

/-- The holder of a lock. -/
def Lock.holder : Lock → Holder
  | .free => .nobody
  | .port p _ => .port p
  | .hunt => .hunt

/-- The lease deadline of a lock a port holds. -/
def Lock.lease : Lock → Option Nat
  | .port _ d => some d
  | _ => none

/-- A port holds the lock. -/
def Lock.heldByPort : Lock → Bool
  | .port _ _ => true
  | _ => false

/-- A port's request is barred by the lock: another holder has it (R119). -/
def Lock.bars (l : Lock) (p : Port) : Bool :=
  match l with
  | .free => false
  | .port q _ => decide (q ≠ p)
  | .hunt => true

/-- A feeder is out of service for a commissioning commit (R48). -/
def outOfService (s : State) (f : Feeder) : Bool :=
  let x := s.feeder f
  !s.fitted f ||
    (decide (x.position = .opened) && (decide (x.ar.state = .lockout) || decide (x.ar.state = .openManual)) &&
      x.inFlight.isNone && x.lock.notHunt)

/-- The shot count of a feeder's effective settings (R124). -/
def shotCount (s : State) (f : Feeder) : Nat :=
  match (s.feeder f).fire with
  | some x => x.effective.group.shots
  | none => 0

/-- The reclaim time of a feeder's effective settings (R124). -/
def reclaimTime (s : State) (f : Feeder) : Nat :=
  match (s.feeder f).fire with
  | some x => x.effective.group.reclaim
  | none => 0

/-- Dead time k of a feeder's effective settings (R124). -/
def deadTimeOf (s : State) (f : Feeder) (k : Nat) : Nat :=
  match (s.feeder f).fire with
  | some x => (x.effective.group.deadTime k).getD 0
  | none => 0

/-! ### Settings -/

/-- The protect mode and SET_PROTECT permit the port to edit (R54). -/
def editPermitted (s : State) (p : Port) : Bool :=
  match p with
  | .network => true
  | .panel =>
    match s.store.protectMode.held with
    | .open_ => true
    | .pin => !setProtectActive s
    | .networkOnly => false
  | .crew => false

/-- A record has an entry queued or in flight (R67). -/
def writePending (s : State) (r : RecordName) : Bool := s.store.queue.any fun e => decide (e.record = r)

/-- The state of the hunt: IDLE when no hunt is in progress. -/
def huntState (s : State) : HuntState :=
  match s.hunt with
  | some h => h.state
  | none => .idle

/-- The hunt record of the detector level has identify or trial enabled (R147, R149). -/
def huntEnabled (s : State) : Bool :=
  let h := s.huntSettings (detectorLevel s)
  h.identifyEnable || h.trialEnable

/-! ### Lines -/

/-- The crew port acknowledges its address, in a write and in a read alike: not while it is EXECUTING (R179), not while RESET reads active
(R190) and not without power. A repeated start has ended a frame in arrival (R179), so RECEIVING answers as IDLE. -/
def crewAcknowledges (s : State) : Bool :=
  match s.phase, (s.ports.get .crew).state with
  | .running, .executing _ _ => false
  | .running, _ => true
  | _, _ => false

/-- The acknowledges the crew port gives in a write of `n` bytes whose address arrives now: its address's, then each byte's, for it
acknowledges every byte of a write whose address it has acknowledged (R179). -/
def crewWriteAcknowledges (s : State) (n : Nat) : List Bool := List.replicate (n + 1) (crewAcknowledges s)

/-- What a master sends to a port reaches its port unit: on the crew port, when the address is acknowledged (R179). -/
def reaches (s : State) (p : Port) : Bool :=
  match p with
  | .crew => crewAcknowledges s
  | _ => true

/-- The attention line of a port: asserted while its queue holds an entry (R200). -/
def attention (s : State) (p : Port) : Bool := !(s.queues.get p).isEmpty

/-- The response-ready line of a port: asserted exactly while the port is WAITING (R174). -/
def responseReady (s : State) (p : Port) : Bool :=
  match (s.ports.get p).state with
  | .waiting _ => true
  | _ => false

end Sys2Proof.Machine
end

