-- ==== Sys2Proof/Machine/Ops.lean ====
section
/-! DEFINITION. The named operations over the state that every block uses: replacing one feeder's state, offering events to the
queues, taking op ids. -/
namespace Sys2Proof.Machine

/-- The state with one feeder's state changed. -/
def State.onFeeder (s : State) (f : Feeder) (g : FeederState → FeederState) : State :=
  { s with feeders := s.feeders.set f (g (s.feeders.get f)) }

/-- The state with the settings store changed. -/
def State.onStore (s : State) (g : Store → Store) : State := { s with store := g s.store }

/-- The state with one district's volatile record changed. -/
def State.onDistrict (s : State) (d : District) (g : DistrictState → DistrictState) : State :=
  { s with districts := s.districts.set d (g (s.districts.get d)) }

/-- The state with one port unit changed. -/
def State.onPort (s : State) (p : Port) (g : PortUnit → PortUnit) : State :=
  { s with ports := s.ports.set p (g (s.ports.get p)) }

/-- The state with the record of the hunt in progress changed; nothing while the hunt is IDLE. -/
def State.onHunt (s : State) (g : HuntRun → HuntRun) : State := { s with hunt := s.hunt.map g }

/-- The state with one event queue replaced. -/
def State.withQueue (s : State) (p : Port) (q : List EventEntry) : State := { s with queues := s.queues.set p q }

/-- A queue after an event is offered to it: it joins the tail below 31 entries, becomes OVERFLOW at 31, and is lost at 32
(R197). -/
def queueOffered (q : List EventEntry) (e : EventEntry) : List EventEntry :=
  if q.length ≤ 30 then q ++ [e]
  else if q.length = 31 then q ++ [{ time := e.time, event := .overflow }]
  else q

/-- Offer an event to one port's queue. The crew queue takes nothing while CREW_KEY reads inactive (R199). -/
def offer (p : Port) (ev : Event) (s : State) : State :=
  if p = .crew ∧ crewKeyActive s = false then s
  else s.withQueue p (queueOffered (s.queues.get p) { time := s.partTime, event := ev })

/-- Offer an event of a broadcast kind to all three queues (R196). -/
def broadcast (ev : Event) (s : State) : State := offer .crew ev (offer .panel ev (offer .network ev s))

/-- Do something for each feeder of a list, in order. -/
def forFeeders (fs : List Feeder) (step : Feeder → State → State) (s : State) : State :=
  fs.foldl (fun acc f => step f acc) s

/-- The value after an op id: 65,535 is followed by 1 (R105). -/
def nextOpId (n : Nat) : Nat := if n = 65535 then 1 else n + 1

/-- The state with the op id counter advanced (R105). -/
def advanceOpId (s : State) : State := { s with opCounter := nextOpId s.opCounter }

/-- A deadline is reached by the part time. -/
def reached (s : State) : Option Nat → Bool
  | some d => decide (d ≤ s.partTime)
  | none => false

/-- The part acts on a command while it runs; without power or held by RESET it changes nothing (R16, R190). -/
def whileRunning (act : State → State) (s : State) : State := if s.phase = .running then act s else s

end Sys2Proof.Machine
end

