-- ==== Sys2Proof/Machine/Sequencer.lean ====
section
/-! DEFINITION. The auto-reclose sequencer's transitions (chapter 7). Each changes one feeder's sequencer record and sends its
entries; the caller reports a change of AR state to the fire level unit (R124, `judged` in Machine/Fire.lean). -/
namespace Sys2Proof.Machine

/-- The record on entry to a state: shots used kept, every field the state does not hold removed (R123; DEDUCED, log 23). -/
def ArRecord.enter (r : ArRecord) (st : ArState) (now : Nat) : ArRecord :=
  { ArRecord.bare st (if r.state = st then r.since else now) with shotsUsed := r.shotsUsed }

/-- Replace a feeder's sequencer record. A change of AR state broadcasts AR_STATE, and an entry to LOCKOUT broadcasts LOCKOUT
before it; a change from a state to itself sends nothing (R141). -/
def arMove (f : Feeder) (new : ArRecord) (cause : ArCause) (detail : LockoutDetail) (s : State) : State :=
  let old := (s.feeder f).ar
  let s1 := s.onFeeder f fun x => { x with ar := new }
  if old.state = new.state then s1
  else
    let s2 :=
      if new.state = .lockout then broadcast (.lockout f (new.cause.getD cause) new.shotsUsed detail) s1 else s1
    broadcast (.arState f old.state new.state new.shotsUsed new.currentShot (new.deadline <|> new.reclaim) cause) s2

/-- Enter LOCKOUT with a cause (R141, R142). -/
def toLockout (f : Feeder) (cause : ArCause) (detail : LockoutDetail) (s : State) : State :=
  arMove f { (s.feeder f).ar.enter .lockout s.partTime with cause := some cause } cause detail s

/-- Enter OPEN_MANUAL (R135). -/
def toOpenManual (f : Feeder) (s : State) : State :=
  arMove f ((s.feeder f).ar.enter .openManual s.partTime) .manualTrip {} s

/-- Enter RECLAIM with the given shots used, the reclaim deadline set from this moment (R132, R137, R140). -/
def toReclaim (f : Feeder) (shots : Nat) (cause : ArCause) (s : State) : State :=
  arMove f
    { (s.feeder f).ar.enter .reclaim s.partTime with
      shotsUsed := shots, reclaim := some (s.partTime + reclaimTime s f) } cause {} s

/-- Judge the sequence at a protection trip DONE: DEAD_TIME when the permit is yes, a shot remains and the block set is empty,
else LOCKOUT with the first cause that fails (R127). -/
def judgeSequence (f : Feeder) (permit : Option Bool) (s : State) : State :=
  let r := (s.feeder f).ar
  if permit ≠ some true then toLockout f .noPermit {} s
  else if shotCount s f ≤ r.shotsUsed then toLockout f .noShots {} s
  else if blockSetEmpty s f = false then toLockout f .blocked { claim := (blockSet s f).head? } s
  else
    arMove f
      { r.enter .deadTime s.partTime with
        currentShot := some (r.shotsUsed + 1), deadline := some (s.partTime + deadTimeOf s f (r.shotsUsed + 1)) }
      .protectionTrip {} s

/-- A trip's completion reaches the sequencer (R127, R128, R135, R136). -/
def seqTripCompletion (f : Feeder) (c : Completed) (s : State) : State :=
  let isProtection := c.op.requesters.contains .protection
  match c.outcome, (s.feeder f).ar.state with
  | _, .starting => s
  | _, .outOfService => s
  | .done, .lockout => if isProtection then s else toOpenManual f s
  | .done, .openManual => if isProtection then toLockout f .tripOutsideSequence {} s else s
  | .done, .deadTime => if isProtection then toLockout f .tripOutsideSequence {} s else toOpenManual f s
  | .done, .ready => if isProtection then judgeSequence f c.op.permit s else toOpenManual f s
  | .done, .closing => if isProtection then judgeSequence f c.op.permit s else toOpenManual f s
  | .done, .reclaim => if isProtection then judgeSequence f c.op.permit s else toOpenManual f s
  | .already, .deadTime => if isProtection then s else toOpenManual f s
  | .already, _ => s
  | .failed, .deadTime => s
  | .failed, .lockout => s
  | .failed, _ => toLockout f .tripFailed { opId := some c.op.id } s
  | .superseded, _ => s

/-- The completion of a RECLOSE close reaches the sequencer; it acts in CLOSING alone, on its own op id, or on ALREADY before an
op id is held (R132, R133). -/
def seqRecloseCompletion (f : Feeder) (c : Completed) (s : State) : State :=
  let r := (s.feeder f).ar
  if r.state ≠ .closing then s
  else
    match c.outcome with
    | .already => if r.closeOp = none then toReclaim f r.shotsUsed .reclosed s else s
    | .done => if r.closeOp = some c.op.id then toReclaim f r.shotsUsed .reclosed s else s
    | .failed => if r.closeOp = some c.op.id then toLockout f .closeFailed { opId := some c.op.id } s else s
    | .superseded =>
      if r.closeOp = some c.op.id then s.onFeeder f fun x => { x with ar := { x.ar with closeOp := none } } else s

/-- The completion of a port's or the hunt's close reaches the sequencer (R137). The LOCKOUT entry of a failed one carries the op id, as that
of a RECLOSE close does by R132 (DESIGN CHOICE, log 48). -/
def seqCloseCompletion (f : Feeder) (c : Completed) (s : State) : State :=
  match c.outcome, (s.feeder f).ar.state with
  | _, .starting => s
  | _, .outOfService => s
  | _, .closing => s
  | .done, _ => toReclaim f (shotCount s f) .closedByRequest s
  | .failed, .deadTime => s
  | .failed, .lockout => s
  | .failed, _ => toLockout f .closeFailed { opId := some c.op.id } s
  | .already, _ => s
  | .superseded, _ => s

/-- A completion reaches the sequencer (R114, step 2). -/
def seqCompletion (f : Feeder) (c : Completed) (s : State) : State :=
  match c.op.kind with
  | .trip => seqTripCompletion f c s
  | .close => if c.op.origin = .reclose then seqRecloseCompletion f c s else seqCloseCompletion f c s

/-- A claim's entry into the block set reaches the sequencer: it ends a dead time (R129). -/
def seqClaimEntry (f : Feeder) (claim : ClaimInfo) (s : State) : State :=
  if (s.feeder f).ar.state = .deadTime then toLockout f .claim { claim := some claim } s else s

/-- A reload of the effective settings reaches the sequencer: a shot count below the current shot ends a dead time (R130). -/
def seqReload (f : Feeder) (s : State) : State :=
  let r := (s.feeder f).ar
  if r.state = .deadTime ∧ shotCount s f < r.currentShot.getD 0 then toLockout f .shotsReduced {} s else s

/-- An external opening reaches the sequencer (R139). -/
def seqExternalOpen (f : Feeder) (s : State) : State :=
  match (s.feeder f).ar.state with
  | .starting => s
  | .outOfService => s
  | .lockout => s
  | _ => toLockout f .externalOpen {} s

/-- An external close reaches the sequencer (R140). -/
def seqExternalClose (f : Feeder) (s : State) : State :=
  match (s.feeder f).ar.state with
  | .starting => s
  | .outOfService => s
  | .deadTime => toLockout f .externalClose {} s
  | _ => toReclaim f (shotCount s f) .externalClose s

/-- The first state that a start-up position gives: READY when CLOSED, else LOCKOUT with cause START_POSITION (R125). -/
def firstRecord (pos : Position) (now : Nat) : ArRecord :=
  if pos = .closed then ArRecord.bare .ready now
  else { ArRecord.bare .lockout now with cause := some .startPosition }

/-- The input filter hands the start-up position on: a sequencer in STARTING takes its first state (R125). -/
def seqStartPosition (f : Feeder) (s : State) : State :=
  if (s.feeder f).ar.state = .starting then arMove f (firstRecord (s.feeder f).position s.partTime) .startPosition {} s else s

/-- A commissioning commit sets the sequencer as at start-up (R126): OUT_OF_SERVICE when unfitted, its first state when the
start-up position has been handed on, else STARTING. -/
def seqCommission (f : Feeder) (s : State) : State :=
  let x := s.feeder f
  let new :=
    if s.fitted f = false then ArRecord.bare .outOfService s.partTime
    else if x.settled then firstRecord x.position s.partTime
    else ArRecord.bare .starting s.partTime
  arMove f new .commission {} s

/-- The reclaim deadline is reached in RECLAIM: READY with shots used 0 (R134). -/
def seqReclaimExpiry (f : Feeder) (s : State) : State :=
  arMove f { (s.feeder f).ar.enter .ready s.partTime with shotsUsed := 0 } .reclaimExpired {} s

/-- The dead-time expiry with an empty block set: shots used becomes the current shot, and the sequencer enters CLOSING
keeping it (R131). -/
def seqToClosing (f : Feeder) (s : State) : State :=
  let r := (s.feeder f).ar
  arMove f
    { r.enter .closing s.partTime with shotsUsed := r.currentShot.getD r.shotsUsed, currentShot := r.currentShot }
    .deadTimeExpired {} s

end Sys2Proof.Machine
end

