-- ==== Sys2Proof/Machine/Claims.lean ====
section
/-! DEFINITION. The claim table's changes of the block set (chapter 5): system claims placed and removed, port claims entered and
removed, each reported by R100. -/
namespace Sys2Proof.Machine

/-- The system claims with one set present or absent. -/
def SystemClaims.put (c : SystemClaims) (n : SystemClaim) (on : Bool) : SystemClaims :=
  match n with
  | .fire => { c with fire := on }
  | .hunt => { c with hunt := on }
  | .measure => { c with measure := on }
  | .breaker => { c with breaker := on }
  | .store => { c with store := on }

/-- A claim has entered a feeder's block set: CLAIM_PLACED is broadcast, and the entry is handed to the sequencer (R100). -/
def claimEntered (f : Feeder) (claim : ClaimInfo) (s : State) : State :=
  seqClaimEntry f claim (broadcast (.claimPlaced f claim) s)

/-- A claim has left a feeder's block set: CLAIM_RELEASED is broadcast (R100). -/
def claimLeft (f : Feeder) (claim : ClaimInfo) (cause : ReleaseCause) (s : State) : State :=
  broadcast (.claimReleased f claim cause) s

/-- Set a system claim present or absent; setting it as it is changes nothing and sends nothing (R95). -/
def setSystemClaim (f : Feeder) (n : SystemClaim) (on : Bool) (s : State) : State :=
  if (s.feeder f).claims.has n = on then s
  else
    let s1 := s.onFeeder f fun x => { x with claims := x.claims.put n on }
    if on then claimEntered f (.system n) s1 else claimLeft f (.system n) .cleared s1

/-- Add a port claim at the tail of the pool (R86, R87). -/
def addClaim (c : PortClaim) (s : State) : State :=
  claimEntered c.feeder c.info { s with pool := s.pool ++ [c] }

/-- The port claim of an identity, if it is in the pool. -/
def findClaim (s : State) (f : Feeder) (k : ClaimKind) (h : Port) (tag : Nat) : Option PortClaim :=
  s.pool.find? fun c => c.is f k h tag

/-- Remove the port claim of an identity from the pool; the claims after it close up (R86). -/
def removeClaim (f : Feeder) (k : ClaimKind) (h : Port) (tag : Nat) (cause : ReleaseCause) (s : State) : State :=
  match findClaim s f k h tag with
  | some c => claimLeft f c.info cause { s with pool := s.pool.eraseP fun x => x.is f k h tag }
  | none => s

/-- Every NORECLOSE port claim naming a feeder leaves the pool with cause CLEARED (R101), in pool order (DESIGN CHOICE, log 52). -/
def clearNoReclose (f : Feeder) (s : State) : State :=
  let gone := fun c : PortClaim => decide (c.feeder = f) && decide (c.kind = .noReclose)
  (s.pool.filter gone).foldl (fun acc c => claimLeft f c.info .cleared acc)
    { s with pool := s.pool.filter fun c => !gone c }

end Sys2Proof.Machine
end

