-- ==== Sys2Proof/Machine/Fire.lean ====
section
/-! DEFINITION. The fire level unit (chapter 4): district targets, raises, deferred lowerings, reloads of the effective settings,
and the judgement of quiescence. -/
namespace Sys2Proof.Machine

/-- Broadcast HUNT_STATE for a hunt state or level, the detector's state as it stands (R195). -/
def sayHunt (old new : HuntState) (detail : HuntDetail) (s : State) : State :=
  broadcast (.huntState s.detector.state s.detector.state old new (detectorLevel s) detail) s

/-- The hunt level is raised to a detector level that has risen above it, and HUNT_STATE is broadcast (R148). -/
def raiseHuntLevel (s : State) : State :=
  match s.hunt with
  | none => s
  | some h =>
    if h.level.number < (detectorLevel s).number then
      sayHunt h.state h.state { level := some (detectorLevel s) } (s.onHunt fun r => { r with level := detectorLevel s })
    else s

/-- The element enables of a group, in the order phase IDMT, high-set, earth IDMT, SEF (R18). -/
def Group.enables (g : Group) : ElementName → Bool
  | .phaseIdmt => true
  | .highSet => g.highSetEnable
  | .earthIdmt => g.earthEnable
  | .sef => g.sefEnable

/-- An element at a replacement of the settings: kept when it was and stays enabled, else NORMAL with 0 (R36). -/
def Element.afterReload (e : Element) (was now : Bool) : Element := if was && now then e else .rest

/-- Some element is PICKED_UP, HELD or OPERATED: the feeder's report (R42). -/
def FeederState.anyPickedUp (x : FeederState) : Bool :=
  [x.phaseIdmt, x.highSet, x.earthIdmt, x.sef].any fun e => decide (e.state ≠ .normal)

/-- A feeder's elements respond to new effective settings, and the feeder reports (R36, R42). -/
def elementsReload (old new : Group) (x : FeederState) : FeederState :=
  let y :=
    { x with
      phaseIdmt := x.phaseIdmt.afterReload (old.enables .phaseIdmt) (new.enables .phaseIdmt)
      highSet := x.highSet.afterReload (old.enables .highSet) (new.enables .highSet)
      earthIdmt := x.earthIdmt.afterReload (old.enables .earthIdmt) (new.enables .earthIdmt)
      sef := x.sef.afterReload (old.enables .sef) (new.enables .sef) }
  { y with pickedUp := y.anyPickedUp }

/-- Copy the group of a level and its curves into a feeder's effective settings; both pending flags become no (R79). -/
def loadEffective (f : Feeder) (l : Level) (s : State) : State :=
  s.onFeeder f fun x => { x with fire := some { applied := l, settingsPending := false, effective := s.effectiveFor f l } }

/-- Set the FIRE claim of a fitted feeder by its applied level and fire block level (R80). -/
def setFireClaim (f : Feeder) (s : State) : State :=
  match (s.feeder f).fire with
  | some x => setSystemClaim f .fire (atFireBlock x.applied (s.commissioning f).fireBlock) s
  | none => setSystemClaim f .fire false s

/-- Hand new effective settings to the blocks that read them: the elements, the sequencer, the hunt (R81). Where the settings both end a dead
time and raise the hunt level, the sequencer's LOCKOUT and AR_STATE stand before the hunt's HUNT_STATE: R81 and R148 give no order, and by
R196 either may stand first (DESIGN CHOICE, log 59). -/
def handSettings (f : Feeder) (old : Group) (s : State) : State :=
  raiseHuntLevel (seqReload f (s.onFeeder f fun x =>
    match x.fire with
    | some y => elementsReload old y.effective.group x
    | none => x))

/-- Move a fitted feeder to a level: reload, entries, FIRE claim, and the new settings handed on. APPLIED_LEVEL is sent when the
cause is RAISE or LOWER, SETTINGS_APPLIED always (R74, R77, R79; DEDUCED, log 11). -/
def applyLevel (f : Feeder) (l : Level) (cause : ApplyCause) (s : State) : State :=
  match (s.feeder f).fire with
  | none => s
  | some x =>
    let s1 := loadEffective f l s
    let s2 := if cause = .raise ∨ cause = .lower then broadcast (.appliedLevel f x.applied l cause) s1 else s1
    handSettings f x.effective.group (setFireClaim f (broadcast (.settingsApplied f l cause) s2))

/-- Judge a feeder: when it is quiescent with lowering or settings pending, both are applied in one reload (R76, R77). -/
def judge (f : Feeder) (s : State) : State :=
  if quiescent s f = true ∧ loweringPending s f = true then applyLevel f (targetLevel s f) .lower s
  else if quiescent s f = true ∧ settingsPending s f = true then
    match (s.feeder f).fire with
    | some x => applyLevel f x.applied .commit s
    | none => s
  else s

/-- Do something to a feeder, and judge it if its AR state changed by it (R76, R124). -/
def judged (f : Feeder) (act : State → State) (s : State) : State :=
  let t := act s
  if (t.feeder f).ar.state = (s.feeder f).ar.state then t else judge f t

/-- A fitted feeder acts on its district's new target: a rise is applied at once (R74), a fall below the applied level is judged
(R75). -/
def followTarget (old new : Level) (f : Feeder) (s : State) : State :=
  match (s.feeder f).fire with
  | none => s
  | some x =>
    if x.applied.number < new.number then judged f (applyLevel f new .raise) s
    else if new.number < x.applied.number ∧ new.number < old.number then judge f s
    else s

/-- The fitted feeders of a district, in feeder order, in which they act on a new target (R68; DESIGN CHOICE, log 46). -/
def districtFeeders (s : State) (d : District) : List Feeder :=
  s.fittedFeeders.filter fun f => decide ((s.commissioning f).district = d)

/-- Recompute a district's target; a change replaces it, broadcasts FIRE_TARGET and reaches the district's feeders (R68). -/
def recomputeTarget (d : District) (s : State) : State :=
  let x := s.districts.get d
  let new := computedTarget s d
  if new = x.target then s
  else
    let s1 := s.onDistrict d fun y => { y with target := new }
    let s2 :=
      broadcast (.fireTarget d x.target new x.network x.panel (s.ban d) (s.floor d) (fireBanActive s)) s1
    forFeeders (districtFeeders s d) (followTarget x.target new) s2

/-- Set a fitted feeder's settings pending and judge it (R78). -/
def setSettingsPending (f : Feeder) (s : State) : State :=
  judge f (s.onFeeder f fun x => { x with fire := x.fire.map fun y => { y with settingsPending := true } })

/-- Place a system claim, judging the feeder if the entry moved its sequencer (R95, R100, R124). -/
def placeSystemClaim (f : Feeder) (n : SystemClaim) (s : State) : State := judged f (setSystemClaim f n true) s

/-- Remove a system claim (R95). -/
def removeSystemClaim (f : Feeder) (n : SystemClaim) (s : State) : State := setSystemClaim f n false s

/-- A commissioning commit sets a feeder's fire state as at start-up under its new record (R82): its applied level becomes its
district's target, its settings are reloaded, and SETTINGS_APPLIED carries cause COMMISSION; unfitted, its fire state and its
FIRE claim become absent. SETTINGS_APPLIED stands before the entry of the FIRE claim (DESIGN CHOICE, log 51). -/
def commissionFire (f : Feeder) (s : State) : State :=
  if s.fitted f then
    let l := targetLevel s f
    let s1 := broadcast (.settingsApplied f l .commission) (loadEffective f l s)
    handSettings f (s.group f l) (setFireClaim f s1)
  else
    removeSystemClaim f .fire (s.onFeeder f fun x => { x with fire := none })

end Sys2Proof.Machine
end

