-- ==== Sys2Proof/Machine/Switching.lean ====
section
/-! DEFINITION. The switching units (chapter 6): admission of trips and closes, completions and their reports, the switching
lock. What a completion hands to the hunt unit is returned as notices, which Machine/Hunt.lean takes. -/
namespace Sys2Proof.Machine

/-- What the switching unit hands to the hunt unit at a completion (R114): by step 3 the op id, kind and outcome, and for a superseded
close the origin of the superseding trip; by step 4 a protection trip done. -/
inductive HuntNotice where
  | opDone (f : Feeder) (id : Nat) (kind : OpKind) (outcome : OpOutcome) (superseding : Option Origin)
  | protectionTripDone (f : Feeder)
  deriving DecidableEq, Repr

/-- The answer of a switching unit to a request (R105): admitted as a new operation, joined to a trip in flight, completed
ALREADY, or refused. -/
inductive SwitchAnswer where
  | admitted (id : Nat)
  | joined (id : Nat)
  | already (id : Nat)
  | refused (reason : RefusalReason)
  deriving DecidableEq, Repr

/-- OP_DONE to the queue of each port in the requester list, in list order (R114, R196). -/
def sendOpDone (f : Feeder) (c : Completed) (sup : Option (Nat × Origin)) (s : State) : State :=
  c.op.requesters.foldl (fun acc o =>
    match o with
    | .port p => offer p (.opDone f c.op.id c.op.kind c.op.origin c.op.requesters c.outcome c.op.started c.completed sup) acc
    | _ => acc) s

/-- The notices of a completion for the hunt unit, given the origin of a superseding trip (R114, steps 3 and 4). -/
def huntNotices (f : Feeder) (c : Completed) (superseding : Option Origin) : List HuntNotice :=
  (if c.op.requesters.contains .hunt then [.opDone f c.op.id c.op.kind c.outcome superseding] else []) ++
  (if c.outcome = .done ∧ c.op.kind = .trip ∧ c.op.requesters.contains .protection = true then [.protectionTripDone f] else [])

/-- Copy a completed operation and report it to the ports and the sequencer (R114, steps 1 and 2). -/
def reportCompletion (f : Feeder) (c : Completed) (sup : Option (Nat × Origin)) (s : State) : State :=
  judged f (seqCompletion f c) (sendOpDone f c sup (s.onFeeder f fun x => { x with lastOp := some c }))

/-- An operation with the given kind, origin and permit, starting now under the next op id (R104, R105). -/
def newOperation (s : State) (kind : OpKind) (origin : Origin) (permit : Option Bool) : Operation :=
  { id := s.opCounter, kind := kind, origin := origin, requesters := [origin], permit := permit, started := s.partTime }

/-- The confirm time of a feeder for an operation kind (R104). -/
def confirmTimeOf (s : State) (f : Feeder) : OpKind → Nat
  | .trip => (s.commissioning f).tripConfirm
  | .close => (s.commissioning f).closeConfirm

/-- Admit an operation: it is in flight, its output is driven, its deadline is set, and the transit timer stops (R13, R104). -/
def admitOp (f : Feeder) (kind : OpKind) (origin : Origin) (permit : Option Bool) (s : State) : State :=
  let op := newOperation s kind origin permit
  advanceOpId (s.onFeeder f fun x =>
    { x with inFlight := some { op := op, deadline := s.partTime + confirmTimeOf s f kind }, transitTimer := none })

/-- A request answered ALREADY: it takes an op id, completes at once and is reported by steps 1 to 4 of R114; it is never in flight, so
step 5's reports are not made for it (R106, R114). -/
def completeAlready (f : Feeder) (kind : OpKind) (origin : Origin) (permit : Option Bool) (s : State) :
    State × List HuntNotice :=
  let c : Completed := { op := newOperation s kind origin permit, outcome := .already, completed := s.partTime }
  (reportCompletion f c none (advanceOpId s), huntNotices f c none)

/-- The permit of a trip in flight after a request joins it (R41, R107): a PROTECTION request's own permit when none has
joined before, else yes only when both are yes. -/
def joinPermit (held : Option Bool) (asked : Option Bool) : Option Bool :=
  match held, asked with
  | h, none => h
  | none, some a => some a
  | some h, some a => some (h && a)

/-- A request joins the trip in flight: its origin is added at the tail of the requester list if it is not listed (R107). -/
def joinTrip (f : Feeder) (origin : Origin) (permit : Option Bool) (s : State) : State :=
  s.onFeeder f fun x =>
    { x with inFlight := x.inFlight.map fun y =>
        { y with op := { y.op with
            requesters := if y.op.requesters.contains origin then y.op.requesters else y.op.requesters ++ [origin],
            permit := joinPermit y.op.permit permit } } }

/-- A trip supersedes the close in flight: the new trip is admitted in its place at once, and the close completes SUPERSEDED, its
report naming the trip (R108). -/
def supersede (f : Feeder) (closeOp : Operation) (origin : Origin) (permit : Option Bool) (s : State) :
    State × List HuntNotice :=
  let c : Completed := { op := closeOp, outcome := .superseded, completed := s.partTime }
  (reportCompletion f c (some (s.opCounter, origin)) (admitOp f .trip origin permit s), huntNotices f c (some origin))

/-- A TRIP request that has passed the lock rule, by the first row of R106 that matches. -/
def requestTrip (f : Feeder) (origin : Origin) (permit : Option Bool) (s : State) :
    State × SwitchAnswer × List HuntNotice :=
  match (s.feeder f).inFlight with
  | some y =>
    if y.op.kind = .trip then (joinTrip f origin permit s, .joined y.op.id, [])
    else
      let r := supersede f y.op origin permit s
      (r.1, .admitted s.opCounter, r.2)
  | none =>
    if (s.feeder f).position = .opened then
      let r := completeAlready f .trip origin permit s
      (r.1, .already s.opCounter, r.2)
    else (admitOp f .trip origin permit s, .admitted s.opCounter, [])

/-- The kind of the operation in flight on a feeder. -/
def inFlightKind (s : State) (f : Feeder) : Option OpKind := (s.feeder f).inFlight.map fun y => y.op.kind

/-- A port's CLOSE request after the lock rule, by the checks 2 to 7 of R109. -/
def requestPortClose (f : Feeder) (p : Port) (s : State) : State × SwitchAnswer × List HuntNotice :=
  let x := s.feeder f
  if x.ar.state = .deadTime ∨ x.ar.state = .closing then (s, .refused .state, [])
  else if inFlightKind s f = some .trip then (s, .refused .state, [])
  else if inFlightKind s f = some .close then (s, .refused .busy, [])
  else if x.position = .closed then
    let r := completeAlready f .close (.port p) none s
    (r.1, .already s.opCounter, r.2)
  else if x.positionFault ≠ none then (s, .refused .state, [])
  else if holdsHoldOpen s f then (s, .refused .state, [])
  else (admitOp f .close (.port p) none s, .admitted s.opCounter, [])

/-- A CLOSE request of the sequencer or the hunt unit after the lock check, given the claim rule's answer (R110). -/
def requestBlockClose (f : Feeder) (origin : Origin) (blocked : Bool) (s : State) : State × SwitchAnswer :=
  let x := s.feeder f
  if inFlightKind s f = some .trip then (s, .refused .state)
  else if inFlightKind s f = some .close then (s, .refused .busy)
  else if x.position = .closed then ((completeAlready f .close origin none s).1, .already s.opCounter)
  else if x.positionFault ≠ none then (s, .refused .state)
  else if blocked then (s, .refused .blocked)
  else (admitOp f .close origin none s, .admitted s.opCounter)

/-- A RECLOSE close: not checked against the lock, and barred unless the block set is empty (R110). -/
def requestReclose (f : Feeder) (s : State) : State × SwitchAnswer := requestBlockClose f .reclose (!blockSetEmpty s f) s

/-- A HUNT close: barred by a port's lock and by the restore rule (R110, R119). -/
def requestHuntClose (f : Feeder) (s : State) : State × SwitchAnswer :=
  if (s.feeder f).lock.heldByPort then (s, .refused .held) else requestBlockClose f .hunt (restoreBlocked s f) s

/-- The end of an operation is reported to the input filter, which starts the transit timer of a fitted feeder whose position is
TRANSIT with nothing in flight, and to the fire level unit (R13, R114 step 5). -/
def reportEnd (f : Feeder) (s : State) : State :=
  let x := s.feeder f
  let s1 :=
    if s.fitted f = true ∧ x.inFlight = none ∧ x.position = .transit then
      s.onFeeder f fun y => { y with transitTimer := some (s.partTime + 2000) }
    else s
  judge f s1

/-- The operation in flight completes with an outcome: a failure broadcasts BREAKER_FAIL and places the BREAKER claim first
(R113); then the report of R114, steps 1 and 2. The notices are for the hunt unit; `reportEnd` follows them. -/
def completeInFlight (f : Feeder) (op : Operation) (outcome : OpOutcome) (s : State) : State × List HuntNotice :=
  let c : Completed := { op := op, outcome := outcome, completed := s.partTime }
  let s1 := s.onFeeder f fun x => { x with inFlight := none }
  let s2 :=
    if outcome = .failed then
      placeSystemClaim f .breaker
        (broadcast (.breakerFail f op.id op.kind op.requesters (s.feeder f).position) s1)
    else s1
  (reportCompletion f c none s2, huntNotices f c none)

/-! ### The switching lock -/

/-- Set a feeder's lock, broadcasting LOCK_CHANGE (R117, R118, R120, R121). -/
def changeLock (f : Feeder) (new : Lock) (cause : LockCause) (s : State) : State :=
  broadcast (.lockChange f (s.feeder f).lock.holder new.holder cause) (s.onFeeder f fun x => { x with lock := new })

/-- The hunt takes a feeder's lock: refused while a port holds it, accepted in silence while the hunt holds it (R118). -/
def huntTakeLock (f : Feeder) (s : State) : Option State :=
  match (s.feeder f).lock with
  | .free => some (judge f ((changeLock f .hunt .taken s).onHunt fun r => { r with locked := some f }))
  | .hunt => some (s.onHunt fun r => { r with locked := some f })
  | .port _ _ => none

/-- The hunt drops a feeder's lock: freed while the hunt holds it, else no change (R118). -/
def huntDropLock (f : Feeder) (s : State) : State :=
  match (s.feeder f).lock with
  | .hunt => judge f ((changeLock f .free .dropped s).onHunt fun r => { r with locked := none })
  | _ => s

/-- A port's lock lease is renewed by a request of its own that names the feeder and is taken (R119). -/
def renewLock (f : Feeder) (p : Port) (s : State) : State :=
  match (s.feeder f).lock with
  | .port q _ => if q = p then s.onFeeder f fun x => { x with lock := .port p (s.partTime + 300000) } else s
  | _ => s

end Sys2Proof.Machine
end

