-- ==== Sys2Proof/Machine/Hunt.lean ====
section
/-! DEFINITION. The earth-fault hunt unit (chapter 8): the steps of a hunt, what a completion, a dropout, an expiry, a request or
link loss does in each state, the end restores and the end. A step that leads at once to another step names it (`HuntGo`),
and `huntRun` takes the steps in turn until the hunt waits for an event. -/
namespace Sys2Proof.Machine

/-- What a hunt step leads to at once: waiting for an event, trial entry (with the sums of the window that led to it and the
cause of a hunt that starts with it), the next-candidate boundary, or the end of the hunt. -/
inductive HuntGo where
  | wait
  | trialEntry (sums : Option (Nat × Nat × Option Feeder)) (cause : Option HuntCause)
  | boundary
  | finish
  deriving DecidableEq, Repr

/-- Change the hunt state, broadcasting HUNT_STATE when it changes (section 8.5 example; DEDUCED, log 12). The resume point is held in
SUSPENDED alone (section 8.2). -/
def setHuntState (new : HuntState) (detail : HuntDetail) (s : State) : State :=
  let old := huntState s
  let s1 := s.onHunt fun r => { r with state := new, resume := if new = .suspended then r.resume else none }
  if old = new then s1 else sayHunt old new detail s1

/-- The hunt record of a hunt's level, as held (R148). -/
def huntLevelSettings (s : State) (h : HuntRun) : HuntSettings := s.huntSettings h.level

/-- Begin an identify window: its length is read, and the count and the sums are 0 (R150). -/
def beginWindow (s : State) : State :=
  match s.hunt with
  | none => s
  | some h =>
    s.onHunt fun r =>
      { r with window := some { length := (huntLevelSettings s h).identifyWindow, counted := 0, sums := .of fun _ => 0 } }

/-- Make a result pending: a pending suspend is cancelled (R161). -/
def setPending (res : HuntResult) (s : State) : State :=
  s.onHunt fun r => { r with pendingResult := some res, pendingSuspend := false }

/-- Make a result pending unless one is pending already (R161). -/
def setPendingIfNone (res : HuntResult) (s : State) : State :=
  match s.hunt with
  | some h => if h.pendingResult = none then setPending res s else s
  | none => s

/-- End the step in progress: no step deadline, no window, no watch flag. -/
def endStep (s : State) : State :=
  s.onHunt fun r => { r with deadline := none, window := none, tripInWatch := none, dropoutSeen := none }

/-- Set the isolate outcome of the identified feeder. -/
def setIsolate (o : IsolateOutcome) (s : State) : State :=
  s.onHunt fun r => { r with identified := r.identified.map fun i => { i with isolate := o } }

/-- Set the end restore outcome of the identified feeder. -/
def setEndRestore (o : EndRestore) (s : State) : State :=
  s.onHunt fun r => { r with identified := r.identified.map fun i => { i with endRestore := some o } }

/-- Set the outcome of the candidate at a place of the list. -/
def setCandidate (i : Nat) (o : CandidateOutcome) (s : State) : State :=
  s.onHunt fun r => { r with candidates := r.candidates.map fun cs => cs.modify i fun c => { c with outcome := o } }

/-- Conclude the current candidate with an outcome: it is no longer the current candidate. -/
def concludeCandidate (i : Nat) (o : CandidateOutcome) (s : State) : State :=
  (setCandidate i o s).onHunt fun r => { r with current := none, op := none }

/-- The candidate at a place of the list. -/
def HuntRun.candidateAt (h : HuntRun) (i : Nat) : Option Candidate := (h.candidates.getD [])[i]?

/-- The current candidate's feeder. -/
def HuntRun.currentFeeder (h : HuntRun) : Option Feeder :=
  match h.current with
  | some i => (h.candidateAt i).map (·.feeder)
  | none => none

/-- Enter SUSPENDED with a resume point: the hunt holds no window, deadline or pending suspend (R165). -/
def suspendHunt (point : ResumePoint) (s : State) : State :=
  setHuntState .suspended { resume := some point }
    ((endStep s).onHunt fun r => { r with pendingSuspend := false, resume := some point })

/-! ### Starting a hunt -/

/-- A new hunt's record, before its first step (R149). -/
def newHunt (cause : HuntCause) (s : State) : HuntRun :=
  { state := .idle, cause := cause, startTime := s.partTime, level := detectorLevel s, window := none, sums := none,
    identified := none, dropoutSeen := none, candidates := none, current := none, locked := none, op := none, deadline := none,
    tripInWatch := none, pendingSuspend := false, resume := none, pendingResult := none }

/-- Start a hunt: its first step is IDENTIFY when identify enable reads yes, else trial entry (R149). -/
def startHunt (cause : HuntCause) (s : State) : State × HuntGo :=
  let s1 := { s with hunt := some (newHunt cause s) }
  if (s.huntSettings (detectorLevel s)).identifyEnable then
    (setHuntState .identify { cause := some cause } (beginWindow s1), .wait)
  else (s1, .trialEntry none (some cause))

/-! ### Trial entry and candidates -/

/-- The feeder may not be a candidate: it is the identified feeder, already opened or failed (R156). -/
def excludedAsIdentified (h : HuntRun) (f : Feeder) : Bool :=
  match h.identified with
  | some i =>
    decide (i.feeder = f) &&
      (decide (i.isolate = .misidentified) || decide (i.isolate = .tripFailed) || decide (i.isolate = .opened))
  | none => false

/-- The conditions of a candidate at trial entry (R156). -/
def candidateFit (s : State) (h : HuntRun) (f : Feeder) : Bool :=
  s.fitted f && decide ((s.feeder f).position = .closed) && decide ((s.feeder f).meas = .valid) &&
    !(s.commissioning f).huntExclude && !excludedAsIdentified h f

/-- The candidate list: the fit feeders by trial priority, and by feeder number within a priority (R156). -/
def candidateList (s : State) (h : HuntRun) : List Candidate :=
  ([1, 2, 3, 4, 5, 6].flatMap fun k =>
    Feeder.all.filter fun f => candidateFit s h f && decide ((s.commissioning f).trialPriority = k)).map
    fun f => { feeder := f, outcome := .notTried }

/-- Trial entry (R156, R165): a boundary at which a pending result ends the hunt and a pending suspend suspends it; else
the candidate list is built when trial enable reads yes, and the hunt ends NOT_FOUND when it reads no. The state its HUNT_STATE names is
TRIAL_OPEN even where no candidate is then tripped (DESIGN CHOICE, log 19), and when trial enable reads no the candidate list stays absent
(R156, R171; DESIGN CHOICE, log 53). -/
def trialEntry (sums : Option (Nat × Nat × Option Feeder)) (cause : Option HuntCause) (s : State) : State × HuntGo :=
  match s.hunt with
  | none => (s, .wait)
  | some h =>
    if h.pendingResult.isSome then (s, .finish)
    else if h.pendingSuspend then (suspendHunt .trialEntry s, .wait)
    else
      let s0 := endStep s
      if (huntLevelSettings s h).trialEnable = false then
        let s1 := if sums.isSome then setHuntState .trialOpen { sums := sums, cause := cause } s0 else s0
        (setPending .notFound s1, .finish)
      else
        let cs := candidateList s h
        let s1 := s0.onHunt fun r => { r with candidates := some cs, resume := none }
        (setHuntState .trialOpen { sums := sums, cause := cause, candidates := some cs } s1, .boundary)

/-- The place of the first candidate still NOT_TRIED (R157). -/
def nextUntried (h : HuntRun) : Option Nat := (h.candidates.getD []).findIdx? fun c => decide (c.outcome = .notTried)

/-- A candidate that has passed its checks: it becomes the current candidate, the hunt takes its lock and sends a HUNT trip, and
enters TRIAL_OPEN (R157). A turn that follows a refused close at once sends a HUNT_STATE of its own (DESIGN CHOICE, log 49). -/
def tripCandidate (i : Nat) (f : Feeder) (s : State) : State × HuntGo :=
  let s1 := setHuntState .trialOpen {} (s.onHunt fun r => { r with current := some i, resume := none })
  match huntTakeLock f s1 with
  | none => (concludeCandidate i .skippedLocked s1, .boundary)
  | some s2 =>
    let r := requestTrip f .hunt none s2
    match r.2.1 with
    | .admitted id => (r.1.onHunt fun x => { x with op := some { id := id, kind := .trip, feeder := f } }, .wait)
    | .joined id => (r.1.onHunt fun x => { x with op := some { id := id, kind := .trip, feeder := f } }, .wait)
    | .already _ => (huntDropLock f (concludeCandidate i .skippedOpen r.1), .boundary)
    | .refused _ => (huntDropLock f (concludeCandidate i .skippedLocked r.1), .boundary)

/-- A candidate's turn: the checks of R157 in order. -/
def candidateTurn (i : Nat) (f : Feeder) (s : State) : State × HuntGo :=
  let x := s.feeder f
  if x.lock.heldByPort then (concludeCandidate i .skippedLocked s, .boundary)
  else if s.fitted f = false ∨ x.position ≠ .closed then (concludeCandidate i .skippedOpen s, .boundary)
  else if restoreBlocked s f then (concludeCandidate i .skippedBlocked s, .boundary)
  else tripCandidate i f s

/-- The next-candidate boundary (R157, R165): a pending result ends the hunt; with no candidate left, or trial enable reading
no, it ends NOT_FOUND; a pending suspend suspends it; else the next candidate takes its turn. -/
def nextCandidate (s : State) : State × HuntGo :=
  match s.hunt with
  | none => (s, .wait)
  | some h =>
    if h.pendingResult.isSome then (s, .finish)
    else
      match nextUntried h with
      | none => (setPending .notFound s, .finish)
      | some i =>
        if h.pendingSuspend then (suspendHunt .nextCandidate s, .wait)
        else if (huntLevelSettings s h).trialEnable = false then (setPending .notFound s, .finish)
        else
          match h.candidateAt i with
          | some c => candidateTurn i c.feeder s
          | none => (s, .wait)

/-! ### Restores -/

/-- A restore outcome is set: the lock is dropped, and a candidate's restore leads to the next-candidate boundary, an end restore
on to the end of the hunt (R160). -/
def concludeRestore (f : Feeder) (healthy : Bool) (s : State) : State × HuntGo :=
  match s.hunt with
  | none => (s, .wait)
  | some h =>
    match h.current with
    | some i => (huntDropLock f (concludeCandidate i (if healthy then .healthyRestored else .stranded) s), .boundary)
    | none =>
      (huntDropLock f ((setEndRestore (if healthy then .healthyRestored else .stranded) s).onHunt fun r =>
        { r with op := none }), .finish)

/-- Enter TRIAL_RESTORE for a feeder and send a HUNT close (R160). The entry sends HUNT_STATE even where the close is refused and the next
turn follows at once (DESIGN CHOICE, log 49). -/
def restoreFeeder (f : Feeder) (s : State) : State × HuntGo :=
  let s1 := setHuntState .trialRestore {} (endStep s)
  let r := requestHuntClose f s1
  match r.2 with
  | .admitted id => (r.1.onHunt fun x => { x with op := some { id := id, kind := .close, feeder := f } }, .wait)
  | .joined _ => concludeRestore f false r.1
  | .already _ => concludeRestore f true r.1
  | .refused _ => concludeRestore f false r.1

/-! ### Ending a hunt -/

/-- The found feeder of a result (section 8.6). -/
def foundFeeder (h : HuntRun) : Option Feeder :=
  match h.pendingResult with
  | some .foundIdentified => h.identified.map (·.feeder)
  | some .foundByTrial => ((h.candidates.getD []).find? fun c => decide (c.outcome = .found)).map (·.feeder)
  | _ => none

/-- The last hunt record that a hunt leaves (R171). -/
def huntReport (s : State) (h : HuntRun) (res : HuntResult) : HuntReport :=
  { cause := h.cause, startTime := h.startTime, endTime := s.partTime, level := h.level, sums := h.sums,
    identified := h.identified, candidates := h.candidates, result := res, found := foundFeeder h }

/-- The result leaves a standing displacement UNRESOLVED (R164). -/
def HuntResult.leavesUnresolved : HuntResult → Bool
  | .notFound => true
  | .abortedRequest => true
  | .abortedLink => true
  | _ => false

/-- A detector that is not QUIET enters UNRESOLVED with its accumulation held, and broadcasts HUNT_STATE with the Vn of the frame at which
the hunt ends, absent where it ends at no frame or at one whose bus record is invalid (R1, R147, R164; DEDUCED, log 18). -/
def detectorUnresolved (vn : Option Nat) (s : State) : State :=
  if s.detector.state = .quiet then s
  else
    broadcast
      (.huntState s.detector.state .unresolved (huntState s) (huntState s) (detectorLevel s) { vn := vn })
      { s with detector := { s.detector with state := .unresolved } }

/-- The hunt becomes IDLE, at a frame with this Vn or at no frame: the last hunt record is written, HUNT_STATE and HUNT_RESULT are
broadcast, and the detector acts on the result (R164). -/
def becomeIdle (vn : Option Nat) (h : HuntRun) (res : HuntResult) (s : State) : State × HuntGo :=
  let rep := huntReport s h res
  let s1 := sayHunt h.state .idle {} { s with hunt := none, lastHunt := some rep }
  let s2 := broadcast (.huntResult rep) s1
  if res.leavesUnresolved then (detectorUnresolved vn s2, .wait)
  else if s2.detector.state = .detected ∧ huntEnabled s2 = true then startHunt .detected s2
  else (s2, .wait)

/-- An outcome set without a restore for a feeder whose lock the hunt may hold: the lock is dropped (R163). -/
def outcomeWithoutRestore (f : Feeder) (setIt : State → State) (s : State) : State × HuntGo :=
  (huntDropLock f (setIt s), .finish)

/-- The end restore of the identified feeder (R163, step 2). -/
def restoreIdentified (f : Feeder) (s : State) : State × HuntGo :=
  let x := s.feeder f
  if s.fitted f = false ∨ x.lock.heldByPort = true then outcomeWithoutRestore f (setEndRestore .stranded) s
  else
    match x.position with
    | .closed => outcomeWithoutRestore f (setEndRestore .notNeeded) s
    | .transit => outcomeWithoutRestore f (setEndRestore .stranded) s
    | .invalid => outcomeWithoutRestore f (setEndRestore .stranded) s
    | .opened =>
      match huntTakeLock f s with
      | none => outcomeWithoutRestore f (setEndRestore .stranded) s
      | some s1 => restoreFeeder f s1

/-- The identified feeder still to be restored: its isolate outcome is MISIDENTIFIED or OPENED and R163 has not judged it. -/
def identifiedToRestore (h : HuntRun) : Option Feeder :=
  match h.identified with
  | some i =>
    if i.endRestore = none ∧ (i.isolate = .misidentified ∨ i.isolate = .opened) then some i.feeder else none
  | none => none

/-- The current candidate to be restored first: the hunt opened it and its outcome is not yet set (R163, step 1). -/
def candidateToRestore (h : HuntRun) : Option (Nat × Feeder) :=
  match h.current with
  | some i =>
    match h.candidateAt i with
    | some c => if c.outcome = .notTried then some (i, c.feeder) else none
    | none => none
  | none => none

/-- The end of a hunt with its pending result: the end restores one at a time, then IDLE; FOUND_IDENTIFIED makes none (R163, R164). A current
candidate whose position is not OPEN gets no close, R163 standing before R159 and R160 (DEDUCED, log 14). -/
def finishHunt (vn : Option Nat) (s : State) : State × HuntGo :=
  match s.hunt with
  | none => (s, .wait)
  | some h =>
    match h.pendingResult with
    | none => (s, .wait)
    | some res =>
      if res = .foundIdentified then becomeIdle vn h res s
      else
        match candidateToRestore h with
        | some (i, f) =>
          if (s.feeder f).position = .opened then restoreFeeder f s
          else
            outcomeWithoutRestore f
              (concludeCandidate i (if (s.feeder f).position = .closed then .healthyRestored else .stranded)) s
        | none =>
          match identifiedToRestore h with
          | some f => restoreIdentified f s
          | none => becomeIdle vn h res s

/-- One step of the hunt. -/
def huntStep (vn : Option Nat) (g : HuntGo) (s : State) : State × HuntGo :=
  match g with
  | .wait => (s, .wait)
  | .trialEntry sums cause => trialEntry sums cause s
  | .boundary => nextCandidate s
  | .finish => finishHunt vn s

/-- The most steps one event can make the hunt take at once: two trial lists of six candidates with their entries and ends, and
the restores between them, need fewer (DESIGN CHOICE, log 30). -/
def huntFuel : Nat := 40

/-- Take hunt steps in turn until the hunt waits. -/
def huntRun (vn : Option Nat) : Nat → State × HuntGo → State
  | 0, x => x.1
  | n + 1, (s, g) => if g = .wait then s else huntRun vn n (huntStep vn g s)

/-- Carry a hunt step through to its wait, at a frame with this Vn or at no frame. -/
def huntSettle (vn : Option Nat) (x : State × HuntGo) : State := huntRun vn huntFuel x

/-- A found result: the HUNT claim is placed on the found feeder, then its lock is dropped (R162). -/
def foundOn (f : Feeder) (res : HuntResult) (s : State) : State × HuntGo :=
  (huntDropLock f (placeSystemClaim f .hunt (setPending res (endStep s))), .finish)

/-! ### Events -/

/-- The hunt's trip of the identified feeder has completed (R154). -/
def isolateDone (h : HuntRun) (f : Feeder) (outcome : OpOutcome) (s : State) : State × HuntGo :=
  let s1 := s.onHunt fun r => { r with op := none }
  let seen := decide (h.dropoutSeen = some true)
  if outcome = .done then
    if seen then foundOn f .foundIdentified (setIsolate .found s1)
    else if h.pendingResult.isSome then (endStep s1, .finish)
    else
      let s2 := endStep s1
      (setHuntState .confirm {}
        (s2.onHunt fun r => { r with deadline := some (s.partTime + (huntLevelSettings s h).confirmTime) }), .wait)
  else
    let o : IsolateOutcome := if outcome = .already then .skippedOpen else .tripFailed
    let s2 := huntDropLock f (setIsolate o (endStep s1))
    if h.pendingResult.isSome then (s2, .finish)
    else if seen then (setPending .clearedSpontaneous s2, .finish)
    else (s2, .trialEntry none none)

/-- The hunt's trip of a candidate has completed (R158). -/
def trialTripDone (h : HuntRun) (i : Nat) (f : Feeder) (outcome : OpOutcome) (s : State) : State × HuntGo :=
  let s1 := s.onHunt fun r => { r with op := none }
  if outcome = .done then
    if h.pendingResult.isSome then restoreFeeder f s1
    else
      (setHuntState .trialWatch {}
        (s1.onHunt fun r =>
          { r with deadline := some (s.partTime + (huntLevelSettings s h).trialWatchTime), tripInWatch := some false }), .wait)
  else (huntDropLock f (concludeCandidate i .tripFailed s1), .boundary)

/-- The completion of the hunt's own operation reaches the hunt, with what the switching unit hands it: a superseded close strands its feeder
whatever the origin of the superseding trip (R114, R154, R158, R160). -/
def huntOpDone (f : Feeder) (id : Nat) (kind : OpKind) (outcome : OpOutcome) (_superseding : Option Origin) (s : State) :
    State × HuntGo :=
  match s.hunt with
  | none => (s, .wait)
  | some h =>
    match h.op with
    | none => (s, .wait)
    | some op =>
      if op.feeder = f ∧ op.id = id ∧ op.kind = kind then
        match h.state, h.current with
        | .isolate, _ => isolateDone h f outcome s
        | .trialOpen, some i => trialTripDone h i f outcome s
        | .trialRestore, _ => concludeRestore f (decide (outcome = .done)) s
        | _, _ => (s, .wait)
      else (s, .wait)

/-- A protection trip done on a feeder reaches the hunt (R152, R159). -/
def huntProtectionTrip (f : Feeder) (s : State) : State :=
  match s.hunt with
  | none => s
  | some h =>
    match h.state with
    | .identify => beginWindow s
    | .trialWatch =>
      if h.currentFeeder = some f then s else s.onHunt fun r => { r with tripInWatch := some true }
    | _ => s

/-- The notices of a completion reach the hunt unit, in order, at a frame with this Vn or at no frame (R114). -/
def deliver (vn : Option Nat) (ns : List HuntNotice) (s : State) : State :=
  ns.foldl (fun acc n =>
    match n with
    | .opDone f id kind outcome sup => huntSettle vn (huntOpDone f id kind outcome sup acc)
    | .protectionTripDone f => huntProtectionTrip f acc) s

/-- A dropout of the displacement detector reaches the hunt (R146, R150, R154, R155, R158, R159, R161, R166). -/
def huntDropout (s : State) : State × HuntGo :=
  match s.hunt with
  | none => (s, .wait)
  | some h =>
    match h.state with
    | .idle => (s, .wait)
    | .identify => (setPending .clearedSpontaneous (endStep s), .finish)
    | .isolate => (s.onHunt fun r => { r with dropoutSeen := some true }, .wait)
    | .confirm =>
      match h.identified with
      | none => (s, .wait)
      | some i =>
        if (s.feeder i.feeder).position = .opened then foundOn i.feeder .foundIdentified (setIsolate .found s)
        else
          (huntDropLock i.feeder (setIsolate .notOpen (setPending .clearedSpontaneous (endStep s))), .finish)
    | .trialOpen => (setPendingIfNone .clearedSpontaneous s, .wait)
    | .trialWatch =>
      match h.current, h.currentFeeder with
      | some i, some f =>
        if (s.feeder f).position ≠ .opened then
          (setHuntState .trialRestore {} (setPending .clearedSpontaneous (endStep s)), .finish)
        else if h.tripInWatch = some true then (setPending .clearedByProtection (endStep s), .finish)
        else foundOn f .foundByTrial ((setCandidate i .found s).onHunt fun r => { r with current := none })
      | _, _ => (s, .wait)
    | .trialRestore => (setPendingIfNone .clearedSpontaneous s, .wait)
    | .suspended => (setPending .clearedSpontaneous s, .finish)

/-- ABORT_HUNT taken, or link loss told, while a hunt is in progress: by the table of R168 (R168, R169). -/
def abortHunt (res : HuntResult) (s : State) : State × HuntGo :=
  match s.hunt with
  | none => (s, .wait)
  | some h =>
    if h.pendingResult.isSome then (s, .wait)
    else
      match h.state with
      | .idle => (s, .wait)
      | .isolate => (setPending res s, .wait)
      | .trialOpen => (setPending res s, .wait)
      | .trialRestore => (setPending res s, .wait)
      | .identify => (setPending res (endStep s), .finish)
      | .confirm => (setPending res (endStep s), .finish)
      | .trialWatch => (setPending res (endStep s), .finish)
      | .suspended => (setPending res s, .finish)

/-- The confirm deadline is reached: the identified feeder is MISIDENTIFIED and left open, its lock is dropped, and the hunt goes to
trial entry (R155). -/
def confirmExpired (h : HuntRun) (s : State) : State × HuntGo :=
  match h.identified with
  | none => (s, .wait)
  | some i => (huntDropLock i.feeder (setIsolate .misidentified (endStep s)), .trialEntry none none)

/-! ### Identify -/

/-- What one record adds to its feeder's sum: its In when the position is CLOSED, the record valid and not saturated, and the
direction FORWARD (R150). -/
structure ScoredRecord where
  residual : Nat
  valid : Bool
  saturated : Bool
  forward : Bool
  deriving DecidableEq, Repr

/-- The sums after one counted frame (R150). -/
def scoreFrame (s : State) (rs : PerFeeder ScoredRecord) (sums : PerFeeder Nat) : PerFeeder Nat :=
  .of fun f =>
    let r := rs.get f
    if s.fitted f = true ∧ (s.feeder f).position = .closed ∧ r.valid = true ∧ r.saturated = false ∧ r.forward = true then
      sums.get f + r.residual
    else sums.get f

/-- The feeder of the highest sum, the lowest-numbered of those that share it (R151). -/
def highestSum (sums : PerFeeder Nat) (fs : List Feeder) : Option Feeder :=
  fs.find? fun f => fs.all fun g => decide (sums.get g ≤ sums.get f)

/-- The judgement of a window: s1, s2 and the feeder of s1 (R151). -/
def windowSums (sums : PerFeeder Nat) (fs : List Feeder) : Nat × Nat × Option Feeder :=
  match highestSum sums fs with
  | none => (0, 0, none)
  | some f => (sums.get f, ((fs.filter fun g => decide (g ≠ f)).map sums.get).foldl max 0, some f)

/-- ISOLATE's entry for the identified feeder: skipped when it is not fitted or not CLOSED or a port holds its lock; else the hunt
takes its lock and sends a HUNT trip (R153). -/
def enterIsolate (f : Feeder) (w : Nat × Nat × Option Feeder) (s : State) : State × HuntGo :=
  let s1 := setHuntState .isolate { sums := some w }
    ((endStep s).onHunt fun r =>
      { r with identified := some { feeder := f, isolate := .opened, endRestore := none }, dropoutSeen := some false })
  if s.fitted f = false ∨ (s.feeder f).position ≠ .closed then (endStep (setIsolate .skippedOpen s1), .trialEntry none none)
  else
    match huntTakeLock f s1 with
    | none => (endStep (setIsolate .skippedLocked s1), .trialEntry none none)
    | some s2 =>
      let r := requestTrip f .hunt none s2
      match r.2.1 with
      | .admitted id => (r.1.onHunt fun x => { x with op := some { id := id, kind := .trip, feeder := f } }, .wait)
      | .joined id => (r.1.onHunt fun x => { x with op := some { id := id, kind := .trip, feeder := f } }, .wait)
      | .already _ => (huntDropLock f (endStep (setIsolate .skippedOpen r.1)), .trialEntry none none)
      | .refused _ => (huntDropLock f (endStep (setIsolate .skippedLocked r.1)), .trialEntry none none)

/-- The end of a window: IDENTIFIED when s1 reaches the threshold times W and the ratio to s2, else INCONCLUSIVE (R151). -/
def endWindow (h : HuntRun) (w : Window) (s : State) : State × HuntGo :=
  let set := huntLevelSettings s h
  let r := windowSums w.sums s.fittedFeeders
  let s1 := s.onHunt fun x => { x with sums := some w.sums }
  match r.2.2 with
  | some f =>
    if set.identifyThreshold * w.length ≤ r.1 ∧ set.identifyRatio * r.2.1 ≤ 100 * r.1 then enterIsolate f r s1
    else (s1, .trialEntry (some r) none)
  | none => (s1, .trialEntry (some r) none)

/-- A frame reaches a hunt in IDENTIFY: it is counted and scored, and the last frame of the window ends it (R150, R151). -/
def countFrame (rs : PerFeeder ScoredRecord) (s : State) : State × HuntGo :=
  match s.hunt with
  | none => (s, .wait)
  | some h =>
    match h.state, h.window with
    | .identify, some w =>
      let w1 : Window := { w with counted := w.counted + 1, sums := scoreFrame s rs w.sums }
      let s1 := s.onHunt fun r => { r with window := some w1 }
      if w1.length ≤ w1.counted then endWindow h w1 s1 else (s1, .wait)
    | _, _ => (s, .wait)

end Sys2Proof.Machine
end

