-- ==== Sys2Proof/Machine/Frames.lean ====
section
/-! DEFINITION. The measurement frame (R1, R2, R194): its layout, and its fields as the intake reads them. -/
namespace Sys2Proof.Machine

/-- The direction of residual current in a record (R1). -/
inductive Direction where
  | none | forward | reverse
  deriving DecidableEq, Repr

/-- A feeder record as the intake reads it (R1). -/
structure FeederRecord where
  ia : Nat
  ib : Nat
  ic : Nat
  residual : Nat
  direction : Direction
  valid : Bool
  saturated : Bool
  deriving DecidableEq, Repr

/-- A measurement frame as the intake reads it (R1): the interval and Vn are clamped. -/
structure MeasFrame where
  sequence : Nat
  interval : Nat
  vn : Nat
  busValid : Bool
  records : PerFeeder FeederRecord
  deriving DecidableEq, Repr

/-- The length of a measurement frame (R194). -/
def frameLength : Nat := 69

/-- A run of bytes of a frame, as a number. -/
def numberAt (bs : List Byte) (start len : Nat) : Nat := readNumber ((bs.drop start).take len)

/-- One bit of a byte of a frame. -/
def bitAt (bs : List Byte) (place bit : Nat) : Bool := ((bs[place]?).getD 0#8).getLsbD bit

/-- A direction by its code; a code that names none of the three is read as NONE (R1, R194). -/
def Direction.ofCode : Nat → Direction
  | 1 => .forward
  | 2 => .reverse
  | _ => .none

/-- The interval as read: clamped to 5,000 to 50,000 µs (R1). -/
def clampInterval (n : Nat) : Nat := max 5000 (min 50000 n)

/-- Vn as read: clamped to 1,000 (R1). -/
def clampVn (n : Nat) : Nat := min 1000 n

/-- Where the record of a feeder begins (R194). -/
def recordStart (f : Feeder) : Nat := 7 + 10 * (f.number - 1)

/-- A current as read: 65,535 in a valid record with its saturated flag set (R1). -/
def readCurrent (saturated : Bool) (n : Nat) : Nat := if saturated then 65535 else n

/-- The record of a feeder as read (R1). -/
def readRecord (bs : List Byte) (f : Feeder) : FeederRecord :=
  let b := recordStart f
  let valid := bitAt bs (b + 9) 0
  let saturated := valid && bitAt bs (b + 9) 1
  { ia := readCurrent saturated (numberAt bs b 2)
    ib := readCurrent saturated (numberAt bs (b + 2) 2)
    ic := readCurrent saturated (numberAt bs (b + 4) 2)
    residual := readCurrent saturated (numberAt bs (b + 6) 2)
    direction := .ofCode (numberAt bs (b + 8) 1)
    valid := valid
    saturated := saturated }

/-- The frame a unit of the link is, when its length is that of a measurement frame and its check matches (R2). -/
def parseFrame (bs : List Byte) : Option MeasFrame :=
  if bs.length ≠ frameLength then none
  else if bs.drop 67 ≠ checkField (bs.take 67) then none
  else
    some
      { sequence := numberAt bs 0 1
        interval := clampInterval (numberAt bs 1 3)
        vn := clampVn (numberAt bs 4 2)
        busValid := bitAt bs 6 0
        records := .of (readRecord bs) }

end Sys2Proof.Machine
end

