-- ==== Sys2Proof/Machine/Elements.lean ====
section
/-! DEFINITION. The protection elements (chapter 2): inverse-time arithmetic, the moves of the four elements, the trip record and
the protection trip. -/
namespace Sys2Proof.Machine

/-- The multiple of pickup in sixteenths, at most 640 (R25). -/
def multiple16 (current pickup : Nat) : Nat := min 640 (16 * current / pickup)

/-- The curve time in ms at TMS 1.00 for a multiple in sixteenths (R26). -/
def curveTime : List Breakpoint → Nat → Nat
  | [], _ => 0
  | [p], _ => p.t
  | p :: q :: rest, m =>
    if m < p.m then p.t
    else if m < q.m then p.t - (p.t - q.t) * (m - p.m) / (q.m - p.m)
    else curveTime (q :: rest) m

/-- The operating time in ms (R27). -/
def operatingTime (t tms minTime : Nat) : Nat := max (max (t * tms / 100) minTime) 10

/-- The increment at a record at or above pickup, in millionths (R28). -/
def increment (interval opTime : Nat) : Nat := max 1 (interval * 1000 / opTime)

/-- The decrement of a reset under TIMED, in millionths (R28). -/
def decrement (interval resetTime : Nat) : Nat := max 1 (interval * 1000 / resetTime)

/-- Where an operating quantity stands against pickup and dropout (R21, R33). -/
inductive Region where
  | atPickup | band | belowDropout
  deriving DecidableEq, Repr

/-- The region of a quantity with a dropout at the given percentage of pickup (R21, R33). -/
def regionOf (percent pickup current : Nat) : Region :=
  if pickup ≤ current then .atPickup
  else if 100 * current < percent * pickup then .belowDropout
  else .band

/-- Progress after a reset (R23). -/
def resetProgress (set : IdmtSettings) (interval progress : Nat) : Nat :=
  match set.resetMode with
  | .instant => 0
  | .timed => progress - decrement interval set.resetTime

/-- An IDMT element after an increment: OPERATED when progress reaches full scale (R22). -/
def incremented (set : IdmtSettings) (curve : List Breakpoint) (current interval : Nat) (e : Element) : Element :=
  let t := curveTime curve (multiple16 current set.pickup)
  let p := min 1000000 (e.amount + increment interval (operatingTime t set.tms set.minTime))
  { state := if p = 1000000 then .operated else .pickedUp, amount := p }

/-- One evaluated record moves an IDMT element (R21 to R24). -/
def idmtMove (set : IdmtSettings) (curve : List Breakpoint) (current interval : Nat) (e : Element) : Element :=
  match e.state, regionOf 95 set.pickup current with
  | .operated, .atPickup => e
  | .operated, .band => e
  | _, .atPickup => incremented set curve current interval e
  | .pickedUp, .band => { e with state := .held }
  | .held, .band => e
  | _, _ => { state := .normal, amount := resetProgress set interval e.amount }

/-- A definite-time element after an accumulation: OPERATED when it reaches the delay (R31, R33). -/
def accumulated (delay interval : Nat) (e : Element) : Element :=
  { state := if delay * 1000 ≤ e.amount + interval then .operated else .pickedUp, amount := e.amount + interval }

/-- One evaluated record moves a high-set element (R31, R32). -/
def highSetMove (pickup delay current interval : Nat) (e : Element) : Element :=
  if pickup ≤ current then
    if e.state = .operated then e else accumulated delay interval e
  else .rest

/-- One evaluated record moves an SEF element, by the region of its record (R33 to R35). -/
def sefMove (delay interval : Nat) (region : Region) (e : Element) : Element :=
  match e.state, region with
  | .operated, .atPickup => e
  | .operated, .band => e
  | _, .atPickup => accumulated delay interval e
  | .pickedUp, .band => { e with state := .held }
  | .held, .band => e
  | _, _ => .rest

/-- The region of a record for the SEF element: under a directional setting a record that is not FORWARD counts as below dropout
(R34). -/
def sefRegion (g : Group) (r : FeederRecord) : Region :=
  if g.sefDirectional = true ∧ r.direction ≠ .forward then .belowDropout else regionOf 90 g.sefPickup r.residual

/-- The largest phase current of a record (R18). -/
def largestPhase (r : FeederRecord) : Nat := max (max r.ia r.ib) r.ic

/-- A feeder with each of its elements moved once by an evaluated record; a disabled element stays at NORMAL with 0
(R19, R20). -/
def moveElements (eff : Effective) (interval : Nat) (r : FeederRecord) (x : FeederState) : FeederState :=
  let g := eff.group
  { x with
    phaseIdmt := idmtMove g.phase eff.phaseCurve (largestPhase r) interval x.phaseIdmt
    highSet := if g.highSetEnable then highSetMove g.highSetPickup g.highSetDelay (largestPhase r) interval x.highSet else .rest
    earthIdmt := if g.earthEnable then idmtMove g.earth eff.earthCurve r.residual interval x.earthIdmt else .rest
    sef := if g.sefEnable then sefMove g.sefDelay interval (sefRegion g r) x.sef else .rest }

/-- One element of a feeder. -/
def FeederState.element (x : FeederState) : ElementName → Element
  | .phaseIdmt => x.phaseIdmt
  | .highSet => x.highSet
  | .earthIdmt => x.earthIdmt
  | .sef => x.sef

/-- The elements that entered OPERATED between two moments, in the order of the trip record (R37). -/
def enteredOperated (before after : FeederState) : List ElementName :=
  [ElementName.phaseIdmt, .highSet, .earthIdmt, .sef].filter fun n =>
    decide ((before.element n).state ≠ .operated) && decide ((after.element n).state = .operated)

/-- The reclose permit of one element in a group (R40). -/
def Group.permit (g : Group) : ElementName → Bool
  | .phaseIdmt => g.permitPhase
  | .highSet => g.permitHighSet
  | .earthIdmt => g.permitEarth
  | .sef => g.permitSef

/-- The trip record that a feeder writes (R37, R40). -/
def newTripRecord (s : State) (x : FeederState) (fire : FeederFire) (r : FeederRecord) (els : List ElementName) : TripRecord :=
  { elements := els, ia := r.ia, ib := r.ib, ic := r.ic, residual := r.residual, level := fire.applied, shot := x.ar.shotsUsed,
    permitted := els.all fire.effective.group.permit, time := s.partTime }

/-- At a frame with this Vn, a PROTECTION trip request reaches the switching unit, and the hunt unit takes its notices (R38, R106 to
R108). -/
def protectionTrip (vn : Option Nat) (f : Feeder) (permit : Bool) (s : State) : State :=
  let r := requestTrip f .protection (some permit) s
  deliver vn r.2.2 r.1

/-- Write the trip record, broadcast TRIP and send the PROTECTION trip, when elements have entered OPERATED (R37, R38). -/
def raiseTrip (vn : Option Nat) (f : Feeder) (r : FeederRecord) (fire : FeederFire) (els : List ElementName) (s : State) : State :=
  if els.isEmpty then s
  else
    let rec_ := newTripRecord s (s.feeder f) fire r els
    protectionTrip vn f rec_.permitted
      (broadcast (.trip f rec_) (s.onFeeder f fun x => { x with tripRecord := some rec_ }))

/-- The feeder reports its elements to the fire level unit, which judges it (R42, R76). -/
def reportElements (f : Feeder) (s : State) : State :=
  judge f (s.onFeeder f fun x => { x with pickedUp := x.anyPickedUp })

/-- The elements of a fitted feeder are reached by an accepted frame with this Vn: a held record changes nothing (R20), an evaluated one moves
each element once, raises a trip and is reported. -/
def reachElements (vn : Option Nat) (f : Feeder) (interval : Nat) (r : FeederRecord) (s : State) : State :=
  let x := s.feeder f
  if x.meas ≠ .valid then s
  else
    match x.fire with
    | none => s
    | some fire =>
      let y := moveElements fire.effective interval r x
      reportElements f (raiseTrip vn f r fire (enteredOperated x y) (s.onFeeder f fun _ => y))

end Sys2Proof.Machine
end

