-- ==== Sys2Proof/Machine/Intake.lean ====
section
/-! DEFINITION. The measurement intake, the displacement detector and the input filter (chapter 1, section 8.1), and what their
conclusions hand on. -/
namespace Sys2Proof.Machine

/-! ### Feeder measurement states -/

/-- The move of a feeder's measurement state by one record (R4). -/
def measMove (valid : Bool) (x : FeederState) : FeederState :=
  match x.meas, valid with
  | .awaiting, true =>
    if x.recoveryCount + 1 = 5 then { x with meas := .valid, recoveryCount := 0 }
    else { x with recoveryCount := x.recoveryCount + 1 }
  | .awaiting, false => { x with recoveryCount := 0 }
  | .valid, true => x
  | .valid, false => { x with meas := .holding, invalidCount := 1 }
  | .holding, true => { x with meas := .valid, invalidCount := 0 }
  | .holding, false =>
    if x.invalidCount + 1 = 3 then { x with meas := .lost, invalidCount := 3, recoveryCount := 0 }
    else { x with invalidCount := x.invalidCount + 1 }
  | .lost, true =>
    if x.recoveryCount + 1 = 5 then { x with meas := .valid, invalidCount := 0, recoveryCount := 0 }
    else { x with recoveryCount := x.recoveryCount + 1 }
  | .lost, false => { x with recoveryCount := 0 }

/-- A fitted feeder's record moves its measurement state, with its entries and its MEASURE claim (R4, R6). -/
def measRecord (f : Feeder) (valid : Bool) (s : State) : State :=
  let old := (s.feeder f).meas
  let s1 := s.onFeeder f (measMove valid)
  let new := (s1.feeder f).meas
  if new = .lost ∧ old ≠ .lost then
    placeSystemClaim f .measure (broadcast (.measLost f .records) s1)
  else if new = .valid ∧ (old = .lost ∨ old = .awaiting) then
    removeSystemClaim f .measure (broadcast (.measRestored f) s1)
  else s1

/-! ### The displacement detector -/

/-- The detector after one frame with a valid bus record (R145, R146). -/
def detectorMove (set : HuntSettings) (vn interval : Nat) (d : Detector) : Detector :=
  let acc : Detector :=
    { state := if set.detectTime * 1000 ≤ d.amount + interval then .detected else .timing, amount := d.amount + interval }
  if set.vnPickup ≤ vn then
    match d.state with
    | .quiet => acc
    | .timing => acc
    | _ => d
  else if vn < set.dropout then { state := .quiet, amount := 0 }
  else d

/-- The detector moves on an accepted frame; it broadcasts its entries to DETECTED and its dropouts from DETECTED and UNRESOLVED,
hands a dropout to the hunt, and starts a hunt at its entry to DETECTED (R146, R147). -/
def detectorFrame (vn : Nat) (valid : Bool) (interval : Nat) (s : State) : State :=
  if valid = false then s
  else
    let old := s.detector
    let new := detectorMove (s.huntSettings (detectorLevel s)) vn interval old
    let s1 := { s with detector := new }
    let said := broadcast
      (.huntState old.state new.state (huntState s) (huntState s) (detectorLevel s) { vn := some vn }) s1
    if new.state = .detected ∧ old.state ≠ .detected then
      if s.hunt.isNone ∧ huntEnabled s = true then huntSettle (some vn) (startHunt .detected said) else said
    else if new.state = .quiet ∧ old.state ≠ .quiet then
      huntSettle (some vn) (huntDropout (if old.state = .timing then s1 else said))
    else s1

/-! ### Accepted frames -/

/-- The record as the hunt scores it (R150). -/
def FeederRecord.scored (r : FeederRecord) : ScoredRecord :=
  { residual := r.residual, valid := r.valid, saturated := r.saturated, forward := decide (r.direction = .forward) }

/-- The window of a hunt in IDENTIFY when a frame reaches the hunt unit, before the detector moves: it alone counts the frame
(R150, section 8.10 example; DEDUCED, log 38). -/
def windowOpen (s : State) : Bool := decide (huntState s = .identify)

/-- The Vn of a frame that a block may use: an invalid bus record carries none (R1). -/
def MeasFrame.usedVn (fr : MeasFrame) : Option Nat := if fr.busValid then some fr.vn else none

/-- The hunt unit is reached by an accepted frame: the detector first, then the window that was open before it (R150). -/
def huntFrame (fr : MeasFrame) (s : State) : State :=
  let s1 := detectorFrame fr.vn fr.busValid fr.interval s
  if windowOpen s && windowOpen s1 then
    huntSettle fr.usedVn (countFrame (.of fun f => (fr.records.get f).scored) s1)
  else s1

/-- An accepted frame makes the link UP, and moves the link-loss deadline (R2, R8, R9). -/
def acceptOnLink (fr : MeasFrame) (s : State) : State :=
  let s1 :=
    { s with link := .up, lastSequence := some fr.sequence, lastFrameTime := some s.partTime,
             linkDeadline := some (s.partTime + 100) }
  if s.link = .up then s1 else broadcast (.linkRestored fr.sequence) s1

/-- What the intake does with an accepted frame: the link, the measurement states in feeder order, the bus record, then the
elements of each fitted feeder, then the detector, then the hunt's window (R3). R3's bullets are no stated order, and R196 lets two blocks'
entries stand either way: that the elements act before the detector and the hunt is the model's choice (DESIGN CHOICE, log 61), and so is the
feeder order among the elements (R3, R20; DESIGN CHOICE, log 44). -/
def acceptFrame (fr : MeasFrame) (s : State) : State :=
  let s1 := acceptOnLink fr s
  let s2 := forFeeders s1.fittedFeeders (fun f => measRecord f (fr.records.get f).valid) s1
  let s3 := { s2 with bus := { vn := fr.vn, valid := fr.busValid } }
  let s4 := forFeeders s3.fittedFeeders (fun f => reachElements fr.usedVn f fr.interval (fr.records.get f)) s3
  huntFrame fr s4

/-- A unit delivered by the link: discarded when it is no whole frame or a duplicate, else accepted (R2). -/
def deliverUnit (bs : List Byte) (s : State) : State :=
  match parseFrame bs with
  | none => s
  | some fr => if s.lastSequence = some fr.sequence then s else acceptFrame fr s

/-- One fitted feeder at the link-loss expiry, the feeder already LOST: its MEAS_LOST, then its MEASURE claim (R8; DESIGN CHOICE, log 57). -/
def feederLinkLoss (old : PerFeeder FeederState) (f : Feeder) (s : State) : State :=
  let s1 := if (old.get f).meas = .lost then s else broadcast (.measLost f .link) s
  placeSystemClaim f .measure s1

/-- The link-loss expiry (R8): every fitted feeder becomes LOST, LINK_LOST is broadcast, and a running hunt is told (R169). The entries go
feeder by feeder, each feeder's MEAS_LOST and CLAIM_PLACED before the next feeder's, and LINK_LOST after them all; R8 and R196 give a part
of that order alone (DESIGN CHOICE, log 57). -/
def linkLoss (s : State) : State :=
  let s1 :=
    { s with link := .lost, linkDeadline := none, lastSequence := none, bus := { s.bus with valid := false } }
  let s2 := forFeeders s.fittedFeeders
    (fun f a => a.onFeeder f fun x => { x with meas := .lost, invalidCount := 3, recoveryCount := 0 }) s1
  let s3 := forFeeders s.fittedFeeders (feederLinkLoss s.feeders) s2
  huntSettle none (abortHunt .abortedLink (broadcast (.linkLost s.lastFrameTime) s3))

/-! ### The input filter -/

/-- One scan of one filtered input (R10). -/
def FilteredInput.scan (x : FilteredInput) (raw : Bool) : FilteredInput :=
  match x.level with
  | some l =>
    if raw = l then { x with count := 0 }
    else if x.count + 1 = 3 then { level := some raw, candidate := raw, count := 0 }
    else { x with candidate := raw, count := x.count + 1 }
  | none =>
    if x.count = 0 ∨ raw ≠ x.candidate then { x with candidate := raw, count := 1 }
    else if x.count + 1 = 3 then { level := some raw, candidate := raw, count := 0 }
    else { x with count := x.count + 1 }

/-- The position fault and the two timers of a fitted feeder at a change of position (R12 to R14): both timers stop and the fault
ends, a new INVALID starts the invalid timer, and a new TRANSIT with nothing in flight the transit timer. -/
def restartTimers (now : Nat) (x : FeederState) : FeederState :=
  { x with
    positionFault := none
    invalidTimer := if x.position = .invalid then some (now + 20) else none
    transitTimer := if x.position = .transit ∧ x.inFlight = none then some (now + 2000) else none }

/-- The operation in flight completes with an outcome: the completion, the hunt's notices, then the end of the operation
(R113, R114). -/
def completeOperation (f : Feeder) (op : Operation) (outcome : OpOutcome) (s : State) : State :=
  let r := completeInFlight f op outcome s
  reportEnd f (deliver none r.2 r.1)

/-- BREAKER_EXTERNAL with the last completed operation's op id and outcome (R115, R116). -/
def sayExternal (f : Feeder) (m : Movement) (s : State) : State :=
  let l := (s.feeder f).lastOp
  broadcast (.breakerExternal f m (l.map (·.op.id)) (l.map (·.outcome))) s

/-- The switching unit is handed a position change to CLOSED or OPEN (R111, R112, R115, R116; DEDUCED, log 17). -/
def switchingEnd (f : Feeder) (closedNow : Bool) (s : State) : State :=
  let x := s.feeder f
  let s1 := s.onFeeder f fun y => { y with lastEnd := if closedNow then .closed else .opened }
  match x.inFlight with
  | some y =>
    if (y.op.kind = .trip ∧ closedNow = false) ∨ (y.op.kind = .close ∧ closedNow = true) then
      completeOperation f y.op .done s1
    else s1
  | none =>
    if closedNow = false ∧ x.lastEnd = .closed then
      judged f (seqExternalOpen f) (sayExternal f .opened s1)
    else if closedNow = true ∧ x.lastEnd = .opened then
      judged f (seqExternalClose f) (sayExternal f .closed s1)
    else s1

/-- A change of decoded position is handed on: the fault timers of a fitted feeder, then the switching unit (R11 to R14). -/
def positionChanged (f : Feeder) (s : State) : State :=
  let s1 := if s.fitted f then s.onFeeder f (restartTimers s.partTime) else s
  match (s1.feeder f).position with
  | .closed => switchingEnd f true s1
  | .opened => switchingEnd f false s1
  | .transit => s1
  | .invalid => s1

/-- One scan of a feeder's two contacts: a changed position is handed on, and when the second contact first settles the start-up
position is handed to the sequencer (R10, R11, R125). Where both happen at one scan the change is handed on first (DESIGN CHOICE,
log 43). -/
def scanFeeder (f : Feeder) (raw : ContactLevels) (s : State) : State :=
  let x := s.feeder f
  let s1 := s.onFeeder f fun y =>
    { y with closedContact := y.closedContact.scan raw.closedContact, openContact := y.openContact.scan raw.openContact }
  let s2 := if (s1.feeder f).position = x.position then s1 else positionChanged f s1
  if x.settled = false ∧ (s2.feeder f).settled = true then judged f (seqStartPosition f) s2 else s2

/-- One scan of FIRE_BAN: a change of the level read recomputes the three targets (R72), D1, D2 and D3 in turn, each with its feeders before
the next (DESIGN CHOICE, log 47). -/
def scanFireBan (raw : Bool) (s : State) : State :=
  let s1 := { s with fireBan := s.fireBan.scan raw }
  if fireBanActive s1 = fireBanActive s then s1 else District.all.foldl (fun acc d => recomputeTarget d acc) s1

/-- One scan of CREW_KEY: at a change to inactive the crew queue is emptied (R199). -/
def scanCrewKey (raw : Bool) (s : State) : State :=
  let s1 := { s with crewKey := s.crewKey.scan raw }
  if crewKeyActive s = true ∧ crewKeyActive s1 = false then s1.withQueue .crew [] else s1

/-- One scan of SET_PROTECT, whose level the store reads at its protect checks (R15, R54). -/
def scanSetProtect (raw : Bool) (s : State) : State := { s with setProtect := s.setProtect.scan raw }

/-- One scan of every filtered input: the feeders' contacts in feeder order, then FIRE_BAN, CREW_KEY and SET_PROTECT (R10;
DESIGN CHOICE, log 13). -/
def scanInputs (lv : ScanLevels) (s : State) : State :=
  scanSetProtect lv.setProtect (scanCrewKey lv.crewKey (scanFireBan lv.fireBan
    (forFeeders Feeder.all (fun f => scanFeeder f (lv.contacts.get f)) s)))

/-- A position fault is declared: the timer stops, the BREAKER claim is placed if absent, and POSITION_FAULT is broadcast
(R12, R13; DEDUCED, log 37). -/
def declareFault (f : Feeder) (k : FaultKind) (s : State) : State :=
  let s1 := s.onFeeder f fun x =>
    match k with
    | .invalid => { x with invalidTimer := none, positionFault := some .invalid }
    | .transit => { x with transitTimer := none, positionFault := some .transit }
  broadcast (.positionFault f k) (placeSystemClaim f .breaker s1)

end Sys2Proof.Machine
end

