-- ==== Sys2Proof/Machine/Requests.lean ====
section
/-! DEFINITION. The requests, their codes, rights, targets and payload lengths, and the status codes (R181 to R184, R192,
R194). -/
namespace Sys2Proof.Machine

/-- The thirty-five requests (R194). -/
inductive Request where
  | identify | readPart | readFeeder | readClaims | readEvents | readFire | readEffective | readRecord | readStore | readEdit
  | readHunt | trip | close | takeLock | dropLock | placeClaim | releaseClaim | forceRelease | clearBreakerFail
  | clearHuntClaim | clearStoreHold | setFireRequest | setFloor | setBanLevel | openEdit | setField | commitEdit | discardEdit
  | setProtectMode | freezeSettings | startHunt | suspendHunt | resumeHunt | abortHunt | restart
  deriving DecidableEq, Repr

/-- The request code (R194). -/
def Request.code : Request → Nat
  | .identify => 0x01 | .readPart => 0x02 | .readFeeder => 0x03 | .readClaims => 0x04 | .readEvents => 0x05
  | .readFire => 0x06 | .readEffective => 0x07 | .readRecord => 0x08 | .readStore => 0x09 | .readEdit => 0x0A
  | .readHunt => 0x0B | .trip => 0x10 | .close => 0x11 | .takeLock => 0x12 | .dropLock => 0x13 | .placeClaim => 0x18
  | .releaseClaim => 0x19 | .forceRelease => 0x1A | .clearBreakerFail => 0x1B | .clearHuntClaim => 0x1C
  | .clearStoreHold => 0x1D | .setFireRequest => 0x20 | .setFloor => 0x21 | .setBanLevel => 0x22 | .openEdit => 0x28
  | .setField => 0x29 | .commitEdit => 0x2A | .discardEdit => 0x2B | .setProtectMode => 0x2C | .freezeSettings => 0x2D
  | .startHunt => 0x30 | .suspendHunt => 0x31 | .resumeHunt => 0x32 | .abortHunt => 0x33 | .restart => 0x3F

/-- The request of a code, or none: UNKNOWN (R181, check 2). -/
def Request.ofCode : Nat → Option Request
  | 0x01 => some .identify | 0x02 => some .readPart | 0x03 => some .readFeeder | 0x04 => some .readClaims
  | 0x05 => some .readEvents | 0x06 => some .readFire | 0x07 => some .readEffective | 0x08 => some .readRecord
  | 0x09 => some .readStore | 0x0A => some .readEdit | 0x0B => some .readHunt | 0x10 => some .trip | 0x11 => some .close
  | 0x12 => some .takeLock | 0x13 => some .dropLock | 0x18 => some .placeClaim | 0x19 => some .releaseClaim
  | 0x1A => some .forceRelease | 0x1B => some .clearBreakerFail | 0x1C => some .clearHuntClaim
  | 0x1D => some .clearStoreHold | 0x20 => some .setFireRequest | 0x21 => some .setFloor | 0x22 => some .setBanLevel
  | 0x28 => some .openEdit | 0x29 => some .setField | 0x2A => some .commitEdit | 0x2B => some .discardEdit
  | 0x2C => some .setProtectMode | 0x2D => some .freezeSettings | 0x30 => some .startHunt | 0x31 => some .suspendHunt
  | 0x32 => some .resumeHunt | 0x33 => some .abortHunt | 0x3F => some .restart
  | _ => none

/-- Which ports a request may come from, in the rows of R182. -/
inductive Rights where
  | every | networkAndPanel | networkOnly
  deriving DecidableEq, Repr

/-- The row of R182 a request stands in. -/
def Request.rights : Request → Rights
  | .identify | .readFeeder | .readClaims | .readEvents | .trip | .takeLock | .dropLock | .placeClaim | .releaseClaim => .every
  | .readPart | .readFire | .readEffective | .readRecord | .readStore | .readHunt | .close | .clearBreakerFail
  | .clearHuntClaim | .setFireRequest | .openEdit | .setField | .commitEdit | .discardEdit | .readEdit | .startHunt
  | .suspendHunt | .resumeHunt | .abortHunt => .networkAndPanel
  | .forceRelease | .clearStoreHold | .setFloor | .setBanLevel | .setProtectMode | .freezeSettings | .restart => .networkOnly

/-- The role of a port has the right (R182). -/
def Rights.allow : Rights → Port → Bool
  | .every, _ => true
  | .networkAndPanel, .crew => false
  | .networkAndPanel, _ => true
  | .networkOnly, .network => true
  | .networkOnly, _ => false

/-- The target kinds of R183. -/
inductive TargetKind where
  | feeder | feederOrAll | district | noTarget
  deriving DecidableEq, Repr

/-- The target kind of a request (R183). -/
def Request.targetKind : Request → TargetKind
  | .trip | .close | .takeLock | .dropLock | .placeClaim | .clearBreakerFail | .clearHuntClaim | .clearStoreHold
  | .readEffective | .readFeeder | .releaseClaim | .forceRelease => .feeder
  | .readClaims => .feederOrAll
  | .setFireRequest | .setFloor | .setBanLevel => .district
  | _ => .noTarget

/-- The request carries the fitted check (R183). -/
def Request.fittedCheck : Request → Bool
  | .trip | .close | .takeLock | .dropLock | .placeClaim | .clearBreakerFail | .clearHuntClaim | .clearStoreHold
  | .readEffective => true
  | _ => false

/-- The target byte lies in the range of the kind (R183). -/
def TargetKind.admits (k : TargetKind) (target : Nat) : Bool :=
  match k with
  | .feeder => within 1 6 target
  | .feederOrAll => within 0 6 target
  | .district => within 1 3 target
  | .noTarget => decide (target = 0)

/-- The payload of a PLACE_CLAIM has one of its two lengths, with the presence byte of that length (R192). -/
def placeClaimPayload (payload : List Byte) : Bool :=
  (decide (payload.length = 5) && decide (payload[4]? = some 0#8)) ||
  (decide (payload.length = 9) && decide (payload[4]? = some 1#8))

/-- The payload is of a length the request takes (R192). -/
def Request.payloadFits (q : Request) (payload : List Byte) : Bool :=
  match q with
  | .readEvents | .setFireRequest | .setFloor | .setBanLevel | .setProtectMode => decide (payload.length = 1)
  | .readRecord | .openEdit | .releaseClaim => decide (payload.length = 3)
  | .placeClaim => placeClaimPayload payload
  | .forceRelease => decide (payload.length = 4)
  | .setField => decide (payload.length = 5)
  | _ => decide (payload.length = 0)

/-- The feeder that a request names as target (R119, R183). -/
def Request.targetFeeder (q : Request) (target : Nat) : Option Feeder :=
  match q.targetKind with
  | .feeder => Feeder.ofNumber target
  | .feederOrAll => Feeder.ofNumber target
  | _ => none

/-- The feeder that a request names fails its fitted check (R181, check 5). -/
def fittedFails (s : State) (q : Request) (target : Nat) : Bool :=
  match q.fittedCheck, q.targetFeeder target with
  | true, some f => !s.fitted f
  | _, _ => false

/-- The requesting port has the right: the role's row of R182, and for the crew port CREW_KEY reading active (R181,
check 3; R185). -/
def hasRight (s : State) (q : Request) (p : Port) : Bool :=
  q.rights.allow p && (decide (p ≠ .crew) || crewKeyActive s)

/-- The status code (section 9.4). -/
def Status.code : Status → Nat
  | .ok => 0x00 | .accepted => 0x01 | .badFrame => 0x02 | .unknown => 0x03 | .rights => 0x04 | .range => 0x05
  | .notFitted => 0x06 | .state => 0x07 | .held => 0x08 | .busy => 0x09 | .full => 0x0A | .noEdit => 0x0B
  | .inconsistent => 0x0C | .isProtected => 0x0D | .frozen => 0x0E

/-- The checks 1 to 5 that the port unit makes on a request whose frame check has passed: the first that fails (R181). -/
def portCheck (s : State) (q : Request) (p : Port) (target : Nat) (payload : List Byte) : Option Status :=
  if 64 < payload.length then some .badFrame
  else if hasRight s q p = false then some .rights
  else if (q.targetKind.admits target && q.payloadFits payload) = false then some .range
  else if fittedFails s q target then some .notFitted
  else none

end Sys2Proof.Machine
end

