-- ==== Sys2Proof/WellFormed.lean ====
section
/-! DEFINITION. Which commands are well formed: the operands that the manual gives the row. A command outside these still has a
meaning (an overlong payload is answered BAD_FRAME, a transfer type that is none of R178 changes nothing). -/
namespace Sys2Proof

/-- A tag that the identity of a port claim can carry: 1 to 9999 for holder CREW, 0 for the others (R86, R87). -/
def Port.tagFits : Port → Nat → Bool
  | .crew, tag => decide (1 ≤ tag) && decide (tag ≤ 9999)
  | .network, tag => decide (tag = 0)
  | .panel, tag => decide (tag = 0)

/-- The most payload bytes of a request (R194). -/
def payloadLimit : Nat := 64

/-- A payload that fits a request frame (R194). -/
def payloadFits (payload : List Byte) : Bool := decide (payload.length ≤ payloadLimit)

/-- A type byte that is neither that of a request transfer nor that of a fetch transfer (R178). -/
def typeIsBad (type : Byte) : Bool := decide (type ≠ 0x01#8) && decide (type ≠ 0x02#8)

/-- The operands lie in the ranges that the row allows. -/
def Instr.wellFormed : Instr → Bool
  | .powerOn _ => true
  | .powerLoss => true
  | .resetAsserted => true
  | .resetReleased _ => true
  | .measurementFrame _ => true
  | .linkLossDeadline => true
  | .inputScan _ => true
  | .invalidTimerExpiry _ => true
  | .transitTimerExpiry _ => true
  | .tripDeadline _ => true
  | .closeDeadline _ => true
  | .deadTimeExpiry _ => true
  | .reclaimExpiry _ => true
  | .confirmExpiry => true
  | .trialWatchExpiry => true
  | .editLeaseExpiry => true
  | .lockLeaseExpiry _ => true
  | .claimExpiry _ holder tag => holder.tagFits tag
  | .storeWriteBegins => true
  | .storeWriteComplete => true
  | .loweringApplied _ => true
  | .fetch _ _ => true
  | .badTransferType _ type => typeIsBad type
  | .frameEndedEarly _ => true
  | .collidedFrame _ => true
  | .crewStall _ => true
  | .badFrame _ => true
  | .unknownRequest _ => true
  | .identify _ _ payload => payloadFits payload
  | .readPart _ _ payload => payloadFits payload
  | .readFeeder _ _ payload => payloadFits payload
  | .readClaims _ _ payload => payloadFits payload
  | .readEvents _ _ payload => payloadFits payload
  | .readFire _ _ payload => payloadFits payload
  | .readEffective _ _ payload => payloadFits payload
  | .readRecord _ _ payload => payloadFits payload
  | .readStore _ _ payload => payloadFits payload
  | .readEdit _ _ payload => payloadFits payload
  | .readHunt _ _ payload => payloadFits payload
  | .trip _ _ payload => payloadFits payload
  | .close _ _ payload => payloadFits payload
  | .takeLock _ _ payload => payloadFits payload
  | .dropLock _ _ payload => payloadFits payload
  | .placeClaim _ _ payload => payloadFits payload
  | .releaseClaim _ _ payload => payloadFits payload
  | .forceRelease _ _ payload => payloadFits payload
  | .clearBreakerFail _ _ payload => payloadFits payload
  | .clearHuntClaim _ _ payload => payloadFits payload
  | .clearStoreHold _ _ payload => payloadFits payload
  | .setFireRequest _ _ payload => payloadFits payload
  | .setFloor _ _ payload => payloadFits payload
  | .setBanLevel _ _ payload => payloadFits payload
  | .openEdit _ _ payload => payloadFits payload
  | .setField _ _ payload => payloadFits payload
  | .commitEdit _ _ payload => payloadFits payload
  | .discardEdit _ _ payload => payloadFits payload
  | .setProtectMode _ _ payload => payloadFits payload
  | .freezeSettings _ _ payload => payloadFits payload
  | .startHunt _ _ payload => payloadFits payload
  | .suspendHunt _ _ payload => payloadFits payload
  | .resumeHunt _ _ payload => payloadFits payload
  | .abortHunt _ _ payload => payloadFits payload
  | .restart _ _ payload => payloadFits payload
  | .requestFrameBegins _ => true

end Sys2Proof
end

