-- ==== Sys2Proof/Decode.lean ====
section
/-! DEFINITION. What a word of the opcode table, and what the bytes of a transfer, spell; and the request frame that spells a
request (R175, R181, R194). The table gives bits to no row. -/
namespace Sys2Proof

/-- The command a word spells by the table's bits: the table gives none, so no word spells a command. -/
def decodeTableWord (_nbits _w : Nat) : Option Instr := none

namespace Machine

/-- The command that a request is, with its port, target and payload. -/
def Request.command (q : Request) (p : Port) (target : Byte) (payload : List Byte) : Instr :=
  match q with
  | .identify => .identify p target payload
  | .readPart => .readPart p target payload
  | .readFeeder => .readFeeder p target payload
  | .readClaims => .readClaims p target payload
  | .readEvents => .readEvents p target payload
  | .readFire => .readFire p target payload
  | .readEffective => .readEffective p target payload
  | .readRecord => .readRecord p target payload
  | .readStore => .readStore p target payload
  | .readEdit => .readEdit p target payload
  | .readHunt => .readHunt p target payload
  | .trip => .trip p target payload
  | .close => .close p target payload
  | .takeLock => .takeLock p target payload
  | .dropLock => .dropLock p target payload
  | .placeClaim => .placeClaim p target payload
  | .releaseClaim => .releaseClaim p target payload
  | .forceRelease => .forceRelease p target payload
  | .clearBreakerFail => .clearBreakerFail p target payload
  | .clearHuntClaim => .clearHuntClaim p target payload
  | .clearStoreHold => .clearStoreHold p target payload
  | .setFireRequest => .setFireRequest p target payload
  | .setFloor => .setFloor p target payload
  | .setBanLevel => .setBanLevel p target payload
  | .openEdit => .openEdit p target payload
  | .setField => .setField p target payload
  | .commitEdit => .commitEdit p target payload
  | .discardEdit => .discardEdit p target payload
  | .setProtectMode => .setProtectMode p target payload
  | .freezeSettings => .freezeSettings p target payload
  | .startHunt => .startHunt p target payload
  | .suspendHunt => .suspendHunt p target payload
  | .resumeHunt => .resumeHunt p target payload
  | .abortHunt => .abortHunt p target payload
  | .restart => .restart p target payload

/-- The request a command is, if it is one. -/
def requestOf : Instr → Option Request
  | .powerOn _ => none
  | .powerLoss => none
  | .resetAsserted => none
  | .resetReleased _ => none
  | .measurementFrame _ => none
  | .linkLossDeadline => none
  | .inputScan _ => none
  | .invalidTimerExpiry _ => none
  | .transitTimerExpiry _ => none
  | .tripDeadline _ => none
  | .closeDeadline _ => none
  | .deadTimeExpiry _ => none
  | .reclaimExpiry _ => none
  | .confirmExpiry => none
  | .trialWatchExpiry => none
  | .editLeaseExpiry => none
  | .lockLeaseExpiry _ => none
  | .claimExpiry _ _ _ => none
  | .storeWriteBegins => none
  | .storeWriteComplete => none
  | .loweringApplied _ => none
  | .fetch _ _ => none
  | .badTransferType _ _ => none
  | .frameEndedEarly _ => none
  | .collidedFrame _ => none
  | .crewStall _ => none
  | .badFrame _ => none
  | .unknownRequest _ => none
  | .identify _ _ _ => some .identify
  | .readPart _ _ _ => some .readPart
  | .readFeeder _ _ _ => some .readFeeder
  | .readClaims _ _ _ => some .readClaims
  | .readEvents _ _ _ => some .readEvents
  | .readFire _ _ _ => some .readFire
  | .readEffective _ _ _ => some .readEffective
  | .readRecord _ _ _ => some .readRecord
  | .readStore _ _ _ => some .readStore
  | .readEdit _ _ _ => some .readEdit
  | .readHunt _ _ _ => some .readHunt
  | .trip _ _ _ => some .trip
  | .close _ _ _ => some .close
  | .takeLock _ _ _ => some .takeLock
  | .dropLock _ _ _ => some .dropLock
  | .placeClaim _ _ _ => some .placeClaim
  | .releaseClaim _ _ _ => some .releaseClaim
  | .forceRelease _ _ _ => some .forceRelease
  | .clearBreakerFail _ _ _ => some .clearBreakerFail
  | .clearHuntClaim _ _ _ => some .clearHuntClaim
  | .clearStoreHold _ _ _ => some .clearStoreHold
  | .setFireRequest _ _ _ => some .setFireRequest
  | .setFloor _ _ _ => some .setFloor
  | .setBanLevel _ _ _ => some .setBanLevel
  | .openEdit _ _ _ => some .openEdit
  | .setField _ _ _ => some .setField
  | .commitEdit _ _ _ => some .commitEdit
  | .discardEdit _ _ _ => some .discardEdit
  | .setProtectMode _ _ _ => some .setProtectMode
  | .freezeSettings _ _ _ => some .freezeSettings
  | .startHunt _ _ _ => some .startHunt
  | .suspendHunt _ _ _ => some .suspendHunt
  | .resumeHunt _ _ _ => some .resumeHunt
  | .abortHunt _ _ _ => some .abortHunt
  | .restart _ _ _ => some .restart
  | .requestFrameBegins _ => none

/-- The request frame before its check field: the code, the target, the payload length and the payload (R194). -/
def frameBody (code : Nat) (target : Byte) (payload : List Byte) : List Byte :=
  be1 code ++ [target] ++ be2 payload.length ++ payload

/-- The request frame of a code, a target and a payload (R194). -/
def frameOf (code : Nat) (target : Byte) (payload : List Byte) : List Byte :=
  frameBody code target payload ++ checkField (frameBody code target payload)

/-- The request frame that spells a request (R194). -/
def encodeRequest (q : Request) (target : Byte) (payload : List Byte) : List Byte := frameOf q.code target payload

/-- The command that the bytes of one request transfer spell: none before the first byte, a frame ended early before its last byte,
and else, by checks 1 and 2 of R181, a bad frame, an unknown request or the request; bytes after the frame are ignored
(R175). -/
def decodeTransfer (p : Port) (bs : List Byte) : Option Instr :=
  match bs with
  | [] => none
  | b0 :: tail =>
    match tail with
    | target :: hi :: lo :: rest =>
      let len := readNumber [hi, lo]
      if rest.length < len + 2 then some (.frameEndedEarly p)
      else if 64 < len ∨ (rest.drop len).take 2 ≠ checkField (b0 :: target :: hi :: lo :: rest.take len) then some (.badFrame p)
      else
        match Request.ofCode b0.toNat with
        | none => some (.unknownRequest p)
        | some q => some (q.command p target (rest.take len))
    | _ => some (.frameEndedEarly p)

end Machine

end Sys2Proof
end

