-- ==== Sys2Proof/Machine/Ports.lean ====
section
/-! DEFINITION. The port units (chapter 9): how a frame meets its port, how a response is made ready and fetched, and how a request
is checked, taken and answered. -/
namespace Sys2Proof.Machine

/-- What the owner of a request answers when it is taken: a response made at once, a response withheld until the store write
completes (R177), or none at all (R189). -/
inductive Reply where
  | made (status : Status) (payload : List Byte)
  | withheld
  | silent
  deriving DecidableEq, Repr

/-- A refusal that carries no payload, or OK without content (R184). -/
def Reply.plain (status : Status) : Reply := .made status []

/-- OK without content (R184). -/
def Reply.ok : Reply := .plain .ok

/-- A HELD refusal names the holder or owner in one byte (R184). -/
def Reply.heldBy (h : Holder) : Reply := .made .held (be1 h.code)

/-- An ACCEPTED answer carries the op id (R184). -/
def Reply.accepted (id : Nat) : Reply := .made .accepted (be2 id)

/-- The response frame, with its check (R194). -/
def Response.frame (r : Response) : List Byte :=
  let body := be1 r.status.code ++ be1 ((if r.collided then 1 else 0) + (if r.incomplete then 2 else 0)) ++
    be2 r.payload.length ++ r.payload
  body ++ checkField body

/-- A response is made ready: it takes the port's two flags, which are then cleared, and the port becomes WAITING (R177). -/
def PortUnit.respond (st : Status) (payload : List Byte) (u : PortUnit) : PortUnit :=
  { state := .waiting { status := st, collided := u.collided, incomplete := u.incomplete, payload := payload },
    collided := false, incomplete := false }

/-- Make a response ready at a port (R177). -/
def respond (p : Port) (st : Status) (payload : List Byte) (s : State) : State := s.onPort p (PortUnit.respond st payload)

/-- The state with what a port has just sent. -/
def sends (p : Port) (d : Driven) (s : State) : State := { s with sent := s.sent.set p d }

/-- What a port sends in a transfer that is no fetch: a serial port 0xFF for every byte (section 9.2, R178, R190), the crew port no byte, as
it only acknowledges (R179). -/
def idleLine : Port → Driven
  | .crew => .bytes []
  | _ => .allOnes

/-- A transfer that is no fetch goes over a port's line (section 9.2, R178, R179). At the crew port it is the write under way come to its end,
or a write of its own, and none is under way after it but the one that REQUEST_FRAME_BEGINS then begins (log 60). -/
def listens (p : Port) (s : State) : State :=
  { sends p (idleLine p) s with crewWrite := if p = .crew then none else s.crewWrite }

/-- A transfer that is no fetch: the port unit of the running part acts on it; held by RESET the part sends and changes nothing else, and
without power it does nothing (R16, R190). -/
def transfer (p : Port) (act : State → State) (s : State) : State :=
  match s.phase with
  | .off => s
  | .held => sends p (idleLine p) s
  | .running => act (listens p s)

/-- A frame is discarded at its end because the port is EXECUTING or WAITING (R176; DESIGN CHOICE, log 56). -/
def collide (p : Port) (s : State) : State := s.onPort p fun u => { u with collided := true }

/-- A frame is discarded because it did not arrive whole: the port returns to IDLE (R175). -/
def discardIncomplete (p : Port) (s : State) : State := s.onPort p fun u => { u with state := .idle, incomplete := true }

/-- The port unit holds RECEIVING while it checks and takes a request (R175, R187). -/
def receive (p : Port) (s : State) : State := s.onPort p fun u => { u with state := .receiving }

/-- A whole request frame is sent to a port: where it reaches the port unit it is checked when the port is IDLE or RECEIVING, else collided;
to a crew port that does not acknowledge its address nothing arrives (R175, R176, R179). -/
def frameArrives (p : Port) (check : State → State) (s : State) : State :=
  if reaches s p = false then s
  else
    match (s.ports.get p).state with
    | .idle => check (receive p s)
    | .receiving => check (receive p s)
    | .executing _ _ => collide p s
    | .waiting _ => collide p s

/-- The answer of a request's owner reaches the port unit (R177, R189). -/
def answer (q : Request) (p : Port) (target : Nat) (r : State × Reply) : State :=
  match r.2 with
  | .made st payload => respond p st payload r.1
  | .withheld => r.1.onPort p fun u => { u with state := .executing q.code target }
  | .silent => r.1

/-- A taken request that names a feeder renews the lease of the lock its port holds there, whatever its status (R119). -/
def renewNamed (q : Request) (p : Port) (target : Nat) (s : State) : State :=
  match q.targetFeeder target with
  | some f => renewLock f p s
  | none => s

/-- A request is checked, and when it passes it is taken: the lock lease is renewed, its owner acts, and the answer is made or
withheld (R177, R181). -/
def checkRequest (q : Request) (p : Port) (target : Nat) (payload : List Byte) (body : State → State × Reply) (s : State) :
    State :=
  match portCheck s q p target payload with
  | some st => respond p st [] s
  | none => answer q p target (body (renewNamed q p target s))

/-- A request frame with a good check arrives whole at a port of the running part (R16, R175, R181). -/
def takeRequest (q : Request) (p : Port) (target : Byte) (payload : List Byte) (body : State → State × Reply) (s : State) :
    State :=
  transfer p (frameArrives p (checkRequest q p target.toNat payload body)) s

/-- The owner's action on the feeder that the target byte names; a target that names none fails check 4 before this. -/
def onFeederTarget (target : Byte) (body : Feeder → State → State × Reply) (s : State) : State × Reply :=
  match Feeder.ofNumber target.toNat with
  | some f => body f s
  | none => (s, .plain .range)

/-- The owner's action on the district that the target byte names. -/
def onDistrictTarget (target : Byte) (body : District → State → State × Reply) (s : State) : State × Reply :=
  match District.ofNumber target.toNat with
  | some d => body d s
  | none => (s, .plain .range)

/-! ### Events of the ports other than requests -/

/-- A frame that fails check 1 or 2 is answered by the port unit, without a payload (R181). -/
def answerRefused (p : Port) (st : Status) (s : State) : State :=
  transfer p (frameArrives p (respond p st [])) s

/-- How long a crew transaction may go without a byte before it stalls, in ms of part time (R180). -/
def stallTime : Nat := 25

/-- A byte of a frame has arrived: at the crew port a write is under way from now on, and stalls unless another byte or its end comes within
25 ms (R180). -/
def watchStall (p : Port) (collides : Bool) (s : State) : State :=
  if p = .crew then { s with crewWrite := some { collides := collides, stall := s.partTime + stallTime } } else s

/-- The first byte of a request frame arrives (R175); at a port that is RECEIVING it is a further byte, with which a new 25 ms begins at the
crew port (R180; DESIGN CHOICE, log 60). At a port that is EXECUTING or WAITING it sets no flag yet: R176 does not say at which
moment of a colliding frame COLLIDED is set, and here it is when the frame ends, so a response made before that end does not carry it
(DESIGN CHOICE, log 56). A crew port that is EXECUTING does not acknowledge its address, and no write is under way there (R179). -/
def frameBegins (p : Port) (s : State) : State :=
  match (s.ports.get p).state with
  | .idle => watchStall p false (receive p s)
  | .receiving => watchStall p false s
  | .executing _ _ => s
  | .waiting _ => watchStall p true s

/-- A transfer that reaches the port ends after one or more bytes of a request frame and before its last (R175, R176, R179). -/
def frameEndsEarly (p : Port) (s : State) : State :=
  if reaches s p = false then s
  else
    match (s.ports.get p).state with
    | .idle => discardIncomplete p s
    | .receiving => discardIncomplete p s
    | .executing _ _ => collide p s
    | .waiting _ => collide p s

/-- A request frame arrives while the port is EXECUTING or WAITING (R176, R179); in any other state there is no collision (DEDUCED, log 35). -/
def frameCollides (p : Port) (s : State) : State :=
  if reaches s p = false then s
  else
    match (s.ports.get p).state with
    | .idle => s
    | .receiving => s
    | .executing _ _ => collide p s
    | .waiting _ => collide p s

/-- The write under way stalls, if its deadline is reached: the part releases the bus, and the frame is discarded as one ended early, or, where
the write began with the port WAITING, as COLLIDED alone (R180). -/
def stallDue (s : State) : State :=
  match s.crewWrite with
  | none => s
  | some w =>
    if w.stall ≤ s.partTime then
      let s1 := { s with crewWrite := none }
      if w.collides then collide .crew s1 else discardIncomplete .crew s1
    else s

/-- A stall in an acknowledged crew transaction (R180): of the write under way at its deadline, or of a transaction that no other command has
told of, which has then stood still for 25 ms (log 60). A write is discarded as a frame ended early, also after its address alone
(DEDUCED, log 27), and a read changes nothing. R180 does not say what a stall sets in a write begun in IDLE whose frame is already
whole, the port now WAITING or EXECUTING: here it is a stall like any other in that state, COLLIDED in WAITING and nothing of the port
unit in EXECUTING (DESIGN CHOICE, log 58). -/
def crewStalls (point : StallPoint) (s : State) : State :=
  match point with
  | .underWay => if s.phase = .running then stallDue s else s
  | .writeAfterByte => transfer .crew (frameEndsEarly .crew) s
  | .writeAfterAddress => transfer .crew (frameEndsEarly .crew) s
  | .read => s

/-- A serial transfer with this type byte; 0x01 and 0x02 are a request transfer without a frame byte and a fetch transfer without a
response byte, which change nothing of the port unit (R175, R178; DEDUCED, log 35). -/
def transferTyped (p : Port) (type : Byte) (s : State) : State :=
  if type = 0x01#8 ∨ type = 0x02#8 then s else s.onPort p fun u => { u with incomplete := true }

/-- The bytes sent in a fetch of `n` bytes when nothing waits: NOT_READY (R178). -/
def notReady (n : Nat) : List Byte := List.replicate n 0xFF#8

/-- The bytes sent in a fetch of `n` bytes while the port can answer nothing: NOT_READY, or none where the crew port does not
acknowledge its address (R178, R179, R190). -/
def unanswered (s : State) (p : Port) (n : Nat) : List Byte := if reaches s p then notReady n else []

/-- The bytes sent in a fetch of `n` bytes while this response waits: its frame, then 0xFF (R178, R179). -/
def fetched (r : Response) (n : Nat) : List Byte := r.frame.take n ++ notReady (n - r.frame.length)

/-- A fetch transfer or crew read in which the master clocks `n` bytes of the response (R178, R179): the response is consumed when its
last byte has been sent. Held by RESET the serial ports send 0xFF and the crew port does not acknowledge (R190). -/
def fetchAt (p : Port) (n : Nat) (s : State) : State :=
  match s.phase with
  | .off => s
  | .held => sends p (.bytes (unanswered s p n)) s
  | .running =>
    match (s.ports.get p).state with
    | .idle => sends p (.bytes (notReady n)) s
    | .receiving => sends p (.bytes (notReady n)) s
    | .executing _ _ => sends p (.bytes (unanswered s p n)) s
    | .waiting r =>
      let s1 := sends p (.bytes (fetched r n)) s
      if r.frame.length ≤ n then s1.onPort p fun u => { u with state := .idle } else s1

end Sys2Proof.Machine
end

