-- ==== Sys2Proof/Machine/StoreOps.lean ====
section
/-! DEFINITION. The settings store (chapter 3): held and written copies, the write queue, the edit buffer, and what a commit hands
on. -/
namespace Sys2Proof.Machine

/-! ### Records -/

/-- Change the cell of a record of the store, given content of the record's kind; the persisted claim record has no cell. -/
def Store.onCell (r : RecordName) (c : RecordContent) (g : (α : Type) → α → Cell α → Cell α) (st : Store) : Store :=
  match r, c with
  | .group f l, .group x =>
    { st with groups := st.groups.set f ((st.groups.get f).set l (g Group x ((st.groups.get f).get l))) }
  | .commissioning f, .commissioning x =>
    { st with commissioning := st.commissioning.set f (g Commissioning x (st.commissioning.get f)) }
  | .hunt l, .hunt x => { st with hunts := st.hunts.set l (g HuntSettings x (st.hunts.get l)) }
  | .userCurve .u1, .userCurve x => { st with curveU1 := g UserCurve x st.curveU1 }
  | .userCurve .u2, .userCurve x => { st with curveU2 := g UserCurve x st.curveU2 }
  | .seasonFloor d, .level x => { st with floors := st.floors.set d (g Level x (st.floors.get d)) }
  | .banLevel d, .level x => { st with bans := st.bans.set d (g Level x (st.bans.get d)) }
  | .protectMode, .protectMode x => { st with protectMode := g ProtectMode x st.protectMode }
  | _, _ => st

/-- The HOLD_OPEN claims of the pool as a claim write takes them (R52, R93). -/
def heldClaims (s : State) : List PersistedClaim :=
  (s.pool.filter fun c => decide (c.kind = .holdOpen)).map fun c =>
    { feeder := c.feeder, holder := c.holder, tag := c.shownTag, reason := c.reason }

/-- The content that a write of a record takes: its held content, or for a claim write the HOLD_OPEN claims (R44, R62). -/
def heldContent (s : State) : RecordName → RecordContent
  | .group f l => .group (s.group f l)
  | .commissioning f => .commissioning (s.commissioning f)
  | .hunt l => .hunt (s.huntSettings l)
  | .userCurve u => .userCurve (s.userCurve u)
  | .seasonFloor d => .level (s.floor d)
  | .banLevel d => .level (s.ban d)
  | .protectMode => .protectMode s.store.protectMode.held
  | .claims => .claims (heldClaims s)

/-- Make content the held content of its record (R44, R58). -/
def setHeld (r : RecordName) (c : RecordContent) (s : State) : State :=
  s.onStore (Store.onCell r c fun _ x cell => { cell with held := x })

/-- A record's defaulted mark (R66). -/
def defaultedMark (st : Store) : RecordName → Bool
  | .group f l => ((st.groups.get f).get l).defaulted
  | .commissioning f => (st.commissioning.get f).defaulted
  | .hunt l => (st.hunts.get l).defaulted
  | .userCurve .u1 => st.curveU1.defaulted
  | .userCurve .u2 => st.curveU2.defaulted
  | .seasonFloor d => (st.floors.get d).defaulted
  | .banLevel d => (st.bans.get d).defaulted
  | .protectMode => st.protectMode.defaulted
  | .claims => st.claimsDefaulted

/-! ### The write queue -/

/-- A request that changed a record queues its write at the tail (R62). -/
def queueWrite (p : Port) (r : RecordName) (s : State) : State :=
  s.onStore fun st => { st with queue := st.queue ++ [{ port := p, record := r }] }

/-- The HOLD_OPEN claims of the pool are marked as taken by the claim write that begins (R93). -/
def markClaims (pool : List PortClaim) : List PortClaim :=
  pool.map fun c => { c with inWrite := decide (c.kind = .holdOpen) }

/-- The write of the entry at the head of the queue begins, when none is in flight (R62). -/
def beginWrite (s : State) : State :=
  match s.store.writing, s.store.queue with
  | none, e :: _ =>
    let s1 := s.onStore fun st => { st with writing := some { content := heldContent s e.record, began := s.partTime } }
    if e.record = .claims then { s1 with pool := markClaims s1.pool } else s1
  | _, _ => s

/-- The written copy takes the content written, and the defaulted mark is cleared (R63, R66). -/
def Store.completed (r : RecordName) (c : RecordContent) (st : Store) : Store :=
  match r, c with
  | .claims, .claims cs => { st with claimsWritten := .intact cs, claimsDefaulted := false }
  | _, _ => st.onCell r c fun _ x cell => { cell with written := .intact x, defaulted := false }

/-- The HOLD_OPEN claims that the completed claim write took are persisted (R93). -/
def persistClaims (pool : List PortClaim) : List PortClaim :=
  pool.map fun c => { c with persisted := c.persisted || c.inWrite, inWrite := false }

/-- The request that queued a write is answered OK: the response of an EXECUTING port is made ready (R63, R177). -/
def answerWritten (p : Port) (s : State) : State :=
  match (s.ports.get p).state with
  | .executing _ _ => respond p .ok [] s
  | _ => s

/-- The edit buffer becomes FREE when the write of its commit completes (R63). -/
def freeCommitted (e : WriteEntry) (b : EditBuffer) : EditBuffer :=
  match b with
  | .committing owner r _ => if owner = e.port ∧ r = e.record then .free else b
  | _ => b

/-- The write in flight completes (R63, R66, R93). -/
def completeWrite (s : State) : State :=
  match s.store.writing, s.store.queue with
  | some w, e :: rest =>
    let s1 := s.onStore fun st =>
      { (st.completed e.record w.content) with writing := none, queue := rest, edit := freeCommitted e st.edit }
    let s2 := if e.record = .claims then { s1 with pool := persistClaims s1.pool } else s1
    answerWritten e.port s2
  | _, _ => s

/-- Change the cell of a record of the store, whatever its kind; the persisted claim record has no cell. -/
def Store.onNamed (r : RecordName) (g : (α : Type) → Cell α → Cell α) (st : Store) : Store :=
  match r with
  | .group f l => { st with groups := st.groups.set f ((st.groups.get f).set l (g Group ((st.groups.get f).get l))) }
  | .commissioning f => { st with commissioning := st.commissioning.set f (g Commissioning (st.commissioning.get f)) }
  | .hunt l => { st with hunts := st.hunts.set l (g HuntSettings (st.hunts.get l)) }
  | .userCurve .u1 => { st with curveU1 := g UserCurve st.curveU1 }
  | .userCurve .u2 => { st with curveU2 := g UserCurve st.curveU2 }
  | .seasonFloor d => { st with floors := st.floors.set d (g Level (st.floors.get d)) }
  | .banLevel d => { st with bans := st.bans.set d (g Level (st.bans.get d)) }
  | .protectMode => { st with protectMode := g ProtectMode st.protectMode }
  | .claims => st

/-- The written copy of the record whose write a start-up or a loss of power ends is torn (R64). -/
def Store.tear (r : RecordName) (st : Store) : Store :=
  match r with
  | .claims => { st with claimsWritten := .torn }
  | _ => st.onNamed r fun _ cell => { cell with written := .torn }

/-- Every write ends: the one in flight leaves its record torn, and the queue is lost (R64). -/
def Store.endWrites (st : Store) : Store :=
  let st1 :=
    match st.writing, st.queue with
    | some _, e :: _ => st.tear e.record
    | _, _ => st
  { st1 with writing := none, queue := [] }

/-! ### The edit buffer -/

/-- The lease of an edit, in ms (R53, R60). -/
def editLease : Nat := 120000

/-- The port that owns the buffer, while it is not FREE. -/
def EditBuffer.owner : EditBuffer → Option Port
  | .free => none
  | .editing p _ _ _ => some p
  | .committing p _ _ => some p

/-- The buffer with the lease of its owner renewed to a deadline; only an OPEN buffer has a lease (R56). -/
def EditBuffer.renewed (p : Port) (lease : Nat) (b : EditBuffer) : EditBuffer :=
  match b with
  | .free => .free
  | .editing q r c old => if q = p then .editing q r c lease else .editing q r c old
  | .committing q r c => .committing q r c

/-- An edit request of the owner that the store takes renews the lease of the OPEN buffer, whatever its status (R56). -/
def renewEdit (p : Port) (s : State) : State :=
  s.onStore fun st => { st with edit := st.edit.renewed p (s.partTime + editLease) }

/-- The store takes an edit request of a port: the lease is renewed for the owner, then the request's own checks decide (R56). -/
def takeEdit (p : Port) (body : State → State × Reply) (s : State) : State × Reply := body (renewEdit p s)

/-- The record that three bytes of a payload name (R192). -/
def namedRecord (payload : List Byte) : Option RecordName :=
  match payload with
  | [a, b, c] => RecordName.ofNumbers a.toNat b.toNat c.toNat
  | _ => none

/-- The other port owns the buffer. -/
def editHeldFrom (s : State) (p : Port) : Option Port := s.store.edit.owner.filter fun q => decide (q ≠ p)

/-- OPEN_EDIT, by the checks of R53 in order. -/
def openEditBody (p : Port) (payload : List Byte) (s : State) : State × Reply :=
  match namedRecord payload with
  | none => (s, .plain .range)
  | some r =>
    if r.editable = false then (s, .plain .range)
    else
      match editHeldFrom s p with
      | some q => (s, .heldBy (.port q))
      | none =>
        if s.store.frozen then (s, .plain .frozen)
        else if editPermitted s p = false then (s, .plain .isProtected)
        else
          (s.onStore fun st => { st with edit := .editing p r (heldContent s r) (s.partTime + editLease) }, .ok)

/-- The OPEN buffer's record and content, when the port owns it. -/
def ownOpenEdit (s : State) (p : Port) : Option (RecordName × RecordContent × Nat) :=
  match s.store.edit with
  | .editing q r c lease => if q = p then some (r, c, lease) else none
  | _ => none

/-- SET_FIELD, by the checks of R55 in order. -/
def setFieldBody (p : Port) (payload : List Byte) (s : State) : State × Reply :=
  match ownOpenEdit s p with
  | none => (s, .plain .noEdit)
  | some (r, c, lease) =>
    match c.setField (numberAt payload 0 1) (numberAt payload 1 4) with
    | none => (s, .plain .range)
    | some c' =>
      if s.store.frozen then (s, .plain .frozen)
      else (s.onStore fun st => { st with edit := .editing p r c' lease }, .ok)

/-- DISCARD_EDIT (R56). -/
def discardEditBody (p : Port) (s : State) : State × Reply :=
  match ownOpenEdit s p with
  | none => (s, .plain .noEdit)
  | some _ => (s.onStore fun st => { st with edit := .free }, .ok)

/-! ### Commits -/

/-- The intake acts on a commissioning commit: AWAITING with counts 0, and the MEASURE claim as the feeder is fitted (R7). -/
def commissionIntake (f : Feeder) (s : State) : State :=
  let s1 := s.onFeeder f fun x => { x with meas := .awaiting, invalidCount := 0, recoveryCount := 0 }
  if s1.fitted f then placeSystemClaim f .measure s1 else removeSystemClaim f .measure s1

/-- The input filter acts on a commissioning commit: no fault, and the timers by the position from this moment (R14). -/
def commissionFilter (f : Feeder) (s : State) : State :=
  if s.fitted f then s.onFeeder f (restartTimers s.partTime)
  else s.onFeeder f fun x => { x with invalidTimer := none, transitTimer := none, positionFault := none }

/-- The protection elements act on a commissioning commit: all at rest, no trip record, nothing picked up (R43). -/
def commissionElements (f : Feeder) (s : State) : State :=
  s.onFeeder f fun x =>
    { x with phaseIdmt := .rest, highSet := .rest, earthIdmt := .rest, sef := .rest, tripRecord := none, pickedUp := false }

/-- The claim table acts on a commissioning commit: NORECLOSE port claims are cleared, HUNT and BREAKER become absent, and STORE on an
unfitted feeder (R101). Its entries stand in this order, the port claims', HUNT's, BREAKER's, STORE's (DESIGN CHOICE, log 52). -/
def commissionClaims (f : Feeder) (s : State) : State :=
  let s1 := removeSystemClaim f .breaker (removeSystemClaim f .hunt (clearNoReclose f s))
  if s1.fitted f then s1 else removeSystemClaim f .store s1

/-- The switching unit acts on a commissioning commit: outputs released, no last operation or end position, and a port's lock
cleared (R121). -/
def commissionSwitching (f : Feeder) (s : State) : State :=
  let s1 := s.onFeeder f fun x => { x with inFlight := none, lastOp := none, lastEnd := .unknown }
  if (s1.feeder f).lock.heldByPort then changeLock f .free .cleared s1 else s1

/-- A commissioning record takes effect: each block starts the feeder as at start-up, the sequencer last, whose entries stand after
the claim table's (R48, R126; DEDUCED, log 31). The detector level may rise with the feeder's fitting (R148). -/
def commissionFeeder (f : Feeder) (s : State) : State :=
  judged f (seqCommission f)
    (commissionSwitching f (commissionClaims f (commissionFire f (commissionElements f (commissionFilter f
      (commissionIntake f s))))))

/-- The group of a fitted feeder's applied level, as held, names the curve (R59). -/
def appliedGroupNames (s : State) (u : UserCurveName) (f : Feeder) : Bool :=
  let named : Curve := match u with | .u1 => .u1 | .u2 => .u2
  match (s.feeder f).fire with
  | some x =>
    let g := s.group f x.applied
    decide (g.phase.curve = named) || decide (g.earth.curve = named)
  | none => false

/-- What the taking of a commit hands on (R59); a user curve's reaches its feeders in feeder order (R59, R78; DESIGN CHOICE, log 45). -/
def handOnCommit (r : RecordName) (s : State) : State :=
  match r with
  | .group f l =>
    match (s.feeder f).fire with
    | some x => if s.fitted f = true ∧ x.applied = l then setSettingsPending f s else s
    | none => s
  | .userCurve u => forFeeders (s.fittedFeeders.filter (appliedGroupNames s u)) setSettingsPending s
  | .commissioning f => commissionFeeder f s
  | _ => s

/-- A commissioning commit meets a feeder that is not out of service (R48, R57). -/
def commitInService (s : State) (r : RecordName) : Bool :=
  match r with
  | .commissioning f => !outOfService s f
  | _ => false

/-- COMMIT_EDIT, by the checks of R57 in order; taken, the content is held, the buffer is COMMITTING, the write is queued, and the
record is handed on (R58, R59). -/
def commitEditBody (p : Port) (s : State) : State × Reply :=
  match ownOpenEdit s p with
  | none => (s, .plain .noEdit)
  | some (r, c, _) =>
    if s.store.frozen then (s, .plain .frozen)
    else if editPermitted s p = false then (s, .plain .isProtected)
    else if c.consistent = false then (s, .plain .inconsistent)
    else if commitInService s r then (s, .plain .state)
    else
      let s1 := (setHeld r c s).onStore fun st => { st with edit := .committing p r c }
      (handOnCommit r (queueWrite p r s1), .withheld)

/-- The edit lease ends: the buffer becomes FREE and EDIT_EXPIRED is offered to the former owner alone (R60). -/
def expireEdit (s : State) : State :=
  match s.store.edit with
  | .editing p r _ lease =>
    if lease ≤ s.partTime then offer p (.editExpired r) (s.onStore fun st => { st with edit := .free }) else s
  | _ => s

/-! ### Floors, ban levels, protect mode, freeze, fire requests -/

/-- The level that a one-byte payload names (R192). -/
def namedLevel (payload : List Byte) : Option Level := Level.ofNumber (numberAt payload 0 1)

/-- SET_FLOOR (R70). -/
def setFloorBody (p : Port) (payload : List Byte) (d : District) (s : State) : State × Reply :=
  match namedLevel payload with
  | none => (s, .plain .range)
  | some l =>
    (recomputeTarget d (queueWrite p (.seasonFloor d) (setHeld (.seasonFloor d) (.level l) s)), .withheld)

/-- SET_BAN_LEVEL: the target is recomputed while FIRE_BAN reads active (R71). -/
def setBanLevelBody (p : Port) (payload : List Byte) (d : District) (s : State) : State × Reply :=
  match namedLevel payload with
  | none => (s, .plain .range)
  | some l =>
    let s1 := queueWrite p (.banLevel d) (setHeld (.banLevel d) (.level l) s)
    (if fireBanActive s1 then recomputeTarget d s1 else s1, .withheld)

/-- SET_PROTECT_MODE (R61). -/
def setProtectModeBody (p : Port) (payload : List Byte) (s : State) : State × Reply :=
  match ProtectMode.ofCode (numberAt payload 0 1) with
  | none => (s, .plain .range)
  | some m =>
    if s.store.frozen then (s, .plain .frozen)
    else (queueWrite p .protectMode (setHeld .protectMode (.protectMode m) s), .withheld)

/-- FREEZE_SETTINGS (R61). -/
def freezeBody (s : State) : State × Reply := (s.onStore fun st => { st with frozen := true }, .ok)

/-- SET_FIRE_REQUEST: the port's own request for the district (R69); the crew port has none (R182). -/
def setFireRequestBody (p : Port) (payload : List Byte) (d : District) (s : State) : State × Reply :=
  match namedLevel payload with
  | none => (s, .plain .range)
  | some l =>
    let s1 := s.onDistrict d fun x =>
      match p with
      | .network => { x with network := l }
      | .panel => { x with panel := l }
      | .crew => x
    (recomputeTarget d s1, .ok)

end Sys2Proof.Machine
end

