-- ==== Sys2Proof/Machine/StartUp.lean ====
section
/-! DEFINITION. Start-up, power and the RESET input (R16, R17, R43, R64 to R66, R84, R103, R122, R144, R173, R190, R200). -/
namespace Sys2Proof.Machine

/-- A group record's written content passes (R44, R45). -/
def groupPasses (g : Group) : Bool := g.inRange && g.consistent

/-- A hunt record's written content passes (R44, R49). -/
def huntPasses (h : HuntSettings) : Bool := h.inRange && h.consistent

/-- A user curve record's written content passes (R44, R50). -/
def curvePasses (u : UserCurve) : Bool := u.inRange && u.consistent

/-- The store with every record loaded from its written copy, and the values of R66 (R64, R65). -/
def Store.loaded (st0 : Store) : Store :=
  let st := st0.endWrites
  { groups := .of fun f => .of fun l => ((st.groups.get f).get l).load groupPasses (defaultGroup l)
    commissioning := .of fun f => (st.commissioning.get f).load Commissioning.inRange (defaultCommissioning f)
    hunts := .of fun l => (st.hunts.get l).load huntPasses (defaultHunt l)
    curveU1 := st.curveU1.load curvePasses (defaultCurve .u1)
    curveU2 := st.curveU2.load curvePasses (defaultCurve .u2)
    floors := .of fun d => (st.floors.get d).load (fun _ => true) .l0
    bans := .of fun d => (st.bans.get d).load (fun _ => true) .l2
    protectMode := st.protectMode.load (fun _ => true) .pin
    claimsWritten := st.claimsWritten
    claimsDefaulted := (st.claimsWritten.passing claimsSound).isNone
    edit := .free
    frozen := false
    queue := []
    writing := none }

/-- A port claim restored from its persisted entry (R103). -/
def PersistedClaim.restored (e : PersistedClaim) : PortClaim :=
  { feeder := e.feeder, kind := .holdOpen, holder := e.holder, tag := e.tag.getD 0, reason := e.reason, placedAt := 0,
    expiry := none, persisted := true, inWrite := false }

/-- The pool that a store restores at start-up: the written entries in order, or none when the record fails (R103). -/
def restoredPool (st : Store) : List PortClaim :=
  ((st.claimsWritten.passing claimsSound).getD []).map PersistedClaim.restored

/-- A district after start-up: no requests, and the target at the higher of floor and ban level, FIRE_BAN reading active until it
settles (R84). -/
def startDistrict (st : Store) (d : District) : DistrictState :=
  { network := .l0, panel := .l0, target := (st.floors.get d).held.higher (st.bans.get d).held }

/-- A feeder after start-up, in a state that holds the loaded store and the districts (R17, R43, R84, R103, R122, R125). -/
def startFeeder (s : State) (f : Feeder) : FeederState :=
  if s.fitted f then
    let l := targetLevel s f
    { FeederState.unfitted with
      transitTimer := some 2000
      fire := some { applied := l, settingsPending := false, effective := s.effectiveFor f l }
      claims :=
        { SystemClaims.none with
          fire := atFireBlock l (s.commissioning f).fireBlock, measure := true, store := s.store.claimsDefaulted }
      ar := .bare .starting 0 }
  else .unfitted

/-- The records of the store in the order of section 3.1, ascending within a kind (R65). -/
def recordOrder : List RecordName :=
  (Feeder.all.flatMap fun f => Level.all.map fun l => RecordName.group f l) ++ Feeder.all.map .commissioning ++
  Level.all.map .hunt ++ [.userCurve .u1, .userCurve .u2] ++ District.all.map .seasonFloor ++ District.all.map .banLevel ++
  [.protectMode, .claims]

/-- The values that every block holds after a start-up, with every queue still empty (R16, R17, R66, R84, R103, R122, R144, R173,
R190). The waiting commands and the model's own fields are kept. -/
def startValues (cause : StartCause) (straps : BitVec 2) (s : State) : State :=
  let st := s.store.loaded
  let s1 : State :=
    { s with
      phase := .running
      strapPins := straps
      partTime := 0
      startCause := cause
      opCounter := 1
      link := .awaiting
      lastSequence := none
      lastFrameTime := none
      linkDeadline := some 100
      bus := { vn := 0, valid := false }
      fireBan := .unsettled
      crewKey := .unsettled
      setProtect := .unsettled
      feeders := .of fun _ => .unfitted
      districts := .of (startDistrict st)
      store := st
      pool := restoredPool st
      detector := { state := .quiet, amount := 0 }
      hunt := none
      lastHunt := none
      ports := .of fun _ => .idle
      crewAddress := Config.crewAddressBase ||| straps.setWidth 7
      crewWrite := none
      queues := .of fun _ => [] }
  { s1 with feeders := .of (startFeeder s1) }

/-- A start-up of any cause: the start-up values, then START and the STORE_DEFAULTED entries (R16, R65, R200). -/
def startUp (cause : StartCause) (straps : BitVec 2) (s : State) : State :=
  let s1 := broadcast (.start cause) (startValues cause straps s)
  (recordOrder.filter (defaultedMark s1.store)).foldl (fun acc r => broadcast (.storeDefaulted r) acc) s1

/-- Power is applied (R16), in any state of the part (DESIGN CHOICE, log 34). -/
def powerOn (straps : BitVec 2) (s : State) : State := startUp .powerOn straps s

/-- Power is lost: writes end (R64), and the part does nothing until power returns. What the volatile state holds meanwhile cannot be
seen; the model keeps its start-up values (DESIGN CHOICE, log 8). -/
def powerLost (s : State) : State := { startValues s.startCause s.strapPins s with phase := .off }

/-- A scan sees RESET active: the part is held at its start-up values with every queue empty (R16, R190, R200). -/
def resetHeld (s : State) : State :=
  if s.phase = .off then s else { startValues .reset s.strapPins s with phase := .held }

/-- The first scan that sees RESET inactive: the part runs from start-up with cause RESET (R16). -/
def resetEnded (straps : BitVec 2) (s : State) : State := if s.phase = .held then startUp .reset straps s else s

/-- RESTART: a start-up with cause RESTART and no response (R189). -/
def restartBody (s : State) : State × Reply := (startUp .restart s.strapPins s, .silent)

end Sys2Proof.Machine
end

