-- ==== Sys2Proof/Machine/Reads.lean ====
section
/-! DEFINITION. What the reads return: the fields of each in the order of its rule, encoded by R191 (R56, R67, R83, R102, R172, R186
to R188, R198). -/
namespace Sys2Proof.Machine

/-! ### Codes of the named values that only reads show (R193: the place in the defining table) -/

/-- The code of a measurement state (section 1.2). -/
def MeasState.code : MeasState → Nat
  | .awaiting => 0 | .valid => 1 | .holding => 2 | .lost => 3

/-- The code of a link state (section 1.3). -/
def LinkState.code : LinkState → Nat
  | .awaiting => 0 | .up => 1 | .lost => 2

/-- The code of an element state (R193). -/
def ElementState.code : ElementState → Nat
  | .normal => 0 | .pickedUp => 1 | .held => 2 | .operated => 3

/-- The code of a position fault in a read: none 0, INVALID 1, TRANSIT 2, the list of section 1.5. -/
def faultCode : Option FaultKind → Nat
  | none => 0
  | some .invalid => 1
  | some .transit => 2

/-- The code of a port state (R174). -/
def PortState.code : PortState → Nat
  | .idle => 0 | .receiving => 1 | .executing _ _ => 2 | .waiting _ => 3

/-- The code of the buffer state (section 3.7). -/
def EditBuffer.code : EditBuffer → Nat
  | .free => 0 | .editing _ _ _ _ => 1 | .committing _ _ _ => 2

/-- The code of a write's class: record 0, claim 1 (section 3.9). -/
def writeClass (r : RecordName) : Nat := if r = .claims then 1 else 0

/-! ### IDENTIFY and READ_PART -/

/-- The text UJVARA (R188). -/
def vendorText : List Byte := [0x55#8, 0x4A#8, 0x56#8, 0x41#8, 0x52#8, 0x41#8]

/-- The text LOMGAR 6F (R188). -/
def partText : List Byte := [0x4C#8, 0x4F#8, 0x4D#8, 0x47#8, 0x41#8, 0x52#8, 0x20#8, 0x36#8, 0x46#8]

/-- The fields of IDENTIFY (R188). -/
def identifyFields (s : State) (p : Port) : List Byte :=
  vendorText ++ partText ++ be1 Config.hardwareRevision ++ be1 1 ++ be1 (portCode p) ++ be1 s.crewAddress.toNat ++
  be1 s.startCause.code ++ be6 s.partTime

/-- A filtered level, or unsettled as absent. -/
def filteredBytes (x : FilteredInput) : List Byte := beOpt (fun l => be1 (levelCode l)) x.level

/-- A station input: its filtered level or unsettled, then the level read (R187). -/
def stationBytes (x : FilteredInput) (reads : Bool) : List Byte := filteredBytes x ++ be1 (levelCode reads)

/-- A port unit: its state and its two flags (R187). -/
def PortUnit.bytes (u : PortUnit) : List Byte := be1 u.state.code ++ beFlag u.collided ++ beFlag u.incomplete

/-- The bus record: Vn and its validity (R8). -/
def BusRecord.bytes (b : BusRecord) : List Byte := be2 b.vn ++ beFlag b.valid

/-- The fields of READ_PART (R187). -/
def partFields (s : State) : List Byte :=
  be6 s.partTime ++ be1 s.startCause.code ++ be1 s.link.code ++ beOpt be1 s.lastSequence ++ beOpt be6 s.lastFrameTime ++
  beOpt be6 s.linkDeadline ++ s.bus.bytes ++ stationBytes s.fireBan (fireBanActive s) ++
  stationBytes s.crewKey (crewKeyActive s) ++ stationBytes s.setProtect (setProtectActive s) ++ be2 s.opCounter ++
  s.ports.toList.flatMap PortUnit.bytes ++ s.queues.toList.flatMap fun q => be1 q.length

/-! ### READ_FEEDER -/

/-- An element: its state, then its progress or accumulation (R42). -/
def Element.bytes (e : Element) : List Byte := be1 e.state.code ++ be4 e.amount

/-- The fields of an operation that are present whether or not it is in flight (section 6.1): the op id, which every operation the part
keeps has, is sent without a presence byte (DESIGN CHOICE, log 50). -/
def Operation.bytes (o : Operation) : List Byte :=
  be2 o.id ++ be1 o.kind.code ++ be1 o.origin.code ++ originsBytes o.requesters ++ beOpt beFlag o.permit ++ be6 o.started

/-- The operation in flight with every field, its deadline without a presence byte (R122; DESIGN CHOICE, log 50). -/
def InFlight.bytes (x : InFlight) : List Byte := x.op.bytes ++ be6 x.deadline

/-- The last completed operation, with its outcome and completion time, both without a presence byte (R104, R122; DESIGN CHOICE, log 50). -/
def Completed.bytes (c : Completed) : List Byte := c.op.bytes ++ be1 c.outcome.code ++ be6 c.completed

/-- The switching lock: its holder and its lease deadline (R122). -/
def Lock.bytes (l : Lock) : List Byte := be1 l.holder.code ++ beOpt be6 l.lease

/-- The sequencer record in the order of R123. -/
def ArRecord.bytes (r : ArRecord) : List Byte :=
  be1 r.state.code ++ be1 r.shotsUsed ++ beOpt be1 r.currentShot ++ beOpt be6 r.deadline ++ beOpt be2 r.closeOp ++
  beOpt be6 r.reclaim ++ beOpt (fun c : ArCause => be1 c.code) r.cause ++ be6 r.since

/-- The shot count, the four dead times and the reclaim time of the effective settings, each absent on an unfitted feeder (R143,
R186). -/
def shotBytes (fire : Option FeederFire) : List Byte :=
  let g := fire.map (·.effective.group)
  beOpt be1 (g.map (·.shots)) ++ beOpt deadTimeBytes (g.map (·.dead1)) ++ beOpt deadTimeBytes (g.map (·.dead2)) ++
  beOpt deadTimeBytes (g.map (·.dead3)) ++ beOpt deadTimeBytes (g.map (·.dead4)) ++ beOpt be4 (g.map (·.reclaim))

/-- A feeder's fire state from its target level on; all but the target level absent on an unfitted feeder (section 4.2, R83,
R186; DEDUCED, log 25). -/
def fireStateBytes (s : State) (f : Feeder) : List Byte :=
  let x := (s.feeder f).fire
  be1 (targetLevel s f).number ++ beOpt (fun y : FeederFire => be1 y.applied.number) x ++
  beOpt (fun _ : FeederFire => beFlag (loweringPending s f)) x ++
  beOpt (fun y : FeederFire => beFlag y.settingsPending) x ++
  beOpt (fun _ : FeederFire => beFlag (quiescent s f)) x ++
  beOpt (fun _ : FeederFire => beFlag (s.feeder f).claims.fire) x

/-- The five system claims and the answers to the three queries (R99). -/
def claimStateBytes (s : State) (f : Feeder) : List Byte :=
  (SystemClaim.all.flatMap fun n => beFlag ((s.feeder f).claims.has n)) ++ beFlag (blockSetEmpty s f) ++
  beFlag (holdsHoldOpen s f) ++ beFlag (restoreBlocked s f)

/-- The position group of READ_FEEDER (R11 to R14). -/
def positionBytes (x : FeederState) : List Byte :=
  be1 x.position.code ++ filteredBytes x.closedContact ++ filteredBytes x.openContact ++ be1 (faultCode x.positionFault) ++
  beOpt be6 x.invalidTimer ++ beOpt be6 x.transitTimer

/-- The fields of READ_FEEDER (R186). -/
def feederFields (s : State) (f : Feeder) : List Byte :=
  let x := s.feeder f
  (s.commissioning f).bytes ++
  (be1 x.meas.code ++ be1 x.invalidCount ++ be1 x.recoveryCount) ++
  positionBytes x ++
  (x.phaseIdmt.bytes ++ x.highSet.bytes ++ x.earthIdmt.bytes ++ x.sef.bytes) ++
  beOpt TripRecord.bytes x.tripRecord ++
  fireStateBytes s f ++
  (beOpt InFlight.bytes x.inFlight ++ beOpt Completed.bytes x.lastOp ++ be1 x.lastEnd.code ++ x.lock.bytes) ++
  (x.ar.bytes ++ shotBytes x.fire) ++
  (be1 (portClaims s f).length ++ claimStateBytes s f)

/-! ### READ_CLAIMS and READ_EVENTS -/

/-- The persisted field, present for HOLD_OPEN (section 5.2). -/
def PortClaim.shownPersisted (c : PortClaim) : Option Bool := if c.kind = .holdOpen then some c.persisted else none

/-- A port claim with all its fields (section 5.2). -/
def PortClaim.bytes (c : PortClaim) : List Byte :=
  be1 c.feeder.number ++ be1 c.kind.code ++ be1 (portCode c.holder) ++ beOpt be2 c.shownTag ++ be1 c.reason ++
  be6 c.placedAt ++ beOpt be6 c.expiry ++ beOpt beFlag c.shownPersisted

/-- The fields of READ_CLAIMS for one feeder, or for all with none (R102). -/
def claimsFields (s : State) (target : Option Feeder) : List Byte :=
  let claims := match target with | some f => portClaims s f | none => s.pool
  let feeders := match target with | some f => [f] | none => Feeder.all
  beList PortClaim.bytes claims ++ feeders.flatMap (claimStateBytes s) ++ beFlag (writePending s .claims) ++
  beFlag s.store.claimsDefaulted

/-- READ_EVENTS: the oldest n entries are removed from the port's queue and returned (R198). -/
def readEventsBody (p : Port) (payload : List Byte) (s : State) : State × Reply :=
  let n := numberAt payload 0 1
  if within 1 8 n = false then (s, .plain .range)
  else
    let q := s.queues.get p
    (s.withQueue p (q.drop n), .made .ok (beList EventEntry.bytes (q.take n)))

/-! ### READ_FIRE and READ_EFFECTIVE -/

/-- A district in READ_FIRE, with the write pending flags of its floor and ban level (R83). R83 names these in a sentence of their own and
gives no place: they stand here, floor then ban level, a flag each, after the target (DESIGN CHOICE, log 55). -/
def districtBytes (s : State) (d : District) : List Byte :=
  let x := s.districts.get d
  be1 x.network.number ++ be1 x.panel.number ++ be1 (s.ban d).number ++ be1 (s.floor d).number ++ beFlag (fireBanActive s) ++
  be1 x.target.number ++ beFlag (writePending s (.seasonFloor d)) ++ beFlag (writePending s (.banLevel d))

/-- A feeder in READ_FIRE (R83). -/
def feederFireBytes (s : State) (f : Feeder) : List Byte :=
  let c := s.commissioning f
  beFlag c.fitted ++ be1 c.district.number ++ be1 c.fireBlock.code ++ fireStateBytes s f

/-- The fields of READ_FIRE (R83). -/
def fireFields (s : State) : List Byte :=
  District.all.flatMap (districtBytes s) ++ Feeder.all.flatMap (feederFireBytes s) ++ be1 (detectorLevel s).number

/-- The fields of READ_EFFECTIVE (R83). -/
def effectiveFields (x : FeederFire) : List Byte :=
  be1 x.applied.number ++ x.effective.group.bytes ++ beList Breakpoint.bytes x.effective.phaseCurve ++
  beList Breakpoint.bytes x.effective.earthCurve

/-! ### READ_RECORD, READ_STORE, READ_EDIT -/

/-- The two flags of READ_RECORD: the defaulted mark and write pending (R67). -/
def recordFlags (s : State) (r : RecordName) : List Byte := beFlag (defaultedMark s.store r) ++ beFlag (writePending s r)

/-- READ_RECORD: the held content with its flags, and for the persisted claim record the list as last written, which is open while the
written copy is torn (R67; DESIGN CHOICE, log 5). -/
def readRecordBody (payload : List Byte) (s : State) : State × Reply :=
  match namedRecord payload with
  | none => (s, .plain .range)
  | some r =>
    if r = .claims then
      match s.store.claimsWritten with
      | .intact cs => (s, .made .ok (beList PersistedClaim.bytes cs ++ recordFlags s r))
      | .torn =>
        ({ s with freeIndex := s.freeIndex + 1 },
          .made .ok (beList PersistedClaim.bytes ((Config.tornClaims s.freeIndex).take 32) ++ recordFlags s r))
    else (s, .made .ok ((heldContent s r).bytes ++ recordFlags s r))

/-- The owner of the edit buffer as a holder, none while it is FREE (R193). -/
def EditBuffer.holder (b : EditBuffer) : Holder :=
  match b.owner with
  | some p => .port p
  | none => .nobody

/-- The record named by the edit buffer. -/
def EditBuffer.record? : EditBuffer → Option RecordName
  | .free => none
  | .editing _ r _ _ => some r
  | .committing _ r _ => some r

/-- The lease deadline, while the buffer is OPEN. -/
def EditBuffer.lease? : EditBuffer → Option Nat
  | .editing _ _ _ l => some l
  | _ => none

/-- The content of the edit buffer. -/
def EditBuffer.content? : EditBuffer → Option RecordContent
  | .free => none
  | .editing _ _ c _ => some c
  | .committing _ _ c => some c

/-- The buffer's state, owner, record named and lease deadline (R56, R67). -/
def EditBuffer.bytes (b : EditBuffer) : List Byte :=
  be1 b.code ++ be1 b.holder.code ++ beOpt RecordName.bytes b.record? ++ beOpt be6 b.lease?

/-- An entry of the write queue: port, record, class, and whether its write has begun (R67). -/
def writeEntryBytes (e : WriteEntry) (begun : Bool) : List Byte :=
  be1 (portCode e.port) ++ e.record.bytes ++ be1 (writeClass e.record) ++ beFlag begun

/-- The write queue in order, the first marked as in flight when its write has begun (R67). -/
def writeQueueBytes (st : Store) : List Byte :=
  match st.queue with
  | [] => be1 0
  | e :: rest =>
    be1 (rest.length + 1) ++ writeEntryBytes e st.writing.isSome ++ rest.flatMap fun x => writeEntryBytes x false

/-- The fields of READ_STORE, SET_PROTECT at its filtered level, absent until it settles (R67; DEDUCED, log 24). -/
def storeFields (s : State) : List Byte :=
  be1 s.store.protectMode.held.code ++ beFlag s.store.frozen ++ filteredBytes s.setProtect ++ s.store.edit.bytes ++
  writeQueueBytes s.store

/-- The fields of READ_EDIT (R56). -/
def editFields (s : State) : List Byte := s.store.edit.bytes ++ beOpt RecordContent.bytes s.store.edit.content?

/-! ### READ_HUNT -/

/-- The window of a hunt: its length, the frames counted and the sums (section 8.2). -/
def Window.bytes (w : Window) : List Byte := be1 w.length ++ be1 w.counted ++ sumsBytes w.sums

/-- The hunt's own operation: its op id, kind and feeder (section 8.2). -/
def HuntOp.bytes (o : HuntOp) : List Byte := be2 o.id ++ be1 o.kind.code ++ be1 o.feeder.number

/-- The fields of the hunt's record after its state, each absent while IDLE (section 8.2). -/
def huntRecordBytes (h : Option HuntRun) : List Byte :=
  beOpt (fun c : HuntCause => be1 c.code) (h.map (·.cause)) ++ beOpt be6 (h.map (·.startTime)) ++
  beOpt (fun l : Level => be1 l.number) (h.map (·.level)) ++ beOpt Window.bytes (h.bind (·.window)) ++
  beOpt sumsBytes (h.bind (·.sums)) ++ beOpt Identified.bytes (h.bind (·.identified)) ++
  beOpt beFlag (h.bind (·.dropoutSeen)) ++ beOpt (beList Candidate.bytes) (h.bind (·.candidates)) ++
  beOpt be1 ((h.bind (·.current)).map (· + 1)) ++ beOpt (fun f : Feeder => be1 f.number) (h.bind (·.locked)) ++
  beOpt HuntOp.bytes (h.bind (·.op)) ++ beOpt be6 (h.bind (·.deadline)) ++ beOpt beFlag (h.bind (·.tripInWatch)) ++
  beOpt beFlag (h.map (·.pendingSuspend)) ++ beOpt (fun r : ResumePoint => be1 r.code) (h.bind (·.resume)) ++
  beOpt (fun r : HuntResult => be1 r.code) (h.bind (·.pendingResult))

/-- The fields of READ_HUNT (R172). -/
def huntFields (s : State) : List Byte :=
  let use := s.huntSettings (detectorLevel s)
  be1 s.detector.state.code ++ be4 s.detector.amount ++ be1 (detectorLevel s).number ++ s.bus.bytes ++
  (be2 use.vnPickup ++ be2 use.dropout ++ be2 use.detectTime) ++
  (be1 (huntState s).code ++ huntRecordBytes s.hunt) ++
  beOpt HuntSettings.bytes (s.hunt.map (huntLevelSettings s)) ++
  beOpt HuntReport.bytes s.lastHunt

end Sys2Proof.Machine
end

