-- ==== Sys2Proof/Machine/Plant.lean ====
section
/-! DEFINITION. The meanings of the power, reset, link and input commands. -/
namespace Sys2Proof.Machine

/-- POWER_ON (R16, R65): the part runs from start-up with cause POWER_ON, whatever it did before. -/
def execPowerOn (straps : BitVec 2) (s : State) : Host.Outcome State Fault Refusal := .next (powerOn straps s)

/-- POWER_LOSS (R64). -/
def execPowerLoss (s : State) : Host.Outcome State Fault Refusal := .next (powerLost s)

/-- RESET_ASSERTED (R16). -/
def execResetAsserted (s : State) : Host.Outcome State Fault Refusal := .next (resetHeld s)

/-- RESET_RELEASED (R16). -/
def execResetReleased (straps : BitVec 2) (s : State) : Host.Outcome State Fault Refusal := .next (resetEnded straps s)

/-- MEASUREMENT_FRAME (R2): discarded while the part is held by RESET (R16). -/
def execMeasurementFrame (unit : List Byte) (s : State) : Host.Outcome State Fault Refusal :=
  .next (whileRunning (deliverUnit unit) s)

/-- The link-loss deadline, if it is reached: it is held in AWAITING and UP alone (R8). -/
def linkLossDue (s : State) : State := if reached s s.linkDeadline then linkLoss s else s

/-- LINK_LOSS_DEADLINE (R8). -/
def execLinkLossDeadline (s : State) : Host.Outcome State Fault Refusal := .next (whileRunning linkLossDue s)

/-- INPUT_SCAN (R10). -/
def execInputScan (levels : ScanLevels) (s : State) : Host.Outcome State Fault Refusal :=
  .next (whileRunning (scanInputs levels) s)

/-- The invalid timer, if its deadline is reached with the position INVALID (R12). -/
def invalidTimerDue (f : Feeder) (s : State) : State :=
  let x := s.feeder f
  if s.fitted f = true ∧ reached s x.invalidTimer = true ∧ x.position = .invalid then declareFault f .invalid s else s

/-- INVALID_TIMER_EXPIRY (R12). -/
def execInvalidTimerExpiry (feeder : Feeder) (s : State) : Host.Outcome State Fault Refusal :=
  .next (whileRunning (invalidTimerDue feeder) s)

/-- The transit timer, if its deadline is reached with the position TRANSIT and nothing in flight (R13). -/
def transitTimerDue (f : Feeder) (s : State) : State :=
  let x := s.feeder f
  if s.fitted f = true ∧ reached s x.transitTimer = true ∧ x.position = .transit ∧ x.inFlight = none then
    declareFault f .transit s
  else s

/-- TRANSIT_TIMER_EXPIRY (R13). -/
def execTransitTimerExpiry (feeder : Feeder) (s : State) : Host.Outcome State Fault Refusal :=
  .next (whileRunning (transitTimerDue feeder) s)

end Sys2Proof.Machine
end

