-- ==== Sys2Proof/Machine/Expiries.lean ====
section
/-! DEFINITION. The meanings of the other deadlines: operations, sequencer, hunt, leases, claims, the deferred lowering. A deadline
that the part time has not reached, or that its holder no longer holds, does nothing. -/
namespace Sys2Proof.Machine

/-- The operation in flight of one kind, if its deadline is reached: DONE when the position is the one it wants, else FAILED
(R111, R112; DEDUCED, log 33). -/
def operationDue (kind : OpKind) (wanted : Position) (f : Feeder) (s : State) : State :=
  let x := s.feeder f
  match x.inFlight with
  | none => s
  | some y =>
    if y.op.kind = kind ∧ y.deadline ≤ s.partTime then
      completeOperation f y.op (if x.position = wanted then .done else .failed) s
    else s

/-- TRIP_DEADLINE (R111). -/
def execTripDeadline (feeder : Feeder) (s : State) : Host.Outcome State Fault Refusal :=
  .next (whileRunning (operationDue .trip .opened feeder) s)

/-- CLOSE_DEADLINE (R112). -/
def execCloseDeadline (feeder : Feeder) (s : State) : Host.Outcome State Fault Refusal :=
  .next (whileRunning (operationDue .close .closed feeder) s)

/-- The answer to the RECLOSE close reaches the sequencer in CLOSING (R132). -/
def recloseAnswer (f : Feeder) (r : State × SwitchAnswer) : State :=
  match r.2 with
  | .admitted id => r.1.onFeeder f fun x => { x with ar := { x.ar with closeOp := some id } }
  | .refused reason => judged f (toLockout f .closeRefused { reason := some reason }) r.1
  | .joined _ => r.1
  | .already _ => r.1

/-- The dead time ends: a RECLOSE close is asked for when the block set is empty, else LOCKOUT naming the first claim (R131). -/
def endDeadTime (f : Feeder) (s : State) : State :=
  if blockSetEmpty s f then recloseAnswer f (requestReclose f (judged f (seqToClosing f) s))
  else judged f (toLockout f .blocked { claim := (blockSet s f).head? }) s

/-- The dead-time deadline, if it is reached in DEAD_TIME (R131). -/
def deadTimeDue (f : Feeder) (s : State) : State :=
  let r := (s.feeder f).ar
  if r.state = .deadTime ∧ reached s r.deadline = true then endDeadTime f s else s

/-- DEAD_TIME_EXPIRY (R131). -/
def execDeadTimeExpiry (feeder : Feeder) (s : State) : Host.Outcome State Fault Refusal :=
  .next (whileRunning (deadTimeDue feeder) s)

/-- The reclaim deadline, if it is reached in RECLAIM (R134). -/
def reclaimDue (f : Feeder) (s : State) : State :=
  let r := (s.feeder f).ar
  if r.state = .reclaim ∧ reached s r.reclaim = true then judged f (seqReclaimExpiry f) s else s

/-- RECLAIM_EXPIRY (R134). -/
def execReclaimExpiry (feeder : Feeder) (s : State) : Host.Outcome State Fault Refusal :=
  .next (whileRunning (reclaimDue feeder) s)

/-- The hunt's step deadline, if it is reached in CONFIRM (R155). -/
def confirmDue (s : State) : State :=
  match s.hunt with
  | none => s
  | some h => if h.state = .confirm ∧ reached s h.deadline = true then huntSettle none (confirmExpired h s) else s

/-- CONFIRM_EXPIRY (R155). -/
def execConfirmExpiry (s : State) : Host.Outcome State Fault Refusal := .next (whileRunning confirmDue s)

/-- The hunt's step deadline, if it is reached in TRIAL_WATCH: the candidate is restored (R159). -/
def trialWatchDue (s : State) : State :=
  match s.hunt with
  | none => s
  | some h =>
    match h.currentFeeder with
    | none => s
    | some f =>
      if h.state = .trialWatch ∧ reached s h.deadline = true then huntSettle none (restoreFeeder f s) else s

/-- TRIAL_WATCH_EXPIRY (R159). -/
def execTrialWatchExpiry (s : State) : Host.Outcome State Fault Refusal := .next (whileRunning trialWatchDue s)

/-- EDIT_LEASE_EXPIRY (R60). -/
def execEditLeaseExpiry (s : State) : Host.Outcome State Fault Refusal := .next (whileRunning expireEdit s)

/-- The lease of a lock a port holds, if its deadline is reached (R120). -/
def lockLeaseDue (f : Feeder) (s : State) : State :=
  match (s.feeder f).lock with
  | .port _ lease => if lease ≤ s.partTime then changeLock f .free .expired s else s
  | _ => s

/-- LOCK_LEASE_EXPIRY (R120). -/
def execLockLeaseExpiry (feeder : Feeder) (s : State) : Host.Outcome State Fault Refusal :=
  .next (whileRunning (lockLeaseDue feeder) s)

/-- The expiry of the NORECLOSE claim of an identity, if it is reached (R91). -/
def claimDue (f : Feeder) (holder : Port) (tag : Nat) (s : State) : State :=
  match findClaim s f .noReclose holder tag with
  | some c => if reached s c.expiry then removeClaim f .noReclose holder tag .expired s else s
  | none => s

/-- CLAIM_EXPIRY (R91). -/
def execClaimExpiry (feeder : Feeder) (holder : Port) (tag : Nat) (s : State) : Host.Outcome State Fault Refusal :=
  .next (whileRunning (claimDue feeder holder tag) s)

/-- LOWERING_APPLIED (R77): the feeder is judged. -/
def execLoweringApplied (feeder : Feeder) (s : State) : Host.Outcome State Fault Refusal :=
  .next (whileRunning (judge feeder) s)

/-- STORE_WRITE_BEGINS (R62). -/
def execStoreWriteBegins (s : State) : Host.Outcome State Fault Refusal := .next (whileRunning beginWrite s)

/-- STORE_WRITE_COMPLETE (R63). -/
def execStoreWriteComplete (s : State) : Host.Outcome State Fault Refusal := .next (whileRunning completeWrite s)

end Sys2Proof.Machine
end

