-- ==== Sys2Proof/Machine/PortEvents.lean ====
section
/-! DEFINITION. The meanings of the port units' own events (chapter 9). -/
namespace Sys2Proof.Machine

/-- FETCH (R178, R179). -/
def execFetch (port : Port) (clocked : Nat) (s : State) : Host.Outcome State Fault Refusal := .next (fetchAt port clocked s)

/-- BAD_TRANSFER_TYPE (R178). -/
def execBadTransferType (port : SerialPort) (type : Byte) (s : State) : Host.Outcome State Fault Refusal :=
  .next (transfer port.port (transferTyped port.port type) s)

/-- FRAME_ENDED_EARLY (R175). -/
def execFrameEndedEarly (port : Port) (s : State) : Host.Outcome State Fault Refusal :=
  .next (transfer port (frameEndsEarly port) s)

/-- COLLIDED_FRAME (R176). -/
def execCollidedFrame (port : Port) (s : State) : Host.Outcome State Fault Refusal :=
  .next (transfer port (frameCollides port) s)

/-- CREW_STALL (R180). -/
def execCrewStall (point : StallPoint) (s : State) : Host.Outcome State Fault Refusal :=
  .next (crewStalls point s)

/-- BAD_FRAME (R181, check 1). -/
def execBadFrame (port : Port) (s : State) : Host.Outcome State Fault Refusal := .next (answerRefused port .badFrame s)

/-- UNKNOWN_REQUEST (R181, check 2). -/
def execUnknownRequest (port : Port) (s : State) : Host.Outcome State Fault Refusal := .next (answerRefused port .unknown s)

/-- REQUEST_FRAME_BEGINS (R175). -/
def execRequestFrameBegins (port : Port) (s : State) : Host.Outcome State Fault Refusal :=
  .next (transfer port (frameBegins port) s)

end Sys2Proof.Machine
end

