-- ==== Sys2Proof/Machine/ReadRequests.lean ====
section
/-! DEFINITION. The meanings of IDENTIFY and the reads (R184 to R188). -/
namespace Sys2Proof.Machine

/-- A read that changes nothing answers OK with its content. -/
def answerRead (fields : State → List Byte) (s : State) : State × Reply := (s, .made .ok (fields s))

/-- IDENTIFY (R188). -/
def execIdentify (port : Port) (target : Byte) (payload : List Byte) (s : State) : Host.Outcome State Fault Refusal :=
  .next (takeRequest .identify port target payload (answerRead fun t => identifyFields t port) s)

/-- READ_PART (R187). -/
def execReadPart (port : Port) (target : Byte) (payload : List Byte) (s : State) : Host.Outcome State Fault Refusal :=
  .next (takeRequest .readPart port target payload (answerRead partFields) s)

/-- READ_FEEDER (R186). -/
def execReadFeeder (port : Port) (target : Byte) (payload : List Byte) (s : State) : Host.Outcome State Fault Refusal :=
  .next (takeRequest .readFeeder port target payload
    (onFeederTarget target fun f => answerRead fun t => feederFields t f) s)

/-- READ_CLAIMS (R102). -/
def execReadClaims (port : Port) (target : Byte) (payload : List Byte) (s : State) : Host.Outcome State Fault Refusal :=
  .next (takeRequest .readClaims port target payload
    (answerRead fun t => claimsFields t (Feeder.ofNumber target.toNat)) s)

/-- READ_EVENTS (R198). -/
def execReadEvents (port : Port) (target : Byte) (payload : List Byte) (s : State) : Host.Outcome State Fault Refusal :=
  .next (takeRequest .readEvents port target payload (readEventsBody port payload) s)

/-- READ_FIRE (R83). -/
def execReadFire (port : Port) (target : Byte) (payload : List Byte) (s : State) : Host.Outcome State Fault Refusal :=
  .next (takeRequest .readFire port target payload (answerRead fireFields) s)

/-- The effective settings of a fitted feeder; a feeder that holds none is not fitted, and fails check 5 before this. -/
def readEffectiveBody (f : Feeder) (s : State) : State × Reply :=
  match (s.feeder f).fire with
  | some x => (s, .made .ok (effectiveFields x))
  | none => (s, .plain .notFitted)

/-- READ_EFFECTIVE (R83). -/
def execReadEffective (port : Port) (target : Byte) (payload : List Byte) (s : State) : Host.Outcome State Fault Refusal :=
  .next (takeRequest .readEffective port target payload (onFeederTarget target readEffectiveBody) s)

/-- READ_RECORD (R67). -/
def execReadRecord (port : Port) (target : Byte) (payload : List Byte) (s : State) : Host.Outcome State Fault Refusal :=
  .next (takeRequest .readRecord port target payload (readRecordBody payload) s)

/-- READ_STORE (R67). -/
def execReadStore (port : Port) (target : Byte) (payload : List Byte) (s : State) : Host.Outcome State Fault Refusal :=
  .next (takeRequest .readStore port target payload (answerRead storeFields) s)

/-- READ_EDIT (R56): it renews the lease for the owner. -/
def execReadEdit (port : Port) (target : Byte) (payload : List Byte) (s : State) : Host.Outcome State Fault Refusal :=
  .next (takeRequest .readEdit port target payload (takeEdit port (answerRead editFields)) s)

/-- READ_HUNT (R172). -/
def execReadHunt (port : Port) (target : Byte) (payload : List Byte) (s : State) : Host.Outcome State Fault Refusal :=
  .next (takeRequest .readHunt port target payload (answerRead huntFields) s)

end Sys2Proof.Machine
end

