-- ==== Sys2Proof/Machine/SwitchRequests.lean ====
section
/-! DEFINITION. The meanings of TRIP, CLOSE, TAKE_LOCK and DROP_LOCK (chapter 6). -/
namespace Sys2Proof.Machine

/-- The status of a refusal of a port's switching request (R106, R109). -/
def RefusalReason.status : RefusalReason → Status
  | .held => .held
  | .state => .state
  | .busy => .busy
  | .blocked => .state

/-- The answer to a port's switching request: ACCEPTED with the op id, or the refusal (R105). -/
def switchReply : SwitchAnswer → Reply
  | .admitted id => .accepted id
  | .joined id => .accepted id
  | .already id => .accepted id
  | .refused reason => .plain reason.status

/-- What a switching unit did reaches the hunt unit, and its answer the port (R105, R114). -/
def switched (r : State × SwitchAnswer × List HuntNotice) : State × Reply := (deliver none r.2.2 r.1, switchReply r.2.1)

/-- A port TRIP: the lock rule, which a CREW trip passes, then R106 (R119). -/
def tripBody (p : Port) (f : Feeder) (s : State) : State × Reply :=
  let lock := (s.feeder f).lock
  if p ≠ .crew ∧ lock.bars p = true then (s, .heldBy lock.holder) else switched (requestTrip f (.port p) none s)

/-- TRIP (R106). -/
def execTrip (port : Port) (target : Byte) (payload : List Byte) (s : State) : Host.Outcome State Fault Refusal :=
  .next (takeRequest .trip port target payload (onFeederTarget target (tripBody port)) s)

/-- A port CLOSE: the lock rule, then checks 2 to 7 (R109). -/
def closeBody (p : Port) (f : Feeder) (s : State) : State × Reply :=
  let lock := (s.feeder f).lock
  if lock.bars p then (s, .heldBy lock.holder) else switched (requestPortClose f p s)

/-- CLOSE (R109). -/
def execClose (port : Port) (target : Byte) (payload : List Byte) (s : State) : Host.Outcome State Fault Refusal :=
  .next (takeRequest .close port target payload (onFeederTarget target (closeBody port)) s)

/-- The lease of a switching lock, in ms (R117). -/
def lockLease : Nat := 300000

/-- TAKE_LOCK on a feeder: a free lock is taken, the port's own is renewed in silence, another's refuses with HELD (R117). -/
def takeLockBody (p : Port) (f : Feeder) (s : State) : State × Reply :=
  let lock := (s.feeder f).lock
  if lock.bars p then (s, .heldBy lock.holder)
  else if lock.heldByPort then (renewLock f p s, .ok)
  else (changeLock f (.port p (s.partTime + lockLease)) .taken s, .ok)

/-- TAKE_LOCK (R117). -/
def execTakeLock (port : Port) (target : Byte) (payload : List Byte) (s : State) : Host.Outcome State Fault Refusal :=
  .next (takeRequest .takeLock port target payload (onFeederTarget target (takeLockBody port)) s)

/-- DROP_LOCK on a feeder: the port's own lock is freed, else STATE (R117). -/
def dropLockBody (p : Port) (f : Feeder) (s : State) : State × Reply :=
  let lock := (s.feeder f).lock
  if lock.heldByPort && !lock.bars p then (changeLock f .free .dropped s, .ok) else (s, .plain .state)

/-- DROP_LOCK (R117). -/
def execDropLock (port : Port) (target : Byte) (payload : List Byte) (s : State) : Host.Outcome State Fault Refusal :=
  .next (takeRequest .dropLock port target payload (onFeederTarget target (dropLockBody port)) s)

end Sys2Proof.Machine
end

