-- ==== Sys2Proof/Machine/ClaimRequests.lean ====
section
/-! DEFINITION. The meanings of the claim requests (chapter 5). -/
namespace Sys2Proof.Machine

/-- A crew tag that a holder may name: 1 to 9999 for CREW, 0 for the others (R87, R92). -/
def tagInRange (holder : Port) (tag : Nat) : Bool :=
  match holder with
  | .crew => within 1 9999 tag
  | _ => decide (tag = 0)

/-- The most claims the pool holds (R86). -/
def poolSize : Nat := 32

/-- The fields of a PLACE_CLAIM payload (R192): kind, reason code, crew tag, expiry in s. -/
structure ClaimOrder where
  kind : ClaimKind
  reason : Nat
  tag : Nat
  expiry : Option Nat
  deriving DecidableEq, Repr

/-- The expiry a PLACE_CLAIM payload gives, when its presence byte is 1 (R192). -/
def orderedExpiry (payload : List Byte) : Option Nat :=
  if numberAt payload 4 1 = 1 then some (numberAt payload 5 4) else none

/-- The checks 1 to 3 of R87 on a PLACE_CLAIM payload: none is RANGE. A reason code is one byte, so none is above 255. -/
def claimOrder (p : Port) (payload : List Byte) : Option ClaimOrder :=
  match ClaimKind.ofCode (numberAt payload 0 1) with
  | none => none
  | some k =>
    let tag := numberAt payload 2 2
    let expiry := orderedExpiry payload
    let expiryFits := match expiry with | none => true | some e => within 60 86400 e && decide (k = .noReclose)
    if tagInRange p tag && expiryFits then
      some { kind := k, reason := numberAt payload 1 1, tag := tag, expiry := expiry }
    else none

/-- The expiry deadline of an order taken now (R87, R88). -/
def ClaimOrder.deadline (o : ClaimOrder) (now : Nat) : Option Nat := o.expiry.map fun e => now + e * 1000

/-- A claim request is answered: OK at once for NORECLOSE, withheld with a claim write queued for HOLD_OPEN (R89, R90, R92). -/
def claimDone (p : Port) (k : ClaimKind) (s : State) : State × Reply :=
  match k with
  | .noReclose => (s, .ok)
  | .holdOpen => (queueWrite p .claims s, .withheld)

/-- A duplicate placement changes the claim in place: its reason and its expiry deadline (R88). -/
def renewClaim (f : Feeder) (p : Port) (o : ClaimOrder) (s : State) : State :=
  { s with pool := s.pool.map fun c =>
      if c.is f o.kind p o.tag then { c with reason := o.reason, expiry := o.deadline s.partTime } else c }

/-- A new placement joins the tail of the pool (R87). -/
def newClaim (f : Feeder) (p : Port) (o : ClaimOrder) (s : State) : PortClaim :=
  { feeder := f, kind := o.kind, holder := p, tag := o.tag, reason := o.reason, placedAt := s.partTime,
    expiry := o.deadline s.partTime, persisted := false, inWrite := false }

/-- PLACE_CLAIM on a feeder, by the checks of R87 in order. -/
def placeClaimBody (p : Port) (payload : List Byte) (f : Feeder) (s : State) : State × Reply :=
  match claimOrder p payload with
  | none => (s, .plain .range)
  | some o =>
    if (findClaim s f o.kind p o.tag).isSome then claimDone p o.kind (renewClaim f p o s)
    else if poolSize ≤ s.pool.length then (s, .plain .full)
    else claimDone p o.kind (judged f (addClaim (newClaim f p o s)) s)

/-- PLACE_CLAIM (R87 to R89). -/
def execPlaceClaim (port : Port) (target : Byte) (payload : List Byte) (s : State) : Host.Outcome State Fault Refusal :=
  .next (takeRequest .placeClaim port target payload (onFeederTarget target (placeClaimBody port payload)) s)

/-- RELEASE_CLAIM on a feeder (R90). -/
def releaseClaimBody (p : Port) (payload : List Byte) (f : Feeder) (s : State) : State × Reply :=
  let tag := numberAt payload 1 2
  match ClaimKind.ofCode (numberAt payload 0 1) with
  | none => (s, .plain .range)
  | some k =>
    if tagInRange p tag = false then (s, .plain .range)
    else if (findClaim s f k p tag).isNone then (s, .plain .state)
    else claimDone p k (removeClaim f k p tag .released s)

/-- RELEASE_CLAIM (R90). -/
def execReleaseClaim (port : Port) (target : Byte) (payload : List Byte) (s : State) : Host.Outcome State Fault Refusal :=
  .next (takeRequest .releaseClaim port target payload (onFeederTarget target (releaseClaimBody port payload)) s)

/-- FORCE_RELEASE on a feeder (R92). -/
def forceReleaseBody (p : Port) (payload : List Byte) (f : Feeder) (s : State) : State × Reply :=
  let tag := numberAt payload 2 2
  match ClaimKind.ofCode (numberAt payload 0 1), portOfCode (numberAt payload 1 1) with
  | some k, some h =>
    if tagInRange h tag = false then (s, .plain .range)
    else if (findClaim s f k h tag).isNone then (s, .plain .state)
    else if k = .holdOpen ∧ h = .crew then (s, .plain .rights)
    else claimDone p k (removeClaim f k h tag .forced s)
  | _, _ => (s, .plain .range)

/-- FORCE_RELEASE (R92). -/
def execForceRelease (port : Port) (target : Byte) (payload : List Byte) (s : State) : Host.Outcome State Fault Refusal :=
  .next (takeRequest .forceRelease port target payload (onFeederTarget target (forceReleaseBody port payload)) s)

/-- A system claim is cleared by its request, or refused with STATE while it is absent or barred (R96 to R98). -/
def clearClaim (n : SystemClaim) (barred : Bool) (f : Feeder) (s : State) : State × Reply :=
  if (s.feeder f).claims.has n && !barred then (removeSystemClaim f n s, .ok) else (s, .plain .state)

/-- CLEAR_BREAKER_FAIL on a feeder: barred by a position fault (R97). -/
def clearBreakerFailBody (f : Feeder) (s : State) : State × Reply :=
  clearClaim .breaker (s.feeder f).positionFault.isSome f s

/-- CLEAR_BREAKER_FAIL (R97). -/
def execClearBreakerFail (port : Port) (target : Byte) (payload : List Byte) (s : State) : Host.Outcome State Fault Refusal :=
  .next (takeRequest .clearBreakerFail port target payload (onFeederTarget target clearBreakerFailBody) s)

/-- CLEAR_HUNT_CLAIM (R96). -/
def execClearHuntClaim (port : Port) (target : Byte) (payload : List Byte) (s : State) : Host.Outcome State Fault Refusal :=
  .next (takeRequest .clearHuntClaim port target payload (onFeederTarget target (clearClaim .hunt false)) s)

/-- CLEAR_STORE_HOLD (R98). -/
def execClearStoreHold (port : Port) (target : Byte) (payload : List Byte) (s : State) : Host.Outcome State Fault Refusal :=
  .next (takeRequest .clearStoreHold port target payload (onFeederTarget target (clearClaim .store false)) s)

end Sys2Proof.Machine
end

