-- ==== Sys2Proof/Machine/SettingsRequests.lean ====
section
/-! DEFINITION. The meanings of the fire, store and restart requests (chapters 3, 4, R189). -/
namespace Sys2Proof.Machine

/-- SET_FIRE_REQUEST (R69). -/
def execSetFireRequest (port : Port) (target : Byte) (payload : List Byte) (s : State) : Host.Outcome State Fault Refusal :=
  .next (takeRequest .setFireRequest port target payload (onDistrictTarget target (setFireRequestBody port payload)) s)

/-- SET_FLOOR (R70). -/
def execSetFloor (port : Port) (target : Byte) (payload : List Byte) (s : State) : Host.Outcome State Fault Refusal :=
  .next (takeRequest .setFloor port target payload (onDistrictTarget target (setFloorBody port payload)) s)

/-- SET_BAN_LEVEL (R71). -/
def execSetBanLevel (port : Port) (target : Byte) (payload : List Byte) (s : State) : Host.Outcome State Fault Refusal :=
  .next (takeRequest .setBanLevel port target payload (onDistrictTarget target (setBanLevelBody port payload)) s)

/-- OPEN_EDIT (R53). -/
def execOpenEdit (port : Port) (target : Byte) (payload : List Byte) (s : State) : Host.Outcome State Fault Refusal :=
  .next (takeRequest .openEdit port target payload (takeEdit port (openEditBody port payload)) s)

/-- SET_FIELD (R55). -/
def execSetField (port : Port) (target : Byte) (payload : List Byte) (s : State) : Host.Outcome State Fault Refusal :=
  .next (takeRequest .setField port target payload (takeEdit port (setFieldBody port payload)) s)

/-- COMMIT_EDIT (R57 to R59). -/
def execCommitEdit (port : Port) (target : Byte) (payload : List Byte) (s : State) : Host.Outcome State Fault Refusal :=
  .next (takeRequest .commitEdit port target payload (takeEdit port (commitEditBody port)) s)

/-- DISCARD_EDIT (R56). -/
def execDiscardEdit (port : Port) (target : Byte) (payload : List Byte) (s : State) : Host.Outcome State Fault Refusal :=
  .next (takeRequest .discardEdit port target payload (takeEdit port (discardEditBody port)) s)

/-- SET_PROTECT_MODE (R61). -/
def execSetProtectMode (port : Port) (target : Byte) (payload : List Byte) (s : State) : Host.Outcome State Fault Refusal :=
  .next (takeRequest .setProtectMode port target payload (setProtectModeBody port payload) s)

/-- FREEZE_SETTINGS (R61). -/
def execFreezeSettings (port : Port) (target : Byte) (payload : List Byte) (s : State) : Host.Outcome State Fault Refusal :=
  .next (takeRequest .freezeSettings port target payload freezeBody s)

/-- RESTART (R189). -/
def execRestart (port : Port) (target : Byte) (payload : List Byte) (s : State) : Host.Outcome State Fault Refusal :=
  .next (takeRequest .restart port target payload restartBody s)

end Sys2Proof.Machine
end

