-- ==== Sys2Proof/Machine/HuntRequests.lean ====
section
/-! DEFINITION. The meanings of the hunt requests (chapter 8). -/
namespace Sys2Proof.Machine

/-- START_HUNT: BUSY while a hunt is in progress; STATE with the detector QUIET, the link not UP, or both enables no (R149). -/
def startHuntBody (s : State) : State × Reply :=
  if s.hunt.isSome then (s, .plain .busy)
  else if s.detector.state = .quiet ∨ s.link ≠ .up ∨ huntEnabled s = false then (s, .plain .state)
  else (huntSettle none (startHunt .requested s), .ok)

/-- START_HUNT (R149). -/
def execStartHunt (port : Port) (target : Byte) (payload : List Byte) (s : State) : Host.Outcome State Fault Refusal :=
  .next (takeRequest .startHunt port target payload startHuntBody s)

/-- SUSPEND_HUNT (R165). -/
def suspendHuntBody (s : State) : State × Reply :=
  match s.hunt with
  | none => (s, .plain .state)
  | some h =>
    if h.state = .idle ∨ h.pendingResult.isSome = true then (s, .plain .state)
    else if h.state = .suspended ∨ h.pendingSuspend = true then (s, .ok)
    else if h.state = .identify then (suspendHunt .identify s, .ok)
    else (s.onHunt fun r => { r with pendingSuspend := true }, .ok)

/-- SUSPEND_HUNT (R165). -/
def execSuspendHunt (port : Port) (target : Byte) (payload : List Byte) (s : State) : Host.Outcome State Fault Refusal :=
  .next (takeRequest .suspendHunt port target payload suspendHuntBody s)

/-- A suspended hunt continues from its resume point (R167). -/
def resumeFrom (h : HuntRun) (s : State) : State × HuntGo :=
  let s1 := s.onHunt fun r => { r with resume := none }
  match h.resume with
  | some .identify =>
    if (huntLevelSettings s h).identifyEnable then (setHuntState .identify {} (beginWindow s1), .wait)
    else (s1, .trialEntry none none)
  | some .trialEntry => (s1, .trialEntry none none)
  | some .nextCandidate => (s1, .boundary)
  | none => (s1, .trialEntry none none)

/-- RESUME_HUNT (R167). -/
def resumeHuntBody (s : State) : State × Reply :=
  match s.hunt with
  | none => (s, .plain .state)
  | some h =>
    if h.state = .suspended then (huntSettle none (resumeFrom h s), .ok)
    else if h.pendingSuspend then (s.onHunt fun r => { r with pendingSuspend := false }, .ok)
    else (s, .plain .state)

/-- RESUME_HUNT (R167). -/
def execResumeHunt (port : Port) (target : Byte) (payload : List Byte) (s : State) : Host.Outcome State Fault Refusal :=
  .next (takeRequest .resumeHunt port target payload resumeHuntBody s)

/-- ABORT_HUNT (R168). -/
def abortHuntBody (s : State) : State × Reply :=
  match s.hunt with
  | none => (s, .plain .state)
  | some h => if h.state = .idle then (s, .plain .state) else (huntSettle none (abortHunt .abortedRequest s), .ok)

/-- ABORT_HUNT (R168). -/
def execAbortHunt (port : Port) (target : Byte) (payload : List Byte) (s : State) : Host.Outcome State Fault Refusal :=
  .next (takeRequest .abortHunt port target payload abortHuntBody s)

end Sys2Proof.Machine
end

