-- ==== Sys2Proof/Machine/Dispatch.lean ====
section
/-! DEFINITION. The dispatch of a command to its meaning: one arm per constructor of `Instr`. -/
namespace Sys2Proof.Machine

/-- The effect of a command on everything but the queue of waiting commands. -/
def exec (i : Instr) (s : State) : Host.Outcome State Fault Refusal :=
  match i with
  | .powerOn straps => Sys2Proof.Machine.execPowerOn straps s
  | .powerLoss => Sys2Proof.Machine.execPowerLoss s
  | .resetAsserted => Sys2Proof.Machine.execResetAsserted s
  | .resetReleased straps => Sys2Proof.Machine.execResetReleased straps s
  | .measurementFrame unit => Sys2Proof.Machine.execMeasurementFrame unit s
  | .linkLossDeadline => Sys2Proof.Machine.execLinkLossDeadline s
  | .inputScan levels => Sys2Proof.Machine.execInputScan levels s
  | .invalidTimerExpiry feeder => Sys2Proof.Machine.execInvalidTimerExpiry feeder s
  | .transitTimerExpiry feeder => Sys2Proof.Machine.execTransitTimerExpiry feeder s
  | .tripDeadline feeder => Sys2Proof.Machine.execTripDeadline feeder s
  | .closeDeadline feeder => Sys2Proof.Machine.execCloseDeadline feeder s
  | .deadTimeExpiry feeder => Sys2Proof.Machine.execDeadTimeExpiry feeder s
  | .reclaimExpiry feeder => Sys2Proof.Machine.execReclaimExpiry feeder s
  | .confirmExpiry => Sys2Proof.Machine.execConfirmExpiry s
  | .trialWatchExpiry => Sys2Proof.Machine.execTrialWatchExpiry s
  | .editLeaseExpiry => Sys2Proof.Machine.execEditLeaseExpiry s
  | .lockLeaseExpiry feeder => Sys2Proof.Machine.execLockLeaseExpiry feeder s
  | .claimExpiry feeder holder tag => Sys2Proof.Machine.execClaimExpiry feeder holder tag s
  | .storeWriteBegins => Sys2Proof.Machine.execStoreWriteBegins s
  | .storeWriteComplete => Sys2Proof.Machine.execStoreWriteComplete s
  | .loweringApplied feeder => Sys2Proof.Machine.execLoweringApplied feeder s
  | .fetch port clocked => Sys2Proof.Machine.execFetch port clocked s
  | .badTransferType port type => Sys2Proof.Machine.execBadTransferType port type s
  | .frameEndedEarly port => Sys2Proof.Machine.execFrameEndedEarly port s
  | .collidedFrame port => Sys2Proof.Machine.execCollidedFrame port s
  | .crewStall point => Sys2Proof.Machine.execCrewStall point s
  | .badFrame port => Sys2Proof.Machine.execBadFrame port s
  | .unknownRequest port => Sys2Proof.Machine.execUnknownRequest port s
  | .identify port target payload => Sys2Proof.Machine.execIdentify port target payload s
  | .readPart port target payload => Sys2Proof.Machine.execReadPart port target payload s
  | .readFeeder port target payload => Sys2Proof.Machine.execReadFeeder port target payload s
  | .readClaims port target payload => Sys2Proof.Machine.execReadClaims port target payload s
  | .readEvents port target payload => Sys2Proof.Machine.execReadEvents port target payload s
  | .readFire port target payload => Sys2Proof.Machine.execReadFire port target payload s
  | .readEffective port target payload => Sys2Proof.Machine.execReadEffective port target payload s
  | .readRecord port target payload => Sys2Proof.Machine.execReadRecord port target payload s
  | .readStore port target payload => Sys2Proof.Machine.execReadStore port target payload s
  | .readEdit port target payload => Sys2Proof.Machine.execReadEdit port target payload s
  | .readHunt port target payload => Sys2Proof.Machine.execReadHunt port target payload s
  | .trip port target payload => Sys2Proof.Machine.execTrip port target payload s
  | .close port target payload => Sys2Proof.Machine.execClose port target payload s
  | .takeLock port target payload => Sys2Proof.Machine.execTakeLock port target payload s
  | .dropLock port target payload => Sys2Proof.Machine.execDropLock port target payload s
  | .placeClaim port target payload => Sys2Proof.Machine.execPlaceClaim port target payload s
  | .releaseClaim port target payload => Sys2Proof.Machine.execReleaseClaim port target payload s
  | .forceRelease port target payload => Sys2Proof.Machine.execForceRelease port target payload s
  | .clearBreakerFail port target payload => Sys2Proof.Machine.execClearBreakerFail port target payload s
  | .clearHuntClaim port target payload => Sys2Proof.Machine.execClearHuntClaim port target payload s
  | .clearStoreHold port target payload => Sys2Proof.Machine.execClearStoreHold port target payload s
  | .setFireRequest port target payload => Sys2Proof.Machine.execSetFireRequest port target payload s
  | .setFloor port target payload => Sys2Proof.Machine.execSetFloor port target payload s
  | .setBanLevel port target payload => Sys2Proof.Machine.execSetBanLevel port target payload s
  | .openEdit port target payload => Sys2Proof.Machine.execOpenEdit port target payload s
  | .setField port target payload => Sys2Proof.Machine.execSetField port target payload s
  | .commitEdit port target payload => Sys2Proof.Machine.execCommitEdit port target payload s
  | .discardEdit port target payload => Sys2Proof.Machine.execDiscardEdit port target payload s
  | .setProtectMode port target payload => Sys2Proof.Machine.execSetProtectMode port target payload s
  | .freezeSettings port target payload => Sys2Proof.Machine.execFreezeSettings port target payload s
  | .startHunt port target payload => Sys2Proof.Machine.execStartHunt port target payload s
  | .suspendHunt port target payload => Sys2Proof.Machine.execSuspendHunt port target payload s
  | .resumeHunt port target payload => Sys2Proof.Machine.execResumeHunt port target payload s
  | .abortHunt port target payload => Sys2Proof.Machine.execAbortHunt port target payload s
  | .restart port target payload => Sys2Proof.Machine.execRestart port target payload s
  | .requestFrameBegins port => Sys2Proof.Machine.execRequestFrameBegins port s

end Sys2Proof.Machine
end

