-- ==== Sys2Proof/Machine/Tick.lean ====
section
/-! DEFINITION. What happens when no command waits: part time goes on by a millisecond, and the deadlines it reaches are queued as
their commands (DESIGN CHOICE, log 2). -/
namespace Sys2Proof.Machine

/-- A command is queued when its condition holds. -/
def dueWhen (due : Bool) (c : Instr) : List Instr := if due then [c] else []

/-- The operation in flight of one kind has reached its deadline. -/
def operationReached (s : State) (f : Feeder) (kind : OpKind) : Bool :=
  match (s.feeder f).inFlight with
  | some y => decide (y.op.kind = kind) && decide (y.deadline ≤ s.partTime)
  | none => false

/-- The deadlines of a feeder that the part time has reached. -/
def dueOfFeeder (s : State) (f : Feeder) : List Instr :=
  let x := s.feeder f
  dueWhen (reached s x.invalidTimer) (.invalidTimerExpiry f) ++
  dueWhen (reached s x.transitTimer) (.transitTimerExpiry f) ++
  dueWhen (operationReached s f .trip) (.tripDeadline f) ++
  dueWhen (operationReached s f .close) (.closeDeadline f) ++
  dueWhen (reached s x.ar.deadline) (.deadTimeExpiry f) ++
  dueWhen (reached s x.ar.reclaim) (.reclaimExpiry f) ++
  dueWhen (reached s x.lock.lease) (.lockLeaseExpiry f)

/-- The step deadline of the hunt, if the part time has reached it. -/
def dueOfHunt (s : State) : List Instr :=
  match s.hunt with
  | none => []
  | some h =>
    dueWhen (reached s h.deadline && decide (h.state = .confirm)) .confirmExpiry ++
    dueWhen (reached s h.deadline && decide (h.state = .trialWatch)) .trialWatchExpiry

/-- The lease of the edit buffer, if the part time has reached it. -/
def editReached (s : State) : Bool :=
  match s.store.edit with
  | .editing _ _ _ lease => decide (lease ≤ s.partTime)
  | _ => false

/-- The port claims that have expired. -/
def dueOfClaims (s : State) : List Instr :=
  (s.pool.filter fun c => decide (c.kind = .noReclose) && reached s c.expiry).map fun c =>
    .claimExpiry c.feeder c.holder (c.shownTag.getD 0)

/-- The longest a write takes, by its class, in ms (R62). -/
def writeBound (r : RecordName) : Nat := if r = .claims then 50 else 400

/-- The write that may begin, or the write in flight that has taken the longest it may (R62). -/
def dueOfStore (s : State) : List Instr :=
  match s.store.writing, s.store.queue with
  | none, _ :: _ => [.storeWriteBegins]
  | some w, e :: _ => dueWhen (decide (w.began + writeBound e.record ≤ s.partTime)) .storeWriteComplete
  | _, [] => []

/-- The stall of the write under way at the crew port, if the part time has reached it (R180). -/
def dueOfCrew (s : State) : List Instr := dueWhen (reached s (s.crewWrite.map (·.stall))) (.crewStall .underWay)

/-- The commands of the deadlines that the part time has reached. -/
def dueCommands (s : State) : List Instr :=
  dueWhen (reached s s.linkDeadline) .linkLossDeadline ++ Feeder.all.flatMap (dueOfFeeder s) ++ dueOfHunt s ++
  dueWhen (editReached s) .editLeaseExpiry ++ dueOfClaims s ++ dueOfCrew s ++ dueOfStore s

/-- A millisecond of part time; without power or held by RESET the part time stands (R16). -/
def tick (s : State) : State :=
  if s.phase = .running then
    let s1 := { s with partTime := s.partTime + 1 }
    { s1 with pending := dueCommands s1 }
  else s

end Sys2Proof.Machine
end

