-- ==== Sys2Proof/Safety.lean ====
section
/-! DEFINITION. What the claims about the part are said in: the conditions under which a request is taken, the invariants that every
step keeps, what a start-up leaves, and the facts about written copies. -/
namespace Sys2Proof

/-- The target byte that names a feeder (R183, R194). -/
def Feeder.byte (f : Feeder) : Byte := BitVec.ofNat 8 f.number

/-- The target byte that names a district (R183, R194). -/
def District.byte (d : District) : Byte := BitVec.ofNat 8 d.number

namespace Machine

/-! ### Requests -/

/-- The port holds nothing, or receives the frame of the request that arrives: a frame is neither collided nor unacknowledged. -/
def portFree (s : State) (p : Port) : Prop := (s.ports.get p).state = .idle ∨ (s.ports.get p).state = .receiving

/-- The part runs and the port holds an earlier request or response (R176). -/
def portBusy (s : State) (p : Port) : Prop :=
  (∃ code target, (s.ports.get p).state = .executing code target) ∨ ∃ r, (s.ports.get p).state = .waiting r

/-- A request that arrives is taken: the part runs, its port is free, and it passes checks 1 to 5 (R177, R181). -/
structure Takes (q : Request) (p : Port) (target : Byte) (payload : List Byte) (s : State) : Prop where
  running : s.phase = .running
  free : portFree s p
  passes : portCheck s q p target.toNat payload = none

/-- The port is EXECUTING a request that was taken and whose response is withheld (R174, R177). -/
def withheld (q : Request) (p : Port) (target : Nat) (s : State) : State :=
  s.onPort p fun u => { u with state := .executing q.code target }

/-- The state on which the owner of a request that names a feeder acts: its port is RECEIVING, and the lease of the lock that the
port holds there is renewed (R119, R175). -/
def namingFeeder (f : Feeder) (p : Port) (s : State) : State := renewLock f p (receive p s)

/-- The state on which the store acts on an edit request: its port is RECEIVING, and the lease of the edit that the port owns is
renewed (R56, R175). -/
def editing (p : Port) (s : State) : State := renewEdit p (receive p s)

/-- The protect mode and SET_PROTECT let a port edit (R54): the network port always, the panel port under OPEN, and under PIN while the
input reads inactive. -/
abbrev mayEdit (s : State) (p : Port) : Prop :=
  p = .network ∨
    (p = .panel ∧
      (s.store.protectMode.held = .open_ ∨ (s.store.protectMode.held = .pin ∧ setProtectActive s = false)))

/-- The response to a request is made ready at a port that held the port unit `u` before the request (R177). -/
def answeredAt (u : PortUnit) (st : Status) (payload : List Byte) (v : PortUnit) : Prop :=
  v = { state := .waiting { status := st, collided := u.collided, incomplete := u.incomplete, payload := payload },
        collided := false, incomplete := false }

/-- A district's target of its four sources, as a number: the ban level counts while FIRE_BAN reads active (R68). -/
def highestSource (network panel floor ban : Level) (counted : Bool) : Nat :=
  max (max network.number panel.number) (max floor.number (if counted then ban.number else 0))

/-- The payload of a PLACE_CLAIM (R192). -/
def claimPayload (k : ClaimKind) (reason tag : Nat) (expiry : Option Nat) : List Byte :=
  be1 k.code ++ be1 reason ++ be2 tag ++ beOpt be4 expiry

/-- The feeder that a deadline of a feeder, or a request whose target is a feeder, is about (R183). -/
def feederOf (i : Instr) : Option Feeder :=
  match i with
  | .invalidTimerExpiry f => some f
  | .transitTimerExpiry f => some f
  | .tripDeadline f => some f
  | .closeDeadline f => some f
  | .deadTimeExpiry f => some f
  | .reclaimExpiry f => some f
  | .lockLeaseExpiry f => some f
  | .claimExpiry f _ _ => some f
  | .loweringApplied f => some f
  | .readFeeder _ target _ => Feeder.ofNumber target.toNat
  | .readClaims _ target _ => Feeder.ofNumber target.toNat
  | .readEffective _ target _ => Feeder.ofNumber target.toNat
  | .trip _ target _ => Feeder.ofNumber target.toNat
  | .close _ target _ => Feeder.ofNumber target.toNat
  | .takeLock _ target _ => Feeder.ofNumber target.toNat
  | .dropLock _ target _ => Feeder.ofNumber target.toNat
  | .placeClaim _ target _ => Feeder.ofNumber target.toNat
  | .releaseClaim _ target _ => Feeder.ofNumber target.toNat
  | .forceRelease _ target _ => Feeder.ofNumber target.toNat
  | .clearBreakerFail _ target _ => Feeder.ofNumber target.toNat
  | .clearHuntClaim _ target _ => Feeder.ofNumber target.toNat
  | .clearStoreHold _ target _ => Feeder.ofNumber target.toNat
  | _ => none

/-- The command is a start-up, or a RESET or power event. -/
def isStartUp : Instr → Bool
  | .powerOn _ => true
  | .powerLoss => true
  | .resetAsserted => true
  | .resetReleased _ => true
  | .restart _ _ _ => true
  | _ => false

/-- The command is a fetch. -/
def isFetch : Instr → Bool
  | .fetch _ _ => true
  | _ => false

/-- The command is a transfer at this port that is no fetch: a request transfer, whole or not, one of a bad type, or a crew write that stalls
(sections 9.2, 9.3). -/
def ListensAt (p : Port) (i : Instr) : Prop :=
  i = .requestFrameBegins p ∨ i = .frameEndedEarly p ∨ i = .collidedFrame p ∨ i = .badFrame p ∨ i = .unknownRequest p ∨
    (∃ q type, i = .badTransferType q type ∧ q.port = p) ∨
    (p = .crew ∧ (i = .crewStall .writeAfterByte ∨ i = .crewStall .writeAfterAddress)) ∨
    ∃ (q : Request) (target : Byte) (payload : List Byte), i = q.command p target payload

/-- The command is a scan of the inputs. -/
def isInputScan : Instr → Bool
  | .inputScan _ => true
  | _ => false

/-! ### What the frame statements say -/

/-- The record of a feeder in a frame, as it is read: ten bytes with the three phase currents, the residual current, the direction and the
flags; a valid record whose saturated flag is set has every current at 65,535, and a direction that names none of the three is NONE
(R1, R194). -/
def recordAt (bs : List Byte) (f : Feeder) : FeederRecord :=
  let start := 7 + 10 * (f.number - 1)
  let flags := bs.getD (start + 9) 0#8
  let saturated := flags.getLsbD 0 && flags.getLsbD 1
  let current (place : Nat) : Nat := if saturated then 65535 else numberAt bs (start + place) 2
  let code := numberAt bs (start + 8) 1
  { ia := current 0, ib := current 2, ic := current 4, residual := current 6,
    direction := if code = 1 then .forward else if code = 2 then .reverse else .none,
    valid := flags.getLsbD 0, saturated := saturated }

/-- A whole measurement frame as it is read: the interval and Vn clamped (R1, R194). -/
def frameAt (bs : List Byte) : MeasFrame :=
  { sequence := numberAt bs 0 1
    interval := max 5000 (min 50000 (numberAt bs 1 3))
    vn := min 1000 (numberAt bs 4 2)
    busValid := (bs.getD 6 0#8).getLsbD 0
    records := .of (recordAt bs) }

/-- A unit of the link is accepted: the part runs, the unit is a whole frame whose check matches, and it does not repeat the last
accepted sequence number (R2). -/
structure Accepted (bs : List Byte) (s : State) : Prop where
  running : s.phase = .running
  whole : bs.length = 69
  check : bs.drop 67 = checkField (bs.take 67)
  fresh : s.lastSequence ≠ some (numberAt bs 0 1)

/-- A feeder's record in an accepted frame is evaluated: the measurement state is VALID after the record (R4, R5). -/
def Evaluated (x : FeederState) (r : FeederRecord) : Prop :=
  r.valid = true ∧
    (x.meas = .valid ∨ x.meas = .holding ∨ ((x.meas = .awaiting ∨ x.meas = .lost) ∧ x.recoveryCount = 4))

/-- Some element of the feeder is PICKED_UP, HELD or OPERATED (R42). -/
def somePickedUp (x : FeederState) : Bool :=
  let up (e : Element) : Bool := decide (e.state = .pickedUp ∨ e.state = .held ∨ e.state = .operated)
  up x.phaseIdmt || up x.highSet || up x.earthIdmt || up x.sef

/-- A feeder stands with the four elements of a given record. -/
def SameElements (x y : FeederState) : Prop :=
  x.phaseIdmt = y.phaseIdmt ∧ x.highSet = y.highSet ∧ x.earthIdmt = y.earthIdmt ∧ x.sef = y.sef

/-! ### What the switching statements say -/

/-- What a completion leaves once the hunt has been told, at no frame: of its own operation first, then of a protection trip DONE
(R114, steps 3 and 4). -/
def huntTold (f : Feeder) (c : Completed) (superseding : Option Origin) (s : State) : State :=
  let own :=
    if .hunt ∈ c.op.requesters then huntSettle none (huntOpDone f c.op.id c.op.kind c.outcome superseding s) else s
  if c.outcome = .done ∧ c.op.kind = .trip ∧ .protection ∈ c.op.requesters then huntProtectionTrip f own else own

/-- No change of a feeder's settings waits for quiescence (R76). -/
def NothingPending (s : State) (f : Feeder) : Prop := loweringPending s f = false ∧ settingsPending s f = false

/-- A system claim is present: placed and reported when it was absent, in a sequencer state other than DEAD_TIME (R95, R100). -/
def withClaim (n : SystemClaim) (f : Feeder) (s : State) : State :=
  if (s.feeder f).claims.has n then s
  else broadcast (.claimPlaced f (.system n)) (s.onFeeder f fun x => { x with claims := x.claims.put n true })

/-- A system claim is absent: removed and reported when it was present (R95, R100). -/
def withoutClaim (n : SystemClaim) (f : Feeder) (s : State) : State :=
  if (s.feeder f).claims.has n then
    broadcast (.claimReleased f (.system n) .cleared) (s.onFeeder f fun x => { x with claims := x.claims.put n false })
  else s

/-- A filtered input after a scan that showed a raw level (R10). -/
structure Scanned (x : FilteredInput) (raw : Bool) (y : FilteredInput) : Prop where
  same : ∀ l, x.level = some l → raw = l → y.level = some l ∧ y.count = 0
  counting : ∀ l, x.level = some l → raw ≠ l → x.count < 2 → y = { level := some l, candidate := raw, count := x.count + 1 }
  accepted : ∀ l, x.level = some l → raw ≠ l → x.count = 2 → y.level = some raw ∧ y.count = 0
  first : x.level = none → x.count = 0 ∨ raw ≠ x.candidate → y = { level := none, candidate := raw, count := 1 }
  second : x.level = none → raw = x.candidate → x.count = 1 → y.level = none ∧ y.candidate = raw ∧ y.count = 2
  settles : x.level = none → raw = x.candidate → x.count = 2 → y.level = some raw ∧ y.count = 0

/-- A filtered input that a scan leaves as it is: it has settled at the level that the scan shows and counts nothing (R10). -/
def Steady (x : FilteredInput) (raw : Bool) : Prop := x.level = some raw ∧ x.count = 0

/-- Only one feeder differs between two states, and it stands as given. -/
def OnlyFeeder (s t : State) (f : Feeder) (x : FeederState) : Prop := t.feeder f = x ∧ ∀ g, g ≠ f → t.feeder g = s.feeder g

/-! ### What the fire level statements say -/

/-- The queues after entries are broadcast in turn. -/
def said (evs : List Event) (s : State) : PerPort (List EventEntry) := (evs.foldl (fun a e => broadcast e a) s).queues

/-- A fitted feeder takes a level in one reload: its effective settings are the stored group and curves of the level, nothing is pending,
the FIRE claim follows the fire block level, and the settings are handed on (R74, R77 to R81). An element enabled before and after is
kept and any other is NORMAL with 0, and the feeder reports them anew (R36, R42); a FIRE claim that enters, or a shot count
below the current shot, ends a dead time in LOCKOUT (R129, R130); a hunt level below the detector level is raised to it (R148). The
entries go in the order APPLIED_LEVEL, of a rise or a lowering alone, SETTINGS_APPLIED, CLAIM_PLACED or CLAIM_RELEASED,
LOCKOUT and AR_STATE, HUNT_STATE (R74, R77; logs 11 and 59). -/
def reloaded (f : Feeder) (new : Level) (cause : ApplyCause) (s : State) : State :=
  match (s.feeder f).fire with
  | none => s
  | some x =>
    let y := s.feeder f
    let was := x.effective.group
    let now := (s.effectiveFor f new).group
    let kept (before after : Bool) (e : Element) : Element :=
      if before = true ∧ after = true then e else { state := .normal, amount := 0 }
    let highSet := kept was.highSetEnable now.highSetEnable y.highSet
    let earthIdmt := kept was.earthEnable now.earthEnable y.earthIdmt
    let sef := kept was.sefEnable now.sefEnable y.sef
    let up (e : Element) : Bool := decide (e.state = .pickedUp ∨ e.state = .held ∨ e.state = .operated)
    let blocked := atFireBlock new (s.commissioning f).fireBlock
    let byClaim := decide (y.ar.state = .deadTime) && !y.claims.fire && blocked
    let byShots := decide (y.ar.state = .deadTime) && y.ar.currentShot.any fun n => decide (now.shots < n)
    let locked (c : ArCause) : ArRecord :=
      { ArRecord.bare .lockout s.partTime with shotsUsed := y.ar.shotsUsed, cause := some c }
    let lockedOut (c : ArCause) (d : LockoutDetail) : List Event :=
      [.lockout f c y.ar.shotsUsed d, .arState f .deadTime .lockout y.ar.shotsUsed none none c]
    let t : State :=
      { s with
        feeders := s.feeders.set f
          { y with
            fire := some { applied := new, settingsPending := false, effective := s.effectiveFor f new }
            claims := { y.claims with fire := blocked }
            highSet := highSet, earthIdmt := earthIdmt, sef := sef
            pickedUp := up y.phaseIdmt || up highSet || up earthIdmt || up sef
            ar := if byClaim then locked .claim else if byShots then locked .shotsReduced else y.ar } }
    let level := detectorLevel t
    { t with
      hunt := s.hunt.map fun h => if h.level.number < level.number then { h with level := level } else h
      queues := said
        ((if cause = .raise ∨ cause = .lower then [.appliedLevel f x.applied new cause] else []) ++
         [.settingsApplied f new cause] ++
         (if y.claims.fire = blocked then []
          else if blocked then [.claimPlaced f (.system .fire)]
          else [.claimReleased f (.system .fire) .cleared]) ++
         (if byClaim then lockedOut .claim { claim := some (.system .fire) }
          else if byShots then lockedOut .shotsReduced {}
          else []) ++
         (match s.hunt with
          | some h =>
            if h.level.number < level.number then
              [.huntState s.detector.state s.detector.state h.state h.state level { level := some level }]
            else []
          | none => []))
        s }

/-- A fitted feeder acts on its district's new target: a target above its applied level is a rise, one that falls below it is applied
at once when the feeder is quiescent and waits otherwise (R74, R75, R77). -/
def followed (old new : Level) (f : Feeder) (s : State) : State :=
  match (s.feeder f).fire with
  | none => s
  | some x =>
    if x.applied.number < new.number then reloaded f new .raise s
    else if new.number < x.applied.number ∧ new.number < old.number ∧ quiescent s f = true then reloaded f new .lower s
    else s

/-- A district's target after one of its sources has changed: a target that differs from the one held replaces it, FIRE_TARGET
goes with the sources as they now stand, and the fitted feeders of the district act on it (R68), in feeder order (log 46). -/
def targetTaken (d : District) (s : State) : State :=
  let x := s.districts.get d
  let new := computedTarget s d
  if new = x.target then s
  else
    (Feeder.all.filter fun f => s.fitted f && decide ((s.commissioning f).district = d)).foldl (fun a f => followed x.target new f a)
      { s with
        districts := s.districts.set d { x with target := new }
        queues := said [.fireTarget d x.target new x.network x.panel (s.ban d) (s.floor d) (fireBanActive s)] s }

/-- A fitted feeder is handed a commit of its applied group or of a curve that this names: a quiescent feeder takes it at once, with a
lowering that waits if one does, and any other holds it pending (R76 to R78). -/
def commitTaken (f : Feeder) (s : State) : State :=
  match (s.feeder f).fire with
  | none => s
  | some x =>
    if quiescent s f = true then
      (if (targetLevel s f).number < x.applied.number then reloaded f (targetLevel s f) .lower s else reloaded f x.applied .commit s)
    else { s with feeders := s.feeders.set f { s.feeder f with fire := some { x with settingsPending := true } } }

/-! ### What the hunt's statements say -/

/-- A feeder's block set holds no claim but FIRE and HUNT, so the restore rule bars no hunt close of it (R99, R110). -/
def RestoreFree (s : State) (f : Feeder) : Prop :=
  (s.feeder f).claims.measure = false ∧ (s.feeder f).claims.breaker = false ∧ (s.feeder f).claims.store = false ∧
    ∀ c, c ∈ s.pool → c.feeder ≠ f

/-- A hunt trip of the feeder is admitted: it is fitted, no port holds its lock, its breaker is CLOSED and nothing is in flight (R106,
R118). -/
structure HuntMayTrip (s : State) (f : Feeder) : Prop where
  fitted : s.fitted f = true
  lock : (s.feeder f).lock.heldByPort = false
  closed : (s.feeder f).position = .closed
  idle : (s.feeder f).inFlight = none

/-- A hunt close of the feeder is admitted: no port holds its lock, nothing is in flight, its breaker is not CLOSED and has no position
fault, and no claim bars it (R110, R118). -/
structure HuntMayClose (s : State) (f : Feeder) : Prop where
  lock : (s.feeder f).lock.heldByPort = false
  idle : (s.feeder f).inFlight = none
  apart : (s.feeder f).position ≠ .closed
  sound : (s.feeder f).positionFault = none
  free : RestoreFree s f

/-- An operation of the hunt that starts now, under the next op id (R104, R105). -/
def huntOperation (s : State) (kind : OpKind) : Operation :=
  { id := s.opCounter, kind := kind, origin := .hunt, requesters := [.hunt], permit := none, started := s.partTime }

/-- A feeder on which the hunt holds the lock and has its trip in flight (R104, R118). -/
def huntTripping (s : State) (f : Feeder) : FeederState :=
  { s.feeder f with
    lock := .hunt
    inFlight := some { op := huntOperation s .trip, deadline := s.partTime + (s.commissioning f).tripConfirm }
    transitTimer := none }

/-- A feeder on which the hunt holds the lock and has its close in flight (R104, R118). -/
def huntClosing (s : State) (f : Feeder) : FeederState :=
  { s.feeder f with
    lock := .hunt
    inFlight := some { op := huntOperation s .close, deadline := s.partTime + (s.commissioning f).closeConfirm }
    transitTimer := none }

/-- The identified feeder that may be no candidate: its isolate outcome is MISIDENTIFIED, TRIP_FAILED or OPENED (R156). -/
def barredFeeder (h : HuntRun) : Option Feeder :=
  match h.identified with
  | some i => if i.isolate = .misidentified ∨ i.isolate = .tripFailed ∨ i.isolate = .opened then some i.feeder else none
  | none => none

/-- A feeder meets the conditions of a candidate at trial entry, with a trial priority of its range 1 to 6 (R47, R156). -/
def MayBeTried (s : State) (barred : Option Feeder) (f : Feeder) : Prop :=
  s.fitted f = true ∧ (s.feeder f).position = .closed ∧ (s.feeder f).meas = .valid ∧ (s.commissioning f).huntExclude = false ∧
    barred ≠ some f ∧ 1 ≤ (s.commissioning f).trialPriority ∧ (s.commissioning f).trialPriority ≤ 6

/-- A candidate stands before another: by trial priority, then by feeder number (R156). -/
def TriedBefore (s : State) (f g : Feeder) : Prop :=
  (s.commissioning f).trialPriority < (s.commissioning g).trialPriority ∨
    ((s.commissioning f).trialPriority = (s.commissioning g).trialPriority ∧ f.number < g.number)

/-- A candidate list as trial entry builds it: the feeders that meet the conditions, in order, each NOT_TRIED (R156). -/
structure TrialList (s : State) (barred : Option Feeder) (cs : List Candidate) : Prop where
  members : ∀ f, (∃ c, c ∈ cs ∧ c.feeder = f) ↔ MayBeTried s barred f
  untried : ∀ c, c ∈ cs → c.outcome = .notTried
  ordered : cs.Pairwise fun a b => TriedBefore s a.feeder b.feeder

/-- The feeder that stands first in the candidate list of a trial entry (R156). -/
def FirstCandidate (s : State) (barred : Option Feeder) (f : Feeder) : Prop :=
  MayBeTried s barred f ∧ ∀ g, MayBeTried s barred g → g ≠ f → TriedBefore s f g

/-- A hunt has no end restore to make: no candidate is in its turn, and the identified feeder is none that R163 judges. -/
def NothingToRestore (h : HuntRun) : Prop :=
  h.current = none ∧
    ∀ i, h.identified = some i → i.endRestore ≠ none ∨ (i.isolate ≠ .misidentified ∧ i.isolate ≠ .opened)

/-- The last hunt record of a hunt that ends now with a result and no found feeder (R171). -/
def endedHunt (s : State) (h : HuntRun) (res : HuntResult) : HuntReport :=
  { cause := h.cause, startTime := h.startTime, endTime := s.partTime, level := h.level, sums := h.sums,
    identified := h.identified, candidates := h.candidates, result := res, found := none }

/-- A hunt's record whose step has ended: no window, no deadline, no dropout seen and no trip in the watch (section 8.2). -/
def stepEnded (h : HuntRun) : HuntRun := { h with window := none, dropoutSeen := none, deadline := none, tripInWatch := none }

/-- A hunt's record with a result pending, which cancels a pending suspend (R161). -/
def resulting (h : HuntRun) (res : HuntResult) : HuntRun := { h with pendingResult := some res, pendingSuspend := false }

/-- A hunt's record with an outcome for the candidate at a place of its list. -/
def outcomeAt (h : HuntRun) (i : Nat) (o : CandidateOutcome) : HuntRun :=
  { h with candidates := h.candidates.map fun cs => cs.modify i fun c => { c with outcome := o } }

/-- A hunt's record whose current candidate is concluded with an outcome, its operation gone. -/
def concluded (h : HuntRun) (i : Nat) (o : CandidateOutcome) : HuntRun := { outcomeAt h i o with current := none, op := none }

/-- The HUNT_STATE entry of a change of hunt state (R195); a change to the same state sends none (log 12). -/
def huntMoved (s : State) (old new : HuntState) (detail : HuntDetail) : List Event :=
  if old = new then []
  else [.huntState s.detector.state s.detector.state old new (detectorLevel s) detail]

/-- A hunt step from `s` leads on to `g` with the hunt's record `h`, and sends these entries; nothing else changes. -/
def Leads (s : State) (x : State × HuntGo) (g : HuntGo) (h : HuntRun) (evs : List Event) : Prop :=
  x = ({ s with hunt := some h, queues := said evs s }, g)

/-- A hunt step from `s` leads on to `g` with the hunt's record `h`, one feeder as given and the op id counter as given, and sends these
entries; nothing else changes. -/
def LeadsWith (s : State) (x : State × HuntGo) (g : HuntGo) (h : HuntRun) (f : Feeder) (y : FeederState) (ops : Nat)
    (evs : List Event) : Prop :=
  x = ({ s with hunt := some h, feeders := s.feeders.set f y, opCounter := ops, queues := said evs s }, g)

/-- The hunt's own operation of a kind, that starts now. -/
def huntOp (s : State) (kind : OpKind) (f : Feeder) : HuntOp := { id := s.opCounter, kind := kind, feeder := f }

/-- The LOCK_CHANGE entry of the hunt's taking a lock that is free; one that it holds sends none (R118). -/
def lockTaken (s : State) (f : Feeder) : List Event :=
  if (s.feeder f).lock = .hunt then [] else [.lockChange f .nobody .hunt .taken]

/-- The LOCK_CHANGE entry of the hunt's dropping its lock (R118). -/
def lockDropped (f : Feeder) : Event := .lockChange f .hunt .nobody .dropped

/-- A trial has begun on the first candidate of a list built now: it is the current candidate, the hunt holds its lock and its trip is in
flight; `h` is the hunt's record before (R156, R157). -/
structure TrialBegun (s t : State) (h : HuntRun) (barred : Option Feeder) (g : Feeder) : Prop where
  hunt : ∃ cs, TrialList s barred cs ∧
    t.hunt = some
      { stepEnded h with
        state := .trialOpen, candidates := some cs, current := some 0, locked := some g, op := some (huntOp s .trip g), resume := none }
  feeder : t.feeder g = huntTripping s g
  opId : t.opCounter = nextOpId s.opCounter

/-- A restore has begun: the hunt holds the feeder's lock and its close is in flight, and no other feeder changes; `h` is the hunt's record
before, but for a lock taken (R160, R163). -/
structure RestoreBegun (s t : State) (h : HuntRun) (f : Feeder) : Prop where
  hunt : t.hunt = some
    { stepEnded h with state := .trialRestore, op := some (huntOp s .close f), resume := none }
  feeder : OnlyFeeder s t f (huntClosing s f)
  opId : t.opCounter = nextOpId s.opCounter

/-- A hunt is over with a result, with nothing restored: the hunt is IDLE, its last record is `h` with that result, and a detector that is
not QUIET is UNRESOLVED with its accumulation kept (R164, R171). -/
structure HuntOver (s t : State) (h : HuntRun) (res : HuntResult) : Prop where
  hunt : t.hunt = none
  report : t.lastHunt = some (endedHunt s h res)
  detector : t.detector = if s.detector.state = .quiet then s.detector else { s.detector with state := .unresolved }
  feeders : t.feeders = s.feeders

/-! ### Invariants -/

/-- Every event queue holds at most 32 entries (R197). -/
def QueuesBounded (s : State) : Prop := ∀ p, (s.queues.get p).length ≤ 32

/-- No two claims of a pool share feeder, kind, holder and, for CREW, tag (R86). -/
def Distinct (pool : List PortClaim) : Prop :=
  pool.Pairwise fun c d => ¬ (d.feeder = c.feeder ∧ d.kind = c.kind ∧ d.holder = c.holder ∧ (c.holder = .crew → d.tag = c.tag))

/-- The pool holds at most 32 claims, no two of one identity (R86). -/
def PoolSound (s : State) : Prop := s.pool.length ≤ 32 ∧ Distinct s.pool

/-- Two claims share feeder, kind, holder and tag. -/
def SameClaim (c d : PortClaim) : Prop := d.feeder = c.feeder ∧ d.kind = c.kind ∧ d.holder = c.holder ∧ d.tag = c.tag

/-- The op id counter holds an op id (R105). -/
def OpIdSound (s : State) : Prop := 1 ≤ s.opCounter ∧ s.opCounter ≤ 65535

/-- A feeder has a fire state exactly while it is fitted, and its applied level is then at least its target level (R73). -/
def FeederLevelsSound (s : State) (f : Feeder) : Prop :=
  match (s.feeder f).fire with
  | none => s.fitted f = false
  | some x => s.fitted f = true ∧ (targetLevel s f).number ≤ x.applied.number

/-- Every feeder's levels stand as R73 gives, and every district's target is the highest of its sources (R68), so at least its season
floor. -/
def LevelsSound (s : State) : Prop :=
  (∀ f, FeederLevelsSound s f) ∧
  ∀ d, (s.districts.get d).target = computedTarget s d ∧ (s.floor d).number ≤ (s.districts.get d).target.number

/-- While a fitted feeder is quiescent, its applied level is its target level and its effective settings are the stored group and
curves for that level (R77). -/
def QuiescentSound (s : State) : Prop :=
  ∀ f x, (s.feeder f).fire = some x →
    (x.settingsPending = false → x.effective = s.effectiveFor f x.applied) ∧
    (quiescent s f = true → x.applied = targetLevel s f ∧ x.settingsPending = false)

/-- Content is of the kind of the record that it is for. -/
def contentFits : RecordName → RecordContent → Bool
  | .group _ _, .group _ => true
  | .commissioning _, .commissioning _ => true
  | .hunt _, .hunt _ => true
  | .userCurve _, .userCurve _ => true
  | .seasonFloor _, .level _ => true
  | .banLevel _, .level _ => true
  | .protectMode, .protectMode _ => true
  | .claims, .claims _ => true
  | _, _ => false

/-- The edit buffer holds content of the kind of the record it names (section 3.7). -/
def EditFits (b : EditBuffer) : Prop :=
  match b with
  | .free => True
  | .editing _ r c _ => contentFits r c = true
  | .committing _ r c => contentFits r c = true

/-- An edit buffer that is not FREE names a record that OPEN_EDIT admits (R53). -/
def EditEditable (b : EditBuffer) : Prop :=
  match b with
  | .free => True
  | .editing _ r _ _ => r.editable = true
  | .committing _ r _ => r.editable = true

/-- The edit buffer holds content of its record's kind, and a write in flight is that of the oldest entry of the queue, with content of
its record's kind (sections 3.7, 3.9). -/
def StoreFits (st : Store) : Prop :=
  EditFits st.edit ∧ ∀ w, st.writing = some w → ∃ e rest, st.queue = e :: rest ∧ contentFits e.record w.content = true

/-! ### Written copies -/

/-- The written copy of a record is torn (R64). -/
def tornAt (st : Store) : RecordName → Prop
  | .group f l => ((st.groups.get f).get l).written = .torn
  | .commissioning f => (st.commissioning.get f).written = .torn
  | .hunt l => (st.hunts.get l).written = .torn
  | .userCurve .u1 => st.curveU1.written = .torn
  | .userCurve .u2 => st.curveU2.written = .torn
  | .seasonFloor d => (st.floors.get d).written = .torn
  | .banLevel d => (st.bans.get d).written = .torn
  | .protectMode => st.protectMode.written = .torn
  | .claims => st.claimsWritten = .torn

/-- Two stores hold the same written copy of a record. -/
def sameWritten (a b : Store) : RecordName → Prop
  | .group f l => ((b.groups.get f).get l).written = ((a.groups.get f).get l).written
  | .commissioning f => (b.commissioning.get f).written = (a.commissioning.get f).written
  | .hunt l => (b.hunts.get l).written = (a.hunts.get l).written
  | .userCurve .u1 => b.curveU1.written = a.curveU1.written
  | .userCurve .u2 => b.curveU2.written = a.curveU2.written
  | .seasonFloor d => (b.floors.get d).written = (a.floors.get d).written
  | .banLevel d => (b.bans.get d).written = (a.bans.get d).written
  | .protectMode => b.protectMode.written = a.protectMode.written
  | .claims => b.claimsWritten = a.claimsWritten

/-- The written copy of a record holds content and passes its check (R63). -/
def writtenIs (st : Store) : RecordName → RecordContent → Prop
  | .group f l, .group g => ((st.groups.get f).get l).written = .intact g
  | .commissioning f, .commissioning x => (st.commissioning.get f).written = .intact x
  | .hunt l, .hunt h => (st.hunts.get l).written = .intact h
  | .userCurve .u1, .userCurve u => st.curveU1.written = .intact u
  | .userCurve .u2, .userCurve u => st.curveU2.written = .intact u
  | .seasonFloor d, .level l => (st.floors.get d).written = .intact l
  | .banLevel d, .level l => (st.bans.get d).written = .intact l
  | .protectMode, .protectMode m => st.protectMode.written = .intact m
  | .claims, .claims cs => st.claimsWritten = .intact cs
  | _, _ => False

/-- Every write has ended: the one in flight leaves its record torn, every other written copy stays, and the queue is lost (R64). -/
structure WritesEnded (a b : Store) : Prop where
  torn : ∀ w e rest, a.writing = some w → a.queue = e :: rest → tornAt b e.record ∧ ∀ r, r ≠ e.record → sameWritten a b r
  kept : a.writing = none → ∀ r, sameWritten a b r
  empty : b.queue = [] ∧ b.writing = none

/-- The held content of every record that the freeze covers: those of the edit buffer and the protect mode (R61). -/
def heldSettings (st : Store) :
    PerFeeder (PerLevel Group) × PerFeeder Commissioning × PerLevel HuntSettings × UserCurve × UserCurve × ProtectMode :=
  (.of fun f => .of fun l => ((st.groups.get f).get l).held, .of fun f => (st.commissioning.get f).held,
    .of fun l => (st.hunts.get l).held, st.curveU1.held, st.curveU2.held, st.protectMode.held)

/-- A record after start-up: its written content when that passes, else its default with the defaulted mark (R44, R65). -/
def cellLoaded {α : Type} (passes : α → Bool) (dflt : α) (c : Cell α) : Prop :=
  match c.written with
  | .torn => c.held = dflt ∧ c.defaulted = true
  | .intact v => if passes v then c.held = v ∧ c.defaulted = false else c.held = dflt ∧ c.defaulted = true

/-- Every record of the store as start-up loads it (R65). -/
structure RecordsLoaded (st : Store) : Prop where
  groups : ∀ f l, cellLoaded (fun g => g.inRange && g.consistent) (defaultGroup l) ((st.groups.get f).get l)
  commissioning : ∀ f, cellLoaded Commissioning.inRange (defaultCommissioning f) (st.commissioning.get f)
  hunts : ∀ l, cellLoaded (fun h => h.inRange && h.consistent) (defaultHunt l) (st.hunts.get l)
  curves : cellLoaded (fun u => u.inRange && u.consistent) (defaultCurve .u1) st.curveU1 ∧
    cellLoaded (fun u => u.inRange && u.consistent) (defaultCurve .u2) st.curveU2
  floors : ∀ d, cellLoaded (fun _ => true) .l0 (st.floors.get d)
  bans : ∀ d, cellLoaded (fun _ => true) .l2 (st.bans.get d)
  protectMode : cellLoaded (fun _ => true) .pin st.protectMode
  claims : st.claimsDefaulted = false ↔ ∃ cs, st.claimsWritten = .intact cs ∧ claimsSound cs = true
  rest : st.edit = .free ∧ st.frozen = false

/-! ### Start-up -/

/-- The part without power, or held by RESET: nothing in flight, nothing waiting, every write ended (R16, R64, R190, R200). -/
structure AtRest (s t : State) : Prop where
  ports : ∀ p, t.ports.get p = { state := .idle, collided := false, incomplete := false }
  queues : ∀ p, t.queues.get p = []
  outputs : ∀ f, tripOutput t f = false ∧ closeOutput t f = false
  time : t.partTime = 0
  hunt : t.hunt = none
  crewWrite : t.crewWrite = none
  writes : WritesEnded s.store t.store

/-- A feeder after start-up: the values that the blocks give for a fitted and for an unfitted feeder (R17, R43, R84, R103, R122,
R144). -/
structure FeederStarted (t : State) (f : Feeder) : Prop where
  intake : (t.feeder f).meas = .awaiting ∧ (t.feeder f).invalidCount = 0 ∧ (t.feeder f).recoveryCount = 0
  contacts : (t.feeder f).closedContact.level = none ∧ (t.feeder f).openContact.level = none ∧
    (t.feeder f).closedContact.count = 0 ∧ (t.feeder f).openContact.count = 0
  faults : (t.feeder f).positionFault = none ∧ (t.feeder f).invalidTimer = none ∧
    (t.feeder f).transitTimer = if t.fitted f then some 2000 else none
  elements : (t.feeder f).phaseIdmt = ⟨.normal, 0⟩ ∧ (t.feeder f).highSet = ⟨.normal, 0⟩ ∧ (t.feeder f).earthIdmt = ⟨.normal, 0⟩ ∧
    (t.feeder f).sef = ⟨.normal, 0⟩ ∧ (t.feeder f).tripRecord = none ∧ (t.feeder f).pickedUp = false
  fire : (t.feeder f).fire =
    if t.fitted f then some { applied := targetLevel t f, settingsPending := false, effective := t.effectiveFor f (targetLevel t f) }
    else none
  claims : (t.feeder f).claims.hunt = false ∧ (t.feeder f).claims.breaker = false ∧ (t.feeder f).claims.measure = t.fitted f ∧
    (t.feeder f).claims.store = (t.fitted f && t.store.claimsDefaulted) ∧
    (t.feeder f).claims.fire = (t.fitted f && atFireBlock (targetLevel t f) (t.commissioning f).fireBlock)
  switching : (t.feeder f).inFlight = none ∧ (t.feeder f).lastOp = none ∧ (t.feeder f).lastEnd = .unknown ∧
    (t.feeder f).lock = .free
  sequencer : (t.feeder f).ar = .bare (if t.fitted f then .starting else .outOfService) 0

/-- The events of a start-up: START, then STORE_DEFAULTED for each record that was replaced (R65, R200). -/
def startEvents (cause : StartCause) (t : State) : List Event :=
  .start cause :: (recordOrder.filter (defaultedMark t.store)).map .storeDefaulted

/-- A queue that was empty, after events were offered to it at part time 0. -/
def offeredAtStart (evs : List Event) : List EventEntry :=
  evs.foldl (fun q e => queueOffered q { time := 0, event := e }) []

/-- The part after a start-up, from a state whose store the start-up loads (R16, R17, R65, R66, R84, R103, R173, R190, R200). -/
structure StartedUp (cause : StartCause) (straps : BitVec 2) (s t : State) : Prop where
  runs : t.phase = .running ∧ t.partTime = 0 ∧ t.startCause = cause ∧ t.opCounter = 1
  address : t.strapPins = straps ∧ t.crewAddress.toNat = 0x58 + straps.toNat
  link : t.link = .awaiting ∧ t.lastSequence = none ∧ t.lastFrameTime = none ∧ t.linkDeadline = some 100 ∧ t.bus.valid = false
  inputs : t.fireBan.level = none ∧ t.crewKey.level = none ∧ t.setProtect.level = none ∧ t.fireBan.count = 0 ∧
    t.crewKey.count = 0 ∧ t.setProtect.count = 0
  writes : WritesEnded s.store t.store
  store : RecordsLoaded t.store
  districts : ∀ d, t.districts.get d = { network := .l0, panel := .l0, target := (t.floor d).higher (t.ban d) }
  feeders : ∀ f, FeederStarted t f
  pool : t.pool = restoredPool t.store
  hunt : t.detector = ⟨.quiet, 0⟩ ∧ t.hunt = none ∧ t.lastHunt = none
  ports : ∀ p, t.ports.get p = { state := .idle, collided := false, incomplete := false }
  crewWrite : t.crewWrite = none
  queues : t.queues.get .network = offeredAtStart (startEvents cause t) ∧
    t.queues.get .panel = offeredAtStart (startEvents cause t) ∧ t.queues.get .crew = []

end Machine

end Sys2Proof
end

