-- ==== Sys2Proof/Certificates/Slice0/Obligations.lean ====
section
/-! DEFINITION. The statements about the part, from the numbered rules of the manual. Where a statement is about what a command does, its
conclusion is that `exec` answers a next state, and which; where that state is given by an equation, whatever the equation does not
change is unchanged. A request is a transfer, in which its port sends 0xFF or nothing: a statement about requests to a state `s₀` says what
they do in terms of `s`, the state `listens p s₀`, which differs from `s₀` in what port `p` has sent, at the crew port in that no write of
an unfinished frame is under way, and in nothing else. -/

open Sys2Proof Sys2Proof.Machine

/-! ### Steps, start-up, power and RESET -/

/-- A step with a command at the front of the queue executes that command on the rest of the queue. With no command waiting, a step of the
running part is a millisecond of part time: it changes the part time and queues the commands of the deadlines it reaches, and no other: the
link-loss deadline, each feeder's fault timers, its operation's deadline by kind, its dead time, its reclaim and its port lock's lease, the
step deadline of a hunt in CONFIRM or TRIAL_WATCH, the edit lease, each NORECLOSE claim's expiry, the stall of a crew write, the beginning
of the oldest entry's write when none is in flight, and its completion at the longest time it may take. Without power or held by RESET
nothing happens. What an idle step does is the model's choice (log 2), and with it that a write takes its longest time. -/
def Obligations.StepRunsTheFrontCommandOrIdles : Prop :=
  (∀ (c : Instr) (s : State), step { s with pending := c :: s.pending } = exec c s) ∧
  ∀ s : State, s.pending = [] →
    (s.phase ≠ .running → step s = .next s) ∧
    (s.phase = .running →
      let due (deadline : Option Nat) : Prop := ∃ d, deadline = some d ∧ d ≤ s.partTime + 1
      let op (f : Feeder) (kind : OpKind) : Prop :=
        ∃ y, (s.feeder f).inFlight = some y ∧ y.op.kind = kind ∧ y.deadline ≤ s.partTime + 1
      let expires (c : PortClaim) : Prop := c ∈ s.pool ∧ c.kind = .noReclose ∧ due c.expiry
      let of (c : PortClaim) : Instr := .claimExpiry c.feeder c.holder (if c.holder = .crew then c.tag else 0)
      ∃ q, step s = .next { s with partTime := s.partTime + 1, pending := q } ∧
        (.linkLossDeadline ∈ q ↔ due s.linkDeadline) ∧
        (∀ f,
          (.invalidTimerExpiry f ∈ q ↔ due (s.feeder f).invalidTimer) ∧
          (.transitTimerExpiry f ∈ q ↔ due (s.feeder f).transitTimer) ∧
          (.tripDeadline f ∈ q ↔ op f .trip) ∧ (.closeDeadline f ∈ q ↔ op f .close) ∧
          (.deadTimeExpiry f ∈ q ↔ due (s.feeder f).ar.deadline) ∧ (.reclaimExpiry f ∈ q ↔ due (s.feeder f).ar.reclaim) ∧
          (.lockLeaseExpiry f ∈ q ↔ ∃ p d, (s.feeder f).lock = .port p d ∧ d ≤ s.partTime + 1)) ∧
        (.confirmExpiry ∈ q ↔ ∃ h, s.hunt = some h ∧ h.state = .confirm ∧ due h.deadline) ∧
        (.trialWatchExpiry ∈ q ↔ ∃ h, s.hunt = some h ∧ h.state = .trialWatch ∧ due h.deadline) ∧
        (.editLeaseExpiry ∈ q ↔ ∃ p r c d, s.store.edit = .editing p r c d ∧ d ≤ s.partTime + 1) ∧
        (∀ f p tag, .claimExpiry f p tag ∈ q ↔ ∃ c, expires c ∧ of c = .claimExpiry f p tag) ∧
        (.crewStall .underWay ∈ q ↔ ∃ w, s.crewWrite = some w ∧ w.stall ≤ s.partTime + 1) ∧
        (.storeWriteBegins ∈ q ↔ s.store.writing = none ∧ s.store.queue ≠ []) ∧
        (.storeWriteComplete ∈ q ↔
          ∃ w e rest, s.store.writing = some w ∧ s.store.queue = e :: rest ∧
            w.began + (if e.record = .claims then 50 else 400) ≤ s.partTime + 1) ∧
        ∀ c, c ∈ q →
          c ∈ [.linkLossDeadline, .confirmExpiry, .trialWatchExpiry, .editLeaseExpiry, .crewStall .underWay, .storeWriteBegins,
            .storeWriteComplete] ∨
          (∃ f, c ∈ [.invalidTimerExpiry f, .transitTimerExpiry f, .tripDeadline f, .closeDeadline f, .deadTimeExpiry f,
            .reclaimExpiry f, .lockLeaseExpiry f]) ∨
          ∃ k, expires k ∧ of k = c)

/-- Every command of the table has a next state in every state, and none touches the commands that wait. -/
def Obligations.EveryCommandCompletes : Prop :=
  ∀ (i : Instr) (s : State), ∃ t, exec i s = .next t ∧ t.pending = s.pending

/-- POWER_ON, the first scan that sees RESET inactive, and RESTART give the same start-up, each with its cause, in every block: the
values of R17, R43, R66, R84, R103, R122, R144, R173, R190 and R200, from whatever the part did before. That a POWER_ON is taken of a
part in any state is the model's choice (log 34), and so is that a RESTART keeps the straps as last read (log 10). -/
def Obligations.EveryStartUpSetsEveryBlock : Prop :=
  (∀ straps s, ∃ t, exec (.powerOn straps) s = .next t ∧ StartedUp .powerOn straps s t) ∧
  (∀ straps s, s.phase = .held → ∃ t, exec (.resetReleased straps) s = .next t ∧ StartedUp .reset straps s t) ∧
  (∀ s, Takes .restart .network 0#8 [] s →
    ∃ t, exec (.restart .network 0#8 []) s = .next t ∧ StartedUp .restart s.strapPins s t)

/-- `State.reset` is a part right after a power-on with no feeder fitted, and every invariant below holds of it. The model's choice of
what a new part has stored and of its strap pins (logs 1, 3, 6 and 7). -/
def Obligations.ResetStateIsSound : Prop :=
  StartedUp .powerOn 0#2 State.reset State.reset ∧ (∀ f, State.reset.fitted f = false) ∧ QueuesBounded State.reset ∧
    PoolSound State.reset ∧ OpIdSound State.reset ∧ LevelsSound State.reset ∧ QuiescentSound State.reset ∧
    StoreFits State.reset.store ∧ EditEditable State.reset.store.edit

/-- The loss of power and a scan that sees RESET active end every write and leave nothing in flight, no output driven, every port idle
and every queue empty (R16, R64, R190, R200). Of the loss of power the manual gives only the end of the writes (R64): that the part
without power holds part time 0, idle ports, empty queues and no hunt is the model's choice (log 8). -/
def Obligations.PowerLossAndResetEndWrites : Prop :=
  ∀ s : State,
    (∃ t, exec .powerLoss s = .next t ∧ t.phase = .off ∧ AtRest s t) ∧
    (s.phase ≠ .off → ∃ t, exec .resetAsserted s = .next t ∧ t.phase = .held ∧ AtRest s t)

/-- While RESET reads active, or without power, nothing but power and RESET changes any state: frames are discarded and the ports take
no requests (R16, R190). What a serial port sends in a transfer under RESET is 0xFF for every byte, a request transfer or one of a bad type
as much as a fetch, and the crew port, whose address is not acknowledged, sends no byte (R190); no other command has the part send
anything. -/
def Obligations.HeldPartChangesNothing : Prop :=
  ∀ (i : Instr) (s : State),
    (isStartUp i = false ∨ ∃ p target payload, i = .restart p target payload) →
    (s.phase = .off → exec i s = .next s) ∧
    (s.phase = .held →
      (∀ p, ListensAt p i →
        exec i s = .next { s with sent := s.sent.set p (if p = .crew then .bytes [] else .allOnes) }) ∧
      (∀ p n, i = .fetch p n →
        exec i s = .next { s with sent := s.sent.set p (.bytes (if p = .crew then [] else List.replicate n 0xFF#8)) }) ∧
      ((∀ p, ¬ ListensAt p i) → isFetch i = false → exec i s = .next s))

/-! ### The measurement link -/

/-- A unit of the link that is no whole frame, or whose check fails, or that repeats the last accepted sequence number, changes nothing;
every other unit is accepted: the link is UP, the sequence number and the arrival time are held, the deadline is 100 ms on, and the bus
record is the frame's with Vn clamped (R1, R2, R8, R9). The whole next state is given: LINK_RESTORED when the link was not UP, ahead of
every other entry (R9), the move of each fitted feeder's measurement state by its record, the bus record, the elements of each fitted
feeder, reached with its record as read and the clamped interval, and then the detector and the hunt (R1, R3, R4, R20, R145). With no feeder
that the frame makes VALID or has its elements evaluated, LINK_RESTORED and the hunt unit's entries are all it sends. The detector moves on
a valid bus record by its table, by the hunt record of the detector level, whether or not a hunt runs, and an invalid one moves nothing
(R145, R146). With no hunt, its entry to DETECTED starts one with cause DETECTED when identify or trial enable reads yes, in IDENTIFY when
identify does and else at trial entry, and starts none otherwise; HUNT_STATE goes at that entry and at a dropout from DETECTED or
UNRESOLVED, with the Vn of the frame, and a hunt that starts in IDENTIFY sends its own after it (R147, R149). With a hunt, the entry sends
its HUNT_STATE and starts none, and the frame is not counted unless the hunt is in IDENTIFY before the detector moves and after. That the
elements act before the detector and the hunt, and the feeder order among them, are the model's choices (logs 61 and 44), and which fields
HUNT_STATE carries, and which window counts a frame, are its readings (logs 18 and 38). -/
def Obligations.FrameIsDiscardedOrAccepted : Prop :=
  (∀ (bs : List Byte) (s : State),
    ((bs.length ≠ 69 ∨ bs.drop 67 ≠ checkField (bs.take 67) ∨ s.lastSequence = some (numberAt bs 0 1)) →
      exec (.measurementFrame bs) s = .next s) ∧
    (Accepted bs s →
      let fr := frameAt bs
      let fitted := Feeder.all.filter fun f => s.fitted f
      let linked : State :=
        { s with
          link := .up, lastSequence := some fr.sequence, lastFrameTime := some s.partTime, linkDeadline := some (s.partTime + 100)
          queues := said (if s.link = .up then [] else [.linkRestored fr.sequence]) s }
      let measured : State :=
        { fitted.foldl (fun a f => measRecord f (recordAt bs f).valid a) linked with bus := { vn := fr.vn, valid := fr.busValid } }
      ∃ t, exec (.measurementFrame bs) s = .next t ∧
        t = huntFrame fr
          (fitted.foldl
            (fun a f => reachElements (if fr.busValid = true then some fr.vn else none) f fr.interval (recordAt bs f) a) measured) ∧
        t.link = .up ∧ t.lastSequence = some (numberAt bs 0 1) ∧
        t.lastFrameTime = some s.partTime ∧ t.linkDeadline = some (s.partTime + 100) ∧
        t.bus = { vn := min 1000 (numberAt bs 4 2), valid := (bs.getD 6 0#8).getLsbD 0 } ∧ t.partTime = s.partTime ∧
        (s.hunt = none →
          let set := s.huntSettings (detectorLevel t)
          let x := s.detector
          let gathered := x.amount + max 5000 (min 50000 (numberAt bs 1 3))
          let moved : Detector :=
            if (bs.getD 6 0#8).getLsbD 0 = false then x
            else if set.vnPickup ≤ min 1000 (numberAt bs 4 2) then
              (if x.state = .quiet ∨ x.state = .timing then
                { state := if set.detectTime * 1000 ≤ gathered then .detected else .timing, amount := gathered }
               else x)
            else if min 1000 (numberAt bs 4 2) < set.vnPickup - set.hysteresis then { state := .quiet, amount := 0 }
            else x
          let entered := moved.state = .detected ∧ x.state ≠ .detected
          (if entered then t.detector = moved ∨ t.detector = { moved with state := .unresolved } else t.detector = moved) ∧
          (entered → set.identifyEnable = true →
            t.detector = moved ∧
            t.hunt = some
              { newHunt .detected t with
                state := .identify, window := some { length := set.identifyWindow, counted := 0, sums := .of fun _ => 0 } }) ∧
          (¬ entered ∨ (set.identifyEnable = false ∧ set.trialEnable = false) → t.hunt = none)) ∧
        (s.link ≠ .up → ∀ p, (said [.linkRestored (numberAt bs 0 1)] s).get p <+: t.queues.get p) ∧
        ((∀ f, s.fitted f = true →
            (s.feeder f).meas = .awaiting ∨ (s.feeder f).meas = .lost) →
          (∀ f, s.fitted f = true → (s.feeder f).recoveryCount < 4) →
          t = huntFrame fr
            { s with
              link := .up, lastSequence := some (numberAt bs 0 1), lastFrameTime := some s.partTime
              linkDeadline := some (s.partTime + 100)
              bus := { vn := min 1000 (numberAt bs 4 2), valid := (bs.getD 6 0#8).getLsbD 0 }
              feeders := .of fun f =>
                if s.fitted f = true then
                  { s.feeder f with
                    recoveryCount :=
                      if (bs.getD (7 + 10 * (f.number - 1) + 9) 0#8).getLsbD 0 = true then (s.feeder f).recoveryCount + 1 else 0 }
                else s.feeder f
              queues := said (if s.link = .up then [] else [.linkRestored (numberAt bs 0 1)]) s }))) ∧
  (∀ (fr : MeasFrame) (s : State),
    let a := detectorFrame fr.vn fr.busValid fr.interval s
    huntState s ≠ .identify ∨ huntState a ≠ .identify → huntFrame fr s = a) ∧
  ∀ (vn interval : Nat) (s : State),
    let set := s.huntSettings (detectorLevel s)
    let x := s.detector
    let gathered := x.amount + interval
    let moved : Detector :=
      if set.vnPickup ≤ vn then
        (if x.state = .quiet ∨ x.state = .timing then
          { state := if set.detectTime * 1000 ≤ gathered then .detected else .timing, amount := gathered }
         else x)
      else if vn < set.vnPickup - set.hysteresis then { state := .quiet, amount := 0 }
      else x
    let told : Event := .huntState x.state moved.state (huntState s) (huntState s) (detectorLevel s) { vn := some vn }
    let go := detectorFrame vn true interval s
    let entered := moved.state = .detected ∧ x.state ≠ .detected
    let dropped := moved.state = .quiet ∧ (x.state = .detected ∨ x.state = .unresolved)
    let u : State := { s with detector := moved, queues := said [told] s }
    detectorFrame vn false interval s = s ∧
    (¬ entered → s.hunt = none ∨ moved.state ≠ .quiet ∨ x.state = .quiet → go = if dropped then u else { s with detector := moved }) ∧
    (entered → s.hunt ≠ none ∨ (set.identifyEnable = false ∧ set.trialEnable = false) → go = u) ∧
    (entered → s.hunt = none → set.identifyEnable = true →
      go =
        { s with
          detector := moved
          hunt := some
            { newHunt .detected s with
              state := .identify, window := some { length := set.identifyWindow, counted := 0, sums := .of fun _ => 0 } }
          queues := said [told, .huntState .detected .detected .idle .identify (detectorLevel s) { cause := some .detected }] s }) ∧
    (entered → s.hunt = none → set.identifyEnable = false → set.trialEnable = true →
      (∀ g, FirstCandidate s none g → HuntMayTrip s g → RestoreFree s g →
        TrialBegun u go (newHunt .detected s) none g ∧ go.detector = moved ∧ ∀ p, u.queues.get p <+: go.queues.get p) ∧
      ((∀ g, ¬ MayBeTried s none g) → HuntOver u go { newHunt .detected s with candidates := some [] } .notFound))

/-- The CRC-16 is the one of R194, and a frame with one byte changed before its check field never passes with the old check field. -/
def Obligations.OneWrongByteIsCaught : Prop :=
  crc16 [0x31#8, 0x32#8, 0x33#8, 0x34#8, 0x35#8, 0x36#8, 0x37#8, 0x38#8, 0x39#8] = 0x29B1#16 ∧
  ∀ (before after : List Byte) (a b : Byte), a ≠ b → checkField (before ++ a :: after) ≠ checkField (before ++ b :: after)

/-- An accepted frame moves the measurement state and the two counts of each fitted feeder by the table of R4, its record valid when
its valid flag is set, and leaves those of an unfitted feeder (R3); the feeder's MEASURE claim is present after an entry to LOST, absent
after an entry to VALID from LOST or AWAITING, and as it was otherwise (R6). One feeder's update sends MEAS_LOST before the claim's
CLAIM_PLACED and MEAS_RESTORED before its CLAIM_RELEASED, in a sequencer state other than DEAD_TIME (R4, R6). -/
def Obligations.MeasurementStateMovesByItsTable : Prop :=
  (∀ (bs : List Byte) (s t : State) (f : Feeder), s.phase = .running → bs.length = 69 →
    bs.drop 67 = checkField (bs.take 67) → s.lastSequence ≠ some (numberAt bs 0 1) →
    exec (.measurementFrame bs) s = .next t →
    let valid := (bs.getD (7 + 10 * (f.number - 1) + 9) 0#8).getLsbD 0
    let x := s.feeder f
    ((t.feeder f).meas, (t.feeder f).invalidCount, (t.feeder f).recoveryCount) =
      (if s.fitted f = false then (x.meas, x.invalidCount, x.recoveryCount)
       else
        match x.meas, valid with
        | .awaiting, true =>
          if x.recoveryCount + 1 = 5 then (.valid, x.invalidCount, 0) else (.awaiting, x.invalidCount, x.recoveryCount + 1)
        | .awaiting, false => (.awaiting, x.invalidCount, 0)
        | .valid, true => (.valid, x.invalidCount, x.recoveryCount)
        | .valid, false => (.holding, 1, x.recoveryCount)
        | .holding, true => (.valid, 0, x.recoveryCount)
        | .holding, false =>
          if x.invalidCount + 1 = 3 then (.lost, 3, 0) else (.holding, x.invalidCount + 1, x.recoveryCount)
        | .lost, true => if x.recoveryCount + 1 = 5 then (.valid, 0, 0) else (.lost, x.invalidCount, x.recoveryCount + 1)
        | .lost, false => (.lost, x.invalidCount, 0)) ∧
    (t.feeder f).claims.measure =
      if x.meas ≠ .lost ∧ (t.feeder f).meas = .lost then true
      else if (x.meas = .lost ∨ x.meas = .awaiting) ∧ (t.feeder f).meas = .valid then false
      else x.claims.measure) ∧
  ∀ (f : Feeder) (s : State), (s.feeder f).ar.state ≠ .deadTime →
    let x := s.feeder f
    (x.meas = .holding → x.invalidCount = 2 →
      measRecord f false s =
        withClaim .measure f
          (broadcast (.measLost f .records)
            (s.onFeeder f fun y => { y with meas := .lost, invalidCount := 3, recoveryCount := 0 }))) ∧
    (x.meas = .awaiting ∨ x.meas = .lost → x.recoveryCount = 4 →
      measRecord f true s =
        withoutClaim .measure f
          (broadcast (.measRestored f)
            (s.onFeeder f fun y =>
              { y with
                meas := .valid
                invalidCount := if x.meas = .lost then 0 else y.invalidCount
                recoveryCount := 0 })))

/-- At the link-loss deadline the link is LOST, the deadline and the last sequence number are gone, the bus record is invalid and every
fitted feeder is LOST with counts 3 and 0 and carries its MEASURE claim; before the deadline nothing happens (R8). With no
fitted feeder's sequencer in DEAD_TIME, that and its entries are all that reaches the hunt's abort, and all with no hunt: feeder by feeder
MEAS_LOST, of each that was not LOST, and the claim's CLAIM_PLACED, of each that did not carry it, then LINK_LOST (R6, R8); that one feeder's
two entries stand before the next feeder's, and LINK_LOST after them all, is the model's choice (log 57). A running hunt is aborted by its
state as ABORT_HUNT does it: a result pending stands, else ABORTED_LINK is pending, and outside ISOLATE, TRIAL_OPEN and TRIAL_RESTORE the
step ends and the hunt goes to its end (R168, R169), where it is over at once with that result, no close sent, each end restore of an open
feeder STRANDED, and a detector that is not QUIET UNRESOLVED (R164, R169). -/
def Obligations.LinkLossLosesEveryFeeder : Prop :=
  (∀ s : State, s.phase = .running →
    (∀ d, s.linkDeadline = some d → d ≤ s.partTime →
      (∃ t, exec .linkLossDeadline s = .next t ∧ t.link = .lost ∧ t.linkDeadline = none ∧ t.lastSequence = none ∧
        t.lastFrameTime = s.lastFrameTime ∧ t.bus = { s.bus with valid := false } ∧
        ∀ f, ((t.feeder f).meas, (t.feeder f).invalidCount, (t.feeder f).recoveryCount, (t.feeder f).claims.measure) =
          if s.fitted f then (.lost, 3, 0, true)
          else ((s.feeder f).meas, (s.feeder f).invalidCount, (s.feeder f).recoveryCount, (s.feeder f).claims.measure)) ∧
      ((∀ f, s.fitted f = true → (s.feeder f).ar.state ≠ .deadTime) →
        let lost : State :=
          { s with
            link := .lost, linkDeadline := none, lastSequence := none, bus := { s.bus with valid := false }
            feeders := .of fun f =>
              if s.fitted f then { s.feeder f with meas := .lost, invalidCount := 3, recoveryCount := 0 } else s.feeder f }
        let told :=
          broadcast (.linkLost s.lastFrameTime)
            (s.fittedFeeders.foldl
              (fun a f =>
                withClaim .measure f (if (s.feeder f).meas = .lost then a else broadcast (.measLost f .link) a))
              lost)
        (s.hunt = none → exec .linkLossDeadline s = .next told) ∧
        exec .linkLossDeadline s = .next (huntSettle none (abortHunt .abortedLink told)) ∧
        ∀ h, s.hunt = some h → h.pendingResult = none →
          h.state = .identify ∨ h.state = .confirm ∨ h.state = .trialWatch ∨ h.state = .suspended →
          (∀ j, h.current = some j → ∃ c, (h.candidates.getD [])[j]? = some c ∧ c.outcome = .notTried ∧
            s.fitted c.feeder = true ∧ NothingPending s c.feeder) →
          (∀ i, h.identified = some i → s.fitted i.feeder = true ∧ NothingPending s i.feeder) →
          ∃ t r, exec .linkLossDeadline s = .next t ∧ t.hunt = none ∧ t.lastHunt = some r ∧ t.opCounter = s.opCounter ∧
            (∀ f, (t.feeder f).inFlight = (s.feeder f).inFlight) ∧
            t.detector = (if s.detector.state = .quiet then s.detector else { s.detector with state := .unresolved }) ∧
            r.result = .abortedLink ∧ r.endTime = s.partTime ∧ r.found = none ∧
            (∀ j c, h.current = some j → (h.candidates.getD [])[j]? = some c → (s.feeder c.feeder).position = .opened →
              (r.candidates.getD [])[j]? = some { c with outcome := .stranded }) ∧
            ∀ i, h.identified = some i → i.endRestore = none → i.isolate = .misidentified ∨ i.isolate = .opened →
              (s.feeder i.feeder).position = .opened → r.identified = some { i with endRestore := some .stranded })) ∧
    ((∀ d, s.linkDeadline = some d → s.partTime < d) → exec .linkLossDeadline s = .next s)) ∧
  ∀ (h : HuntRun) (s : State), s.hunt = some h → h.state ≠ .idle →
    let go := abortHunt .abortedLink s
    (h.pendingResult.isSome = true → go = (s, .wait)) ∧
    (h.pendingResult = none →
      (h.state = .isolate ∨ h.state = .trialOpen ∨ h.state = .trialRestore → Leads s go .wait (resulting h .abortedLink) []) ∧
      (h.state = .identify ∨ h.state = .confirm ∨ h.state = .trialWatch →
        Leads s go .finish (resulting (stepEnded h) .abortedLink) []) ∧
      (h.state = .suspended → Leads s go .finish (resulting h .abortedLink) []))

/-! ### Inputs and position faults -/

/-- A scan moves each of the fifteen filtered inputs once by the filter's rule, a level being accepted at the third scan in a row that
shows it (R10). A change of the level that FIRE_BAN reads makes every district's target the highest of its sources, the ban level counted
by the new level; without one the districts stay, and no request ever changes (R68, R72). -/
def Obligations.ScanFiltersEveryInput : Prop :=
  ∀ (lv : ScanLevels) (s : State), s.phase = .running →
    ∃ t, exec (.inputScan lv) s = .next t ∧ Scanned s.fireBan lv.fireBan t.fireBan ∧ Scanned s.crewKey lv.crewKey t.crewKey ∧
      Scanned s.setProtect lv.setProtect t.setProtect ∧
      (∀ f, Scanned (s.feeder f).closedContact (lv.contacts.get f).closedContact (t.feeder f).closedContact ∧
        Scanned (s.feeder f).openContact (lv.contacts.get f).openContact (t.feeder f).openContact) ∧
      (fireBanActive t = fireBanActive s → t.districts = s.districts) ∧
      ∀ d, (t.districts.get d).network = (s.districts.get d).network ∧ (t.districts.get d).panel = (s.districts.get d).panel ∧
        (fireBanActive t ≠ fireBanActive s →
          (t.districts.get d).target.number =
            highestSource (s.districts.get d).network (s.districts.get d).panel (s.floor d) (s.ban d) (fireBanActive t))

/-- A scan of one feeder's contacts, every other input steady, hands on what it changes. A change of the decoded position restarts the fault
timers of a fitted feeder (R12 to R14). Reaching an end position sets the last end position and, with the wanted operation in flight,
completes it DONE (R111, R112, R114); with nothing in flight, a change from the other end is external movement, reported and handed to the
sequencer, which goes to LOCKOUT at an opening and in a dead time, and to RECLAIM at a close (R115, R116, R139, R140). When the second
contact first settles, a sequencer in STARTING takes its first state (R11, R125). The model's choice: that both contacts move before one
decoding (log 13), that a change at the scan of the start-up position is handed on first (log 43), that an unfitted feeder's movement is
reported too (log 17), that RECLAIM entered from RECLAIM keeps its entry time (log 23); and the reading that the position is TRANSIT until
both contacts settle (log 42). The hunt is told of a completion of its own, and of a protection trip DONE (R114, steps 3 and 4; what it does
then is HuntTakesItsCompletions). With no settings change of the feeder that waits. -/
def Obligations.PositionChangeIsHandedOn : Prop :=
  (∀ (f : Feeder) (lv : ScanLevels) (s : State), s.phase = .running → NothingPending s f →
    (∀ g, g ≠ f → Steady (s.feeder g).closedContact (lv.contacts.get g).closedContact ∧
      Steady (s.feeder g).openContact (lv.contacts.get g).openContact) →
    Steady s.fireBan lv.fireBan → Steady s.crewKey lv.crewKey → Steady s.setProtect lv.setProtect →
    let x := s.feeder f
    let y : FeederState :=
      { x with
        closedContact := x.closedContact.scan (lv.contacts.get f).closedContact
        openContact := x.openContact.scan (lv.contacts.get f).openContact }
    let a := s.onFeeder f fun _ =>
      if y.position = x.position ∨ s.fitted f = false then y
      else
        { y with
          positionFault := none
          invalidTimer := if y.position = .invalid then some (s.partTime + 20) else none
          transitTimer := if y.position = .transit ∧ x.inFlight = none then some (s.partTime + 2000) else none }
    let external (m : Movement) (b : State) : State :=
      broadcast (.breakerExternal f m (x.lastOp.map fun c => c.op.id) (x.lastOp.map fun c => c.outcome)) b
    let reached (e : LastEnd) (wanted : OpKind) : State :=
      let b := a.onFeeder f fun z => { z with lastEnd := e }
      match x.inFlight with
      | some o =>
        if o.op.kind = wanted then
          let c : Completed := { op := o.op, outcome := .done, completed := s.partTime }
          huntTold f c none
            (seqCompletion f c (sendOpDone f c none (b.onFeeder f fun z => { z with inFlight := none, lastOp := some c })))
        else b
      | none =>
        if e = .opened ∧ x.lastEnd = .closed then seqExternalOpen f (external .opened b)
        else if e = .closed ∧ x.lastEnd = .opened then seqExternalClose f (external .closed b)
        else b
    let handed : State :=
      if y.position = x.position then a
      else
        match y.position with
        | .closed => reached .closed .close
        | .opened => reached .opened .trip
        | _ => a
    exec (.inputScan lv) s = .next
      (if x.settled = false ∧ y.settled = true ∧ (handed.feeder f).ar.state = .starting then
        if y.position = .closed then
          broadcast (.arState f .starting .ready 0 none none .startPosition)
            (handed.onFeeder f fun z => { z with ar := ArRecord.bare .ready s.partTime })
        else
          broadcast (.arState f .starting .lockout 0 none none .startPosition)
            (broadcast (.lockout f .startPosition 0 {})
              (handed.onFeeder f fun z =>
                { z with ar := { ArRecord.bare .lockout s.partTime with cause := some .startPosition } }))
       else handed)) ∧
  ∀ (f : Feeder) (s : State),
    let r := (s.feeder f).ar
    let locked (cause : ArCause) : ArRecord :=
      { ArRecord.bare .lockout s.partTime with shotsUsed := r.shotsUsed, cause := some cause }
    let exhausted : ArRecord :=
      { ArRecord.bare .reclaim s.partTime with
        shotsUsed := shotCount s f, reclaim := some (s.partTime + reclaimTime s f) }
    ((seqExternalOpen f s).feeder f).ar =
      (match r.state with
       | .starting | .outOfService | .lockout => r
       | _ => locked .externalOpen) ∧
    ((seqExternalClose f s).feeder f).ar =
      match r.state with
      | .starting | .outOfService => r
      | .deadTime => locked .externalClose
      | .reclaim => { exhausted with since := r.since }
      | _ => exhausted

/-- A change of CREW_KEY to inactive empties the crew queue, and while the key reads inactive no command but a scan or a start-up puts
anything into it, and an event offered to it is lost (R199). -/
def Obligations.CrewQueueFollowsTheKey : Prop :=
  (∀ (lv : ScanLevels) (s t : State), exec (.inputScan lv) s = .next t → crewKeyActive s = true → crewKeyActive t = false →
    t.queues.get .crew = []) ∧
  (∀ (i : Instr) (s t : State), isStartUp i = false → isInputScan i = false → crewKeyActive s = false → exec i s = .next t →
    crewKeyActive t = false ∧ ∃ n, t.queues.get .crew = (s.queues.get .crew).drop n) ∧
  ∀ (ev : Event) (s : State), crewKeyActive s = false → offer .crew ev s = s

/-- A fault timer that reaches its deadline with its condition standing stops, sets the position fault, places the BREAKER claim if it
is absent and broadcasts POSITION_FAULT; a timer whose deadline is not reached does nothing (R12, R13). That POSITION_FAULT stands after
CLAIM_PLACED is the model's choice (log 37): the rules give no order, and R196 lets two blocks' entries stand either way. A sequencer in
DEAD_TIME also acts on the claim's entry, which ClaimEntryEndsADeadTime states. -/
def Obligations.FaultTimersDeclareTheFault : Prop :=
  ∀ (f : Feeder) (s : State), s.phase = .running → s.fitted f = true → (s.feeder f).ar.state ≠ .deadTime →
    (∀ d, (s.feeder f).invalidTimer = some d → (s.feeder f).position = .invalid →
      exec (.invalidTimerExpiry f) s = .next
        (if d ≤ s.partTime then
          broadcast (.positionFault f .invalid)
            (withClaim .breaker f (s.onFeeder f fun x => { x with invalidTimer := none, positionFault := some .invalid }))
        else s)) ∧
    (∀ d, (s.feeder f).transitTimer = some d → (s.feeder f).position = .transit → (s.feeder f).inFlight = none →
      exec (.transitTimerExpiry f) s = .next
        (if d ≤ s.partTime then
          broadcast (.positionFault f .transit)
            (withClaim .breaker f (s.onFeeder f fun x => { x with transitTimer := none, positionFault := some .transit }))
        else s))

/-! ### Operations and the reclose sequencer -/

/-- An operation in flight whose deadline is reached ends: a trip whose position is OPEN is DONE, every other trip or close has FAILED, and
a failure is BREAKER_FAIL, then the BREAKER claim with its entry to the sequencer, then the report of R114: to the ports, to the sequencer,
to the hunt when the operation is its own, to the hunt again when a trip with PROTECTION among its requesters is DONE, and then the end of
the operation, by which the transit timer starts when the position is TRANSIT and nothing is then in flight (R13, R111 to R114). What the
hunt does with a completion of its own is HuntTakesItsCompletions. With no hunt nothing is told; a protection trip DONE, HUNT not among its
requesters, begins the window of a hunt in IDENTIFY again and is a trip in the watch of a hunt in TRIAL_WATCH on another feeder (R152,
R159). Before the deadline nothing happens. With no settings change of the feeder waiting for the end. -/
def Obligations.DeadlineEndsAnOperation : Prop :=
  (∀ (f : Feeder) (kind : OpKind) (y : InFlight) (s : State), s.phase = .running → (s.feeder f).inFlight = some y →
    y.op.kind = kind → (kind = .close → (s.feeder f).position ≠ .closed) → NothingPending s f →
    let command : Instr := match kind with | .trip => .tripDeadline f | .close => .closeDeadline f
    let done := kind = .trip ∧ (s.feeder f).position = .opened
    let c : Completed := { op := y.op, outcome := if done then .done else .failed, completed := s.partTime }
    let s1 := s.onFeeder f fun x => { x with inFlight := none }
    let s2 :=
      if done then s1
      else setSystemClaim f .breaker true (broadcast (.breakerFail f y.op.id kind y.op.requesters (s.feeder f).position) s1)
    let s3 := seqCompletion f c (sendOpDone f c none (s2.onFeeder f fun x => { x with lastOp := some c }))
    let told := huntTold f c none s3
    exec command s = .next
      (if s.partTime < y.deadline then s
       else if s.fitted f = true ∧ (s.feeder f).position = .transit ∧ (told.feeder f).inFlight = none then
         told.onFeeder f fun x => { x with transitTimer := some (s.partTime + 2000) }
       else told)) ∧
  ∀ (f : Feeder) (c : Completed) (superseding : Option Origin) (s : State),
    (s.hunt = none → huntTold f c superseding s = s) ∧
    ∀ h, s.hunt = some h → .hunt ∉ c.op.requesters →
      huntTold f c superseding s =
        if c.outcome = .done ∧ c.op.kind = .trip ∧ .protection ∈ c.op.requesters then
          { s with
            hunt := some
              (if h.state = .identify then
                 { h with
                   window := some { length := (s.huntSettings h.level).identifyWindow, counted := 0, sums := .of fun _ => 0 } }
               else if h.state = .trialWatch ∧ h.currentFeeder ≠ some f then { h with tripInWatch := some true }
               else h) }
        else s

/-- What the sequencer does with a completion (R127, R128, R132, R133, R135 to R137), by its state: what its record becomes. In CLOSING the
answer ALREADY, which comes before it holds a close op id, is taken as its close DONE, and a completion under another op id changes nothing.
A close DONE in RECLAIM takes the new deadline; that the record keeps its entry time there is the model's reading (log 23). Two cases have no
clause, for the manual rules them out: a completion FAILED in DEAD_TIME, whose BREAKER claim has ended that state before (R136), and a
port's or the hunt's close in CLOSING, which is refused (R137). -/
def Obligations.SequencerTakesCompletions : Prop :=
  ∀ (f : Feeder) (c : Completed) (s : State),
    let r := (s.feeder f).ar
    let new := ((seqCompletion f c s).feeder f).ar
    let protection := c.op.requesters.contains .protection
    let locked (cause : ArCause) : ArRecord :=
      { ArRecord.bare .lockout s.partTime with shotsUsed := r.shotsUsed, cause := some cause }
    (c.op.kind = .trip → c.outcome = .done → protection = true →
      (r.state = .ready ∨ r.state = .closing ∨ r.state = .reclaim →
        new =
          if c.op.permit ≠ some true then locked .noPermit
          else if shotCount s f ≤ r.shotsUsed then locked .noShots
          else if blockSet s f ≠ [] then locked .blocked
          else
            { ArRecord.bare .deadTime s.partTime with
              shotsUsed := r.shotsUsed, currentShot := some (r.shotsUsed + 1),
              deadline := some (s.partTime + deadTimeOf s f (r.shotsUsed + 1)) }) ∧
      (r.state = .openManual ∨ r.state = .deadTime → new = locked .tripOutsideSequence) ∧
      (r.state = .lockout ∨ r.state = .starting ∨ r.state = .outOfService → new = r)) ∧
    (c.op.kind = .trip → c.outcome = .done → protection = false →
      (r.state = .ready ∨ r.state = .deadTime ∨ r.state = .closing ∨ r.state = .reclaim ∨ r.state = .lockout →
        new = { ArRecord.bare .openManual s.partTime with shotsUsed := r.shotsUsed }) ∧
      (r.state = .openManual ∨ r.state = .starting ∨ r.state = .outOfService → new = r)) ∧
    (c.op.kind = .trip → c.outcome = .already →
      new =
        if r.state = .deadTime ∧ protection = false then
          { ArRecord.bare .openManual s.partTime with shotsUsed := r.shotsUsed }
        else r) ∧
    (c.op.kind = .trip → c.outcome = .failed →
      (r.state = .ready ∨ r.state = .closing ∨ r.state = .reclaim ∨ r.state = .openManual → new = locked .tripFailed) ∧
      (r.state = .lockout ∨ r.state = .starting ∨ r.state = .outOfService → new = r)) ∧
    (c.op.kind = .close → c.op.origin = .reclose → r.state = .closing →
      let own := r.closeOp = some c.op.id
      let reclosed : ArRecord :=
        { ArRecord.bare .reclaim s.partTime with shotsUsed := r.shotsUsed, reclaim := some (s.partTime + reclaimTime s f) }
      new =
        match c.outcome with
        | .done => if own then reclosed else r
        | .failed => if own then locked .closeFailed else r
        | .superseded => if own then { r with closeOp := none } else r
        | .already => if r.closeOp = none then reclosed else r) ∧
    (c.op.kind = .close → c.op.origin = .reclose → r.state ≠ .closing → new = r) ∧
    (c.op.kind = .close → c.op.origin ≠ .reclose →
      let exhausted : ArRecord :=
        { ArRecord.bare .reclaim s.partTime with shotsUsed := shotCount s f, reclaim := some (s.partTime + reclaimTime s f) }
      (c.outcome = .done →
        (r.state = .ready ∨ r.state = .deadTime ∨ r.state = .lockout ∨ r.state = .openManual → new = exhausted) ∧
        (r.state = .reclaim → new = { exhausted with since := r.since })) ∧
      (c.outcome = .failed →
        (r.state = .ready ∨ r.state = .reclaim ∨ r.state = .openManual → new = locked .closeFailed) ∧
        (r.state = .lockout → new = r)) ∧
      (c.outcome = .already ∨ c.outcome = .superseded → new = r) ∧
      (r.state = .starting ∨ r.state = .outOfService → new = r))

/-- At the dead-time deadline an empty block set takes the sequencer to CLOSING, its shot spent, and starts a RECLOSE close with the
close confirm time; the answer ALREADY, the breaker being CLOSED, takes it on to RECLAIM, and a refusal, of STATE for a trip in flight or a
position fault and BUSY for a close in flight, to LOCKOUT with CLOSE_REFUSED; a claim takes it to LOCKOUT naming the first claim (R110,
R131, R132). At the reclaim deadline the sequencer is
READY with no shots used (R134). Before its deadline neither does anything. -/
def Obligations.SequencerDeadlinesAct : Prop :=
  (∀ (f : Feeder) (d k : Nat) (s : State), s.phase = .running → (s.feeder f).ar.state = .deadTime →
    (s.feeder f).ar.deadline = some d → (s.feeder f).ar.currentShot = some k →
    (s.partTime < d → exec (.deadTimeExpiry f) s = .next s) ∧
    (d ≤ s.partTime → blockSet s f = [] → (s.feeder f).inFlight = none → (s.feeder f).position ≠ .closed →
      (s.feeder f).positionFault = none →
      exec (.deadTimeExpiry f) s = .next
        (advanceOpId
          ((broadcast (.arState f .deadTime .closing k (some k) none .deadTimeExpired)
            (s.onFeeder f fun x => { x with ar := { ArRecord.bare .closing s.partTime with shotsUsed := k, currentShot := some k } })).onFeeder f
            fun x =>
              { x with
                inFlight := some
                  { op := { id := s.opCounter, kind := .close, origin := .reclose, requesters := [.reclose], permit := none,
                            started := s.partTime },
                    deadline := s.partTime + (s.commissioning f).closeConfirm }
                transitTimer := none
                ar := { x.ar with closeOp := some s.opCounter } }))) ∧
    (d ≤ s.partTime → blockSet s f = [] →
      let closing : State :=
        broadcast (.arState f .deadTime .closing k (some k) none .deadTimeExpired)
          (s.onFeeder f fun x => { x with ar := { ArRecord.bare .closing s.partTime with shotsUsed := k, currentShot := some k } })
      let refused (reason : RefusalReason) : State :=
        broadcast (.arState f .closing .lockout k none none .closeRefused)
          (broadcast (.lockout f .closeRefused k { reason := some reason })
            (closing.onFeeder f fun x =>
              { x with ar := { ArRecord.bare .lockout s.partTime with shotsUsed := k, cause := some .closeRefused } }))
      let close : Operation :=
        { id := s.opCounter, kind := .close, origin := .reclose, requesters := [.reclose], permit := none, started := s.partTime }
      (∀ y, (s.feeder f).inFlight = some y →
        exec (.deadTimeExpiry f) s = .next (refused (match y.op.kind with | .trip => .state | .close => .busy))) ∧
      ((s.feeder f).inFlight = none → (s.feeder f).position = .closed →
        exec (.deadTimeExpiry f) s = .next
          (broadcast (.arState f .closing .reclaim k none (some (s.partTime + reclaimTime s f)) .reclosed)
            (advanceOpId (closing.onFeeder f fun x =>
              { x with
                lastOp := some { op := close, outcome := .already, completed := s.partTime }
                ar :=
                  { ArRecord.bare .reclaim s.partTime with
                    shotsUsed := k, reclaim := some (s.partTime + reclaimTime s f) } })))) ∧
      ((s.feeder f).inFlight = none → (s.feeder f).position ≠ .closed → (s.feeder f).positionFault ≠ none → NothingPending s f →
        exec (.deadTimeExpiry f) s = .next (refused .state))) ∧
    (∀ claim rest, d ≤ s.partTime → blockSet s f = claim :: rest → NothingPending s f →
      exec (.deadTimeExpiry f) s = .next
        (broadcast (.arState f .deadTime .lockout (s.feeder f).ar.shotsUsed none none .blocked)
          (broadcast (.lockout f .blocked (s.feeder f).ar.shotsUsed { claim := some claim })
            (s.onFeeder f fun x =>
              { x with
                ar := { ArRecord.bare .lockout s.partTime with shotsUsed := x.ar.shotsUsed, cause := some .blocked } }))))) ∧
  (∀ (f : Feeder) (d : Nat) (s : State), s.phase = .running → (s.feeder f).ar.state = .reclaim →
    (s.feeder f).ar.reclaim = some d → NothingPending s f →
    exec (.reclaimExpiry f) s = .next
      (if d ≤ s.partTime then
        broadcast (.arState f .reclaim .ready 0 none none .reclaimExpired)
          (s.onFeeder f fun x => { x with ar := ArRecord.bare .ready s.partTime })
      else s))

/-- A claim that enters the block set of a feeder in DEAD_TIME ends the dead time: LOCKOUT with cause CLAIM, the shots used kept, the deadline
and the current shot gone, with CLAIM_PLACED, LOCKOUT naming the claim, and AR_STATE in this order; every claim counts, a port's of either
kind, with an expiry or without, and each of the five system claims, such as the BREAKER claim of a position fault (R100, R129). In any
other state a port's placement leaves the sequencer's record as it is. That POSITION_FAULT stands after the claim's entries is the
model's choice (log 37). -/
def Obligations.ClaimEntryEndsADeadTime : Prop :=
  let locked (f : Feeder) (s : State) : ArRecord :=
    { ArRecord.bare .lockout s.partTime with shotsUsed := (s.feeder f).ar.shotsUsed, cause := some .claim }
  let ended (f : Feeder) (claim : ClaimInfo) (s : State) : State :=
    let shots := (s.feeder f).ar.shotsUsed
    broadcast (.arState f .deadTime .lockout shots none none .claim)
      (broadcast (.lockout f .claim shots { claim := some claim })
        (broadcast (.claimPlaced f claim) (s.onFeeder f fun x => { x with ar := locked f s })))
  let withSystem (f : Feeder) (n : SystemClaim) (s : State) : State :=
    s.onFeeder f fun x => { x with claims := x.claims.put n true }
  (∀ (p : Port) (f : Feeder) (k : ClaimKind) (reason tag : Nat) (expiry : Option Nat) (s₀ : State),
    let s := listens p s₀
    reason < 256 → p.tagFits tag = true → (∀ e, expiry = some e → k = .noReclose ∧ 60 ≤ e ∧ e ≤ 86400) →
    Takes .placeClaim p f.byte (claimPayload k reason tag expiry) s → (∀ c, c ∈ s.pool → c.is f k p tag = false) →
    s.pool.length < 32 → NothingPending s f →
    let deadline := expiry.map fun e => s.partTime + e * 1000
    let c : PortClaim :=
      { feeder := f, kind := k, holder := p, tag := tag, reason := reason, placedAt := s.partTime, expiry := deadline,
        persisted := false, inWrite := false }
    let b := ended f (.port k p (if p = .crew then some tag else none) reason deadline)
      { namingFeeder f p s with pool := s.pool ++ [c] }
    ((s.feeder f).ar.state = .deadTime →
      exec (.placeClaim p f.byte (claimPayload k reason tag expiry)) s₀ = .next
        (match k with
         | .noReclose => respond p .ok [] b
         | .holdOpen => withheld .placeClaim p f.number (queueWrite p .claims b))) ∧
    ((s.feeder f).ar.state ≠ .deadTime →
      ∃ t, exec (.placeClaim p f.byte (claimPayload k reason tag expiry)) s₀ = .next t ∧ (t.feeder f).ar = (s.feeder f).ar)) ∧
  (∀ (f : Feeder) (n : SystemClaim) (s : State), (s.feeder f).ar.state = .deadTime → (s.feeder f).claims.has n = false →
    setSystemClaim f n true s = ended f (.system n) (withSystem f n s) ∧
    (NothingPending s f → placeSystemClaim f n s = ended f (.system n) (withSystem f n s))) ∧
  ∀ (f : Feeder) (s : State), s.phase = .running → s.fitted f = true → (s.feeder f).ar.state = .deadTime →
    (s.feeder f).claims.breaker = false → NothingPending s f →
    (∀ d, (s.feeder f).invalidTimer = some d → d ≤ s.partTime → (s.feeder f).position = .invalid →
      exec (.invalidTimerExpiry f) s = .next
        (broadcast (.positionFault f .invalid)
          (ended f (.system .breaker)
            (withSystem f .breaker (s.onFeeder f fun x => { x with invalidTimer := none, positionFault := some .invalid }))))) ∧
    ∀ d, (s.feeder f).transitTimer = some d → d ≤ s.partTime → (s.feeder f).position = .transit → (s.feeder f).inFlight = none →
      exec (.transitTimerExpiry f) s = .next
        (broadcast (.positionFault f .transit)
          (ended f (.system .breaker)
            (withSystem f .breaker (s.onFeeder f fun x => { x with transitTimer := none, positionFault := some .transit }))))

/-! ### Leases, claims and the store's writes -/

/-- The edit lease frees the buffer and tells its former owner alone (R60), a port's lock lease frees the lock (R120), and the expiry of
a NORECLOSE claim takes it out of the pool and releases it with cause EXPIRED (R91); each at its deadline and not before. -/
def Obligations.LeasesAndClaimsExpire : Prop :=
  ∀ s : State, s.phase = .running →
    (∀ p r c d, s.store.edit = .editing p r c d →
      exec .editLeaseExpiry s = .next
        (if d ≤ s.partTime then offer p (.editExpired r) (s.onStore fun st => { st with edit := .free }) else s)) ∧
    (∀ f p d, (s.feeder f).lock = .port p d →
      exec (.lockLeaseExpiry f) s = .next
        (if d ≤ s.partTime then
          broadcast (.lockChange f (.port p) .nobody .expired) (s.onFeeder f fun x => { x with lock := .free })
        else s)) ∧
    (∀ c, c ∈ s.pool → c.kind = .noReclose → c.holder.tagFits c.tag = true → PoolSound s →
      exec (.claimExpiry c.feeder c.holder c.tag) s = .next
        (match c.expiry with
         | none => s
         | some d =>
           if d ≤ s.partTime then
             broadcast (.claimReleased c.feeder (.port .noReclose c.holder c.shownTag c.reason (some d)) .expired)
               { s with pool := s.pool.filter fun x => decide (x ≠ c) }
           else s))

/-- The write of the oldest entry begins when none is in flight, taking the record's held content, or for a claim write the HOLD_OPEN claims
of the pool (R52, R62, R93); an empty queue or a write in flight lets none begin. When a write completes its written copy holds the content
written, the defaulted mark is cleared, the entry leaves the queue, the claims a claim write took are persisted, the buffer of its commit is
free, and the request that queued it is answered OK with the port's flags; every other written copy, record and port is as it was (R63, R66,
R93, R177). R63 says that the next entry's write then begins; that it does so at its own command, no write being in flight right after the
completion, is the model's reading (log 36). -/
def Obligations.StoreWritesBeginAndComplete : Prop :=
  (∀ s : State, s.phase = .running →
    (s.store.queue = [] ∨ s.store.writing.isSome = true → exec .storeWriteBegins s = .next s) ∧
    ∀ e rest, s.store.writing = none → s.store.queue = e :: rest →
      exec .storeWriteBegins s = .next
        { s with
          store := { s.store with writing := some { content := heldContent s e.record, began := s.partTime } }
          pool := if e.record = .claims then s.pool.map fun c => { c with inWrite := decide (c.kind = .holdOpen) } else s.pool }) ∧
  ∀ (w : StoreWrite) (e : WriteEntry) (rest : List WriteEntry) (s : State), s.phase = .running → s.store.writing = some w →
    s.store.queue = e :: rest → contentFits e.record w.content = true →
    ∃ t, exec .storeWriteComplete s = .next t ∧ writtenIs t.store e.record w.content ∧ defaultedMark t.store e.record = false ∧
      (∀ r, r ≠ e.record → sameWritten s.store t.store r ∧ defaultedMark t.store r = defaultedMark s.store r) ∧
      (∀ r, r ≠ .claims → heldContent t r = heldContent s r) ∧ t.store.queue = rest ∧ t.store.writing = none ∧
      (∀ c, s.store.edit = .committing e.port e.record c → t.store.edit = .free) ∧
      t.pool =
        (if e.record = .claims then s.pool.map fun c => { c with persisted := c.persisted || c.inWrite, inWrite := false }
         else s.pool) ∧
      (∀ code target, (s.ports.get e.port).state = .executing code target →
        t.ports.get e.port =
          { state := .waiting
              { status := .ok, collided := (s.ports.get e.port).collided, incomplete := (s.ports.get e.port).incomplete,
                payload := [] },
            collided := false, incomplete := false }) ∧
      (∀ p, p ≠ e.port → t.ports.get p = s.ports.get p) ∧ ∀ f, t.feeder f = s.feeder f

/-- A quiescent feeder takes a pending lowering or pending settings in one reload: its applied level is its target level, its effective
settings are the stored group and curves, nothing is pending and the FIRE claim follows; the other feeders are as they were. APPLIED_LEVEL
and SETTINGS_APPLIED go with cause LOWER when the level falls, SETTINGS_APPLIED alone with cause COMMIT when only settings waited, then the
FIRE claim's entry and those of the settings handed on, as `reloaded` gives them (R77; in this order by the model's choice, logs 11, 59). A
feeder that is not quiescent, or waits for nothing, is left as it is (R76, R77, R79, R80). -/
def Obligations.JudgementAppliesWhatIsPending : Prop :=
  ∀ (f : Feeder) (x : FeederFire) (s : State), s.phase = .running → (s.feeder f).fire = some x →
    (targetLevel s f).number ≤ x.applied.number →
    (quiescent s f = false ∨ NothingPending s f → exec (.loweringApplied f) s = .next s) ∧
    (quiescent s f = true → ¬ NothingPending s f →
      ∃ t, exec (.loweringApplied f) s = .next t ∧
        t =
          (if (targetLevel s f).number < x.applied.number then reloaded f (targetLevel s f) .lower s
           else reloaded f x.applied .commit s) ∧
        (t.feeder f).fire = some
          { applied := targetLevel s f, settingsPending := false, effective := s.effectiveFor f (targetLevel s f) } ∧
        (t.feeder f).claims =
          { (s.feeder f).claims with fire := atFireBlock (targetLevel s f) (s.commissioning f).fireBlock } ∧
        NothingPending t f ∧ (∀ g, g ≠ f → t.feeder g = s.feeder g) ∧ t.store = s.store ∧ t.pool = s.pool)

/-! ### Transfers, frames and responses -/

/-- A fetch sends the waiting response from its first byte and 0xFF after its last, and consumes it when its last byte is sent; a shorter
fetch leaves it waiting, whole; with nothing waiting 0xFF is sent, but the crew port does not acknowledge while it is EXECUTING (R178,
R179). Held by RESET the serial ports send 0xFF and the crew port nothing (R190). The crew port acknowledges its address, and each byte of a
write whose address it has acknowledged, unless it is EXECUTING, held by RESET or without power (R179, R190). A port's response-ready line
is asserted exactly while it is WAITING (R174), so from when a response is made ready, and a fetch of the whole response releases it. -/
def Obligations.FetchSendsTheResponse : Prop :=
  (∀ (n : Nat) (s : State),
    (crewAcknowledges s = true ↔ s.phase = .running ∧ ∀ code target, (s.ports.get .crew).state ≠ .executing code target) ∧
    crewWriteAcknowledges s n = List.replicate (n + 1) (crewAcknowledges s)) ∧
  (∀ (p : Port) (s : State),
    (responseReady s p = true ↔ ∃ r, (s.ports.get p).state = .waiting r) ∧
    (∀ st payload, responseReady (respond p st payload s) p = true ∧
      ∀ q, q ≠ p → responseReady (respond p st payload s) q = responseReady s q) ∧
    ∀ n t, exec (.fetch p n) s = .next t → s.phase = .running →
      responseReady t p =
        match (s.ports.get p).state with
        | .waiting r => decide (n < r.frame.length)
        | _ => false) ∧
  ∀ (p : Port) (n : Nat) (s : State),
    (s.phase = .running →
      (∀ r, (s.ports.get p).state = .waiting r →
        exec (.fetch p n) s = .next
          { s with
            sent := s.sent.set p (.bytes (r.frame.take n ++ List.replicate (n - r.frame.length) 0xFF#8))
            ports := if r.frame.length ≤ n then s.ports.set p { s.ports.get p with state := .idle } else s.ports }) ∧
      (portFree s p → exec (.fetch p n) s = .next { s with sent := s.sent.set p (.bytes (List.replicate n 0xFF#8)) }) ∧
      (∀ code target, (s.ports.get p).state = .executing code target →
        exec (.fetch p n) s = .next
          { s with sent := s.sent.set p (.bytes (if p = .crew then [] else List.replicate n 0xFF#8)) })) ∧
    (s.phase = .held →
      exec (.fetch p n) s = .next { s with sent := s.sent.set p (.bytes (if p = .crew then [] else List.replicate n 0xFF#8)) })

/-- What the bus and the transfers do that is no request taken: the first byte makes an idle port RECEIVING, a frame ended early sets
INCOMPLETE and frees the port, a transfer of an unknown type sets INCOMPLETE (R175, R178). At the crew port each byte of an unfinished frame
sets the stall of its write to 25 ms of part time on, and a stall at that time, or of a write not told of before, is a frame ended early, or
COLLIDED alone in a write begun in WAITING, while a stall of a read changes nothing; before its time a stall does nothing (R176, R180). The
model's choice is how the transactions on the crew bus are told and held (log 60), that COLLIDED is set at a frame's end, its first byte
leaving the port unit as it is (log 56), and that a stall after a frame already whole acts by the port's state in the same way, on nothing in
EXECUTING (log 58); that a write stalled after its address alone sets the same flag is its reading (log 27). A frame at a port that is
EXECUTING or WAITING is discarded unchecked and sets COLLIDED, but at the crew port while EXECUTING it does not arrive (R176, R179).
Throughout each of these transfers, and those of the requests that are taken, a serial port sends 0xFF (section 9.2, R178) and the crew port
no byte (R179). -/
def Obligations.FramesThatAreNotTaken : Prop :=
  (∀ (p : Port) (s : State), listens p s =
    { s with
      sent := s.sent.set p (if p = .crew then .bytes [] else .allOnes)
      crewWrite := if p = .crew then none else s.crewWrite }) ∧
  (∀ (p : Port) (s₀ : State),
    let s := listens p s₀
    let crew := listens .crew s₀
    let underWay (collides : Bool) : Option CrewWrite :=
      if p = .crew then some { collides := collides, stall := s.partTime + 25 } else s.crewWrite
    s₀.phase = .running →
    exec (.requestFrameBegins p) s₀ = .next
      (match (s.ports.get p).state with
      | .idle => { s.onPort p fun u => { u with state := .receiving } with crewWrite := underWay false }
      | .receiving => { s with crewWrite := underWay false }
      | .waiting _ => { s with crewWrite := underWay true }
      | .executing _ _ => s) ∧
    (portFree s p → exec (.frameEndedEarly p) s₀ = .next (s.onPort p fun u => { u with state := .idle, incomplete := true })) ∧
    (∀ q type, type ≠ 0x01#8 → type ≠ 0x02#8 →
      exec (.badTransferType q type) s₀ = .next ((listens q.port s₀).onPort q.port fun u => { u with incomplete := true })) ∧
    (∀ point, point = .writeAfterAddress ∨ point = .writeAfterByte →
      (portFree crew .crew →
        exec (.crewStall point) s₀ = .next (crew.onPort .crew fun u => { u with state := .idle, incomplete := true })) ∧
      (∀ r, (crew.ports.get .crew).state = .waiting r →
        exec (.crewStall point) s₀ = .next (crew.onPort .crew fun u => { u with collided := true })) ∧
      ∀ code target, (crew.ports.get .crew).state = .executing code target → exec (.crewStall point) s₀ = .next crew) ∧
    exec (.crewStall .read) s₀ = .next s₀ ∧
    (s₀.crewWrite = none → exec (.crewStall .underWay) s₀ = .next s₀) ∧
    ∀ w, s₀.crewWrite = some w →
      (s₀.partTime < w.stall → exec (.crewStall .underWay) s₀ = .next s₀) ∧
      (w.stall ≤ s₀.partTime →
        exec (.crewStall .underWay) s₀ = .next
          ({ s₀ with crewWrite := none }.onPort .crew fun u =>
            if w.collides = true then { u with collided := true } else { u with state := .idle, incomplete := true }))) ∧
  (∀ (p : Port) (i : Instr) (s₀ : State),
    let s := listens p s₀
    s₀.phase = .running →
    (i = .badFrame p ∨ i = .unknownRequest p ∨ i = .frameEndedEarly p ∨ i = .collidedFrame p ∨
      ∃ (q : Request) (target : Byte) (payload : List Byte), i = q.command p target payload) →
    (∀ r, (s.ports.get p).state = .waiting r → exec i s₀ = .next (s.onPort p fun u => { u with collided := true })) ∧
    ∀ code target, (s.ports.get p).state = .executing code target →
      exec i s₀ = .next (if p = .crew then s else s.onPort p fun u => { u with collided := true }))

/-- A whole frame whose check or code fails is answered BAD_FRAME or UNKNOWN; a request whose check 3, 4 or 5 fails is answered by the
first that does, RIGHTS, RANGE or NOT_FITTED, and nothing but its port changes (R181, R182, R183). The target's range, the fitted check and
the payload's length stand as the tables give them: a PLACE_CLAIM has five bytes without an expiry and nine with one (R183, R192). -/
def Obligations.FailedCheckIsAnsweredAtOnce : Prop :=
  ∀ (p : Port) (s₀ : State),
    let s := listens p s₀
    s.phase = .running → portFree s p →
    exec (.badFrame p) s₀ = .next (respond p .badFrame [] s) ∧ exec (.unknownRequest p) s₀ = .next (respond p .unknown [] s) ∧
    ∀ (q : Request) (target : Byte) (payload : List Byte),
      let rights := (q.rights.allow p && (decide (p ≠ .crew) || crewKeyActive s)) = true
      let n := target.toNat
      let length := payload.length
      let onFitted := [Request.trip, .close, .takeLock, .dropLock, .placeClaim, .clearBreakerFail, .clearHuntClaim, .clearStoreHold,
        .readEffective]
      let targets :=
        if q ∈ onFitted ++ [.readFeeder, .releaseClaim, .forceRelease] then 1 ≤ n ∧ n ≤ 6
        else if q = .readClaims then n ≤ 6
        else if q ∈ [Request.setFireRequest, .setFloor, .setBanLevel] then 1 ≤ n ∧ n ≤ 3
        else n = 0
      let fits :=
        if q ∈ [Request.readEvents, .setFireRequest, .setFloor, .setBanLevel, .setProtectMode] then length = 1
        else if q ∈ [Request.readRecord, .openEdit, .releaseClaim] then length = 3
        else if q = .forceRelease then length = 4
        else if q = .setField then length = 5
        else if q = .placeClaim then (length = 5 ∧ payload[4]? = some 0#8) ∨ (length = 9 ∧ payload[4]? = some 1#8)
        else length = 0
      let inRange := targets ∧ fits
      let fitted := q ∈ onFitted → ∀ f, f.number = n → s.fitted f = true
      (64 < payload.length → exec (q.command p target payload) s₀ = .next (respond p .badFrame [] s)) ∧
      (payload.length ≤ 64 → ¬ rights → exec (q.command p target payload) s₀ = .next (respond p .rights [] s)) ∧
      (payload.length ≤ 64 → rights → ¬ inRange → exec (q.command p target payload) s₀ = .next (respond p .range [] s)) ∧
      (payload.length ≤ 64 → rights → inRange → ¬ fitted →
        exec (q.command p target payload) s₀ = .next (respond p .notFitted [] s)) ∧
      (payload.length ≤ 64 → rights → inRange → fitted → Takes q p target payload s)

/-- The rights of the three ports: the network port may make every request, the panel port all but seven, the crew port nine, and
those only while CREW_KEY reads active; a request without the right is answered RIGHTS (R182, R181 check 3). -/
def Obligations.RightsOfThePorts : Prop :=
  ∀ (p : Port) (q : Request) (target : Byte) (payload : List Byte) (s₀ : State),
    let s := listens p s₀
    s.phase = .running → portFree s p →
    payload.length ≤ 64 →
    let may :=
      match p with
      | .network => true
      | .panel =>
        decide (q ∉ [Request.forceRelease, .clearStoreHold, .setFloor, .setBanLevel, .setProtectMode, .freezeSettings, .restart])
      | .crew =>
        decide (q ∈ [Request.identify, .readFeeder, .readClaims, .readEvents, .trip, .takeLock, .dropLock, .placeClaim,
          .releaseClaim]) && crewKeyActive s
    (may = false → exec (q.command p target payload) s₀ = .next (respond p .rights [] s)) ∧
    (may = true → portCheck s q p target.toNat payload ≠ some .rights)

/-! ### Reads -/

/-- IDENTIFY, READ_PART, READ_STORE and READ_HUNT are answered OK with the fields below, in this order, encoded by R191 with the codes of
R193, and change nothing but their port; READ_PART shows the port that reads as RECEIVING (R67, R172, R187, R188). The model's reading:
the code of a level (log 21), SET_PROTECT at its filtered level and the flag of each queued write (log 24), the place of the hunt's current
candidate counted from 1 (log 26). -/
def Obligations.PartReadsShowTheState : Prop :=
  ∀ (p : Port) (s₀ : State),
    let s := listens p s₀
    let level (x : FilteredInput) : List Byte := beOpt (fun l => be1 (if l then 0 else 1)) x.level
    let station (x : FilteredInput) (reads : Bool) : List Byte := level x ++ be1 (if reads then 0 else 1)
    let portState (q : Port) : Nat :=
      if q = p then 1
      else
        match (s.ports.get q).state with
        | .idle => 0
        | .receiving => 1
        | .executing _ _ => 2
        | .waiting _ => 3
    let feeder (f : Feeder) : List Byte := be1 f.number
    let sums (x : PerFeeder Nat) : List Byte := Feeder.all.flatMap fun f => be4 (x.get f)
    let identified (i : Identified) : List Byte :=
      feeder i.feeder ++ be1 i.isolate.code ++ beOpt (fun e : EndRestore => be1 e.code) i.endRestore
    let candidates : List Candidate → List Byte := beList fun c => feeder c.feeder ++ be1 c.outcome.code
    (Takes .identify p 0#8 [] s →
      exec (.identify p 0#8 []) s₀ = .next
        (respond p .ok
          ([0x55#8, 0x4A#8, 0x56#8, 0x41#8, 0x52#8, 0x41#8, 0x4C#8, 0x4F#8, 0x4D#8, 0x47#8, 0x41#8, 0x52#8, 0x20#8, 0x36#8, 0x46#8,
            BitVec.ofNat 8 Config.hardwareRevision, 1#8, BitVec.ofNat 8 (match p with | .network => 1 | .panel => 2 | .crew => 3),
            BitVec.ofNat 8 s.crewAddress.toNat,
            BitVec.ofNat 8 (match s.startCause with | .powerOn => 0 | .reset => 1 | .restart => 2)] ++ be6 s.partTime) s)) ∧
    (Takes .readPart p 0#8 [] s →
      exec (.readPart p 0#8 []) s₀ = .next
        (respond p .ok
          (be6 s.partTime ++ be1 (match s.startCause with | .powerOn => 0 | .reset => 1 | .restart => 2) ++
            be1 (match s.link with | .awaiting => 0 | .up => 1 | .lost => 2) ++ beOpt be1 s.lastSequence ++
            beOpt be6 s.lastFrameTime ++ beOpt be6 s.linkDeadline ++ be2 s.bus.vn ++ beFlag s.bus.valid ++
            station s.fireBan (fireBanActive s) ++ station s.crewKey (crewKeyActive s) ++
            station s.setProtect (setProtectActive s) ++ be2 s.opCounter ++
            ([Port.network, .panel, .crew].flatMap fun q =>
              be1 (portState q) ++ beFlag (s.ports.get q).collided ++ beFlag (s.ports.get q).incomplete) ++
            ([Port.network, .panel, .crew].flatMap fun q => be1 (s.queues.get q).length)) s)) ∧
    (Takes .readStore p 0#8 [] s →
      exec (.readStore p 0#8 []) s₀ = .next
        (respond p .ok
          (be1 (match s.store.protectMode.held with | .open_ => 0 | .pin => 1 | .networkOnly => 2) ++ beFlag s.store.frozen ++
            level s.setProtect ++
            (match s.store.edit with
             | .free => [0#8, 0#8, 0#8, 0#8]
             | .editing o r _ lease => be1 1 ++ be1 (portCode o) ++ be1 1 ++ r.bytes ++ be1 1 ++ be6 lease
             | .committing o r _ => be1 2 ++ be1 (portCode o) ++ be1 1 ++ r.bytes ++ be1 0) ++
            be1 s.store.queue.length ++
            (s.store.queue.zipIdx.flatMap fun e =>
              be1 (portCode e.1.port) ++ e.1.record.bytes ++ be1 (if e.1.record = .claims then 1 else 0) ++
                beFlag (decide (e.2 = 0) && s.store.writing.isSome))) s)) ∧
    (Takes .readHunt p 0#8 [] s →
      let use := s.huntSettings (detectorLevel s)
      let h := s.hunt
      exec (.readHunt p 0#8 []) s₀ = .next
        (respond p .ok
          (be1 s.detector.state.code ++ be4 s.detector.amount ++ be1 (detectorLevel s).number ++ be2 s.bus.vn ++
            beFlag s.bus.valid ++ be2 use.vnPickup ++ be2 (use.vnPickup - use.hysteresis) ++ be2 use.detectTime ++
            be1 (match h with | none => 0 | some x => x.state.code) ++ beOpt (fun c : HuntCause => be1 c.code) (h.map (·.cause)) ++
            beOpt be6 (h.map (·.startTime)) ++ beOpt (fun l : Level => be1 l.number) (h.map (·.level)) ++
            beOpt (fun w : Window => be1 w.length ++ be1 w.counted ++ sums w.sums) (h.bind (·.window)) ++
            beOpt sums (h.bind (·.sums)) ++ beOpt identified (h.bind (·.identified)) ++ beOpt beFlag (h.bind (·.dropoutSeen)) ++
            beOpt candidates (h.bind (·.candidates)) ++ beOpt (fun i => be1 (i + 1)) (h.bind (·.current)) ++
            beOpt feeder (h.bind (·.locked)) ++
            beOpt (fun o : HuntOp => be2 o.id ++ be1 o.kind.code ++ feeder o.feeder) (h.bind (·.op)) ++
            beOpt be6 (h.bind (·.deadline)) ++ beOpt beFlag (h.bind (·.tripInWatch)) ++
            beOpt beFlag (h.map (·.pendingSuspend)) ++ beOpt (fun r : ResumePoint => be1 r.code) (h.bind (·.resume)) ++
            beOpt (fun r : HuntResult => be1 r.code) (h.bind (·.pendingResult)) ++
            beOpt HuntSettings.bytes (h.map fun x => s.huntSettings x.level) ++
            beOpt
              (fun r : HuntReport =>
                be1 r.cause.code ++ be6 r.startTime ++ be6 r.endTime ++ be1 r.level.number ++ beOpt sums r.sums ++
                  beOpt identified r.identified ++ beOpt candidates r.candidates ++ be1 r.result.code ++ beOpt feeder r.found)
              s.lastHunt) s)) ∧
    [DetectorState.quiet, .timing, .detected, .unresolved].map DetectorState.code = List.range 4 ∧
    [HuntState.idle, .identify, .isolate, .confirm, .trialOpen, .trialWatch, .trialRestore, .suspended].map HuntState.code =
      List.range 8 ∧
    [HuntCause.detected, .requested].map HuntCause.code = List.range 2 ∧
    [IsolateOutcome.found, .misidentified, .opened, .tripFailed, .skippedLocked, .skippedOpen, .notOpen].map
      IsolateOutcome.code = List.range 7 ∧
    [EndRestore.healthyRestored, .stranded, .notNeeded].map EndRestore.code = List.range 3 ∧
    [CandidateOutcome.notTried, .skippedLocked, .skippedOpen, .skippedBlocked, .tripFailed, .healthyRestored, .stranded,
      .found].map CandidateOutcome.code = List.range 8 ∧
    [ResumePoint.identify, .trialEntry, .nextCandidate].map ResumePoint.code = List.range 3 ∧
    [HuntResult.foundIdentified, .foundByTrial, .clearedSpontaneous, .clearedByProtection, .notFound, .abortedRequest,
      .abortedLink].map HuntResult.code = List.range 7

/-- READ_FEEDER, READ_CLAIMS, READ_FIRE and READ_EFFECTIVE are answered OK with the fields below, in this order, encoded by R191 with the
codes of R193, and change nothing but their port and the lease of the lock that the port holds on the feeder named (R83, R102, R119,
R143, R186). The model's reading: the code of a contact's level (log 21), the codes of a position fault and the fields absent on an
unfitted feeder (log 25), an operation's fields without presence bytes (log 50), an UNSET dead time as
four bytes of 0 (log 54), the lease deadline that a read has just renewed (log 32), the place of a district's two write pending flags, floor then ban level, after its
target (log 55), and READ_CLAIMS by its layout where its greatest length
is not that of R184 (log 15). -/
def Obligations.FeederReadsShowTheState : Prop :=
  ∀ (p : Port) (f : Feeder) (s₀ : State),
    let s := listens p s₀
    let flag (b : Bool) : List Byte := be1 (if b then 1 else 0)
    let level (x : FilteredInput) : List Byte := beOpt (fun l => be1 (if l then 0 else 1)) x.level
    let element (e : Element) : List Byte :=
      be1 (match e.state with | .normal => 0 | .pickedUp => 1 | .held => 2 | .operated => 3) ++ be4 e.amount
    let operation (o : Operation) : List Byte :=
      be2 o.id ++ be1 o.kind.code ++ be1 o.origin.code ++ beList (fun r : Origin => be1 r.code) o.requesters ++
        beOpt flag o.permit ++ be6 o.started
    let own (g : Feeder) : List PortClaim := s.pool.filter fun c => decide (c.feeder = g)
    let claimState (g : Feeder) : List Byte :=
      let c := (s.feeder g).claims
      flag c.fire ++ flag c.hunt ++ flag c.measure ++ flag c.breaker ++ flag c.store ++
        flag (!(c.fire || c.hunt || c.measure || c.breaker || c.store) && (own g).isEmpty) ++
        flag (c.store || (own g).any fun k => decide (k.kind = .holdOpen)) ++
        flag (c.measure || c.breaker || c.store || !(own g).isEmpty)
    let claim (c : PortClaim) : List Byte :=
      be1 c.feeder.number ++ be1 c.kind.code ++ be1 (portCode c.holder) ++
        beOpt be2 (if c.holder = .crew then some c.tag else none) ++ be1 c.reason ++ be6 c.placedAt ++ beOpt be6 c.expiry ++
        beOpt flag (if c.kind = .holdOpen then some c.persisted else none)
    let claimRecord : List Byte := flag (s.store.queue.any fun e => decide (e.record = .claims)) ++ flag s.store.claimsDefaulted
    let fireState (g : Feeder) : List Byte :=
      let x := s.feeder g
      let target := (s.districts.get (s.commissioning g).district).target
      be1 target.number ++ beOpt (fun y : FeederFire => be1 y.applied.number) x.fire ++
        beOpt (fun y : FeederFire => flag (decide (target.number < y.applied.number))) x.fire ++
        beOpt (fun y : FeederFire => flag y.settingsPending) x.fire ++
        beOpt
          (fun _ : FeederFire =>
            flag (decide (s.fitted g = true ∧ x.pickedUp = false ∧
              (x.ar.state = .ready ∨ x.ar.state = .lockout ∨ x.ar.state = .openManual) ∧ x.inFlight = none ∧ x.lock ≠ .hunt)))
          x.fire ++
        beOpt (fun _ : FeederFire => flag x.claims.fire) x.fire
    let pending (r : RecordName) : List Byte := flag (s.store.queue.any fun e => decide (e.record = r))
    (Takes .readFeeder p f.byte [] s →
      let x := s.feeder f
      let c := s.commissioning f
      let g := x.fire.map (·.effective.group)
      let lease : Option Nat := match x.lock with | .port q d => some (if q = p then s.partTime + 300000 else d) | _ => none
      exec (.readFeeder p f.byte []) s₀ = .next
        (respond p .ok
          (flag c.fitted ++ be1 c.district.number ++ be1 c.fireBlock.code ++ be1 c.trialPriority ++ flag c.huntExclude ++
            be2 c.tripConfirm ++ be2 c.closeConfirm ++
            be1 (match x.meas with | .awaiting => 0 | .valid => 1 | .holding => 2 | .lost => 3) ++ be1 x.invalidCount ++
            be1 x.recoveryCount ++ be1 x.position.code ++ level x.closedContact ++ level x.openContact ++
            be1 (match x.positionFault with | none => 0 | some .invalid => 1 | some .transit => 2) ++ beOpt be6 x.invalidTimer ++
            beOpt be6 x.transitTimer ++ element x.phaseIdmt ++ element x.highSet ++ element x.earthIdmt ++ element x.sef ++
            beOpt
              (fun r : TripRecord =>
                beList (fun e : ElementName => be1 e.code) r.elements ++ be2 r.ia ++ be2 r.ib ++ be2 r.ic ++ be2 r.residual ++
                  be1 r.level.number ++ be1 r.shot ++ flag r.permitted ++ be6 r.time)
              x.tripRecord ++
            fireState f ++ beOpt (fun y : InFlight => operation y.op ++ be6 y.deadline) x.inFlight ++
            beOpt (fun y : Completed => operation y.op ++ be1 y.outcome.code ++ be6 y.completed) x.lastOp ++
            be1 x.lastEnd.code ++ be1 x.lock.holder.code ++ beOpt be6 lease ++ be1 x.ar.state.code ++ be1 x.ar.shotsUsed ++
            beOpt be1 x.ar.currentShot ++ beOpt be6 x.ar.deadline ++ beOpt be2 x.ar.closeOp ++ beOpt be6 x.ar.reclaim ++
            beOpt (fun a : ArCause => be1 a.code) x.ar.cause ++ be6 x.ar.since ++ beOpt be1 (g.map (·.shots)) ++
            beOpt (fun d : Option Nat => be4 (d.getD 0)) (g.map (·.dead1)) ++
            beOpt (fun d : Option Nat => be4 (d.getD 0)) (g.map (·.dead2)) ++
            beOpt (fun d : Option Nat => be4 (d.getD 0)) (g.map (·.dead3)) ++
            beOpt (fun d : Option Nat => be4 (d.getD 0)) (g.map (·.dead4)) ++ beOpt be4 (g.map (·.reclaim)) ++
            be1 (own f).length ++ claimState f)
          (namingFeeder f p s))) ∧
    (Takes .readClaims p 0#8 [] s →
      exec (.readClaims p 0#8 []) s₀ = .next
        (respond p .ok (beList claim s.pool ++ [Feeder.f1, .f2, .f3, .f4, .f5, .f6].flatMap claimState ++ claimRecord) s)) ∧
    (Takes .readClaims p f.byte [] s →
      exec (.readClaims p f.byte []) s₀ = .next
        (respond p .ok (beList claim (own f) ++ claimState f ++ claimRecord) (namingFeeder f p s))) ∧
    (Takes .readFire p 0#8 [] s →
      exec (.readFire p 0#8 []) s₀ = .next
        (respond p .ok
          (([District.d1, .d2, .d3].flatMap fun d =>
              let x := s.districts.get d
              be1 x.network.number ++ be1 x.panel.number ++ be1 (s.ban d).number ++ be1 (s.floor d).number ++
                flag (fireBanActive s) ++ be1 x.target.number ++ pending (.seasonFloor d) ++ pending (.banLevel d)) ++
            ([Feeder.f1, .f2, .f3, .f4, .f5, .f6].flatMap fun g =>
              let c := s.commissioning g
              flag c.fitted ++ be1 c.district.number ++ be1 c.fireBlock.code ++ fireState g) ++
            be1 (detectorLevel s).number) s)) ∧
    (∀ x, (s.feeder f).fire = some x → Takes .readEffective p f.byte [] s →
      exec (.readEffective p f.byte []) s₀ = .next
        (respond p .ok
          (be1 x.applied.number ++ x.effective.group.bytes ++ beList Breakpoint.bytes x.effective.phaseCurve ++
            beList Breakpoint.bytes x.effective.earthCurve)
          (namingFeeder f p s))) ∧
    [Position.closed, .opened, .transit, .invalid].map Position.code = List.range 4 ∧
    [OpKind.trip, .close].map OpKind.code = List.range 2 ∧
    [Origin.protection, .reclose, .hunt, .port .network, .port .panel, .port .crew].map Origin.code = List.range 6 ∧
    [OpOutcome.done, .already, .failed, .superseded].map OpOutcome.code = List.range 4 ∧
    [LastEnd.closed, .opened, .unknown].map LastEnd.code = List.range 3 ∧
    [Holder.nobody, .port .network, .port .panel, .port .crew, .hunt].map Holder.code = List.range 5 ∧
    [ArState.starting, .ready, .deadTime, .closing, .reclaim, .lockout, .openManual, .outOfService].map ArState.code =
      List.range 8 ∧
    [ArCause.startPosition, .commission, .protectionTrip, .noPermit, .noShots, .blocked, .tripOutsideSequence, .claim,
      .shotsReduced, .deadTimeExpired, .reclosed, .closeRefused, .closeFailed, .reclaimExpired, .manualTrip, .tripFailed,
      .closedByRequest, .externalOpen, .externalClose].map ArCause.code = List.range 19 ∧
    [ElementName.phaseIdmt, .highSet, .earthIdmt, .sef].map ElementName.code = List.range 4 ∧
    [ClaimKind.noReclose, .holdOpen].map ClaimKind.code = List.range 2 ∧
    [FireBlock.l1, .l2, .l3, .never].map FireBlock.code = [1, 2, 3, 255]

/-- READ_RECORD answers with a record's held content, and for the claim record with the list as last written, then the defaulted mark
and whether a write is pending; a name of no record is RANGE. READ_EDIT shows the buffer, whose lease it renews for the owner
alone (R56, R67, R192). What it shows of a torn claim list is open (log 5); that READ_EDIT shows the lease deadline it has just renewed is
the model's choice (log 32), and so is an UNSET dead time as four bytes of 0 (log 54). -/
def Obligations.RecordReadsShowTheContent : Prop :=
  ∀ (p : Port) (s₀ : State),
    let s := listens p s₀
    (∀ r, Takes .readRecord p 0#8 r.bytes s →
      (r ≠ .claims →
        exec (.readRecord p 0#8 r.bytes) s₀ = .next
          (respond p .ok ((heldContent s r).bytes ++ beFlag (defaultedMark s.store r) ++ beFlag (writePending s r)) s)) ∧
      (∀ cs, r = .claims → s.store.claimsWritten = .intact cs →
        exec (.readRecord p 0#8 r.bytes) s₀ = .next
          (respond p .ok (beList PersistedClaim.bytes cs ++ beFlag s.store.claimsDefaulted ++ beFlag (writePending s .claims)) s)) ∧
      (r = .claims → s.store.claimsWritten = .torn →
        exec (.readRecord p 0#8 r.bytes) s₀ = .next
          (respond p .ok
            (beList PersistedClaim.bytes ((Config.tornClaims s.freeIndex).take 32) ++ beFlag s.store.claimsDefaulted ++
              beFlag (writePending s .claims))
            { s with freeIndex := s.freeIndex + 1 }))) ∧
    (∀ payload, Takes .readRecord p 0#8 payload s → namedRecord payload = none →
      exec (.readRecord p 0#8 payload) s₀ = .next (respond p .range [] s)) ∧
    (Takes .readEdit p 0#8 [] s →
      exec (.readEdit p 0#8 []) s₀ = .next (respond p .ok (editFields (editing p s)) (editing p s)) ∧
      ∀ r c d, s.store.edit = .editing p r c d →
        exec (.readEdit p 0#8 []) s₀ = .next
          (respond p .ok (be1 1 ++ be1 (portCode p) ++ be1 1 ++ r.bytes ++ be1 1 ++ be6 (s.partTime + 120000) ++ be1 1 ++ c.bytes)
            (s.onStore fun st => { st with edit := .editing p r c (s.partTime + 120000) })))

/-- READ_EVENTS with n of 1 to 8 removes the oldest min(n, held) entries of the port's own queue and returns their count and the entries;
another n is RANGE. READ_PART ends with the counts held (R198). A port's attention line is asserted exactly while its queue holds an entry,
so READ_EVENTS releases it when it takes the last one, and an entry offered to the queue asserts it (R200). -/
def Obligations.ReadEventsTakesTheOldest : Prop :=
  (∀ (p : Port) (s : State),
    (attention s p = true ↔ s.queues.get p ≠ []) ∧
    (∀ (n : Byte) (s₀ t : State), s = listens p s₀ → Takes .readEvents p 0#8 [n] s → 1 ≤ n.toNat → n.toNat ≤ 8 →
      exec (.readEvents p 0#8 [n]) s₀ = .next t →
      attention t p = decide (n.toNat < (s.queues.get p).length) ∧ ∀ q, q ≠ p → attention t q = attention s q) ∧
    ∀ ev, (p ≠ .crew ∨ crewKeyActive s = true) → attention (offer p ev s) p = true) ∧
  ∀ (p : Port) (n : Byte) (s₀ : State),
    let s := listens p s₀
    Takes .readEvents p 0#8 [n] s →
    exec (.readEvents p 0#8 [n]) s₀ = .next
      (if 1 ≤ n.toNat ∧ n.toNat ≤ 8 then
        respond p .ok
          (BitVec.ofNat 8 (min n.toNat (s.queues.get p).length) :: ((s.queues.get p).take n.toNat).flatMap EventEntry.bytes)
          { s with queues := s.queues.set p ((s.queues.get p).drop n.toNat) }
      else respond p .range [] s) ∧
    ∃ before, partFields s =
      before ++ [BitVec.ofNat 8 (s.queues.get .network).length, BitVec.ofNat 8 (s.queues.get .panel).length,
        BitVec.ofNat 8 (s.queues.get .crew).length]

/-- An event offered to a queue joins the tail below 31 entries, becomes OVERFLOW at 31 with the event's part time, and is lost at 32,
so a queue of at most 32 entries stays one (R197). -/
def Obligations.OfferedEventJoinsOrOverflows : Prop :=
  ∀ (p : Port) (ev : Event) (s : State),
    (p ≠ .crew ∨ crewKeyActive s = true →
      offer p ev s =
        { s with
          queues := s.queues.set p
            (if (s.queues.get p).length ≤ 30 then s.queues.get p ++ [{ time := s.partTime, event := ev }]
             else if (s.queues.get p).length = 31 then s.queues.get p ++ [{ time := s.partTime, event := .overflow }]
             else s.queues.get p) }) ∧
    ((s.queues.get p).length ≤ 32 → ((offer p ev s).queues.get p).length ≤ 32)

/-! ### Switching requests and locks -/

/-- A port TRIP joins a trip in flight, keeping its id, origin, start and deadline, or, with nothing in flight and the breaker not open, is
admitted under the next op id with its deadline by the trip confirm time; a lock of another holder refuses it with HELD, unless it comes
from the crew port (R104 to R107, R119). It supersedes a close in flight: the trip is in flight under a new id at once, and the close is the
last operation, SUPERSEDED, reported to its ports with the trip's id and origin; a sequencer that was closing under that id holds no close
any more, and the hunt is told when the close is its own (R114, step 3). A trip of an open breaker takes an id and is ALREADY at once, in a
sequencer state other than DEAD_TIME (R105, R106, R108, R114, R132). What the hunt does with its completion is HuntTakesItsCompletions. -/
def Obligations.TripMeetsTheOperationInFlight : Prop :=
  (∀ (p : Port) (f : Feeder) (s₀ : State),
     let s := listens p s₀
     Takes .trip p f.byte [] s →
    let x := s.feeder f
    let a := namingFeeder f p s
    (p ≠ .crew → x.lock.bars p = true → exec (.trip p f.byte []) s₀ = .next (respond p .held (be1 x.lock.holder.code) s)) ∧
    (p = .crew ∨ x.lock.bars p = false →
      (∀ y, x.inFlight = some y → y.op.kind = .trip →
        exec (.trip p f.byte []) s₀ = .next
          (respond p .accepted (be2 y.op.id)
            (a.onFeeder f fun z =>
              { z with
                inFlight := some
                  { y with
                    op := { y.op with
                      requesters :=
                        if y.op.requesters.contains (.port p) then y.op.requesters else y.op.requesters ++ [.port p] } } }))) ∧
      (x.inFlight = none → x.position ≠ .opened →
        exec (.trip p f.byte []) s₀ = .next
          (respond p .accepted (be2 s.opCounter)
            { a.onFeeder f fun z =>
                { z with
                  inFlight := some
                    { op := { id := s.opCounter, kind := .trip, origin := .port p, requesters := [.port p], permit := none,
                              started := s.partTime },
                      deadline := s.partTime + (s.commissioning f).tripConfirm },
                  transitTimer := none } with
              opCounter := if s.opCounter = 65535 then 1 else s.opCounter + 1 })))) ∧
  ∀ (p : Port) (f : Feeder) (s₀ : State),
    let s := listens p s₀
    Takes .trip p f.byte [] s → (p = .crew ∨ (s.feeder f).lock.bars p = false) →
    let x := s.feeder f
    let a := namingFeeder f p s
    let trip : Operation :=
      { id := s.opCounter, kind := .trip, origin := .port p, requesters := [.port p], permit := none, started := s.partTime }
    (∀ y, x.inFlight = some y → y.op.kind = .close →
      let c : Completed := { op := y.op, outcome := .superseded, completed := s.partTime }
      exec (.trip p f.byte []) s₀ = .next
        (respond p .accepted (be2 s.opCounter)
          (huntTold f c (some (.port p))
            ((sendOpDone f c (some (s.opCounter, .port p))
              (advanceOpId (a.onFeeder f fun z =>
                { z with
                  inFlight := some { op := trip, deadline := s.partTime + (s.commissioning f).tripConfirm }
                  transitTimer := none
                  lastOp := some c }))).onFeeder f fun z =>
              { z with
                ar :=
                  if y.op.origin = .reclose ∧ z.ar.state = .closing ∧ z.ar.closeOp = some y.op.id then { z.ar with closeOp := none }
                  else z.ar })))) ∧
    (x.inFlight = none → x.position = .opened → x.ar.state ≠ .deadTime →
      let c : Completed := { op := trip, outcome := .already, completed := s.partTime }
      exec (.trip p f.byte []) s₀ = .next
        (respond p .accepted (be2 s.opCounter)
          (sendOpDone f c none (advanceOpId (a.onFeeder f fun z => { z with lastOp := some c })))))

/-- A port CLOSE meets the seven checks in order: HELD, STATE in DEAD_TIME or CLOSING, STATE with a trip in flight, BUSY with a close in
flight, ALREADY when the position is CLOSED, STATE with a position fault, STATE under a HOLD_OPEN claim; one that passes is admitted
under the next op id, its deadline by the close confirm time (R104, R105, R109, R114, R119). -/
def Obligations.PortCloseMeetsItsChecks : Prop :=
  ∀ (p : Port) (f : Feeder) (s₀ : State),
    let s := listens p s₀
    Takes .close p f.byte [] s →
    let x := s.feeder f
    let a := namingFeeder f p s
    let close : Operation :=
      { id := s.opCounter, kind := .close, origin := .port p, requesters := [.port p], permit := none, started := s.partTime }
    let c : Completed := { op := close, outcome := .already, completed := s.partTime }
    exec (.close p f.byte []) s₀ = .next
      (if x.lock.bars p = true then respond p .held (be1 x.lock.holder.code) s
       else if x.ar.state = .deadTime ∨ x.ar.state = .closing then respond p .state [] a
       else
         match x.inFlight with
         | some y => respond p (match y.op.kind with | .trip => .state | .close => .busy) [] a
         | none =>
           if x.position = .closed then
             respond p .accepted (be2 s.opCounter)
               (sendOpDone f c none (advanceOpId (a.onFeeder f fun z => { z with lastOp := some c })))
           else if x.positionFault ≠ none then respond p .state [] a
           else if x.claims.store = true ∨ (∃ k, k ∈ s.pool ∧ k.feeder = f ∧ k.kind = .holdOpen) then respond p .state [] a
           else
             respond p .accepted (be2 s.opCounter)
               (advanceOpId (a.onFeeder f fun z =>
                 { z with
                   inFlight := some { op := close, deadline := s.partTime + (s.commissioning f).closeConfirm }
                   transitTimer := none })))

/-- TAKE_LOCK takes a free lock for 300,000 ms with LOCK_CHANGE, renews the port's own in silence and is HELD by another's; DROP_LOCK
frees the port's own lock with LOCK_CHANGE and is STATE otherwise. A free lock bars no port (R117). -/
def Obligations.LocksAreTakenAndDropped : Prop :=
  ∀ (p : Port) (f : Feeder) (s₀ : State),
    let s := listens p s₀
    (Takes .takeLock p f.byte [] s →
      exec (.takeLock p f.byte []) s₀ = .next
        (match (s.feeder f).lock with
         | .free =>
           respond p .ok []
             (broadcast (.lockChange f .nobody (.port p) .taken)
               (s.onFeeder f fun x => { x with lock := .port p (s.partTime + 300000) }))
         | .port q _ =>
           if q = p then respond p .ok [] (s.onFeeder f fun x => { x with lock := .port p (s.partTime + 300000) })
           else respond p .held [BitVec.ofNat 8 (portCode q)] s
         | .hunt => respond p .held [4#8] s)) ∧
    (Takes .dropLock p f.byte [] s →
      exec (.dropLock p f.byte []) s₀ = .next
        (match (s.feeder f).lock with
         | .port q _ =>
           if q = p then
             respond p .ok []
               (broadcast (.lockChange f (.port p) .nobody .dropped) (s.onFeeder f fun x => { x with lock := .free }))
           else respond p .state [] s
         | _ => respond p .state [] s)) ∧
    Lock.free.bars p = false

/-! ### Claim requests -/

/-- A new claim joins the tail of the pool and is reported; NORECLOSE is answered OK at once, and HOLD_OPEN queues a claim write and is
withheld, in a sequencer state other than DEAD_TIME (R87, R89, R100). A placement of the identity of a claim in the pool changes its reason
and expiry in place, full pool or not; a full pool refuses a new identity with FULL, and a kind, a tag or an expiry out of its range is
RANGE (R87, R88). -/
def Obligations.PlacementsJoinRenewOrAreRefused : Prop :=
  (∀ (p : Port) (f : Feeder) (k : ClaimKind) (reason tag : Nat) (expiry : Option Nat) (s₀ : State),
     let s := listens p s₀
     reason < 256 →
    p.tagFits tag = true → (∀ e, expiry = some e → k = .noReclose ∧ 60 ≤ e ∧ e ≤ 86400) →
    Takes .placeClaim p f.byte (claimPayload k reason tag expiry) s → (∀ c, c ∈ s.pool → c.is f k p tag = false) →
    s.pool.length < 32 → (s.feeder f).ar.state ≠ .deadTime →
    let deadline := expiry.map fun e => s.partTime + e * 1000
    let c : PortClaim :=
      { feeder := f, kind := k, holder := p, tag := tag, reason := reason, placedAt := s.partTime, expiry := deadline,
        persisted := false, inWrite := false }
    let b := broadcast (.claimPlaced f (.port k p (if p = .crew then some tag else none) reason deadline))
      { namingFeeder f p s with pool := s.pool ++ [c] }
    exec (.placeClaim p f.byte (claimPayload k reason tag expiry)) s₀ = .next
      (match k with
       | .noReclose => respond p .ok [] b
       | .holdOpen => withheld .placeClaim p f.number (queueWrite p .claims b))) ∧
  ∀ (p : Port) (f : Feeder) (s₀ : State),
    let s := listens p s₀
    (∀ (c : PortClaim) (reason : Nat) (expiry : Option Nat), c ∈ s.pool → PoolSound s → c.feeder = f → c.holder = p →
      p.tagFits c.tag = true → reason < 256 → (∀ e, expiry = some e → c.kind = .noReclose ∧ 60 ≤ e ∧ e ≤ 86400) →
      Takes .placeClaim p f.byte (claimPayload c.kind reason c.tag expiry) s →
      let b : State :=
        { namingFeeder f p s with
          pool := s.pool.map fun d =>
            if d = c then { c with reason := reason, expiry := expiry.map fun e => s.partTime + e * 1000 } else d }
      exec (.placeClaim p f.byte (claimPayload c.kind reason c.tag expiry)) s₀ = .next
        (match c.kind with
         | .noReclose => respond p .ok [] b
         | .holdOpen => withheld .placeClaim p f.number (queueWrite p .claims b))) ∧
    (∀ (k : ClaimKind) (reason tag : Nat) (expiry : Option Nat), reason < 256 → tag < 65536 → (∀ e, expiry = some e → e < 4294967296) →
      Takes .placeClaim p f.byte (claimPayload k reason tag expiry) s →
      (p.tagFits tag = false ∨ (∃ e, expiry = some e ∧ (k = .holdOpen ∨ e < 60 ∨ 86400 < e)) →
        exec (.placeClaim p f.byte (claimPayload k reason tag expiry)) s₀ = .next (respond p .range [] (namingFeeder f p s))) ∧
      (p.tagFits tag = true → (∀ e, expiry = some e → k = .noReclose ∧ 60 ≤ e ∧ e ≤ 86400) →
        (∀ c, c ∈ s.pool → c.is f k p tag = false) → s.pool.length = 32 →
        exec (.placeClaim p f.byte (claimPayload k reason tag expiry)) s₀ = .next (respond p .full [] (namingFeeder f p s)))) ∧
    ∀ payload, Takes .placeClaim p f.byte payload s → 2 ≤ numberAt payload 0 1 →
      exec (.placeClaim p f.byte payload) s₀ = .next (respond p .range [] (namingFeeder f p s))

/-- RELEASE_CLAIM takes the port's own claim of the kind and tag out of the pool, and FORCE_RELEASE that of the holder named, each with its
CLAIM_RELEASED; a HOLD_OPEN claim's release queues a claim write and is withheld; a claim that is not there is STATE, and a crew HOLD_OPEN
claim is refused to FORCE_RELEASE with RIGHTS; a kind outside the two, a holder other than NETWORK, PANEL and CREW, or a tag outside 1 to
9999 for CREW or other than 0 for the others is refused with RANGE (R90, R92). The clearing requests: HUNT is cleared while present, BREAKER
while present with no position fault, STORE while present, each with its CLAIM_RELEASED and OK; otherwise STATE. Nothing else of the feeder,
the store or the pool changes (R96 to R98). -/
def Obligations.ClaimsAreReleasedAndCleared : Prop :=
  (∀ (p : Port) (s₀ : State),
     let s := listens p s₀
    (∀ c, c ∈ s.pool → PoolSound s → c.holder.tagFits c.tag = true →
      let gone (cause : ReleaseCause) : State :=
        broadcast (.claimReleased c.feeder c.info cause)
          { namingFeeder c.feeder p s with pool := s.pool.filter fun d => decide (d ≠ c) }
      let done (q : Request) (b : State) : State :=
        match c.kind with
        | .noReclose => respond p .ok [] b
        | .holdOpen => withheld q p c.feeder.number (queueWrite p .claims b)
      (c.holder = p → Takes .releaseClaim p c.feeder.byte (be1 c.kind.code ++ be2 c.tag) s →
        exec (.releaseClaim p c.feeder.byte (be1 c.kind.code ++ be2 c.tag)) s₀ = .next (done .releaseClaim (gone .released))) ∧
      (Takes .forceRelease p c.feeder.byte (be1 c.kind.code ++ be1 (portCode c.holder) ++ be2 c.tag) s →
        exec (.forceRelease p c.feeder.byte (be1 c.kind.code ++ be1 (portCode c.holder) ++ be2 c.tag)) s₀ = .next
          (if c.kind = .holdOpen ∧ c.holder = .crew then respond p .rights [] (namingFeeder c.feeder p s)
           else done .forceRelease (gone .forced)))) ∧
    ∀ (f : Feeder) (k : ClaimKind) (h : Port) (tag : Nat), h.tagFits tag = true → (∀ c, c ∈ s.pool → c.is f k h tag = false) →
      (h = p → Takes .releaseClaim p f.byte (be1 k.code ++ be2 tag) s →
        exec (.releaseClaim p f.byte (be1 k.code ++ be2 tag)) s₀ = .next (respond p .state [] (namingFeeder f p s))) ∧
      (Takes .forceRelease p f.byte (be1 k.code ++ be1 (portCode h) ++ be2 tag) s →
        exec (.forceRelease p f.byte (be1 k.code ++ be1 (portCode h) ++ be2 tag)) s₀ = .next
          (respond p .state [] (namingFeeder f p s)))) ∧
  (∀ (p : Port) (f : Feeder) (kind holder tag : Nat) (s₀ : State), kind < 256 → holder < 256 → tag < 65536 →
    let s := listens p s₀
    let fits (h : Port) : Prop := if h = .crew then 1 ≤ tag ∧ tag ≤ 9999 else tag = 0
    (Takes .releaseClaim p f.byte (be1 kind ++ be2 tag) s → 2 ≤ kind ∨ ¬ fits p →
      exec (.releaseClaim p f.byte (be1 kind ++ be2 tag)) s₀ = .next (respond p .range [] (namingFeeder f p s))) ∧
    (Takes .forceRelease p f.byte (be1 kind ++ be1 holder ++ be2 tag) s →
      2 ≤ kind ∨ holder = 0 ∨ 4 ≤ holder ∨ (∃ h, portCode h = holder ∧ ¬ fits h) →
      exec (.forceRelease p f.byte (be1 kind ++ be1 holder ++ be2 tag)) s₀ = .next
        (respond p .range [] (namingFeeder f p s)))) ∧
  ∀ (p : Port) (f : Feeder) (s₀ : State),
    let s := listens p s₀
    let x := s.feeder f
    let a := namingFeeder f p s
    let cleared (n : SystemClaim) (c : SystemClaims) : State :=
      respond p .ok []
        (broadcast (.claimReleased f (.system n) .cleared) (a.onFeeder f fun z => { z with claims := c }))
    (Takes .clearHuntClaim p f.byte [] s →
      exec (.clearHuntClaim p f.byte []) s₀ = .next
        (if x.claims.hunt = true then cleared .hunt { x.claims with hunt := false } else respond p .state [] a)) ∧
    (Takes .clearBreakerFail p f.byte [] s →
      exec (.clearBreakerFail p f.byte []) s₀ = .next
        (if x.claims.breaker = true ∧ x.positionFault = none then cleared .breaker { x.claims with breaker := false }
         else respond p .state [] a)) ∧
    (Takes .clearStoreHold p f.byte [] s →
      exec (.clearStoreHold p f.byte []) s₀ = .next
        (if x.claims.store = true then cleared .store { x.claims with store := false } else respond p .state [] a))

/-! ### Fire danger levels -/

/-- SET_FIRE_REQUEST, SET_FLOOR and SET_BAN_LEVEL set the port's request, the floor or the ban level of their district at once, and its
target becomes the highest of its sources, a ban level that does not count leaving it as it was; the other districts, their feeders and
every other record stay. A target that changes sends FIRE_TARGET, with the district, the old and new targets, the four sources as they now
stand and whether the ban level counts, and is handed to the district's fitted feeders, whose entries follow it (R68, R74, R77), as
`targetTaken` gives; one that does not change sends nothing and reaches no feeder. The two stored levels queue a write and are withheld. A
level above L3 is RANGE (R68 to R71). In what order the feeders act, and one feeder's blocks, is the model's choice (logs 11, 46, 59). -/
def Obligations.DistrictRequestsSetTheTarget : Prop :=
  ∀ (p : Port) (d : District) (l : Level) (s₀ : State),
    let s := listens p s₀
    let x := s.districts.get d
    let others (t : State) : Prop :=
      (∀ e, e ≠ d → t.districts.get e = s.districts.get e) ∧
        (∀ f, (s.commissioning f).district ≠ d → t.feeder f = s.feeder f) ∧ t.fireBan = s.fireBan ∧ t.pool = s.pool
    let queued (r : RecordName) (code : Nat) (t : State) : Prop :=
      t.store.queue = s.store.queue ++ [{ port := p, record := r }] ∧ (t.ports.get p).state = .executing code d.number ∧
        ∀ r', r' ≠ r → heldContent t r' = heldContent s r'
    (Takes .setFireRequest p d.byte [BitVec.ofNat 8 l.number] s →
      ∃ t, exec (.setFireRequest p d.byte [BitVec.ofNat 8 l.number]) s₀ = .next t ∧
        (t.districts.get d).network = (if p = .network then l else x.network) ∧
        (t.districts.get d).panel = (if p = .panel then l else x.panel) ∧
        (t.districts.get d).target.number =
          highestSource (t.districts.get d).network (t.districts.get d).panel (s.floor d) (s.ban d) (fireBanActive s) ∧
        others t ∧ t.store = s.store ∧ answeredAt (s.ports.get p) .ok [] (t.ports.get p) ∧
        t = respond p .ok []
          (targetTaken d
            { s with
              districts := s.districts.set d
                { x with
                  network := if p = .network then l else x.network
                  panel := if p = .panel then l else x.panel } })) ∧
    (Takes .setFloor p d.byte [BitVec.ofNat 8 l.number] s →
      ∃ t, exec (.setFloor p d.byte [BitVec.ofNat 8 l.number]) s₀ = .next t ∧ t.floor d = l ∧
        (t.districts.get d).network = x.network ∧ (t.districts.get d).panel = x.panel ∧
        (t.districts.get d).target.number = highestSource x.network x.panel l (s.ban d) (fireBanActive s) ∧
        others t ∧ queued (.seasonFloor d) 0x21 t ∧
        t = withheld .setFloor p d.number (targetTaken d (queueWrite p (.seasonFloor d) (setHeld (.seasonFloor d) (.level l) s)))) ∧
    (Takes .setBanLevel p d.byte [BitVec.ofNat 8 l.number] s →
      ∃ t, exec (.setBanLevel p d.byte [BitVec.ofNat 8 l.number]) s₀ = .next t ∧ t.ban d = l ∧
        (t.districts.get d).network = x.network ∧ (t.districts.get d).panel = x.panel ∧
        (t.districts.get d).target.number =
          (if fireBanActive s = true then highestSource x.network x.panel (s.floor d) l true else x.target.number) ∧
        others t ∧ queued (.banLevel d) 0x22 t ∧
        let held := queueWrite p (.banLevel d) (setHeld (.banLevel d) (.level l) s)
        t = withheld .setBanLevel p d.number (if fireBanActive s = true then targetTaken d held else held)) ∧
    ∀ n : Byte, 4 ≤ n.toNat →
      (Takes .setFireRequest p d.byte [n] s → exec (.setFireRequest p d.byte [n]) s₀ = .next (respond p .range [] s)) ∧
      (Takes .setFloor p d.byte [n] s → exec (.setFloor p d.byte [n]) s₀ = .next (respond p .range [] s)) ∧
      (Takes .setBanLevel p d.byte [n] s → exec (.setBanLevel p d.byte [n]) s₀ = .next (respond p .range [] s))

/-- A feeder of the district follows its new target, whether SET_FIRE_REQUEST, SET_FLOOR, SET_BAN_LEVEL or a change of FIRE_BAN gave it: a
target above the applied level is applied at once, whatever the feeder does; one that falls below it is applied at once when the feeder is
quiescent and waits otherwise. A level that is applied reloads the stored group and curves, leaves nothing pending and sets the FIRE claim
by the fire block level; without a move the feeder stays as it is (R70 to R72, R74, R75, R77, R79, R80). The scan is one with every contact
steady. The entries of a move are those of `reloaded`: APPLIED_LEVEL and SETTINGS_APPLIED with cause RAISE or LOWER, then the FIRE claim's
(R74, R77); they follow the FIRE_TARGET of their district, in a request as DistrictRequestsSetTheTarget gives and at a change of FIRE_BAN
district by district (R68, R72). The new settings are handed on: an element enabled before and after keeps its state and its amount and any
other is NORMAL with 0, and the feeder reports them anew (R36, R42); a dead time whose current shot the new shot count no longer reaches
ends in LOCKOUT with cause SHOTS_REDUCED and its entries (R130); and a hunt level below the detector level is raised to it, with HUNT_STATE
(R81, R148). That a FIRE claim which the same raise places ends the dead time first, with cause CLAIM, is the model's reading (log 11); that
the entries of a dead time ended so stand before HUNT_STATE is its choice (log 59), and so is the order of the feeders and of the districts
(logs 46, 47). -/
def Obligations.FeedersFollowTheirTarget : Prop :=
  let kept (was now : Bool) (e : Element) : Element := if was = true ∧ now = true then e else { state := .normal, amount := 0 }
  let locked (cause : ArCause) (r : ArRecord) (s : State) : ArRecord :=
    { ArRecord.bare .lockout s.partTime with shotsUsed := r.shotsUsed, cause := some cause }
  (∀ (i : Instr) (f : Feeder) (x : FeederFire) (s t : State),
    let d := (s.commissioning f).district
    (∃ (p : Port) (l : Level), (i = .setFireRequest p d.byte [BitVec.ofNat 8 l.number] ∧
          Takes .setFireRequest p d.byte [BitVec.ofNat 8 l.number] s) ∨
        (i = .setFloor p d.byte [BitVec.ofNat 8 l.number] ∧ Takes .setFloor p d.byte [BitVec.ofNat 8 l.number] s) ∨
        (i = .setBanLevel p d.byte [BitVec.ofNat 8 l.number] ∧ Takes .setBanLevel p d.byte [BitVec.ofNat 8 l.number] s)) ∨
      (∃ lv : ScanLevels, i = .inputScan lv ∧ s.phase = .running ∧
        ∀ g, Steady (s.feeder g).closedContact (lv.contacts.get g).closedContact ∧
          Steady (s.feeder g).openContact (lv.contacts.get g).openContact) →
    (s.feeder f).fire = some x → FeederLevelsSound s f → exec i s = .next t →
    let old := (s.districts.get d).target
    let new := (t.districts.get d).target
    let moves := x.applied.number < new.number ∨ (new.number < old.number ∧ quiescent s f = true)
    (moves →
      (t.feeder f).fire = some { applied := new, settingsPending := false, effective := s.effectiveFor f new } ∧
        (t.feeder f).claims = { (s.feeder f).claims with fire := atFireBlock new (s.commissioning f).fireBlock } ∧
        (let g := x.effective.group
         let k := (s.effectiveFor f new).group
         let y := s.feeder f
         let reduced : Bool := y.ar.currentShot.any fun n => decide (k.shots < n)
         (t.feeder f).phaseIdmt = y.phaseIdmt ∧ (t.feeder f).highSet = kept g.highSetEnable k.highSetEnable y.highSet ∧
         (t.feeder f).earthIdmt = kept g.earthEnable k.earthEnable y.earthIdmt ∧
         (t.feeder f).sef = kept g.sefEnable k.sefEnable y.sef ∧
         (t.feeder f).ar =
           if y.ar.state ≠ .deadTime then y.ar
           else if y.claims.fire = false ∧ atFireBlock new (s.commissioning f).fireBlock = true then locked .claim y.ar s
           else if reduced = true then locked .shotsReduced y.ar s
           else y.ar)) ∧
    (¬ moves → t.feeder f = s.feeder f)) ∧
  (∀ (lv : ScanLevels) (s : State), s.phase = .running →
    (∀ g, Steady (s.feeder g).closedContact (lv.contacts.get g).closedContact ∧
      Steady (s.feeder g).openContact (lv.contacts.get g).openContact) →
    Steady s.crewKey lv.crewKey → Steady s.setProtect lv.setProtect →
    ∃ y, Scanned s.fireBan lv.fireBan y ∧
      let now : State := { s with fireBan := y }
      exec (.inputScan lv) s = .next
        (if fireBanActive now = fireBanActive s then now else targetTaken .d3 (targetTaken .d2 (targetTaken .d1 now)))) ∧
  ∀ (f : Feeder) (old : Group) (x : FeederFire) (s : State), (s.feeder f).fire = some x →
    let g := x.effective.group
    let y := s.feeder f
    let highSet := kept old.highSetEnable g.highSetEnable y.highSet
    let earthIdmt := kept old.earthEnable g.earthEnable y.earthIdmt
    let sef := kept old.sefEnable g.sefEnable y.sef
    let up (e : Element) : Bool := decide (e.state = .pickedUp ∨ e.state = .held ∨ e.state = .operated)
    let reduced := y.ar.state = .deadTime ∧ (y.ar.currentShot.any fun n => decide (g.shots < n)) = true
    let level := detectorLevel s
    handSettings f old s =
      { s with
        feeders := s.feeders.set f
          { y with
            highSet := highSet, earthIdmt := earthIdmt, sef := sef
            pickedUp := up y.phaseIdmt || up highSet || up earthIdmt || up sef
            ar := if reduced then locked .shotsReduced y.ar s else y.ar }
        hunt := s.hunt.map fun h => if h.level.number < level.number then { h with level := level } else h
        queues := said
          ((if reduced then
              [.lockout f .shotsReduced y.ar.shotsUsed {},
               .arState f .deadTime .lockout y.ar.shotsUsed none none .shotsReduced]
            else []) ++
           (match s.hunt with
            | some h =>
              if h.level.number < level.number then
                [.huntState s.detector.state s.detector.state h.state h.state level { level := some level }]
              else []
            | none => []))
          s }

/-! ### The settings store -/

/-- OPEN_EDIT meets its checks in order, and one that passes copies the record's held content into the buffer, owned by the port with a
lease of 120,000 ms; a refusal leaves the buffer, its lease renewed for its owner (R53, R54, R56).
SET_FIELD puts a value into the field of the owner's open buffer and DISCARD_EDIT frees it; a port that owns no open buffer is refused
with NO_EDIT, a field or value out of range with RANGE and SET_FIELD under the freeze with FROZEN. The lease is renewed for the owner
whatever the status, and no held record changes (R55, R56). -/
def Obligations.OwnerOpensFillsOrDiscardsTheEdit : Prop :=
  (∀ (p : Port) (payload : List Byte) (s₀ : State),
     let s := listens p s₀
     Takes .openEdit p 0#8 payload s →
    ((∀ r, namedRecord payload = some r → r.editable = false) →
      exec (.openEdit p 0#8 payload) s₀ = .next (respond p .range [] (editing p s))) ∧
    ∀ r, namedRecord payload = some r → r.editable = true →
      (∀ q, s.store.edit.owner = some q → q ≠ p →
        exec (.openEdit p 0#8 payload) s₀ = .next (respond p .held [BitVec.ofNat 8 (portCode q)] (editing p s))) ∧
      ((s.store.edit.owner = none ∨ s.store.edit.owner = some p) →
        exec (.openEdit p 0#8 payload) s₀ = .next
          (if s.store.frozen = true then respond p .frozen [] (editing p s)
           else if mayEdit s p then
             respond p .ok [] (s.onStore fun st => { st with edit := .editing p r (heldContent s r) (s.partTime + 120000) })
           else respond p .isProtected [] (editing p s)))) ∧
  ∀ (p : Port) (payload : List Byte) (s₀ : State),
    let s := listens p s₀
    ((∀ r c d, s.store.edit ≠ .editing p r c d) →
      (Takes .setField p 0#8 payload s → exec (.setField p 0#8 payload) s₀ = .next (respond p .noEdit [] s)) ∧
      (Takes .discardEdit p 0#8 [] s → exec (.discardEdit p 0#8 []) s₀ = .next (respond p .noEdit [] s))) ∧
    ∀ r c d, s.store.edit = .editing p r c d →
      let holding (x : RecordContent) : State := s.onStore fun st => { st with edit := .editing p r x (s.partTime + 120000) }
      (Takes .setField p 0#8 payload s →
        exec (.setField p 0#8 payload) s₀ = .next
          (match c.setField (numberAt payload 0 1) (numberAt payload 1 4) with
           | none => respond p .range [] (holding c)
           | some x => if s.store.frozen = true then respond p .frozen [] (holding c) else respond p .ok [] (holding x))) ∧
      (Takes .discardEdit p 0#8 [] s →
        exec (.discardEdit p 0#8 []) s₀ = .next (respond p .ok [] (s.onStore fun st => { st with edit := .free })))

/-- COMMIT_EDIT meets its checks in order, NO_EDIT of a port that owns no OPEN buffer first; one that passes makes the buffer's content the
held content, makes the buffer COMMITTING and queues the write, its response withheld. A hunt record and a group that no level applies are
handed to nobody; a group of the applied level is loaded at once when the feeder is quiescent, with a lowering that waits if one does, and
is pending otherwise; and so is a user curve, for each fitted feeder whose applied group as held names it, the others staying as they are
(R56 to R59, R77, R78). What is loaded sends SETTINGS_APPLIED with cause COMMIT, or APPLIED_LEVEL and SETTINGS_APPLIED with cause LOWER, and
what is pending sends nothing, as `commitTaken` gives (R77, R78). In what order the feeders take a user curve, and one feeder's blocks act,
is the model's choice (logs 11, 45, 59). -/
def Obligations.CommitMeetsItsChecks : Prop :=
  (∀ (p : Port) (s₀ : State),
     let s := listens p s₀
     Takes .commitEdit p 0#8 [] s → (∀ r c d, s.store.edit ≠ .editing p r c d) →
    exec (.commitEdit p 0#8 []) s₀ = .next (respond p .noEdit [] s)) ∧
  ∀ (p : Port) (r : RecordName) (c : RecordContent) (d : Nat) (s₀ : State),
    let s := listens p s₀
    Takes .commitEdit p 0#8 [] s →
    s.store.edit = .editing p r c d →
    let b := editing p s
    let go := exec (.commitEdit p 0#8 []) s₀
    let committed : State :=
      withheld .commitEdit p 0
        (queueWrite p r ((setHeld r c s).onStore fun st => { st with edit := .committing p r c }))
    (s.store.frozen = true → go = .next (respond p .frozen [] b)) ∧
    (s.store.frozen = false → ¬ mayEdit s p → go = .next (respond p .isProtected [] b)) ∧
    (s.store.frozen = false → mayEdit s p → c.consistent = false → go = .next (respond p .inconsistent [] b)) ∧
    (s.store.frozen = false → mayEdit s p → c.consistent = true →
      (∀ f, r = .commissioning f → outOfService s f = false → go = .next (respond p .state [] b)) ∧
      (∀ l, r = .hunt l → go = .next committed) ∧
      (∀ f l, r = .group f l → (∀ x, (s.feeder f).fire = some x → x.applied ≠ l) → go = .next committed) ∧
      (∀ f l g x, r = .group f l → c = .group g → (s.feeder f).fire = some x → x.applied = l → s.fitted f = true →
        let level := if loweringPending s f = true then targetLevel s f else l
        ∃ t, go = .next t ∧ t = commitTaken f committed ∧ t.store = committed.store ∧ t.ports = committed.ports ∧
          (t.feeder f).fire = some
            (if quiescent s f = true then { applied := level, settingsPending := false, effective := committed.effectiveFor f level }
             else { x with settingsPending := true }) ∧
          (loweringPending s f = false →
            committed.effectiveFor f level =
              { group := g, phaseCurve := s.breakpoints g.phase.curve, earthCurve := s.breakpoints g.earth.curve }) ∧
          (quiescent s f = false → t.queues = s.queues) ∧
          ∀ h, h ≠ f → t.feeder h = s.feeder h) ∧
      ∀ u, r = .userCurve u →
        let curve : Curve := match u with | .u1 => .u1 | .u2 => .u2
        let names (f : Feeder) : Bool :=
          match (s.feeder f).fire with
          | none => false
          | some x =>
            s.fitted f &&
              (decide ((s.group f x.applied).phase.curve = curve) || decide ((s.group f x.applied).earth.curve = curve))
        ∃ t, go = .next t ∧ t = (Feeder.all.filter names).foldl (fun a f => commitTaken f a) committed ∧
          t.store = committed.store ∧ t.ports = committed.ports ∧
          ∀ f x, (s.feeder f).fire = some x →
            let level := if loweringPending s f = true then targetLevel s f else x.applied
            (names f = false → t.feeder f = s.feeder f) ∧
            (names f = true → quiescent s f = false → (t.feeder f).fire = some { x with settingsPending := true }) ∧
            (names f = true → quiescent s f = true →
              (t.feeder f).fire = some
                { applied := level, settingsPending := false, effective := committed.effectiveFor f level }))

/-- A commissioning commit on a feeder out of service starts every block's part of the feeder afresh under the new record: the intake, the
input filter, the elements, the fire state, the claims, the switching unit and the sequencer; other feeders, their claims and the crew's and
ports' HOLD_OPEN claims stay (R7, R14, R43, R48, R82, R101, R121, R126). The entries of a commit on a sequencer that is not in DEAD_TIME
(R126): CLAIM_PLACED or CLAIM_RELEASED of MEASURE, SETTINGS_APPLIED with COMMISSION, FIRE's, HUNT_STATE of a hunt level that the detector
level raises (R148), CLAIM_RELEASED with CLEARED of each NORECLOSE port claim, HUNT's, BREAKER's and STORE's, LOCK_CHANGE with CLEARED of a
port's lock, and LOCKOUT and AR_STATE with COMMISSION, these after the claim table's. Their order among the blocks and claims is otherwise
the model's (logs 31, 51 and 52). That the sequencer's record holds the moment of the commit as its entry time is the model's reading (log
23). -/
def Obligations.CommissioningStartsTheFeeder : Prop :=
  ∀ (p : Port) (f : Feeder) (c : Commissioning) (d : Nat) (s : State), Takes .commitEdit p 0#8 [] s →
    s.store.edit = .editing p (.commissioning f) (.commissioning c) d → s.store.frozen = false → mayEdit s p →
    outOfService s f = true →
    ∃ t, exec (.commitEdit p 0#8 []) s = .next t ∧ t.commissioning f = c ∧
      t.store.edit = .committing p (.commissioning f) (.commissioning c) ∧
      t.store.queue = s.store.queue ++ [{ port := p, record := .commissioning f }] ∧
      (t.ports.get p).state = .executing 0x2A 0 ∧
      t.pool = (s.pool.filter fun k => !(decide (k.feeder = f) && decide (k.kind = .noReclose))) ∧
      (∀ g, g ≠ f → t.feeder g = s.feeder g ∧ t.commissioning g = s.commissioning g) ∧
      let x := s.feeder f
      let y := t.feeder f
      let level := (s.districts.get c.district).target
      (y.meas = .awaiting ∧ y.invalidCount = 0 ∧ y.recoveryCount = 0) ∧
      (y.closedContact = x.closedContact ∧ y.openContact = x.openContact ∧ y.positionFault = none) ∧
      (y.invalidTimer = if c.fitted = true ∧ x.position = .invalid then some (s.partTime + 20) else none) ∧
      (y.transitTimer = if c.fitted = true ∧ x.position = .transit ∧ x.inFlight = none then some (s.partTime + 2000) else none) ∧
      (y.phaseIdmt = ⟨.normal, 0⟩ ∧ y.highSet = ⟨.normal, 0⟩ ∧ y.earthIdmt = ⟨.normal, 0⟩ ∧ y.sef = ⟨.normal, 0⟩ ∧
        y.tripRecord = none ∧ y.pickedUp = false) ∧
      (y.fire =
        if c.fitted = true then some { applied := level, settingsPending := false, effective := s.effectiveFor f level } else none) ∧
      (y.claims =
        { fire := c.fitted && atFireBlock level c.fireBlock, hunt := false, measure := c.fitted, breaker := false,
          store := c.fitted && x.claims.store }) ∧
      (y.inFlight = none ∧ y.lastOp = none ∧ y.lastEnd = .unknown ∧
        y.lock = match x.lock with | .port _ _ => .free | k => k) ∧
      (y.ar =
        if c.fitted = false then ArRecord.bare .outOfService s.partTime
        else if x.closedContact.level.isSome = true ∧ x.openContact.level.isSome = true then
          (if x.position = .closed then ArRecord.bare .ready s.partTime
           else { ArRecord.bare .lockout s.partTime with cause := some .startPosition })
        else ArRecord.bare .starting s.partTime) ∧
      let huntLevel := detectorLevel t
      let rises (h : HuntRun) : Prop := c.fitted = true ∧ h.level.number < huntLevel.number
      let changed (n : SystemClaim) : List Event :=
        if x.claims.has n = y.claims.has n then []
        else if y.claims.has n = true then [.claimPlaced f (.system n)]
        else [.claimReleased f (.system n) .cleared]
      (t.hunt = s.hunt.map fun h => if rises h then { h with level := huntLevel } else h) ∧
      (x.ar.state ≠ .deadTime →
        t.queues = said
          (changed .measure ++ (if c.fitted = true then [.settingsApplied f level .commission] else []) ++ changed .fire ++
           (match s.hunt with
            | some h =>
              if rises h then
                [.huntState s.detector.state s.detector.state h.state h.state huntLevel { level := some huntLevel }]
              else []
            | none => []) ++
           (s.pool.filter fun k => decide (k.feeder = f) && decide (k.kind = .noReclose)).map
             (fun k => .claimReleased f k.info .cleared) ++
           changed .hunt ++ changed .breaker ++ changed .store ++
           (match x.lock with
            | .port q _ => [.lockChange f (.port q) .nobody .cleared]
            | _ => []) ++
           (if x.ar.state = y.ar.state then []
            else
              (if y.ar.state = .lockout then [.lockout f .startPosition 0 {}] else []) ++
                [.arState f x.ar.state y.ar.state 0 none none .commission]))
          s)

/-- FREEZE_SETTINGS sets the freeze flag and is answered OK; SET_PROTECT_MODE holds the mode at once, queues its write and is withheld,
is FROZEN under the freeze, and RANGE for a code of no mode (R51, R61). -/
def Obligations.FreezeAndProtectMode : Prop :=
  ∀ (p : Port) (n : Byte) (s₀ : State),
    let s := listens p s₀
    (Takes .freezeSettings p 0#8 [] s →
      exec (.freezeSettings p 0#8 []) s₀ = .next (respond p .ok [] (s.onStore fun st => { st with frozen := true }))) ∧
    (Takes .setProtectMode p 0#8 [n] s →
      (3 ≤ n.toNat → exec (.setProtectMode p 0#8 [n]) s₀ = .next (respond p .range [] s)) ∧
      (n.toNat < 3 → s.store.frozen = true → exec (.setProtectMode p 0#8 [n]) s₀ = .next (respond p .frozen [] s)) ∧
      ∀ m : ProtectMode, n.toNat = (match m with | .open_ => 0 | .pin => 1 | .networkOnly => 2) → s.store.frozen = false →
        exec (.setProtectMode p 0#8 [n]) s₀ = .next
          (withheld .setProtectMode p 0
            (s.onStore fun st =>
              { st with
                protectMode := { st.protectMode with held := m }
                queue := st.queue ++ [{ port := p, record := .protectMode }] })))

/-! ### The hunt's requests and deadlines -/

/-- START_HUNT is BUSY during a hunt, and STATE with the detector QUIET, the link not UP or both enables no; else, with identify enabled,
the hunt is in IDENTIFY with a new window, its cause REQUESTED and its level the detector level, and HUNT_STATE says so (R149, R150). With
identify disabled it starts at trial entry: the first candidate is tripped, when it passes its checks, and an empty list ends it NOT_FOUND
with the detector UNRESOLVED (R149, R156, R157, R164). That HUNT_STATE carries no hunt level and no Vn here is the model's choice (log
18). -/
def Obligations.StartHuntBeginsItsFirstStep : Prop :=
  ∀ (p : Port) (s₀ : State),
    let s := listens p s₀
    Takes .startHunt p 0#8 [] s →
    let set := s.huntSettings (detectorLevel s)
    let refused := s.detector.state = .quiet ∨ s.link ≠ .up ∨ (set.identifyEnable = false ∧ set.trialEnable = false)
    let fresh : HuntRun :=
      { state := .idle, cause := .requested, startTime := s.partTime, level := detectorLevel s, window := none, sums := none,
        identified := none, dropoutSeen := none, candidates := none, current := none, locked := none, op := none, deadline := none,
        tripInWatch := none, pendingSuspend := false, resume := none, pendingResult := none }
    (s.hunt.isSome = true → exec (.startHunt p 0#8 []) s₀ = .next (respond p .busy [] s)) ∧
    (s.hunt = none → refused → exec (.startHunt p 0#8 []) s₀ = .next (respond p .state [] s)) ∧
    (s.hunt = none → ¬ refused → set.identifyEnable = true →
      exec (.startHunt p 0#8 []) s₀ = .next
        (respond p .ok []
          (broadcast
            (.huntState s.detector.state s.detector.state .idle .identify (detectorLevel s) { cause := some .requested })
            { s with
              hunt := some
                { fresh with
                  state := .identify
                  window := some { length := set.identifyWindow, counted := 0, sums := .of fun _ => 0 } } }))) ∧
    (s.hunt = none → ¬ refused → set.identifyEnable = false →
      (∀ g, FirstCandidate s none g → HuntMayTrip s g → RestoreFree s g →
        ∃ t, exec (.startHunt p 0#8 []) s₀ = .next t ∧ TrialBegun s t fresh none g ∧ (∀ k, k ≠ g → t.feeder k = s.feeder k) ∧
          answeredAt (s.ports.get p) .ok [] (t.ports.get p)) ∧
      ((∀ g, ¬ MayBeTried s none g) →
        ∃ t, exec (.startHunt p 0#8 []) s₀ = .next t ∧ HuntOver s t { fresh with candidates := some [] } .notFound ∧
          answeredAt (s.ports.get p) .ok [] (t.ports.get p)))

/-- SUSPEND_HUNT and RESUME_HUNT: STATE with no hunt to suspend or resume; in IDENTIFY a suspend discards the window at once, in a later
step it is pending; a resume cancels a pending suspend. From SUSPENDED a resume goes on where the hunt stopped: a new window, or trial
entry when identify enable has become no (R165, R167), a new candidate list and the first candidate's trip (R156), or the trip of the next
candidate still NOT_TRIED (R157), when trial enable reads yes and the candidate passes its checks. That the HUNT_STATE entries carry no
hunt level is the model's choice (log 18). -/
def Obligations.SuspendAndResumeActByTheState : Prop :=
  ∀ (p : Port) (s₀ : State),
    let s := listens p s₀
    (Takes .suspendHunt p 0#8 [] s →
      (s.hunt = none → exec (.suspendHunt p 0#8 []) s₀ = .next (respond p .state [] s)) ∧
      ∀ h, s.hunt = some h → h.state ≠ .idle →
        (h.pendingResult.isSome = true → exec (.suspendHunt p 0#8 []) s₀ = .next (respond p .state [] s)) ∧
        (h.pendingResult = none → h.state = .suspended ∨ h.pendingSuspend = true →
          exec (.suspendHunt p 0#8 []) s₀ = .next (respond p .ok [] s)) ∧
        (h.pendingResult = none → h.pendingSuspend = false → h.state = .identify →
          exec (.suspendHunt p 0#8 []) s₀ = .next
            (respond p .ok []
              (broadcast
                (.huntState s.detector.state s.detector.state .identify .suspended (detectorLevel s) { resume := some .identify })
                { s with
                  hunt := some { stepEnded h with state := .suspended, pendingSuspend := false, resume := some .identify } }))) ∧
        (h.pendingResult = none → h.pendingSuspend = false → h.state ≠ .identify → h.state ≠ .suspended →
          exec (.suspendHunt p 0#8 []) s₀ = .next
            (respond p .ok [] { s with hunt := some { h with pendingSuspend := true } }))) ∧
    (Takes .resumeHunt p 0#8 [] s →
      (s.hunt = none → exec (.resumeHunt p 0#8 []) s₀ = .next (respond p .state [] s)) ∧
      ∀ h, s.hunt = some h →
        let set := s.huntSettings h.level
        (h.state ≠ .suspended →
          exec (.resumeHunt p 0#8 []) s₀ = .next
            (if h.pendingSuspend = true then respond p .ok [] { s with hunt := some { h with pendingSuspend := false } }
             else respond p .state [] s)) ∧
        (h.state = .suspended → h.resume = some .identify → set.identifyEnable = true →
          exec (.resumeHunt p 0#8 []) s₀ = .next
            (respond p .ok []
              (broadcast (.huntState s.detector.state s.detector.state .suspended .identify (detectorLevel s) {})
                { s with
                  hunt := some
                    { h with
                      state := .identify, resume := none,
                      window := some { length := set.identifyWindow, counted := 0, sums := .of fun _ => 0 } } }))) ∧
        (h.state = .suspended → h.pendingResult = none → h.pendingSuspend = false → set.trialEnable = true →
          (h.resume = some .trialEntry ∨ (h.resume = some .identify ∧ set.identifyEnable = false) →
            ∀ g, FirstCandidate s (barredFeeder h) g → HuntMayTrip s g → RestoreFree s g →
              ∃ t, exec (.resumeHunt p 0#8 []) s₀ = .next t ∧ TrialBegun s t h (barredFeeder h) g ∧
                (∀ k, k ≠ g → t.feeder k = s.feeder k) ∧ answeredAt (s.ports.get p) .ok [] (t.ports.get p)) ∧
          (h.resume = some .nextCandidate →
            ∀ j c, (h.candidates.getD [])[j]? = some c → c.outcome = .notTried →
              (∀ i e, i < j → (h.candidates.getD [])[i]? = some e → e.outcome ≠ .notTried) → HuntMayTrip s c.feeder →
              RestoreFree s c.feeder →
              ∃ t, exec (.resumeHunt p 0#8 []) s₀ = .next t ∧
                t.hunt = some
                  { h with
                    state := .trialOpen, resume := none, current := some j, locked := some c.feeder
                    op := some (huntOp s .trip c.feeder) } ∧
                OnlyFeeder s t c.feeder (huntTripping s c.feeder) ∧ t.opCounter = nextOpId s.opCounter ∧
                answeredAt (s.ports.get p) .ok [] (t.ports.get p))))

/-- ABORT_HUNT is STATE with no hunt and OK with a result pending. Else it acts by the hunt's state: in ISOLATE, TRIAL_OPEN and
TRIAL_RESTORE it makes ABORTED_REQUEST the pending result; in IDENTIFY, CONFIRM, TRIAL_WATCH and SUSPENDED the step ends, and the hunt is
over with that result once its end restores are made, a detector that is not QUIET being UNRESOLVED with its accumulation kept. An end
restore is under way when the feeder is open and no lock, operation, fault or claim bars its close: of the candidate first, and of an
identified feeder that is OPENED or MISIDENTIFIED (R163, R164, R168, R171). -/
def Obligations.AbortActsByTheState : Prop :=
  ∀ (p : Port) (s₀ : State),
    let s := listens p s₀
    Takes .abortHunt p 0#8 [] s →
    (s.hunt = none → exec (.abortHunt p 0#8 []) s₀ = .next (respond p .state [] s)) ∧
    ∀ h, s.hunt = some h → h.state ≠ .idle →
      let aborted := resulting (stepEnded h) .abortedRequest
      (h.pendingResult.isSome = true → exec (.abortHunt p 0#8 []) s₀ = .next (respond p .ok [] s)) ∧
      (h.pendingResult = none → h.state = .isolate ∨ h.state = .trialOpen ∨ h.state = .trialRestore →
        exec (.abortHunt p 0#8 []) s₀ = .next
          (respond p .ok [] { s with hunt := some { h with pendingResult := some .abortedRequest, pendingSuspend := false } })) ∧
      (h.pendingResult = none → h.state ≠ .isolate → h.state ≠ .trialOpen → h.state ≠ .trialRestore →
        (NothingToRestore h →
          ∃ t, exec (.abortHunt p 0#8 []) s₀ = .next t ∧ HuntOver s t h .abortedRequest ∧ t.pool = s.pool ∧ t.store = s.store ∧
            answeredAt (s.ports.get p) .ok [] (t.ports.get p)) ∧
        (∀ j c, h.current = some j → (h.candidates.getD [])[j]? = some c → c.outcome = .notTried →
          (s.feeder c.feeder).lock = .hunt → (s.feeder c.feeder).position = .opened → HuntMayClose s c.feeder →
          ∃ t, exec (.abortHunt p 0#8 []) s₀ = .next t ∧ RestoreBegun s t aborted c.feeder ∧
            answeredAt (s.ports.get p) .ok [] (t.ports.get p)) ∧
        (∀ i, h.current = none → h.identified = some i → i.endRestore = none → i.isolate = .misidentified ∨ i.isolate = .opened →
          s.fitted i.feeder = true → (s.feeder i.feeder).position = .opened → HuntMayClose s i.feeder →
          ∃ t, exec (.abortHunt p 0#8 []) s₀ = .next t ∧ RestoreBegun s t { aborted with locked := some i.feeder } i.feeder ∧
            answeredAt (s.ports.get p) .ok [] (t.ports.get p)))

/-- At the confirm deadline the identified feeder is MISIDENTIFIED and left open and its lock is dropped; with a suspend pending the
hunt is then SUSPENDED at trial entry (R155, R165), and without one trial entry follows at once: with trial enable yes the first candidate
of the list built there is tripped, when it passes its checks (R156, R157); with trial enable no the hunt ends NOT_FOUND, and the
identified feeder is restored first (R156, R163). At the watch deadline the hunt goes to TRIAL_RESTORE and its close of the candidate is in
flight, when no lock, operation, position, fault or claim bars it (R110, R159, R160). Before its deadline neither does anything. That a
trial entry with trial enable no leaves the candidate list as it was is the model's choice (log 53). -/
def Obligations.HuntDeadlinesAct : Prop :=
  (∀ (h : HuntRun) (d : Nat) (i : Identified) (s : State), s.phase = .running → s.hunt = some h → h.state = .confirm →
    h.deadline = some d → h.identified = some i →
    (s.partTime < d → exec .confirmExpiry s = .next s) ∧
    (d ≤ s.partTime → h.pendingResult = none → (s.feeder i.feeder).lock = .hunt → NothingPending s i.feeder →
      let open_ : FeederState := { s.feeder i.feeder with lock := .free }
      let missed : HuntRun := { h with identified := some { i with isolate := .misidentified } }
      (h.pendingSuspend = true →
        ∃ t, exec .confirmExpiry s = .next t ∧
          t.hunt = some { stepEnded missed with state := .suspended, locked := none, pendingSuspend := false, resume := some .trialEntry } ∧
          OnlyFeeder s t i.feeder open_) ∧
      (h.pendingSuspend = false → (s.huntSettings h.level).trialEnable = true →
        ∀ g, FirstCandidate s (some i.feeder) g → HuntMayTrip s g → RestoreFree s g →
          ∃ t, exec .confirmExpiry s = .next t ∧ TrialBegun s t missed (some i.feeder) g ∧ t.feeder i.feeder = open_ ∧
            ∀ k, k ≠ i.feeder → k ≠ g → t.feeder k = s.feeder k) ∧
      (h.pendingSuspend = false → (s.huntSettings h.level).trialEnable = false → h.current = none → i.endRestore = none →
        s.fitted i.feeder = true → (s.feeder i.feeder).position = .opened → HuntMayClose s i.feeder →
        ∃ t, exec .confirmExpiry s = .next t ∧ RestoreBegun s t { resulting missed .notFound with locked := some i.feeder } i.feeder))) ∧
  ∀ (h : HuntRun) (d j : Nat) (c : Candidate) (s : State), s.phase = .running → s.hunt = some h → h.state = .trialWatch →
    h.deadline = some d → h.current = some j → (h.candidates.getD [])[j]? = some c →
    (s.partTime < d → exec .trialWatchExpiry s = .next s) ∧
    (d ≤ s.partTime → (s.feeder c.feeder).lock = .hunt → HuntMayClose s c.feeder →
      ∃ t, exec .trialWatchExpiry s = .next t ∧ RestoreBegun s t h c.feeder)

/-! ### The hunt's steps -/

/-- A frame that is no dropout, at a hunt in IDENTIFY, is counted and scored: each fitted CLOSED feeder's sum grows by its residual current
when its record is valid, not saturated and FORWARD (R150). At the last frame of the window the feeder of the highest sum, the
lowest-numbered of equals, is IDENTIFIED when its sum reaches the threshold and the ratio to every other (R151): the hunt takes its lock and
its trip is in flight in ISOLATE, or joins one, or skips a feeder that is not CLOSED or whose lock a port holds, and goes to trial entry
(R153). Otherwise it goes to trial entry with s1, s2 and the feeder of s1 (R151). Each is the whole change, after what the detector has made
of the frame, with its entries: HUNT_STATE with s1, s2 and the feeder at the entry to ISOLATE, and LOCK_CHANGE. A protection trip begins the
window again (R152). HUNT_STATE at a change of hunt state, and its fields, are the model's reading (logs 12 and 18), as is that the window
open before the detector moves counts the frame (log 38). -/
def Obligations.IdentifyWindowIsJudged : Prop :=
  (∀ (h : HuntRun) (w : Window) (fr : MeasFrame) (s : State), s.hunt = some h → h.state = .identify → h.window = some w →
    (fr.busValid = false ∨ (s.huntSettings (detectorLevel s)).dropout ≤ fr.vn) →
    let set := s.huntSettings h.level
    let sums : PerFeeder Nat := .of fun f =>
      let r := fr.records.get f
      w.sums.get f +
        (if s.fitted f = true ∧ (s.feeder f).position = .closed ∧ r.valid = true ∧ r.saturated = false ∧ r.direction = .forward
         then r.residual else 0)
    let counted : Window := { w with counted := w.counted + 1, sums := sums }
    let best (f : Feeder) : Prop :=
      s.fitted f = true ∧
        ∀ g, s.fitted g = true → sums.get g ≤ sums.get f ∧ (g.number < f.number → sums.get g < sums.get f)
    let identified (f : Feeder) : Prop :=
      best f ∧ set.identifyThreshold * w.length ≤ sums.get f ∧
        ∀ g, s.fitted g = true → g ≠ f → set.identifyRatio * sums.get g ≤ 100 * sums.get f
    let second (f : Feeder) (n : Nat) : Prop :=
      (∀ g, s.fitted g = true → g ≠ f → sums.get g ≤ n) ∧ (n = 0 ∨ ∃ g, s.fitted g = true ∧ g ≠ f ∧ n = sums.get g)
    let t := huntFrame fr s
    let a := detectorFrame fr.vn fr.busValid fr.interval s
    let vn := if fr.busValid = true then some fr.vn else none
    a = { s with detector := a.detector, queues := a.queues } ∧
    (counted.counted < w.length → t = { a with hunt := some { h with window := some counted } }) ∧
    (w.length ≤ counted.counted →
      (∀ f n, identified f → second f n →
        let moved := huntMoved a .identify .isolate { sums := some (sums.get f, n, some f) }
        let isolating (o : IsolateOutcome) : HuntRun :=
          { stepEnded h with
            state := .isolate, sums := some sums, identified := some { feeder := f, isolate := o, endRestore := none }
            resume := none }
        (HuntMayTrip s f →
          t =
            { a with
              hunt := some { isolating .opened with dropoutSeen := some false, locked := some f, op := some (huntOp s .trip f) }
              feeders := s.feeders.set f (huntTripping s f)
              opCounter := nextOpId s.opCounter
              queues := said (moved ++ lockTaken s f) a }) ∧
        (∀ y, (s.feeder f).position = .closed → (s.feeder f).lock.heldByPort = false → (s.feeder f).inFlight = some y →
          y.op.kind = .trip →
          t =
            { a with
              hunt := some
                { isolating .opened with
                  dropoutSeen := some false, locked := some f, op := some { id := y.op.id, kind := .trip, feeder := f } }
              feeders := s.feeders.set f
                { s.feeder f with
                  lock := .hunt
                  inFlight := some
                    { y with
                      op :=
                        { y.op with
                          requesters :=
                            if y.op.requesters.contains .hunt then y.op.requesters else y.op.requesters ++ [.hunt] } } }
              queues := said (moved ++ lockTaken s f) a }) ∧
        ∀ o, (o = .skippedOpen ∧ (s.feeder f).position ≠ .closed) ∨
            (o = .skippedLocked ∧ (s.feeder f).position = .closed ∧ (s.feeder f).lock.heldByPort = true) →
          t = huntSettle vn ({ a with hunt := some (isolating o), queues := said moved a }, .trialEntry none none)) ∧
      ((∀ f, ¬ identified f) →
        ∃ s1 s2 first,
          t = huntSettle vn
            ({ a with hunt := some { h with window := some counted, sums := some sums } }, .trialEntry (some (s1, s2, first)) none) ∧
          (∀ f, best f → first = some f ∧ s1 = sums.get f ∧ second f s2) ∧
          ((∀ f, s.fitted f = false) → s1 = 0 ∧ s2 = 0 ∧ first = none)))) ∧
  ∀ (f : Feeder) (h : HuntRun) (s : State), s.hunt = some h → h.state = .identify →
    huntProtectionTrip f s =
      { s with
        hunt := some
          { h with
            window := some { length := (s.huntSettings h.level).identifyWindow, counted := 0, sums := .of fun _ => 0 } } }

/-- The completion of the hunt's own operation reaches it (R114): in ISOLATE by the table of R154, in TRIAL_OPEN a DONE leads to TRIAL_WATCH,
or with a result pending to TRIAL_RESTORE, and another outcome is TRIP_FAILED (R158), in TRIAL_RESTORE a DONE is HEALTHY_RESTORED and
another outcome STRANDED (R160). A found result places the HUNT claim and frees the lock (R162); each is the whole change, with its
entries. A completion that is not the hunt's changes nothing. The hunt holds the feeder's lock, and no settings change waits. The entries of
HUNT_STATE at a change of hunt state are the model's reading (logs 12 and 18). -/
def Obligations.HuntTakesItsCompletions : Prop :=
  ∀ (h : HuntRun) (op : HuntOp) (outcome : OpOutcome) (superseding : Option Origin) (s : State), s.hunt = some h → h.op = some op →
    (∀ f id kind, ¬ (op.feeder = f ∧ op.id = id ∧ op.kind = kind) →
      huntOpDone f id kind outcome superseding s = (s, .wait)) ∧
    ((s.feeder op.feeder).lock = .hunt → NothingPending s op.feeder →
      let f := op.feeder
      let x := s.feeder f
      let go := huntOpDone f op.id op.kind outcome superseding s
      let set := s.huntSettings h.level
      let freed : FeederState := { x with lock := .free }
      (h.state = .isolate → ∀ i, h.identified = some i →
        let ended (o : IsolateOutcome) : HuntRun :=
          { stepEnded h with op := none, identified := some { i with isolate := o }, locked := none }
        (outcome = .done → h.dropoutSeen = some true → x.ar.state ≠ .deadTime →
          LeadsWith s go .finish (resulting (ended .found) .foundIdentified) f
            { freed with claims := { x.claims with hunt := true } } s.opCounter
            ((if x.claims.hunt = true then [] else [.claimPlaced f (.system .hunt)]) ++ [lockDropped f])) ∧
        (outcome = .done → h.dropoutSeen ≠ some true → h.pendingResult = none →
          Leads s go .wait
            { stepEnded h with
              state := .confirm, op := none, resume := none, deadline := some (s.partTime + set.confirmTime) }
            (huntMoved s .isolate .confirm {})) ∧
        (outcome = .done → h.dropoutSeen ≠ some true → h.pendingResult ≠ none →
          Leads s go .finish { stepEnded h with op := none } []) ∧
        (outcome ≠ .done →
          let left := ended (if outcome = .already then .skippedOpen else .tripFailed)
          LeadsWith s go
            (if h.pendingResult = none ∧ h.dropoutSeen ≠ some true then .trialEntry none none else .finish)
            (if h.pendingResult = none ∧ h.dropoutSeen = some true then resulting left .clearedSpontaneous else left) f freed
            s.opCounter [lockDropped f])) ∧
      (h.state = .trialOpen → ∀ i, h.current = some i →
        (outcome = .done → h.pendingResult = none →
          Leads s go .wait
            { h with
              state := .trialWatch, op := none, resume := none, deadline := some (s.partTime + set.trialWatchTime)
              tripInWatch := some false }
            (huntMoved s .trialOpen .trialWatch {})) ∧
        (outcome = .done → h.pendingResult ≠ none → HuntMayClose s f →
          LeadsWith s go .wait { stepEnded h with state := .trialRestore, op := some (huntOp s .close f), resume := none } f
            (huntClosing s f) (nextOpId s.opCounter) (huntMoved s .trialOpen .trialRestore {})) ∧
        (outcome ≠ .done →
          LeadsWith s go .boundary { concluded h i .tripFailed with locked := none } f freed s.opCounter [lockDropped f])) ∧
      (h.state = .trialRestore →
        (∀ i, h.current = some i →
          LeadsWith s go .boundary
            { concluded h i (if outcome = .done then .healthyRestored else .stranded) with locked := none } f freed s.opCounter
            [lockDropped f]) ∧
        (∀ i, h.current = none → h.identified = some i →
          LeadsWith s go .finish
            { h with
              identified := some { i with endRestore := some (if outcome = .done then .healthyRestored else .stranded) }
              op := none, locked := none }
            f freed s.opCounter [lockDropped f])))

/-- Trial entry acts on a pending result, which ends the hunt, then on a pending suspend (R165); with trial enable no the hunt ends NOT_FOUND,
and with yes the candidates are the feeders that meet the conditions, by trial priority and number, and HUNT_STATE names them (R156). A turn
goes to the first candidate NOT_TRIED, unless a result or a suspend is pending, none remains or trial enable has become no; the first of the
three checks that fails skips it, and one that passes is tripped under the hunt's lock, or the trip in flight joined (R107, R157). That
HUNT_STATE names TRIAL_OPEN at an entry that trips no candidate is the model's choice (log 19), as is that trial enable no leaves the list
absent (log 53); its other entries are the model's reading (logs 12 and 18). -/
def Obligations.TrialTakesItsCandidates : Prop :=
  (∀ (sums : Option (Nat × Nat × Option Feeder)) (cause : Option HuntCause) (h : HuntRun) (s : State), s.hunt = some h →
    let go := trialEntry sums cause s
    let enabled := (s.huntSettings h.level).trialEnable
    (h.pendingResult ≠ none → go = (s, .finish)) ∧
    (h.pendingResult = none → h.pendingSuspend = true →
      Leads s go .wait { stepEnded h with state := .suspended, pendingSuspend := false, resume := some .trialEntry }
        (huntMoved s h.state .suspended { resume := some .trialEntry })) ∧
    (h.pendingResult = none → h.pendingSuspend = false → enabled = false →
      Leads s go .finish
        (if sums = none then resulting (stepEnded h) .notFound
         else { resulting (stepEnded h) .notFound with state := .trialOpen, resume := none })
        (if sums = none then [] else huntMoved s h.state .trialOpen { sums := sums, cause := cause })) ∧
    (h.pendingResult = none → h.pendingSuspend = false → enabled = true →
      ∃ cs, TrialList s (barredFeeder h) cs ∧
        Leads s go .boundary { stepEnded h with state := .trialOpen, candidates := some cs, resume := none }
          (huntMoved s h.state .trialOpen { sums := sums, cause := cause, candidates := some cs }))) ∧
  ∀ (h : HuntRun) (s : State), s.hunt = some h →
    let go := nextCandidate s
    let listed := h.candidates.getD []
    let enabled := (s.huntSettings h.level).trialEnable
    (h.pendingResult ≠ none → go = (s, .finish)) ∧
    (h.pendingResult = none → (∀ c, c ∈ listed → c.outcome ≠ .notTried) → Leads s go .finish (resulting h .notFound) []) ∧
    ∀ i c, h.pendingResult = none → listed[i]? = some c → c.outcome = .notTried →
      (∀ j e, j < i → listed[j]? = some e → e.outcome ≠ .notTried) →
      let f := c.feeder
      let x := s.feeder f
      let tripping (id : Nat) : HuntRun :=
        { h with
          state := .trialOpen, current := some i, resume := none, locked := some f
          op := some { id := id, kind := .trip, feeder := f } }
      (h.pendingSuspend = true →
        Leads s go .wait { stepEnded h with state := .suspended, pendingSuspend := false, resume := some .nextCandidate }
          (huntMoved s h.state .suspended { resume := some .nextCandidate })) ∧
      (h.pendingSuspend = false → enabled = false → Leads s go .finish (resulting h .notFound) []) ∧
      (h.pendingSuspend = false → enabled = true →
        (x.lock.heldByPort = true → Leads s go .boundary (concluded h i .skippedLocked) []) ∧
        (x.lock.heldByPort = false → s.fitted f = false ∨ x.position ≠ .closed →
          Leads s go .boundary (concluded h i .skippedOpen) []) ∧
        (x.lock.heldByPort = false → s.fitted f = true → x.position = .closed → ¬ RestoreFree s f →
          Leads s go .boundary (concluded h i .skippedBlocked) []) ∧
        (HuntMayTrip s f → RestoreFree s f →
          LeadsWith s go .wait (tripping s.opCounter) f (huntTripping s f) (nextOpId s.opCounter)
            (huntMoved s h.state .trialOpen {} ++ lockTaken s f)) ∧
        (∀ y, x.lock.heldByPort = false → s.fitted f = true → x.position = .closed → RestoreFree s f → x.inFlight = some y →
          y.op.kind = .trip →
          LeadsWith s go .wait (tripping y.op.id) f
            { x with
              lock := .hunt
              inFlight := some
                { y with
                  op :=
                    { y.op with
                      requesters :=
                        if y.op.requesters.contains .hunt then y.op.requesters else y.op.requesters ++ [.hunt] } } }
            s.opCounter (huntMoved s h.state .trialOpen {} ++ lockTaken s f)))

/-- A dropout of the detector reaches the hunt, at the frame's Vn and after the detector is QUIET with nothing accumulated (R146), and acts by
its state: in IDENTIFY and SUSPENDED it ends the hunt CLEARED_SPONTANEOUS (R150, R166), in ISOLATE it is seen (R154), in CONFIRM it finds
the identified feeder while that is OPEN, and else clears (R155), in TRIAL_OPEN and TRIAL_RESTORE it is the pending result unless there is
one (R158, R161), and in TRIAL_WATCH it is attributed by the candidate's position and the protection trips in the watch (R159). A found
feeder gets its HUNT claim and its lock is freed (R162). Each is the whole change, with its entries, of which HUNT_STATE at a change of hunt
state, and its fields, are the model's reading (logs 12 and 18), as is that a candidate whose position is not OPEN gets no close (log 14). -/
def Obligations.DropoutActsByTheStep : Prop :=
  (∀ (vn interval : Nat) (s : State), s.detector.state ≠ .quiet → vn < (s.huntSettings (detectorLevel s)).dropout →
    detectorFrame vn true interval s =
      huntSettle (some vn) (huntDropout
        { s with
          detector := { state := .quiet, amount := 0 }
          queues := said
            (if s.detector.state = .timing then []
             else [.huntState s.detector.state .quiet (huntState s) (huntState s) (detectorLevel s) { vn := some vn }]) s })) ∧
  (∀ (h : HuntRun) (s : State), s.hunt = some h →
    let go := huntDropout s
    let cleared := resulting (stepEnded h) .clearedSpontaneous
    let claimed (f : Feeder) : FeederState :=
      { s.feeder f with lock := .free, claims := { (s.feeder f).claims with hunt := true } }
    let foundSaid (f : Feeder) : List Event :=
      (if (s.feeder f).claims.hunt = true then [] else [.claimPlaced f (.system .hunt)]) ++ [lockDropped f]
    (h.state = .identify → Leads s go .finish cleared []) ∧
    (h.state = .suspended → Leads s go .finish (resulting h .clearedSpontaneous) []) ∧
    (h.state = .isolate → Leads s go .wait { h with dropoutSeen := some true } []) ∧
    (h.state = .trialOpen ∨ h.state = .trialRestore →
      Leads s go .wait (if h.pendingResult = none then resulting h .clearedSpontaneous else h) []) ∧
    (h.state = .confirm → ∀ i, h.identified = some i → (s.feeder i.feeder).lock = .hunt → NothingPending s i.feeder →
      ((s.feeder i.feeder).position = .opened → (s.feeder i.feeder).ar.state ≠ .deadTime →
        LeadsWith s go .finish
          { resulting (stepEnded h) .foundIdentified with identified := some { i with isolate := .found }, locked := none }
          i.feeder (claimed i.feeder) s.opCounter (foundSaid i.feeder)) ∧
      ((s.feeder i.feeder).position ≠ .opened →
        LeadsWith s go .finish { cleared with identified := some { i with isolate := .notOpen }, locked := none } i.feeder
          { s.feeder i.feeder with lock := .free } s.opCounter [lockDropped i.feeder])) ∧
    (h.state = .trialWatch → ∀ i c, h.current = some i → (h.candidates.getD [])[i]? = some c →
      ((s.feeder c.feeder).position ≠ .opened →
        Leads s go .finish { cleared with state := .trialRestore, resume := none } (huntMoved s .trialWatch .trialRestore {})) ∧
      ((s.feeder c.feeder).position = .opened → h.tripInWatch = some true →
        Leads s go .finish (resulting (stepEnded h) .clearedByProtection) []) ∧
      ((s.feeder c.feeder).position = .opened → h.tripInWatch ≠ some true → (s.feeder c.feeder).lock = .hunt →
        NothingPending s c.feeder → (s.feeder c.feeder).ar.state ≠ .deadTime →
        LeadsWith s go .finish
          { resulting (stepEnded (outcomeAt h i .found)) .foundByTrial with current := none, locked := none } c.feeder
          (claimed c.feeder) s.opCounter (foundSaid c.feeder)))) ∧
  ∀ (f : Feeder) (h : HuntRun) (i : Nat) (c : Candidate) (s : State), s.hunt = some h → h.state = .trialWatch → h.current = some i →
    (h.candidates.getD [])[i]? = some c →
    huntProtectionTrip f s = if f = c.feeder then s else { s with hunt := some { h with tripInWatch := some true } }

/-- A hunt with a pending result makes its end restores one at a time before it ends, FOUND_IDENTIFIED none: of the current candidate first,
then of the identified feeder that is OPENED or MISIDENTIFIED, each by its position, the lock and the restore rule (R160, R163). With none
left to make the hunt is IDLE: the last hunt record is written, HUNT_STATE and HUNT_RESULT go, and a detector that is not QUIET is
UNRESOLVED after NOT_FOUND and both aborts, also when it was UNRESOLVED before, with HUNT_STATE; after another result a DETECTED one starts
a new hunt when an enable reads yes (R147, R164, R171). The model's reading: the Vn and the hunt level that the entries carry (log 18),
the entries at a change of hunt state (log 12), and one for TRIAL_RESTORE where the next turn follows at once (log 49). -/
def Obligations.HuntEndsWithItsRestores : Prop :=
  ∀ (vn : Option Nat) (h : HuntRun) (res : HuntResult) (s : State), s.hunt = some h → h.pendingResult = some res →
    let go := finishHunt vn s
    let restoring (f : Feeder) : HuntRun :=
      { stepEnded h with state := .trialRestore, op := some (huntOp s .close f), resume := none }
    (res ≠ .foundIdentified → ∀ i c, h.current = some i → (h.candidates.getD [])[i]? = some c → c.outcome = .notTried →
      (s.feeder c.feeder).lock = .hunt →
      let f := c.feeder
      let freed : FeederState := { s.feeder f with lock := .free }
      ((s.feeder f).position = .opened → HuntMayClose s f →
        LeadsWith s go .wait (restoring f) f (huntClosing s f) (nextOpId s.opCounter) (huntMoved s h.state .trialRestore {})) ∧
      ((s.feeder f).position = .opened → (s.feeder f).inFlight = none → (s.feeder f).positionFault ≠ none ∨ ¬ RestoreFree s f →
        NothingPending s f →
        LeadsWith s go .boundary
          { concluded (stepEnded h) i .stranded with state := .trialRestore, resume := none, locked := none } f freed s.opCounter
          (huntMoved s h.state .trialRestore {} ++ [lockDropped f])) ∧
      ((s.feeder f).position ≠ .opened → NothingPending s f →
        LeadsWith s go .finish
          { concluded h i (if (s.feeder f).position = .closed then .healthyRestored else .stranded) with locked := none } f freed
          s.opCounter [lockDropped f])) ∧
    (res ≠ .foundIdentified → ∀ i, h.current = none → h.identified = some i → i.endRestore = none →
      i.isolate = .misidentified ∨ i.isolate = .opened →
      let f := i.feeder
      let apart := s.fitted f = false ∨ (s.feeder f).lock.heldByPort = true
      let judged : HuntRun :=
        { h with
          identified := some
            { i with
              endRestore := some (if ¬ apart ∧ (s.feeder f).position = .closed then .notNeeded else .stranded) } }
      (apart ∨ (s.feeder f).position ≠ .opened →
        ((s.feeder f).lock ≠ .hunt → Leads s go .finish judged []) ∧
        ((s.feeder f).lock = .hunt → NothingPending s f →
          LeadsWith s go .finish { judged with locked := none } f { s.feeder f with lock := .free } s.opCounter
            [lockDropped f])) ∧
      (¬ apart → (s.feeder f).position = .opened → HuntMayClose s f →
        LeadsWith s go .wait { restoring f with locked := some f } f (huntClosing s f) (nextOpId s.opCounter)
          (lockTaken s f ++ huntMoved s h.state .trialRestore {}))) ∧
    (res = .foundIdentified ∨ NothingToRestore h →
      let report : HuntReport :=
        { endedHunt s h res with
          found :=
            match res with
            | .foundIdentified => h.identified.map fun i => i.feeder
            | .foundByTrial => ((h.candidates.getD []).find? fun c => decide (c.outcome = .found)).map fun c => c.feeder
            | _ => none }
      let idle : State :=
        { s with
          hunt := none, lastHunt := some report
          queues := said
            [.huntState s.detector.state s.detector.state h.state .idle (detectorLevel s) {}, .huntResult report] s }
      let set := s.huntSettings (detectorLevel s)
      let again := s.detector.state = .detected ∧ (set.identifyEnable = true ∨ set.trialEnable = true)
      if res = .notFound ∨ res = .abortedRequest ∨ res = .abortedLink then
        go =
          (if s.detector.state = .quiet then idle
           else
            { idle with
              detector := { s.detector with state := .unresolved }
              queues := said [.huntState s.detector.state .unresolved .idle .idle (detectorLevel s) { vn := vn }] idle },
           .wait)
      else
        (¬ again → go = (idle, .wait)) ∧
        (again → set.identifyEnable = false → go = ({ idle with hunt := some (newHunt .detected s) }, .trialEntry none (some .detected))) ∧
        (again → set.identifyEnable = true →
          go =
            ({ idle with
                hunt := some
                  { newHunt .detected s with
                    state := .identify, window := some { length := set.identifyWindow, counted := 0, sums := .of fun _ => 0 } }
                queues := said
                  [.huntState .detected .detected .idle .identify (detectorLevel s) { cause := some .detected }] idle },
             .wait)))

/-! ### The protection elements -/

/-- An evaluated record moves the elements by their tables: an inverse-time element gathers its increment at or above pickup, is HELD in the
band below it and resets below dropout or from the band, and a definite-time element gathers the interval; each is OPERATED at full scale or
at its delay (R18, R20 to R24, R27, R28, R31 to R35). Of a feeder each element moves once, by the group's settings of its own and the
largest phase current or the residual current, a disabled one staying NORMAL with 0 (R18, R19), and a record in a measurement state other
than VALID moves nothing (R5, R20). An accepted frame leaves the elements of each fitted feeder that is VALID after its record as the tables
give of that record and the clamped interval, with the report of whether any is picked up, and those of every other fitted feeder as they
were, when no settings change of the feeder waits (R3, R5, R20, R42). At a record at which no element enters OPERATED, a feeder's elements
and report are all that changes, but for what the judgement then applies (R42, R76); one at which an element does leaves them too (what else
it leaves is OperatedElementsTrip). A curve's time is its breakpoint's at each breakpoint, its first before them and its last beyond, and
never grows with the multiple; at 45 sixteenths curve A gives 5,969 ms and curve C 7,282 ms, as the manual works out (R26, R29). -/
def Obligations.ElementsMoveByTheirTables : Prop :=
  (∀ (set : IdmtSettings) (curve : List Breakpoint) (current interval : Nat) (e : Element),
    let opTime := max (max (curveTime curve (min 640 (16 * current / set.pickup)) * set.tms / 100) set.minTime) 10
    let gathered := e.amount + max 1 (interval * 1000 / opTime)
    let reset : Element :=
      { state := .normal,
        amount := match set.resetMode with
          | .instant => 0
          | .timed => e.amount - max 1 (interval * 1000 / set.resetTime) }
    idmtMove set curve current interval e =
      if set.pickup ≤ current then
        (if e.state = .operated then e
         else if 1000000 ≤ gathered then ⟨.operated, 1000000⟩ else ⟨.pickedUp, gathered⟩)
      else if 100 * current < 95 * set.pickup then reset
      else
        match e.state with
        | .normal => reset
        | .pickedUp => ⟨.held, e.amount⟩
        | .held => e
        | .operated => e) ∧
  (∀ (pickup delay current interval : Nat) (e : Element),
    highSetMove pickup delay current interval e =
      if current < pickup then ⟨.normal, 0⟩
      else if e.state = .operated then e
      else if delay * 1000 ≤ e.amount + interval then ⟨.operated, e.amount + interval⟩ else ⟨.pickedUp, e.amount + interval⟩) ∧
  (∀ (g : Group) (r : FeederRecord) (interval : Nat) (e : Element),
    let reverse := g.sefDirectional = true ∧ r.direction ≠ .forward
    sefMove g.sefDelay interval (sefRegion g r) e =
      if reverse ∨ 100 * r.residual < 90 * g.sefPickup then ⟨.normal, 0⟩
      else if g.sefPickup ≤ r.residual then
        (if e.state = .operated then e
         else if g.sefDelay * 1000 ≤ e.amount + interval then ⟨.operated, e.amount + interval⟩
         else ⟨.pickedUp, e.amount + interval⟩)
      else
        match e.state with
        | .normal => ⟨.normal, 0⟩
        | .pickedUp => ⟨.held, e.amount⟩
        | .held => e
        | .operated => e) ∧
  (∀ (eff : Effective) (interval : Nat) (r : FeederRecord) (x : FeederState),
    let g := eff.group
    let phase := max (max r.ia r.ib) r.ic
    moveElements eff interval r x =
      { x with
        phaseIdmt := idmtMove g.phase eff.phaseCurve phase interval x.phaseIdmt
        highSet :=
          if g.highSetEnable = true then highSetMove g.highSetPickup g.highSetDelay phase interval x.highSet else ⟨.normal, 0⟩
        earthIdmt := if g.earthEnable = true then idmtMove g.earth eff.earthCurve r.residual interval x.earthIdmt else ⟨.normal, 0⟩
        sef := if g.sefEnable = true then sefMove g.sefDelay interval (sefRegion g r) x.sef else ⟨.normal, 0⟩ }) ∧
  (∀ (vn : Option Nat) (f : Feeder) (interval : Nat) (r : FeederRecord) (s : State), (s.feeder f).meas ≠ .valid →
    reachElements vn f interval r s = s) ∧
  (∀ (vn : Option Nat) (f : Feeder) (interval : Nat) (r : FeederRecord) (fire : FeederFire) (s : State),
    (s.feeder f).meas = .valid → (s.feeder f).fire = some fire →
    let y := moveElements fire.effective interval r (s.feeder f)
    let moved : State := { s with feeders := s.feeders.set f { y with pickedUp := somePickedUp y } }
    let t := reachElements vn f interval r s
    let operates := ∃ n, ((s.feeder f).element n).state ≠ .operated ∧ (y.element n).state = .operated
    (operates → SameElements (t.feeder f) y ∧ (t.feeder f).pickedUp = true) ∧
    (¬ operates →
      t =
        if quiescent moved f = true ∧ (targetLevel s f).number < fire.applied.number then reloaded f (targetLevel s f) .lower moved
        else if quiescent moved f = true ∧ fire.settingsPending = true then reloaded f fire.applied .commit moved
        else moved)) ∧
  (∀ (bs : List Byte) (f : Feeder) (fire : FeederFire) (s : State), Accepted bs s → s.fitted f = true →
    (s.feeder f).fire = some fire → NothingPending s f →
    let y := moveElements fire.effective (frameAt bs).interval (recordAt bs f) (s.feeder f)
    ∃ t, exec (.measurementFrame bs) s = .next t ∧
      (Evaluated (s.feeder f) (recordAt bs f) →
        (t.feeder f).meas = .valid ∧ SameElements (t.feeder f) y ∧ (t.feeder f).pickedUp = somePickedUp y) ∧
      (¬ Evaluated (s.feeder f) (recordAt bs f) →
        (t.feeder f).meas ≠ .valid ∧ SameElements (t.feeder f) (s.feeder f) ∧ (t.feeder f).pickedUp = (s.feeder f).pickedUp)) ∧
  (∀ (curve : List Breakpoint), curveAscends curve = true →
    (∀ b, b ∈ curve → curveTime curve b.m = b.t) ∧
    (∀ m n, m ≤ n → curveTime curve n ≤ curveTime curve m) ∧
    (∀ b m, curve.head? = some b → m ≤ b.m → curveTime curve m = b.t) ∧
    (∀ b m, curve.getLast? = some b → b.m ≤ m → curveTime curve m = b.t)) ∧
  curveTime curveA 45 = 5969 ∧ curveTime curveC 45 = 7282

/-- When elements of a feeder enter OPERATED, the trip record is written with the record's currents, the applied level, the shots used and
the permit of the elements, TRIP goes to the queues with that record, ahead of every entry of the request, and a PROTECTION trip with that
permit is asked for (R37, R38, R40). With nothing in flight it is a new trip, or ALREADY at once when the breaker is open (R106). It joins a
trip in flight: PROTECTION is listed, the permit is its own when the trip had none, else yes only when both are, and the trip's id, origin,
start and deadline stay (R41, R107). A close in flight it supersedes: the new trip is in flight, the close is the last operation,
SUPERSEDED, with OP_DONE to its ports, and a sequencer in CLOSING under it holds no op id (R108, R114, R132). TRIP is the one entry of the
others. A close of the hunt's own is superseded in the same way, and the hunt is told of it; what the hunt then does is
HuntTakesItsCompletions, so what the frame leaves of the operation and the entries is given for the other closes; the elements, their report
(R42) and the trip record stand in every case. -/
def Obligations.OperatedElementsTrip : Prop :=
  let next (s : State) : Nat := if s.opCounter = 65535 then 1 else s.opCounter + 1
  let trip (f : Feeder) (permitted : Bool) (s : State) : InFlight :=
    { op := { id := s.opCounter, kind := .trip, origin := .protection, requesters := [.protection], permit := some permitted,
              started := s.partTime },
      deadline := s.partTime + (s.commissioning f).tripConfirm }
  let joined (permitted : Bool) (o : InFlight) : InFlight :=
    { o with
      op :=
        { o.op with
          requesters := if .protection ∈ o.op.requesters then o.op.requesters else o.op.requesters ++ [.protection]
          permit := match o.op.permit with
            | none => some permitted
            | some held => some (held && permitted) } }
  let withoutClose (id : Nat) (r : ArRecord) : ArRecord :=
    if r.state = .closing ∧ r.closeOp = some id then { r with closeOp := none } else r
  (∀ (vn : Option Nat) (f : Feeder) (interval : Nat) (r : FeederRecord) (fire : FeederFire) (s : State),
    (s.feeder f).meas = .valid → (s.feeder f).fire = some fire →
    let y := moveElements fire.effective interval r (s.feeder f)
    let entered := [ElementName.phaseIdmt, .highSet, .earthIdmt, .sef].filter fun n =>
      decide (((s.feeder f).element n).state ≠ .operated ∧ (y.element n).state = .operated)
    let permitted := entered.all fire.effective.group.permit
    let t := reachElements vn f interval r s
    let record : TripRecord :=
      { elements := entered, ia := r.ia, ib := r.ib, ic := r.ic, residual := r.residual, level := fire.applied,
        shot := (s.feeder f).ar.shotsUsed, permitted := permitted, time := s.partTime }
    entered ≠ [] → (∀ p, (said [.trip f record] s).get p <+: t.queues.get p) ∧
      (t.feeder f).tripRecord = some record ∧ SameElements (t.feeder f) y ∧ (t.feeder f).pickedUp = true ∧
      ((∀ o, (s.feeder f).inFlight = some o → o.op.kind = .close → .hunt ∉ o.op.requesters) →
      ((∀ o, (s.feeder f).inFlight = some o → o.op.kind = .trip) → t.queues = said [.trip f record] s) ∧
      (∀ g, g ≠ f → t.feeder g = s.feeder g) ∧
      ((s.feeder f).inFlight = none → (s.feeder f).position ≠ .opened →
        (t.feeder f).inFlight = some (trip f permitted s) ∧ (t.feeder f).lastOp = (s.feeder f).lastOp ∧ t.opCounter = next s) ∧
      ((s.feeder f).inFlight = none → (s.feeder f).position = .opened →
        (t.feeder f).inFlight = none ∧
          (t.feeder f).lastOp = some { op := (trip f permitted s).op, outcome := .already, completed := s.partTime } ∧
          t.opCounter = next s) ∧
      (∀ o, (s.feeder f).inFlight = some o → o.op.kind = .trip →
        (t.feeder f).inFlight = some (joined permitted o) ∧ (t.feeder f).lastOp = (s.feeder f).lastOp ∧ t.opCounter = s.opCounter) ∧
      ∀ o, (s.feeder f).inFlight = some o → o.op.kind = .close →
        (t.feeder f).inFlight = some (trip f permitted s) ∧
          (t.feeder f).lastOp = some { op := o.op, outcome := .superseded, completed := s.partTime } ∧ t.opCounter = next s ∧
          t.queues =
            (sendOpDone f { op := o.op, outcome := .superseded, completed := s.partTime } (some (s.opCounter, .protection))
              (broadcast (.trip f record) s)).queues ∧
          (t.feeder f).ar =
            if o.op.origin = .reclose then withoutClose o.op.id (s.feeder f).ar else (s.feeder f).ar)) ∧
  ∀ (f : Feeder) (permitted : Bool) (o : InFlight) (s : State), (s.feeder f).inFlight = some o →
    let x := requestTrip f .protection (some permitted) s
    (o.op.kind = .trip →
      x = ({ s with feeders := s.feeders.set f { s.feeder f with inFlight := some (joined permitted o) } }, .joined o.op.id, [])) ∧
    (o.op.kind = .close →
      (x.1.feeder f).inFlight = some (trip f permitted s) ∧
        (x.1.feeder f).lastOp = some { op := o.op, outcome := .superseded, completed := s.partTime } ∧
        x.2 = (.admitted s.opCounter,
          if .hunt ∈ o.op.requesters then [.opDone f o.op.id .close .superseded (some .protection)] else []))

/-! ### Headlines -/

/-- The bytes of a request's frame spell the request, whatever follows them in the transfer; any part of the frame that ends before its
last byte is a frame ended early; and a frame whose code names no request is UNKNOWN (R175, R181, R194). -/
def Obligations.TransferSpellsItsRequest : Prop :=
  (∀ (p : Port) (q : Request) (target : Byte) (payload extra : List Byte), payload.length ≤ 64 →
    decodeTransfer p (encodeRequest q target payload ++ extra) = some (q.command p target payload) ∧
    ∀ n, 0 < n → n < (encodeRequest q target payload).length →
      decodeTransfer p ((encodeRequest q target payload).take n) = some (.frameEndedEarly p)) ∧
  ∀ (p : Port) (code target : Byte) (payload extra : List Byte), payload.length ≤ 64 → Request.ofCode code.toNat = none →
    decodeTransfer p (frameOf code.toNat target payload ++ extra) = some (.unknownRequest p)

/-- Every step keeps the queues at 32 entries or fewer, the pool at 32 claims or fewer and no two of one identity, the op id counter an op
id, and the store's buffer and write of the kind of their records (R62, R86, R105, R197). -/
def Obligations.StepKeepsTheBounds : Prop :=
  ∀ s t : State, QueuesBounded s ∧ PoolSound s ∧ OpIdSound s ∧ StoreFits s.store → step s = .next t →
    QueuesBounded t ∧ PoolSound t ∧ OpIdSound t ∧ StoreFits t.store

/-- Every step keeps every district's target the highest of its sources and every fitted feeder's applied level at or above its target
(R68, R73), while the edit buffer names no record that OPEN_EDIT bars, which every step keeps too (R53). -/
def Obligations.StepKeepsTheLevels : Prop :=
  ∀ s t : State, LevelsSound s → EditEditable s.store.edit → step s = .next t → LevelsSound t ∧ EditEditable t.store.edit

/-- Whenever a fitted feeder is quiescent, its applied level is its target level and its effective settings are the stored ones: every
step keeps it (R77). -/
def Obligations.StepKeepsQuiescence : Prop :=
  ∀ s t : State, LevelsSound s → QuiescentSound s → step s = .next t → QuiescentSound t

/-- While settings are frozen no command but a start-up clears the freeze, and no held record of the edit buffer and no protect mode
changes (R61). -/
def Obligations.FreezeHoldsTheSettings : Prop :=
  ∀ (i : Instr) (s t : State), s.store.frozen = true → isStartUp i = false → exec i s = .next t →
    t.store.frozen = true ∧ heldSettings t.store = heldSettings s.store

/-- A crew HOLD_OPEN claim leaves the pool by nothing but a crew RELEASE_CLAIM that names its feeder, kind and tag, or a start-up
(R89, R90, R92). -/
def Obligations.CrewHoldIsReleasedByItsCrew : Prop :=
  ∀ (i : Instr) (c : PortClaim) (s t : State), c ∈ s.pool → c.kind = .holdOpen → c.holder = .crew →
    isStartUp i = false → exec i s = .next t →
    (∃ d, d ∈ t.pool ∧ SameClaim c d) ∨
      ∃ target payload, i = .releaseClaim .crew target payload ∧ Feeder.ofNumber target.toNat = some c.feeder ∧
        numberAt payload 0 1 = 1 ∧ numberAt payload 1 2 = c.tag

/-- No command starts a close on a feeder whose block set holds a HOLD_OPEN claim: a close in flight after it is the one that was in
flight before (R110). -/
def Obligations.NoCloseAgainstAHold : Prop :=
  ∀ (i : Instr) (f : Feeder) (s t : State),
    (s.feeder f).claims.store = true ∨ (∃ c, c ∈ s.pool ∧ c.feeder = f ∧ c.kind = .holdOpen) → exec i s = .next t →
    closeOutput t f = true → (t.feeder f).inFlight = (s.feeder f).inFlight

/-- With no hunt in progress, a feeder's deadlines and the requests that name a feeder touch no other feeder's state and no claim on it
(R104, R123, R174). -/
def Obligations.FeederCommandsTouchOneFeeder : Prop :=
  ∀ (i : Instr) (f g : Feeder) (s t : State), s.hunt = none → feederOf i = some f → g ≠ f → exec i s = .next t →
    t.feeder g = s.feeder g ∧ portClaims t g = portClaims s g ∧ t.hunt = none ∧ t.districts = s.districts
end

