-- ==== Sys2Proof/Laws/State.lean ====
section
/-! SUPPORT. What each update of the state leaves in each field, and what the containers hold after one value is replaced. -/
namespace Sys2Proof

/-! ### Containers -/

@[simp] theorem PerFeeder.get_set_self {α : Type} (x : PerFeeder α) (k : Feeder) (v : α) : (x.set k v).get k = v := by
  cases k <;> rfl

@[simp] theorem PerFeeder.get_set_of_ne {α : Type} (x : PerFeeder α) {k j : Feeder} (h : j ≠ k) (v : α) : (x.set k v).get j = x.get j := by
  cases k <;> cases j <;> first | rfl | exact absurd rfl h

theorem PerFeeder.get_set {α : Type} (x : PerFeeder α) (k j : Feeder) (v : α) :
    (x.set k v).get j = if j = k then v else x.get j := by
  by_cases h : j = k
  · subst h; simp
  · simp [h]

@[simp] theorem PerFeeder.set_set {α : Type} (x : PerFeeder α) (k : Feeder) (v w : α) : (x.set k v).set k w = x.set k w := by
  cases k <;> rfl

@[simp] theorem PerFeeder.set_get {α : Type} (x : PerFeeder α) (k : Feeder) : x.set k (x.get k) = x := by
  cases k <;> rfl

@[simp] theorem PerFeeder.get_of {α : Type} (g : Feeder → α) (k : Feeder) : (PerFeeder.of g).get k = g k := by
  cases k <;> rfl

@[simp] theorem PerDistrict.get_set_self {α : Type} (x : PerDistrict α) (k : District) (v : α) : (x.set k v).get k = v := by
  cases k <;> rfl

@[simp] theorem PerDistrict.get_set_of_ne {α : Type} (x : PerDistrict α) {k j : District} (h : j ≠ k) (v : α) : (x.set k v).get j = x.get j := by
  cases k <;> cases j <;> first | rfl | exact absurd rfl h

theorem PerDistrict.get_set {α : Type} (x : PerDistrict α) (k j : District) (v : α) :
    (x.set k v).get j = if j = k then v else x.get j := by
  by_cases h : j = k
  · subst h; simp
  · simp [h]

@[simp] theorem PerDistrict.set_set {α : Type} (x : PerDistrict α) (k : District) (v w : α) : (x.set k v).set k w = x.set k w := by
  cases k <;> rfl

@[simp] theorem PerDistrict.set_get {α : Type} (x : PerDistrict α) (k : District) : x.set k (x.get k) = x := by
  cases k <;> rfl

@[simp] theorem PerDistrict.get_of {α : Type} (g : District → α) (k : District) : (PerDistrict.of g).get k = g k := by
  cases k <;> rfl

@[simp] theorem PerLevel.get_set_self {α : Type} (x : PerLevel α) (k : Level) (v : α) : (x.set k v).get k = v := by
  cases k <;> rfl

@[simp] theorem PerLevel.get_set_of_ne {α : Type} (x : PerLevel α) {k j : Level} (h : j ≠ k) (v : α) : (x.set k v).get j = x.get j := by
  cases k <;> cases j <;> first | rfl | exact absurd rfl h

theorem PerLevel.get_set {α : Type} (x : PerLevel α) (k j : Level) (v : α) :
    (x.set k v).get j = if j = k then v else x.get j := by
  by_cases h : j = k
  · subst h; simp
  · simp [h]

@[simp] theorem PerLevel.set_set {α : Type} (x : PerLevel α) (k : Level) (v w : α) : (x.set k v).set k w = x.set k w := by
  cases k <;> rfl

@[simp] theorem PerLevel.set_get {α : Type} (x : PerLevel α) (k : Level) : x.set k (x.get k) = x := by
  cases k <;> rfl

@[simp] theorem PerLevel.get_of {α : Type} (g : Level → α) (k : Level) : (PerLevel.of g).get k = g k := by
  cases k <;> rfl

@[simp] theorem PerPort.get_set_self {α : Type} (x : PerPort α) (k : Port) (v : α) : (x.set k v).get k = v := by
  cases k <;> rfl

@[simp] theorem PerPort.get_set_of_ne {α : Type} (x : PerPort α) {k j : Port} (h : j ≠ k) (v : α) : (x.set k v).get j = x.get j := by
  cases k <;> cases j <;> first | rfl | exact absurd rfl h

theorem PerPort.get_set {α : Type} (x : PerPort α) (k j : Port) (v : α) :
    (x.set k v).get j = if j = k then v else x.get j := by
  by_cases h : j = k
  · subst h; simp
  · simp [h]

@[simp] theorem PerPort.set_set {α : Type} (x : PerPort α) (k : Port) (v w : α) : (x.set k v).set k w = x.set k w := by
  cases k <;> rfl

@[simp] theorem PerPort.set_get {α : Type} (x : PerPort α) (k : Port) : x.set k (x.get k) = x := by
  cases k <;> rfl

@[simp] theorem PerPort.get_of {α : Type} (g : Port → α) (k : Port) : (PerPort.of g).get k = g k := by
  cases k <;> rfl

namespace Machine

/-! ### Fields after an update -/

@[simp] theorem State.onFeeder_pending (s : State) (f : Feeder) (g : FeederState → FeederState) : (s.onFeeder f g).pending = s.pending := rfl
@[simp] theorem State.onFeeder_phase (s : State) (f : Feeder) (g : FeederState → FeederState) : (s.onFeeder f g).phase = s.phase := rfl
@[simp] theorem State.onFeeder_strapPins (s : State) (f : Feeder) (g : FeederState → FeederState) : (s.onFeeder f g).strapPins = s.strapPins := rfl
@[simp] theorem State.onFeeder_partTime (s : State) (f : Feeder) (g : FeederState → FeederState) : (s.onFeeder f g).partTime = s.partTime := rfl
@[simp] theorem State.onFeeder_startCause (s : State) (f : Feeder) (g : FeederState → FeederState) : (s.onFeeder f g).startCause = s.startCause := rfl
@[simp] theorem State.onFeeder_opCounter (s : State) (f : Feeder) (g : FeederState → FeederState) : (s.onFeeder f g).opCounter = s.opCounter := rfl
@[simp] theorem State.onFeeder_link (s : State) (f : Feeder) (g : FeederState → FeederState) : (s.onFeeder f g).link = s.link := rfl
@[simp] theorem State.onFeeder_lastSequence (s : State) (f : Feeder) (g : FeederState → FeederState) : (s.onFeeder f g).lastSequence = s.lastSequence := rfl
@[simp] theorem State.onFeeder_lastFrameTime (s : State) (f : Feeder) (g : FeederState → FeederState) : (s.onFeeder f g).lastFrameTime = s.lastFrameTime := rfl
@[simp] theorem State.onFeeder_linkDeadline (s : State) (f : Feeder) (g : FeederState → FeederState) : (s.onFeeder f g).linkDeadline = s.linkDeadline := rfl
@[simp] theorem State.onFeeder_bus (s : State) (f : Feeder) (g : FeederState → FeederState) : (s.onFeeder f g).bus = s.bus := rfl
@[simp] theorem State.onFeeder_fireBan (s : State) (f : Feeder) (g : FeederState → FeederState) : (s.onFeeder f g).fireBan = s.fireBan := rfl
@[simp] theorem State.onFeeder_crewKey (s : State) (f : Feeder) (g : FeederState → FeederState) : (s.onFeeder f g).crewKey = s.crewKey := rfl
@[simp] theorem State.onFeeder_setProtect (s : State) (f : Feeder) (g : FeederState → FeederState) : (s.onFeeder f g).setProtect = s.setProtect := rfl
@[simp] theorem State.onFeeder_feeders (s : State) (f : Feeder) (g : FeederState → FeederState) : (s.onFeeder f g).feeders = s.feeders.set f (g (s.feeders.get f)) := rfl
@[simp] theorem State.onFeeder_districts (s : State) (f : Feeder) (g : FeederState → FeederState) : (s.onFeeder f g).districts = s.districts := rfl
@[simp] theorem State.onFeeder_store (s : State) (f : Feeder) (g : FeederState → FeederState) : (s.onFeeder f g).store = s.store := rfl
@[simp] theorem State.onFeeder_pool (s : State) (f : Feeder) (g : FeederState → FeederState) : (s.onFeeder f g).pool = s.pool := rfl
@[simp] theorem State.onFeeder_detector (s : State) (f : Feeder) (g : FeederState → FeederState) : (s.onFeeder f g).detector = s.detector := rfl
@[simp] theorem State.onFeeder_hunt (s : State) (f : Feeder) (g : FeederState → FeederState) : (s.onFeeder f g).hunt = s.hunt := rfl
@[simp] theorem State.onFeeder_lastHunt (s : State) (f : Feeder) (g : FeederState → FeederState) : (s.onFeeder f g).lastHunt = s.lastHunt := rfl
@[simp] theorem State.onFeeder_ports (s : State) (f : Feeder) (g : FeederState → FeederState) : (s.onFeeder f g).ports = s.ports := rfl
@[simp] theorem State.onFeeder_crewAddress (s : State) (f : Feeder) (g : FeederState → FeederState) : (s.onFeeder f g).crewAddress = s.crewAddress := rfl
@[simp] theorem State.onFeeder_crewWrite (s : State) (f : Feeder) (g : FeederState → FeederState) : (s.onFeeder f g).crewWrite = s.crewWrite := rfl
@[simp] theorem State.onFeeder_queues (s : State) (f : Feeder) (g : FeederState → FeederState) : (s.onFeeder f g).queues = s.queues := rfl
@[simp] theorem State.onFeeder_sent (s : State) (f : Feeder) (g : FeederState → FeederState) : (s.onFeeder f g).sent = s.sent := rfl
@[simp] theorem State.onFeeder_freeIndex (s : State) (f : Feeder) (g : FeederState → FeederState) : (s.onFeeder f g).freeIndex = s.freeIndex := rfl

@[simp] theorem State.onStore_pending (s : State) (g : Store → Store) : (s.onStore g).pending = s.pending := rfl
@[simp] theorem State.onStore_phase (s : State) (g : Store → Store) : (s.onStore g).phase = s.phase := rfl
@[simp] theorem State.onStore_strapPins (s : State) (g : Store → Store) : (s.onStore g).strapPins = s.strapPins := rfl
@[simp] theorem State.onStore_partTime (s : State) (g : Store → Store) : (s.onStore g).partTime = s.partTime := rfl
@[simp] theorem State.onStore_startCause (s : State) (g : Store → Store) : (s.onStore g).startCause = s.startCause := rfl
@[simp] theorem State.onStore_opCounter (s : State) (g : Store → Store) : (s.onStore g).opCounter = s.opCounter := rfl
@[simp] theorem State.onStore_link (s : State) (g : Store → Store) : (s.onStore g).link = s.link := rfl
@[simp] theorem State.onStore_lastSequence (s : State) (g : Store → Store) : (s.onStore g).lastSequence = s.lastSequence := rfl
@[simp] theorem State.onStore_lastFrameTime (s : State) (g : Store → Store) : (s.onStore g).lastFrameTime = s.lastFrameTime := rfl
@[simp] theorem State.onStore_linkDeadline (s : State) (g : Store → Store) : (s.onStore g).linkDeadline = s.linkDeadline := rfl
@[simp] theorem State.onStore_bus (s : State) (g : Store → Store) : (s.onStore g).bus = s.bus := rfl
@[simp] theorem State.onStore_fireBan (s : State) (g : Store → Store) : (s.onStore g).fireBan = s.fireBan := rfl
@[simp] theorem State.onStore_crewKey (s : State) (g : Store → Store) : (s.onStore g).crewKey = s.crewKey := rfl
@[simp] theorem State.onStore_setProtect (s : State) (g : Store → Store) : (s.onStore g).setProtect = s.setProtect := rfl
@[simp] theorem State.onStore_feeders (s : State) (g : Store → Store) : (s.onStore g).feeders = s.feeders := rfl
@[simp] theorem State.onStore_districts (s : State) (g : Store → Store) : (s.onStore g).districts = s.districts := rfl
@[simp] theorem State.onStore_store (s : State) (g : Store → Store) : (s.onStore g).store = g s.store := rfl
@[simp] theorem State.onStore_pool (s : State) (g : Store → Store) : (s.onStore g).pool = s.pool := rfl
@[simp] theorem State.onStore_detector (s : State) (g : Store → Store) : (s.onStore g).detector = s.detector := rfl
@[simp] theorem State.onStore_hunt (s : State) (g : Store → Store) : (s.onStore g).hunt = s.hunt := rfl
@[simp] theorem State.onStore_lastHunt (s : State) (g : Store → Store) : (s.onStore g).lastHunt = s.lastHunt := rfl
@[simp] theorem State.onStore_ports (s : State) (g : Store → Store) : (s.onStore g).ports = s.ports := rfl
@[simp] theorem State.onStore_crewAddress (s : State) (g : Store → Store) : (s.onStore g).crewAddress = s.crewAddress := rfl
@[simp] theorem State.onStore_crewWrite (s : State) (g : Store → Store) : (s.onStore g).crewWrite = s.crewWrite := rfl
@[simp] theorem State.onStore_queues (s : State) (g : Store → Store) : (s.onStore g).queues = s.queues := rfl
@[simp] theorem State.onStore_sent (s : State) (g : Store → Store) : (s.onStore g).sent = s.sent := rfl
@[simp] theorem State.onStore_freeIndex (s : State) (g : Store → Store) : (s.onStore g).freeIndex = s.freeIndex := rfl

@[simp] theorem State.onDistrict_pending (s : State) (d : District) (g : DistrictState → DistrictState) : (s.onDistrict d g).pending = s.pending := rfl
@[simp] theorem State.onDistrict_phase (s : State) (d : District) (g : DistrictState → DistrictState) : (s.onDistrict d g).phase = s.phase := rfl
@[simp] theorem State.onDistrict_strapPins (s : State) (d : District) (g : DistrictState → DistrictState) : (s.onDistrict d g).strapPins = s.strapPins := rfl
@[simp] theorem State.onDistrict_partTime (s : State) (d : District) (g : DistrictState → DistrictState) : (s.onDistrict d g).partTime = s.partTime := rfl
@[simp] theorem State.onDistrict_startCause (s : State) (d : District) (g : DistrictState → DistrictState) : (s.onDistrict d g).startCause = s.startCause := rfl
@[simp] theorem State.onDistrict_opCounter (s : State) (d : District) (g : DistrictState → DistrictState) : (s.onDistrict d g).opCounter = s.opCounter := rfl
@[simp] theorem State.onDistrict_link (s : State) (d : District) (g : DistrictState → DistrictState) : (s.onDistrict d g).link = s.link := rfl
@[simp] theorem State.onDistrict_lastSequence (s : State) (d : District) (g : DistrictState → DistrictState) : (s.onDistrict d g).lastSequence = s.lastSequence := rfl
@[simp] theorem State.onDistrict_lastFrameTime (s : State) (d : District) (g : DistrictState → DistrictState) : (s.onDistrict d g).lastFrameTime = s.lastFrameTime := rfl
@[simp] theorem State.onDistrict_linkDeadline (s : State) (d : District) (g : DistrictState → DistrictState) : (s.onDistrict d g).linkDeadline = s.linkDeadline := rfl
@[simp] theorem State.onDistrict_bus (s : State) (d : District) (g : DistrictState → DistrictState) : (s.onDistrict d g).bus = s.bus := rfl
@[simp] theorem State.onDistrict_fireBan (s : State) (d : District) (g : DistrictState → DistrictState) : (s.onDistrict d g).fireBan = s.fireBan := rfl
@[simp] theorem State.onDistrict_crewKey (s : State) (d : District) (g : DistrictState → DistrictState) : (s.onDistrict d g).crewKey = s.crewKey := rfl
@[simp] theorem State.onDistrict_setProtect (s : State) (d : District) (g : DistrictState → DistrictState) : (s.onDistrict d g).setProtect = s.setProtect := rfl
@[simp] theorem State.onDistrict_feeders (s : State) (d : District) (g : DistrictState → DistrictState) : (s.onDistrict d g).feeders = s.feeders := rfl
@[simp] theorem State.onDistrict_districts (s : State) (d : District) (g : DistrictState → DistrictState) : (s.onDistrict d g).districts = s.districts.set d (g (s.districts.get d)) := rfl
@[simp] theorem State.onDistrict_store (s : State) (d : District) (g : DistrictState → DistrictState) : (s.onDistrict d g).store = s.store := rfl
@[simp] theorem State.onDistrict_pool (s : State) (d : District) (g : DistrictState → DistrictState) : (s.onDistrict d g).pool = s.pool := rfl
@[simp] theorem State.onDistrict_detector (s : State) (d : District) (g : DistrictState → DistrictState) : (s.onDistrict d g).detector = s.detector := rfl
@[simp] theorem State.onDistrict_hunt (s : State) (d : District) (g : DistrictState → DistrictState) : (s.onDistrict d g).hunt = s.hunt := rfl
@[simp] theorem State.onDistrict_lastHunt (s : State) (d : District) (g : DistrictState → DistrictState) : (s.onDistrict d g).lastHunt = s.lastHunt := rfl
@[simp] theorem State.onDistrict_ports (s : State) (d : District) (g : DistrictState → DistrictState) : (s.onDistrict d g).ports = s.ports := rfl
@[simp] theorem State.onDistrict_crewAddress (s : State) (d : District) (g : DistrictState → DistrictState) : (s.onDistrict d g).crewAddress = s.crewAddress := rfl
@[simp] theorem State.onDistrict_crewWrite (s : State) (d : District) (g : DistrictState → DistrictState) : (s.onDistrict d g).crewWrite = s.crewWrite := rfl
@[simp] theorem State.onDistrict_queues (s : State) (d : District) (g : DistrictState → DistrictState) : (s.onDistrict d g).queues = s.queues := rfl
@[simp] theorem State.onDistrict_sent (s : State) (d : District) (g : DistrictState → DistrictState) : (s.onDistrict d g).sent = s.sent := rfl
@[simp] theorem State.onDistrict_freeIndex (s : State) (d : District) (g : DistrictState → DistrictState) : (s.onDistrict d g).freeIndex = s.freeIndex := rfl

@[simp] theorem State.onPort_pending (s : State) (p : Port) (g : PortUnit → PortUnit) : (s.onPort p g).pending = s.pending := rfl
@[simp] theorem State.onPort_phase (s : State) (p : Port) (g : PortUnit → PortUnit) : (s.onPort p g).phase = s.phase := rfl
@[simp] theorem State.onPort_strapPins (s : State) (p : Port) (g : PortUnit → PortUnit) : (s.onPort p g).strapPins = s.strapPins := rfl
@[simp] theorem State.onPort_partTime (s : State) (p : Port) (g : PortUnit → PortUnit) : (s.onPort p g).partTime = s.partTime := rfl
@[simp] theorem State.onPort_startCause (s : State) (p : Port) (g : PortUnit → PortUnit) : (s.onPort p g).startCause = s.startCause := rfl
@[simp] theorem State.onPort_opCounter (s : State) (p : Port) (g : PortUnit → PortUnit) : (s.onPort p g).opCounter = s.opCounter := rfl
@[simp] theorem State.onPort_link (s : State) (p : Port) (g : PortUnit → PortUnit) : (s.onPort p g).link = s.link := rfl
@[simp] theorem State.onPort_lastSequence (s : State) (p : Port) (g : PortUnit → PortUnit) : (s.onPort p g).lastSequence = s.lastSequence := rfl
@[simp] theorem State.onPort_lastFrameTime (s : State) (p : Port) (g : PortUnit → PortUnit) : (s.onPort p g).lastFrameTime = s.lastFrameTime := rfl
@[simp] theorem State.onPort_linkDeadline (s : State) (p : Port) (g : PortUnit → PortUnit) : (s.onPort p g).linkDeadline = s.linkDeadline := rfl
@[simp] theorem State.onPort_bus (s : State) (p : Port) (g : PortUnit → PortUnit) : (s.onPort p g).bus = s.bus := rfl
@[simp] theorem State.onPort_fireBan (s : State) (p : Port) (g : PortUnit → PortUnit) : (s.onPort p g).fireBan = s.fireBan := rfl
@[simp] theorem State.onPort_crewKey (s : State) (p : Port) (g : PortUnit → PortUnit) : (s.onPort p g).crewKey = s.crewKey := rfl
@[simp] theorem State.onPort_setProtect (s : State) (p : Port) (g : PortUnit → PortUnit) : (s.onPort p g).setProtect = s.setProtect := rfl
@[simp] theorem State.onPort_feeders (s : State) (p : Port) (g : PortUnit → PortUnit) : (s.onPort p g).feeders = s.feeders := rfl
@[simp] theorem State.onPort_districts (s : State) (p : Port) (g : PortUnit → PortUnit) : (s.onPort p g).districts = s.districts := rfl
@[simp] theorem State.onPort_store (s : State) (p : Port) (g : PortUnit → PortUnit) : (s.onPort p g).store = s.store := rfl
@[simp] theorem State.onPort_pool (s : State) (p : Port) (g : PortUnit → PortUnit) : (s.onPort p g).pool = s.pool := rfl
@[simp] theorem State.onPort_detector (s : State) (p : Port) (g : PortUnit → PortUnit) : (s.onPort p g).detector = s.detector := rfl
@[simp] theorem State.onPort_hunt (s : State) (p : Port) (g : PortUnit → PortUnit) : (s.onPort p g).hunt = s.hunt := rfl
@[simp] theorem State.onPort_lastHunt (s : State) (p : Port) (g : PortUnit → PortUnit) : (s.onPort p g).lastHunt = s.lastHunt := rfl
@[simp] theorem State.onPort_ports (s : State) (p : Port) (g : PortUnit → PortUnit) : (s.onPort p g).ports = s.ports.set p (g (s.ports.get p)) := rfl
@[simp] theorem State.onPort_crewAddress (s : State) (p : Port) (g : PortUnit → PortUnit) : (s.onPort p g).crewAddress = s.crewAddress := rfl
@[simp] theorem State.onPort_crewWrite (s : State) (p : Port) (g : PortUnit → PortUnit) : (s.onPort p g).crewWrite = s.crewWrite := rfl
@[simp] theorem State.onPort_queues (s : State) (p : Port) (g : PortUnit → PortUnit) : (s.onPort p g).queues = s.queues := rfl
@[simp] theorem State.onPort_sent (s : State) (p : Port) (g : PortUnit → PortUnit) : (s.onPort p g).sent = s.sent := rfl
@[simp] theorem State.onPort_freeIndex (s : State) (p : Port) (g : PortUnit → PortUnit) : (s.onPort p g).freeIndex = s.freeIndex := rfl

@[simp] theorem State.onHunt_pending (s : State) (g : HuntRun → HuntRun) : (s.onHunt g).pending = s.pending := rfl
@[simp] theorem State.onHunt_phase (s : State) (g : HuntRun → HuntRun) : (s.onHunt g).phase = s.phase := rfl
@[simp] theorem State.onHunt_strapPins (s : State) (g : HuntRun → HuntRun) : (s.onHunt g).strapPins = s.strapPins := rfl
@[simp] theorem State.onHunt_partTime (s : State) (g : HuntRun → HuntRun) : (s.onHunt g).partTime = s.partTime := rfl
@[simp] theorem State.onHunt_startCause (s : State) (g : HuntRun → HuntRun) : (s.onHunt g).startCause = s.startCause := rfl
@[simp] theorem State.onHunt_opCounter (s : State) (g : HuntRun → HuntRun) : (s.onHunt g).opCounter = s.opCounter := rfl
@[simp] theorem State.onHunt_link (s : State) (g : HuntRun → HuntRun) : (s.onHunt g).link = s.link := rfl
@[simp] theorem State.onHunt_lastSequence (s : State) (g : HuntRun → HuntRun) : (s.onHunt g).lastSequence = s.lastSequence := rfl
@[simp] theorem State.onHunt_lastFrameTime (s : State) (g : HuntRun → HuntRun) : (s.onHunt g).lastFrameTime = s.lastFrameTime := rfl
@[simp] theorem State.onHunt_linkDeadline (s : State) (g : HuntRun → HuntRun) : (s.onHunt g).linkDeadline = s.linkDeadline := rfl
@[simp] theorem State.onHunt_bus (s : State) (g : HuntRun → HuntRun) : (s.onHunt g).bus = s.bus := rfl
@[simp] theorem State.onHunt_fireBan (s : State) (g : HuntRun → HuntRun) : (s.onHunt g).fireBan = s.fireBan := rfl
@[simp] theorem State.onHunt_crewKey (s : State) (g : HuntRun → HuntRun) : (s.onHunt g).crewKey = s.crewKey := rfl
@[simp] theorem State.onHunt_setProtect (s : State) (g : HuntRun → HuntRun) : (s.onHunt g).setProtect = s.setProtect := rfl
@[simp] theorem State.onHunt_feeders (s : State) (g : HuntRun → HuntRun) : (s.onHunt g).feeders = s.feeders := rfl
@[simp] theorem State.onHunt_districts (s : State) (g : HuntRun → HuntRun) : (s.onHunt g).districts = s.districts := rfl
@[simp] theorem State.onHunt_store (s : State) (g : HuntRun → HuntRun) : (s.onHunt g).store = s.store := rfl
@[simp] theorem State.onHunt_pool (s : State) (g : HuntRun → HuntRun) : (s.onHunt g).pool = s.pool := rfl
@[simp] theorem State.onHunt_detector (s : State) (g : HuntRun → HuntRun) : (s.onHunt g).detector = s.detector := rfl
@[simp] theorem State.onHunt_hunt (s : State) (g : HuntRun → HuntRun) : (s.onHunt g).hunt = s.hunt.map g := rfl
@[simp] theorem State.onHunt_lastHunt (s : State) (g : HuntRun → HuntRun) : (s.onHunt g).lastHunt = s.lastHunt := rfl
@[simp] theorem State.onHunt_ports (s : State) (g : HuntRun → HuntRun) : (s.onHunt g).ports = s.ports := rfl
@[simp] theorem State.onHunt_crewAddress (s : State) (g : HuntRun → HuntRun) : (s.onHunt g).crewAddress = s.crewAddress := rfl
@[simp] theorem State.onHunt_crewWrite (s : State) (g : HuntRun → HuntRun) : (s.onHunt g).crewWrite = s.crewWrite := rfl
@[simp] theorem State.onHunt_queues (s : State) (g : HuntRun → HuntRun) : (s.onHunt g).queues = s.queues := rfl
@[simp] theorem State.onHunt_sent (s : State) (g : HuntRun → HuntRun) : (s.onHunt g).sent = s.sent := rfl
@[simp] theorem State.onHunt_freeIndex (s : State) (g : HuntRun → HuntRun) : (s.onHunt g).freeIndex = s.freeIndex := rfl

@[simp] theorem State.withQueue_pending (s : State) (p : Port) (q : List EventEntry) : (s.withQueue p q).pending = s.pending := rfl
@[simp] theorem State.withQueue_phase (s : State) (p : Port) (q : List EventEntry) : (s.withQueue p q).phase = s.phase := rfl
@[simp] theorem State.withQueue_strapPins (s : State) (p : Port) (q : List EventEntry) : (s.withQueue p q).strapPins = s.strapPins := rfl
@[simp] theorem State.withQueue_partTime (s : State) (p : Port) (q : List EventEntry) : (s.withQueue p q).partTime = s.partTime := rfl
@[simp] theorem State.withQueue_startCause (s : State) (p : Port) (q : List EventEntry) : (s.withQueue p q).startCause = s.startCause := rfl
@[simp] theorem State.withQueue_opCounter (s : State) (p : Port) (q : List EventEntry) : (s.withQueue p q).opCounter = s.opCounter := rfl
@[simp] theorem State.withQueue_link (s : State) (p : Port) (q : List EventEntry) : (s.withQueue p q).link = s.link := rfl
@[simp] theorem State.withQueue_lastSequence (s : State) (p : Port) (q : List EventEntry) : (s.withQueue p q).lastSequence = s.lastSequence := rfl
@[simp] theorem State.withQueue_lastFrameTime (s : State) (p : Port) (q : List EventEntry) : (s.withQueue p q).lastFrameTime = s.lastFrameTime := rfl
@[simp] theorem State.withQueue_linkDeadline (s : State) (p : Port) (q : List EventEntry) : (s.withQueue p q).linkDeadline = s.linkDeadline := rfl
@[simp] theorem State.withQueue_bus (s : State) (p : Port) (q : List EventEntry) : (s.withQueue p q).bus = s.bus := rfl
@[simp] theorem State.withQueue_fireBan (s : State) (p : Port) (q : List EventEntry) : (s.withQueue p q).fireBan = s.fireBan := rfl
@[simp] theorem State.withQueue_crewKey (s : State) (p : Port) (q : List EventEntry) : (s.withQueue p q).crewKey = s.crewKey := rfl
@[simp] theorem State.withQueue_setProtect (s : State) (p : Port) (q : List EventEntry) : (s.withQueue p q).setProtect = s.setProtect := rfl
@[simp] theorem State.withQueue_feeders (s : State) (p : Port) (q : List EventEntry) : (s.withQueue p q).feeders = s.feeders := rfl
@[simp] theorem State.withQueue_districts (s : State) (p : Port) (q : List EventEntry) : (s.withQueue p q).districts = s.districts := rfl
@[simp] theorem State.withQueue_store (s : State) (p : Port) (q : List EventEntry) : (s.withQueue p q).store = s.store := rfl
@[simp] theorem State.withQueue_pool (s : State) (p : Port) (q : List EventEntry) : (s.withQueue p q).pool = s.pool := rfl
@[simp] theorem State.withQueue_detector (s : State) (p : Port) (q : List EventEntry) : (s.withQueue p q).detector = s.detector := rfl
@[simp] theorem State.withQueue_hunt (s : State) (p : Port) (q : List EventEntry) : (s.withQueue p q).hunt = s.hunt := rfl
@[simp] theorem State.withQueue_lastHunt (s : State) (p : Port) (q : List EventEntry) : (s.withQueue p q).lastHunt = s.lastHunt := rfl
@[simp] theorem State.withQueue_ports (s : State) (p : Port) (q : List EventEntry) : (s.withQueue p q).ports = s.ports := rfl
@[simp] theorem State.withQueue_crewAddress (s : State) (p : Port) (q : List EventEntry) : (s.withQueue p q).crewAddress = s.crewAddress := rfl
@[simp] theorem State.withQueue_crewWrite (s : State) (p : Port) (q : List EventEntry) : (s.withQueue p q).crewWrite = s.crewWrite := rfl
@[simp] theorem State.withQueue_queues (s : State) (p : Port) (q : List EventEntry) : (s.withQueue p q).queues = s.queues.set p q := rfl
@[simp] theorem State.withQueue_sent (s : State) (p : Port) (q : List EventEntry) : (s.withQueue p q).sent = s.sent := rfl
@[simp] theorem State.withQueue_freeIndex (s : State) (p : Port) (q : List EventEntry) : (s.withQueue p q).freeIndex = s.freeIndex := rfl

@[simp] theorem advanceOpId_pending (s : State) : (advanceOpId s).pending = s.pending := rfl
@[simp] theorem advanceOpId_phase (s : State) : (advanceOpId s).phase = s.phase := rfl
@[simp] theorem advanceOpId_strapPins (s : State) : (advanceOpId s).strapPins = s.strapPins := rfl
@[simp] theorem advanceOpId_partTime (s : State) : (advanceOpId s).partTime = s.partTime := rfl
@[simp] theorem advanceOpId_startCause (s : State) : (advanceOpId s).startCause = s.startCause := rfl
@[simp] theorem advanceOpId_opCounter (s : State) : (advanceOpId s).opCounter = nextOpId s.opCounter := rfl
@[simp] theorem advanceOpId_link (s : State) : (advanceOpId s).link = s.link := rfl
@[simp] theorem advanceOpId_lastSequence (s : State) : (advanceOpId s).lastSequence = s.lastSequence := rfl
@[simp] theorem advanceOpId_lastFrameTime (s : State) : (advanceOpId s).lastFrameTime = s.lastFrameTime := rfl
@[simp] theorem advanceOpId_linkDeadline (s : State) : (advanceOpId s).linkDeadline = s.linkDeadline := rfl
@[simp] theorem advanceOpId_bus (s : State) : (advanceOpId s).bus = s.bus := rfl
@[simp] theorem advanceOpId_fireBan (s : State) : (advanceOpId s).fireBan = s.fireBan := rfl
@[simp] theorem advanceOpId_crewKey (s : State) : (advanceOpId s).crewKey = s.crewKey := rfl
@[simp] theorem advanceOpId_setProtect (s : State) : (advanceOpId s).setProtect = s.setProtect := rfl
@[simp] theorem advanceOpId_feeders (s : State) : (advanceOpId s).feeders = s.feeders := rfl
@[simp] theorem advanceOpId_districts (s : State) : (advanceOpId s).districts = s.districts := rfl
@[simp] theorem advanceOpId_store (s : State) : (advanceOpId s).store = s.store := rfl
@[simp] theorem advanceOpId_pool (s : State) : (advanceOpId s).pool = s.pool := rfl
@[simp] theorem advanceOpId_detector (s : State) : (advanceOpId s).detector = s.detector := rfl
@[simp] theorem advanceOpId_hunt (s : State) : (advanceOpId s).hunt = s.hunt := rfl
@[simp] theorem advanceOpId_lastHunt (s : State) : (advanceOpId s).lastHunt = s.lastHunt := rfl
@[simp] theorem advanceOpId_ports (s : State) : (advanceOpId s).ports = s.ports := rfl
@[simp] theorem advanceOpId_crewAddress (s : State) : (advanceOpId s).crewAddress = s.crewAddress := rfl
@[simp] theorem advanceOpId_crewWrite (s : State) : (advanceOpId s).crewWrite = s.crewWrite := rfl
@[simp] theorem advanceOpId_queues (s : State) : (advanceOpId s).queues = s.queues := rfl
@[simp] theorem advanceOpId_sent (s : State) : (advanceOpId s).sent = s.sent := rfl
@[simp] theorem advanceOpId_freeIndex (s : State) : (advanceOpId s).freeIndex = s.freeIndex := rfl

@[simp] theorem sends_pending (p : Port) (d : Driven) (s : State) : (sends p d s).pending = s.pending := rfl
@[simp] theorem sends_phase (p : Port) (d : Driven) (s : State) : (sends p d s).phase = s.phase := rfl
@[simp] theorem sends_strapPins (p : Port) (d : Driven) (s : State) : (sends p d s).strapPins = s.strapPins := rfl
@[simp] theorem sends_partTime (p : Port) (d : Driven) (s : State) : (sends p d s).partTime = s.partTime := rfl
@[simp] theorem sends_startCause (p : Port) (d : Driven) (s : State) : (sends p d s).startCause = s.startCause := rfl
@[simp] theorem sends_opCounter (p : Port) (d : Driven) (s : State) : (sends p d s).opCounter = s.opCounter := rfl
@[simp] theorem sends_link (p : Port) (d : Driven) (s : State) : (sends p d s).link = s.link := rfl
@[simp] theorem sends_lastSequence (p : Port) (d : Driven) (s : State) : (sends p d s).lastSequence = s.lastSequence := rfl
@[simp] theorem sends_lastFrameTime (p : Port) (d : Driven) (s : State) : (sends p d s).lastFrameTime = s.lastFrameTime := rfl
@[simp] theorem sends_linkDeadline (p : Port) (d : Driven) (s : State) : (sends p d s).linkDeadline = s.linkDeadline := rfl
@[simp] theorem sends_bus (p : Port) (d : Driven) (s : State) : (sends p d s).bus = s.bus := rfl
@[simp] theorem sends_fireBan (p : Port) (d : Driven) (s : State) : (sends p d s).fireBan = s.fireBan := rfl
@[simp] theorem sends_crewKey (p : Port) (d : Driven) (s : State) : (sends p d s).crewKey = s.crewKey := rfl
@[simp] theorem sends_setProtect (p : Port) (d : Driven) (s : State) : (sends p d s).setProtect = s.setProtect := rfl
@[simp] theorem sends_feeders (p : Port) (d : Driven) (s : State) : (sends p d s).feeders = s.feeders := rfl
@[simp] theorem sends_districts (p : Port) (d : Driven) (s : State) : (sends p d s).districts = s.districts := rfl
@[simp] theorem sends_store (p : Port) (d : Driven) (s : State) : (sends p d s).store = s.store := rfl
@[simp] theorem sends_pool (p : Port) (d : Driven) (s : State) : (sends p d s).pool = s.pool := rfl
@[simp] theorem sends_detector (p : Port) (d : Driven) (s : State) : (sends p d s).detector = s.detector := rfl
@[simp] theorem sends_hunt (p : Port) (d : Driven) (s : State) : (sends p d s).hunt = s.hunt := rfl
@[simp] theorem sends_lastHunt (p : Port) (d : Driven) (s : State) : (sends p d s).lastHunt = s.lastHunt := rfl
@[simp] theorem sends_ports (p : Port) (d : Driven) (s : State) : (sends p d s).ports = s.ports := rfl
@[simp] theorem sends_crewAddress (p : Port) (d : Driven) (s : State) : (sends p d s).crewAddress = s.crewAddress := rfl
@[simp] theorem sends_crewWrite (p : Port) (d : Driven) (s : State) : (sends p d s).crewWrite = s.crewWrite := rfl
@[simp] theorem sends_queues (p : Port) (d : Driven) (s : State) : (sends p d s).queues = s.queues := rfl
@[simp] theorem sends_sent (p : Port) (d : Driven) (s : State) : (sends p d s).sent = s.sent.set p d := rfl
@[simp] theorem sends_freeIndex (p : Port) (d : Driven) (s : State) : (sends p d s).freeIndex = s.freeIndex := rfl

@[simp] theorem listens_pending (p : Port) (s : State) : (listens p s).pending = s.pending := rfl
@[simp] theorem listens_phase (p : Port) (s : State) : (listens p s).phase = s.phase := rfl
@[simp] theorem listens_strapPins (p : Port) (s : State) : (listens p s).strapPins = s.strapPins := rfl
@[simp] theorem listens_partTime (p : Port) (s : State) : (listens p s).partTime = s.partTime := rfl
@[simp] theorem listens_startCause (p : Port) (s : State) : (listens p s).startCause = s.startCause := rfl
@[simp] theorem listens_opCounter (p : Port) (s : State) : (listens p s).opCounter = s.opCounter := rfl
@[simp] theorem listens_link (p : Port) (s : State) : (listens p s).link = s.link := rfl
@[simp] theorem listens_lastSequence (p : Port) (s : State) : (listens p s).lastSequence = s.lastSequence := rfl
@[simp] theorem listens_lastFrameTime (p : Port) (s : State) : (listens p s).lastFrameTime = s.lastFrameTime := rfl
@[simp] theorem listens_linkDeadline (p : Port) (s : State) : (listens p s).linkDeadline = s.linkDeadline := rfl
@[simp] theorem listens_bus (p : Port) (s : State) : (listens p s).bus = s.bus := rfl
@[simp] theorem listens_fireBan (p : Port) (s : State) : (listens p s).fireBan = s.fireBan := rfl
@[simp] theorem listens_crewKey (p : Port) (s : State) : (listens p s).crewKey = s.crewKey := rfl
@[simp] theorem listens_setProtect (p : Port) (s : State) : (listens p s).setProtect = s.setProtect := rfl
@[simp] theorem listens_feeders (p : Port) (s : State) : (listens p s).feeders = s.feeders := rfl
@[simp] theorem listens_districts (p : Port) (s : State) : (listens p s).districts = s.districts := rfl
@[simp] theorem listens_store (p : Port) (s : State) : (listens p s).store = s.store := rfl
@[simp] theorem listens_pool (p : Port) (s : State) : (listens p s).pool = s.pool := rfl
@[simp] theorem listens_detector (p : Port) (s : State) : (listens p s).detector = s.detector := rfl
@[simp] theorem listens_hunt (p : Port) (s : State) : (listens p s).hunt = s.hunt := rfl
@[simp] theorem listens_lastHunt (p : Port) (s : State) : (listens p s).lastHunt = s.lastHunt := rfl
@[simp] theorem listens_ports (p : Port) (s : State) : (listens p s).ports = s.ports := rfl
@[simp] theorem listens_crewAddress (p : Port) (s : State) : (listens p s).crewAddress = s.crewAddress := rfl
@[simp] theorem listens_crewWrite (p : Port) (s : State) : (listens p s).crewWrite = if p = .crew then none else s.crewWrite := rfl
@[simp] theorem listens_queues (p : Port) (s : State) : (listens p s).queues = s.queues := rfl
@[simp] theorem listens_sent (p : Port) (s : State) : (listens p s).sent = s.sent.set p (idleLine p) := rfl
@[simp] theorem listens_freeIndex (p : Port) (s : State) : (listens p s).freeIndex = s.freeIndex := rfl

@[simp] theorem respond_pending (p : Port) (st : Status) (payload : List Byte) (s : State) : (respond p st payload s).pending = s.pending := rfl
@[simp] theorem respond_phase (p : Port) (st : Status) (payload : List Byte) (s : State) : (respond p st payload s).phase = s.phase := rfl
@[simp] theorem respond_strapPins (p : Port) (st : Status) (payload : List Byte) (s : State) : (respond p st payload s).strapPins = s.strapPins := rfl
@[simp] theorem respond_partTime (p : Port) (st : Status) (payload : List Byte) (s : State) : (respond p st payload s).partTime = s.partTime := rfl
@[simp] theorem respond_startCause (p : Port) (st : Status) (payload : List Byte) (s : State) : (respond p st payload s).startCause = s.startCause := rfl
@[simp] theorem respond_opCounter (p : Port) (st : Status) (payload : List Byte) (s : State) : (respond p st payload s).opCounter = s.opCounter := rfl
@[simp] theorem respond_link (p : Port) (st : Status) (payload : List Byte) (s : State) : (respond p st payload s).link = s.link := rfl
@[simp] theorem respond_lastSequence (p : Port) (st : Status) (payload : List Byte) (s : State) : (respond p st payload s).lastSequence = s.lastSequence := rfl
@[simp] theorem respond_lastFrameTime (p : Port) (st : Status) (payload : List Byte) (s : State) : (respond p st payload s).lastFrameTime = s.lastFrameTime := rfl
@[simp] theorem respond_linkDeadline (p : Port) (st : Status) (payload : List Byte) (s : State) : (respond p st payload s).linkDeadline = s.linkDeadline := rfl
@[simp] theorem respond_bus (p : Port) (st : Status) (payload : List Byte) (s : State) : (respond p st payload s).bus = s.bus := rfl
@[simp] theorem respond_fireBan (p : Port) (st : Status) (payload : List Byte) (s : State) : (respond p st payload s).fireBan = s.fireBan := rfl
@[simp] theorem respond_crewKey (p : Port) (st : Status) (payload : List Byte) (s : State) : (respond p st payload s).crewKey = s.crewKey := rfl
@[simp] theorem respond_setProtect (p : Port) (st : Status) (payload : List Byte) (s : State) : (respond p st payload s).setProtect = s.setProtect := rfl
@[simp] theorem respond_feeders (p : Port) (st : Status) (payload : List Byte) (s : State) : (respond p st payload s).feeders = s.feeders := rfl
@[simp] theorem respond_districts (p : Port) (st : Status) (payload : List Byte) (s : State) : (respond p st payload s).districts = s.districts := rfl
@[simp] theorem respond_store (p : Port) (st : Status) (payload : List Byte) (s : State) : (respond p st payload s).store = s.store := rfl
@[simp] theorem respond_pool (p : Port) (st : Status) (payload : List Byte) (s : State) : (respond p st payload s).pool = s.pool := rfl
@[simp] theorem respond_detector (p : Port) (st : Status) (payload : List Byte) (s : State) : (respond p st payload s).detector = s.detector := rfl
@[simp] theorem respond_hunt (p : Port) (st : Status) (payload : List Byte) (s : State) : (respond p st payload s).hunt = s.hunt := rfl
@[simp] theorem respond_lastHunt (p : Port) (st : Status) (payload : List Byte) (s : State) : (respond p st payload s).lastHunt = s.lastHunt := rfl
@[simp] theorem respond_ports (p : Port) (st : Status) (payload : List Byte) (s : State) : (respond p st payload s).ports = s.ports.set p (PortUnit.respond st payload (s.ports.get p)) := rfl
@[simp] theorem respond_crewAddress (p : Port) (st : Status) (payload : List Byte) (s : State) : (respond p st payload s).crewAddress = s.crewAddress := rfl
@[simp] theorem respond_crewWrite (p : Port) (st : Status) (payload : List Byte) (s : State) : (respond p st payload s).crewWrite = s.crewWrite := rfl
@[simp] theorem respond_queues (p : Port) (st : Status) (payload : List Byte) (s : State) : (respond p st payload s).queues = s.queues := rfl
@[simp] theorem respond_sent (p : Port) (st : Status) (payload : List Byte) (s : State) : (respond p st payload s).sent = s.sent := rfl
@[simp] theorem respond_freeIndex (p : Port) (st : Status) (payload : List Byte) (s : State) : (respond p st payload s).freeIndex = s.freeIndex := rfl

/-! ### Fields after an offer -/

theorem offer_eq (p : Port) (ev : Event) (s : State) :
    offer p ev s = s ∨ offer p ev s =
      s.withQueue p (queueOffered (s.queues.get p) { time := s.partTime, event := ev }) := by
  unfold offer; split
  · exact .inl rfl
  · exact .inr rfl

@[simp] theorem offer_pending (p : Port) (ev : Event) (s : State) : (offer p ev s).pending = s.pending := by
  rcases offer_eq p ev s with h | h <;> simp [h]
@[simp] theorem offer_phase (p : Port) (ev : Event) (s : State) : (offer p ev s).phase = s.phase := by
  rcases offer_eq p ev s with h | h <;> simp [h]
@[simp] theorem offer_strapPins (p : Port) (ev : Event) (s : State) : (offer p ev s).strapPins = s.strapPins := by
  rcases offer_eq p ev s with h | h <;> simp [h]
@[simp] theorem offer_partTime (p : Port) (ev : Event) (s : State) : (offer p ev s).partTime = s.partTime := by
  rcases offer_eq p ev s with h | h <;> simp [h]
@[simp] theorem offer_startCause (p : Port) (ev : Event) (s : State) : (offer p ev s).startCause = s.startCause := by
  rcases offer_eq p ev s with h | h <;> simp [h]
@[simp] theorem offer_opCounter (p : Port) (ev : Event) (s : State) : (offer p ev s).opCounter = s.opCounter := by
  rcases offer_eq p ev s with h | h <;> simp [h]
@[simp] theorem offer_link (p : Port) (ev : Event) (s : State) : (offer p ev s).link = s.link := by
  rcases offer_eq p ev s with h | h <;> simp [h]
@[simp] theorem offer_lastSequence (p : Port) (ev : Event) (s : State) : (offer p ev s).lastSequence = s.lastSequence := by
  rcases offer_eq p ev s with h | h <;> simp [h]
@[simp] theorem offer_lastFrameTime (p : Port) (ev : Event) (s : State) : (offer p ev s).lastFrameTime = s.lastFrameTime := by
  rcases offer_eq p ev s with h | h <;> simp [h]
@[simp] theorem offer_linkDeadline (p : Port) (ev : Event) (s : State) : (offer p ev s).linkDeadline = s.linkDeadline := by
  rcases offer_eq p ev s with h | h <;> simp [h]
@[simp] theorem offer_bus (p : Port) (ev : Event) (s : State) : (offer p ev s).bus = s.bus := by
  rcases offer_eq p ev s with h | h <;> simp [h]
@[simp] theorem offer_fireBan (p : Port) (ev : Event) (s : State) : (offer p ev s).fireBan = s.fireBan := by
  rcases offer_eq p ev s with h | h <;> simp [h]
@[simp] theorem offer_crewKey (p : Port) (ev : Event) (s : State) : (offer p ev s).crewKey = s.crewKey := by
  rcases offer_eq p ev s with h | h <;> simp [h]
@[simp] theorem offer_setProtect (p : Port) (ev : Event) (s : State) : (offer p ev s).setProtect = s.setProtect := by
  rcases offer_eq p ev s with h | h <;> simp [h]
@[simp] theorem offer_feeders (p : Port) (ev : Event) (s : State) : (offer p ev s).feeders = s.feeders := by
  rcases offer_eq p ev s with h | h <;> simp [h]
@[simp] theorem offer_districts (p : Port) (ev : Event) (s : State) : (offer p ev s).districts = s.districts := by
  rcases offer_eq p ev s with h | h <;> simp [h]
@[simp] theorem offer_store (p : Port) (ev : Event) (s : State) : (offer p ev s).store = s.store := by
  rcases offer_eq p ev s with h | h <;> simp [h]
@[simp] theorem offer_pool (p : Port) (ev : Event) (s : State) : (offer p ev s).pool = s.pool := by
  rcases offer_eq p ev s with h | h <;> simp [h]
@[simp] theorem offer_detector (p : Port) (ev : Event) (s : State) : (offer p ev s).detector = s.detector := by
  rcases offer_eq p ev s with h | h <;> simp [h]
@[simp] theorem offer_hunt (p : Port) (ev : Event) (s : State) : (offer p ev s).hunt = s.hunt := by
  rcases offer_eq p ev s with h | h <;> simp [h]
@[simp] theorem offer_lastHunt (p : Port) (ev : Event) (s : State) : (offer p ev s).lastHunt = s.lastHunt := by
  rcases offer_eq p ev s with h | h <;> simp [h]
@[simp] theorem offer_ports (p : Port) (ev : Event) (s : State) : (offer p ev s).ports = s.ports := by
  rcases offer_eq p ev s with h | h <;> simp [h]
@[simp] theorem offer_crewAddress (p : Port) (ev : Event) (s : State) : (offer p ev s).crewAddress = s.crewAddress := by
  rcases offer_eq p ev s with h | h <;> simp [h]
@[simp] theorem offer_crewWrite (p : Port) (ev : Event) (s : State) : (offer p ev s).crewWrite = s.crewWrite := by
  rcases offer_eq p ev s with h | h <;> simp [h]
@[simp] theorem offer_sent (p : Port) (ev : Event) (s : State) : (offer p ev s).sent = s.sent := by
  rcases offer_eq p ev s with h | h <;> simp [h]
@[simp] theorem offer_freeIndex (p : Port) (ev : Event) (s : State) : (offer p ev s).freeIndex = s.freeIndex := by
  rcases offer_eq p ev s with h | h <;> simp [h]

@[simp] theorem broadcast_pending (ev : Event) (s : State) : (broadcast ev s).pending = s.pending := by simp [broadcast]
@[simp] theorem broadcast_phase (ev : Event) (s : State) : (broadcast ev s).phase = s.phase := by simp [broadcast]
@[simp] theorem broadcast_strapPins (ev : Event) (s : State) : (broadcast ev s).strapPins = s.strapPins := by simp [broadcast]
@[simp] theorem broadcast_partTime (ev : Event) (s : State) : (broadcast ev s).partTime = s.partTime := by simp [broadcast]
@[simp] theorem broadcast_startCause (ev : Event) (s : State) : (broadcast ev s).startCause = s.startCause := by simp [broadcast]
@[simp] theorem broadcast_opCounter (ev : Event) (s : State) : (broadcast ev s).opCounter = s.opCounter := by simp [broadcast]
@[simp] theorem broadcast_link (ev : Event) (s : State) : (broadcast ev s).link = s.link := by simp [broadcast]
@[simp] theorem broadcast_lastSequence (ev : Event) (s : State) : (broadcast ev s).lastSequence = s.lastSequence := by simp [broadcast]
@[simp] theorem broadcast_lastFrameTime (ev : Event) (s : State) : (broadcast ev s).lastFrameTime = s.lastFrameTime := by simp [broadcast]
@[simp] theorem broadcast_linkDeadline (ev : Event) (s : State) : (broadcast ev s).linkDeadline = s.linkDeadline := by simp [broadcast]
@[simp] theorem broadcast_bus (ev : Event) (s : State) : (broadcast ev s).bus = s.bus := by simp [broadcast]
@[simp] theorem broadcast_fireBan (ev : Event) (s : State) : (broadcast ev s).fireBan = s.fireBan := by simp [broadcast]
@[simp] theorem broadcast_crewKey (ev : Event) (s : State) : (broadcast ev s).crewKey = s.crewKey := by simp [broadcast]
@[simp] theorem broadcast_setProtect (ev : Event) (s : State) : (broadcast ev s).setProtect = s.setProtect := by simp [broadcast]
@[simp] theorem broadcast_feeders (ev : Event) (s : State) : (broadcast ev s).feeders = s.feeders := by simp [broadcast]
@[simp] theorem broadcast_districts (ev : Event) (s : State) : (broadcast ev s).districts = s.districts := by simp [broadcast]
@[simp] theorem broadcast_store (ev : Event) (s : State) : (broadcast ev s).store = s.store := by simp [broadcast]
@[simp] theorem broadcast_pool (ev : Event) (s : State) : (broadcast ev s).pool = s.pool := by simp [broadcast]
@[simp] theorem broadcast_detector (ev : Event) (s : State) : (broadcast ev s).detector = s.detector := by simp [broadcast]
@[simp] theorem broadcast_hunt (ev : Event) (s : State) : (broadcast ev s).hunt = s.hunt := by simp [broadcast]
@[simp] theorem broadcast_lastHunt (ev : Event) (s : State) : (broadcast ev s).lastHunt = s.lastHunt := by simp [broadcast]
@[simp] theorem broadcast_ports (ev : Event) (s : State) : (broadcast ev s).ports = s.ports := by simp [broadcast]
@[simp] theorem broadcast_crewAddress (ev : Event) (s : State) : (broadcast ev s).crewAddress = s.crewAddress := by simp [broadcast]
@[simp] theorem broadcast_crewWrite (ev : Event) (s : State) : (broadcast ev s).crewWrite = s.crewWrite := by simp [broadcast]
@[simp] theorem broadcast_sent (ev : Event) (s : State) : (broadcast ev s).sent = s.sent := by simp [broadcast]
@[simp] theorem broadcast_freeIndex (ev : Event) (s : State) : (broadcast ev s).freeIndex = s.freeIndex := by simp [broadcast]

@[simp] theorem State.feeder_onFeeder_self (s : State) (f : Feeder) (g : FeederState → FeederState) :
    (s.onFeeder f g).feeder f = g (s.feeder f) := by simp [State.feeder]

@[simp] theorem State.feeder_onFeeder_of_ne (s : State) {f k : Feeder} (h : k ≠ f) (g : FeederState → FeederState) :
    (s.onFeeder f g).feeder k = s.feeder k := by simp [State.feeder, h]

@[simp] theorem feeder_broadcast (ev : Event) (s : State) (f : Feeder) : (broadcast ev s).feeder f = s.feeder f := by
  simp [State.feeder]

@[simp] theorem feeder_offer (p : Port) (ev : Event) (s : State) (f : Feeder) : (offer p ev s).feeder f = s.feeder f := by
  simp [State.feeder]

@[simp] theorem State.onFeeder_onFeeder (s : State) (f : Feeder) (g h : FeederState → FeederState) :
    (s.onFeeder f g).onFeeder f h = s.onFeeder f (fun x => h (g x)) := by simp [State.onFeeder]

@[simp] theorem State.onPort_onPort (s : State) (p : Port) (g h : PortUnit → PortUnit) :
    (s.onPort p g).onPort p h = s.onPort p (fun x => h (g x)) := by simp [State.onPort]

@[simp] theorem State.onStore_onStore (s : State) (g h : Store → Store) :
    (s.onStore g).onStore h = s.onStore (fun x => h (g x)) := rfl

end Machine

end Sys2Proof
end

