-- ==== Sys2Proof/Laws/Keeps.lean ====
section
/-! SUPPORT. What the blocks can do to the state, said once: a property that a few elementary updates keep is kept by every operation
of the sequencers, the claim table, the fire level unit, the switching units and the hunt. -/
namespace Sys2Proof.Machine

/-- A change of a feeder's state that leaves its fire state, its operation in flight, its system claims, its contacts and its
measurement state as they were. -/
structure Quiet (x y : FeederState) : Prop where
  fire : y.fire = x.fire
  inFlight : y.inFlight = x.inFlight
  claims : y.claims = x.claims
  closedContact : y.closedContact = x.closedContact
  openContact : y.openContact = x.openContact
  meas : y.meas = x.meas
  invalidCount : y.invalidCount = x.invalidCount
  recoveryCount : y.recoveryCount = x.recoveryCount

/-- A change of a feeder's state in its sequencer record, its elements and their report, and its lock alone. -/
def Still (x y : FeederState) : Prop :=
  y = { x with
    phaseIdmt := y.phaseIdmt, highSet := y.highSet, earthIdmt := y.earthIdmt, sef := y.sef, pickedUp := y.pickedUp,
    lock := y.lock, ar := y.ar }

/-- A change of a feeder's state in its two timers, its position fault, its last operation and its last end alone. -/
def Calm (x y : FeederState) : Prop :=
  y = { x with
    invalidTimer := y.invalidTimer, transitTimer := y.transitTimer, positionFault := y.positionFault, lastOp := y.lastOp,
    lastEnd := y.lastEnd }

theorem Calm.quiet {x y : FeederState} (h : Calm x y) : Quiet x y := by
  unfold Calm at h
  constructor <;> rw [h]

/-- A change of a feeder's state in its sequencer record and its lock alone. -/
def Light (x y : FeederState) : Prop := y = { x with lock := y.lock, ar := y.ar }

theorem Light.still {x y : FeederState} (h : Light x y) : Still x y := by
  unfold Light at h
  unfold Still
  rw [h]

/-- The property is kept by what the sequencers and the claim table do. -/
structure BaseKeeps (R : Feeder → Prop) (P : State → Prop) : Prop where
  light : ∀ (s : State) (f : Feeder) [Fact (R f)] (g), Light (s.feeder f) (g (s.feeder f)) → P s → P (s.onFeeder f g)
  claim : ∀ (s : State) (f : Feeder) [Fact (R f)] (n) (on), n ≠ .store → P s → P (s.onFeeder f fun x => { x with claims := x.claims.put n on })
  offer : ∀ s p ev, P s → P (offer p ev s)
  hunt : ∀ s h, P s → P { s with hunt := h }

/-- The property is kept by what the fire level unit does besides. -/
structure CoreKeeps (R : Feeder → Prop) (P : State → Prop) : Prop extends BaseKeeps R P where
  still : ∀ (s : State) (f : Feeder) [Fact (R f)] (g), Still (s.feeder f) (g (s.feeder f)) → P s → P (s.onFeeder f g)
  level : ∀ (s : State) (f : Feeder) [Fact (R f)], (s.feeder f).fire.isSome = true → P s → P (loadEffective f (targetLevel s f) s)
  reload : ∀ (s : State) (f : Feeder) [Fact (R f)] (x), (s.feeder f).fire = some x → P s → P (loadEffective f x.applied s)
  light := fun s f _ g hg h => still s f g hg.still h

variable {R : Feeder → Prop} {P : State → Prop}

theorem BaseKeeps.broadcast (k : BaseKeeps R P) (ev : Event) (s : State) (h : P s) : P (broadcast ev s) :=
  k.offer _ _ _ (k.offer _ _ _ (k.offer _ _ _ h))

theorem BaseKeeps.onHunt (k : BaseKeeps R P) (g : HuntRun → HuntRun) (s : State) (h : P s) : P (s.onHunt g) := k.hunt _ _ h

theorem foldl_keeps {α : Type} (P : State → Prop) (step : State → α → State) (hs : ∀ s a, P s → P (step s a)) :
    ∀ (l : List α) (s : State), P s → P (l.foldl step s)
  | [], _, h => h
  | a :: l, s, h => foldl_keeps P step hs l _ (hs s a h)

theorem forFeeders_keeps (P : State → Prop) (step : Feeder → State → State) (hs : ∀ f s, P s → P (step f s))
    (fs : List Feeder) (s : State) (h : P s) : P (forFeeders fs step s) :=
  foldl_keeps P _ (fun s f hp => hs f s hp) fs s h

/-! ### Sequencer, claim table, fire level unit -/

theorem BaseKeeps.arMove (k : BaseKeeps R P) (f : Feeder) [Fact (R f)] (new : ArRecord) (c : ArCause) (d : LockoutDetail) (s : State)
    (h : P s) : P (arMove f new c d s) := by
  have h1 : P (s.onFeeder f fun x => { x with ar := new }) := k.light s f _ rfl h
  unfold Machine.arMove
  dsimp only
  split
  · exact h1
  · split
    · exact k.broadcast _ _ (k.broadcast _ _ h1)
    · exact k.broadcast _ _ h1

theorem BaseKeeps.toLockout (k : BaseKeeps R P) (f : Feeder) [Fact (R f)] (c : ArCause) (d : LockoutDetail) (s : State) (h : P s) :
    P (toLockout f c d s) := k.arMove _ _ _ _ _ h

theorem BaseKeeps.toOpenManual (k : BaseKeeps R P) (f : Feeder) [Fact (R f)] (s : State) (h : P s) : P (toOpenManual f s) :=
  k.arMove _ _ _ _ _ h

theorem BaseKeeps.toReclaim (k : BaseKeeps R P) (f : Feeder) [Fact (R f)] (n : Nat) (c : ArCause) (s : State) (h : P s) :
    P (toReclaim f n c s) := k.arMove _ _ _ _ _ h

theorem BaseKeeps.judgeSequence (k : BaseKeeps R P) (f : Feeder) [Fact (R f)] (permit : Option Bool) (s : State) (h : P s) :
    P (judgeSequence f permit s) := by
  unfold Machine.judgeSequence
  dsimp only
  split_ifs
  · exact k.toLockout _ _ _ _ h
  · exact k.toLockout _ _ _ _ h
  · exact k.toLockout _ _ _ _ h
  · exact k.arMove _ _ _ _ _ h

theorem BaseKeeps.seqTripCompletion (k : BaseKeeps R P) (f : Feeder) [Fact (R f)] (c : Completed) (s : State) (h : P s) :
    P (seqTripCompletion f c s) := by
  unfold Machine.seqTripCompletion
  dsimp only
  split <;> (try split) <;>
    first
      | exact h
      | exact k.toLockout _ _ _ _ h
      | exact k.toOpenManual _ _ h
      | exact k.judgeSequence _ _ _ h

theorem BaseKeeps.seqRecloseCompletion (k : BaseKeeps R P) (f : Feeder) [Fact (R f)] (c : Completed) (s : State) (h : P s) :
    P (seqRecloseCompletion f c s) := by
  unfold Machine.seqRecloseCompletion
  dsimp only
  split
  · exact h
  · split <;> split <;>
      first
        | exact h
        | exact k.toReclaim _ _ _ _ h
        | exact k.toLockout _ _ _ _ h
        | exact k.light _ _ _ rfl h

theorem BaseKeeps.seqCloseCompletion (k : BaseKeeps R P) (f : Feeder) [Fact (R f)] (c : Completed) (s : State) (h : P s) :
    P (seqCloseCompletion f c s) := by
  unfold Machine.seqCloseCompletion
  split <;> first | exact h | exact k.toReclaim _ _ _ _ h | exact k.toLockout _ _ _ _ h

theorem BaseKeeps.seqCompletion (k : BaseKeeps R P) (f : Feeder) [Fact (R f)] (c : Completed) (s : State) (h : P s) :
    P (seqCompletion f c s) := by
  unfold Machine.seqCompletion
  split
  · exact k.seqTripCompletion _ _ _ h
  · split
    · exact k.seqRecloseCompletion _ _ _ h
    · exact k.seqCloseCompletion _ _ _ h

theorem BaseKeeps.seqClaimEntry (k : BaseKeeps R P) (f : Feeder) [Fact (R f)] (c : ClaimInfo) (s : State) (h : P s) :
    P (seqClaimEntry f c s) := by
  unfold Machine.seqClaimEntry
  split
  · exact k.toLockout _ _ _ _ h
  · exact h

theorem BaseKeeps.seqReload (k : BaseKeeps R P) (f : Feeder) [Fact (R f)] (s : State) (h : P s) : P (seqReload f s) := by
  unfold Machine.seqReload
  dsimp only
  split
  · exact k.toLockout _ _ _ _ h
  · exact h

theorem BaseKeeps.seqExternalOpen (k : BaseKeeps R P) (f : Feeder) [Fact (R f)] (s : State) (h : P s) : P (seqExternalOpen f s) := by
  unfold Machine.seqExternalOpen
  split <;> first | exact h | exact k.toLockout _ _ _ _ h

theorem BaseKeeps.seqExternalClose (k : BaseKeeps R P) (f : Feeder) [Fact (R f)] (s : State) (h : P s) : P (seqExternalClose f s) := by
  unfold Machine.seqExternalClose
  split <;> first | exact h | exact k.toLockout _ _ _ _ h | exact k.toReclaim _ _ _ _ h

theorem BaseKeeps.seqStartPosition (k : BaseKeeps R P) (f : Feeder) [Fact (R f)] (s : State) (h : P s) : P (seqStartPosition f s) := by
  unfold Machine.seqStartPosition
  split
  · exact k.arMove _ _ _ _ _ h
  · exact h

theorem BaseKeeps.seqCommission (k : BaseKeeps R P) (f : Feeder) [Fact (R f)] (s : State) (h : P s) : P (seqCommission f s) :=
  k.arMove _ _ _ _ _ h

theorem BaseKeeps.seqReclaimExpiry (k : BaseKeeps R P) (f : Feeder) [Fact (R f)] (s : State) (h : P s) : P (seqReclaimExpiry f s) :=
  k.arMove _ _ _ _ _ h

theorem BaseKeeps.seqToClosing (k : BaseKeeps R P) (f : Feeder) [Fact (R f)] (s : State) (h : P s) : P (seqToClosing f s) :=
  k.arMove _ _ _ _ _ h

theorem BaseKeeps.claimEntered (k : BaseKeeps R P) (f : Feeder) [Fact (R f)] (c : ClaimInfo) (s : State) (h : P s) :
    P (claimEntered f c s) := k.seqClaimEntry _ _ _ (k.broadcast _ _ h)

theorem BaseKeeps.claimLeft (k : BaseKeeps R P) (f : Feeder) [Fact (R f)] (c : ClaimInfo) (cause : ReleaseCause) (s : State) (h : P s) :
    P (claimLeft f c cause s) := k.broadcast _ _ h

/-- Setting a system claim keeps the property if the change of the claim itself does. -/
theorem BaseKeeps.setClaimOf (k : BaseKeeps R P) (f : Feeder) [Fact (R f)] (n : SystemClaim) (on : Bool) (s : State) (h : P s)
    (h1 : P (s.onFeeder f fun x => { x with claims := x.claims.put n on })) : P (setSystemClaim f n on s) := by
  unfold Machine.setSystemClaim
  dsimp only
  split
  · exact h
  · split
    · exact k.claimEntered _ _ _ h1
    · exact k.claimLeft _ _ _ _ h1

theorem BaseKeeps.setSystemClaim (k : BaseKeeps R P) (f : Feeder) [Fact (R f)] (n : SystemClaim) (on : Bool) (s : State) (hn : n ≠ .store)
    (h : P s) : P (setSystemClaim f n on s) := k.setClaimOf f n on s h (k.claim s f n on hn h)

theorem BaseKeeps.sayHunt (k : BaseKeeps R P) (a b : HuntState) (d : HuntDetail) (s : State) (h : P s) : P (sayHunt a b d s) :=
  k.broadcast _ _ h

theorem BaseKeeps.raiseHuntLevel (k : BaseKeeps R P) (s : State) (h : P s) : P (raiseHuntLevel s) := by
  unfold Machine.raiseHuntLevel
  split
  · exact h
  · split
    · exact k.sayHunt _ _ _ _ (k.onHunt _ _ h)
    · exact h

theorem BaseKeeps.setFireClaim (k : BaseKeeps R P) (f : Feeder) [Fact (R f)] (s : State) (h : P s) : P (setFireClaim f s) := by
  unfold Machine.setFireClaim
  split <;> exact k.setSystemClaim _ _ _ _ (by decide) h

theorem CoreKeeps.handSettings (k : CoreKeeps R P) (f : Feeder) [Fact (R f)] (old : Group) (s : State) (h : P s) :
    P (handSettings f old s) := by
  unfold Machine.handSettings
  refine k.raiseHuntLevel _ (k.seqReload _ _ (k.still _ _ _ ?_ h))
  split <;> rfl

/-- Applying a level keeps the property if loading the effective settings of that level does. -/
theorem CoreKeeps.applyLevel (k : CoreKeeps R P) (f : Feeder) [Fact (R f)] (l : Level) (c : ApplyCause) (s : State) (h : P s)
    (h1 : (s.feeder f).fire.isSome = true → P (loadEffective f l s)) : P (applyLevel f l c s) := by
  unfold Machine.applyLevel
  split
  · exact h
  · next x hx =>
    have h2 : P (loadEffective f l s) := h1 (by simp [hx])
    dsimp only
    split
    · exact k.handSettings _ _ _ (k.setFireClaim _ _ (k.broadcast _ _ (k.broadcast _ _ h2)))
    · exact k.handSettings _ _ _ (k.setFireClaim _ _ (k.broadcast _ _ h2))

theorem CoreKeeps.judgeOf (k : CoreKeeps R P) (f : Feeder) [Fact (R f)] (s : State) (h : P s) : P (judge f s) := by
  unfold Machine.judge
  split
  · exact k.applyLevel _ _ _ _ h fun hx => k.level _ _ hx h
  · split
    · split
      · next x hx => exact k.applyLevel _ _ _ _ h fun _ => k.reload _ _ _ hx h
      · exact h
    · exact h

theorem BaseKeeps.removeSystemClaim (k : BaseKeeps R P) (f : Feeder) [Fact (R f)] (n : SystemClaim) (s : State) (hn : n ≠ .store) (h : P s) :
    P (removeSystemClaim f n s) := k.setSystemClaim _ _ _ _ hn h

theorem BaseKeeps.changeLock (k : BaseKeeps R P) (f : Feeder) [Fact (R f)] (l : Lock) (c : LockCause) (s : State) (h : P s) :
    P (changeLock f l c s) := k.broadcast _ _ (k.light _ _ _ rfl h)

theorem BaseKeeps.renewLock (k : BaseKeeps R P) (f : Feeder) [Fact (R f)] (p : Port) (s : State) (h : P s) : P (renewLock f p s) := by
  unfold Machine.renewLock
  split
  · split
    · exact k.light _ _ _ rfl h
    · exact h
  · exact h

/-! ### Claims that bar a close -/

theorem holdsHoldOpen_of_empty (s : State) (f : Feeder) (h : blockSetEmpty s f = true) : holdsHoldOpen s f = false := by
  have : blockSet s f = [] := by simpa [blockSetEmpty] using h
  simp [holdsHoldOpen, this]

theorem holdsHoldOpen_of_restore (s : State) (f : Feeder) (h : restoreBlocked s f = false) : holdsHoldOpen s f = false := by
  simp only [restoreBlocked, holdsHoldOpen, List.any_eq_false] at h ⊢
  intro c hc hk
  refine h c hc ?_
  cases c with
  | system n => cases n <;> first | rfl | exact absurd (of_decide_eq_true hk) (by decide)
  | port => rfl

/-- The property is kept by what the switching units and the hunt do, the judgement of quiescence said whole: a property of a feeder
that the judgement leaves alone can be followed through a hunt. -/
structure SwitchKeeps (R : Feeder → Prop) (P : State → Prop) : Prop extends BaseKeeps R P where
  judge : ∀ (s : State) (f : Feeder) [Fact (R f)], P s → P (judge f s)
  calm : ∀ (s : State) (f : Feeder) [Fact (R f)] (g), Calm (s.feeder f) (g (s.feeder f)) → P s → P (s.onFeeder f g)
  trip : ∀ (s : State) (f : Feeder) [Fact (R f)] (op) (d), op.kind = .trip → P s →
    P (s.onFeeder f fun x => { x with inFlight := some { op := op, deadline := d }, transitTimer := none })
  close : ∀ (s : State) (f : Feeder) [Fact (R f)] (op) (d), op.kind = .close → holdsHoldOpen s f = false → P s →
    P (s.onFeeder f fun x => { x with inFlight := some { op := op, deadline := d }, transitTimer := none })
  join : ∀ (s : State) (f : Feeder) [Fact (R f)] (y) (origin) (permit), (s.feeder f).inFlight = some y → y.op.kind = .trip → P s → P (joinTrip f origin permit s)
  opId : ∀ s, P s → P (advanceOpId s)
  detector : ∀ s d, P s → P { s with detector := d }
  lastHunt : ∀ s r, P s → P { s with lastHunt := r }

/-- The property is kept by what every block does at once, by its elementary updates. -/
structure EngineKeeps (R : Feeder → Prop) (P : State → Prop) : Prop extends SwitchKeeps R P, CoreKeeps R P where
  quiet : ∀ (s : State) (f : Feeder) [Fact (R f)] (g), Quiet (s.feeder f) (g (s.feeder f)) → P s → P (s.onFeeder f g)
  endOp : ∀ (s : State) (f : Feeder) [Fact (R f)], P s → P (s.onFeeder f fun x => { x with inFlight := none })
  light := fun s f _ g hg h => still s f g hg.still h
  judge := fun s f _ h => CoreKeeps.judgeOf ⟨⟨fun s f _ g hg h => still s f g hg.still h, claim, offer, hunt⟩, still, level, reload⟩ f s h
  calm := fun s f _ g hg h => quiet s f g hg.quiet h

theorem SwitchKeeps.judged (k : SwitchKeeps R P) (f : Feeder) [Fact (R f)] (act : State → State) (s : State) (h : P (act s)) :
    P (judged f act s) := by
  unfold Machine.judged
  dsimp only
  split
  · exact h
  · exact k.judge _ _ h

theorem SwitchKeeps.placeSystemClaim (k : SwitchKeeps R P) (f : Feeder) [Fact (R f)] (n : SystemClaim) (s : State) (hn : n ≠ .store) (h : P s) :
    P (placeSystemClaim f n s) := k.judged _ _ _ (k.setSystemClaim _ _ _ _ hn h)

/-- A quiet change at one feeder, in the form the operations use. -/
theorem EngineKeeps.silent (k : EngineKeeps R P) (f : Feeder) [Fact (R f)] (g : FeederState → FeederState) (s : State)
    (hf : (g (s.feeder f)).fire = (s.feeder f).fire) (hi : (g (s.feeder f)).inFlight = (s.feeder f).inFlight)
    (hc : (g (s.feeder f)).claims = (s.feeder f).claims) (hx : (g (s.feeder f)).closedContact = (s.feeder f).closedContact)
    (ho : (g (s.feeder f)).openContact = (s.feeder f).openContact) (h : P s)
    (hm : (g (s.feeder f)).meas = (s.feeder f).meas := by rfl)
    (hn : (g (s.feeder f)).invalidCount = (s.feeder f).invalidCount := by rfl)
    (hr : (g (s.feeder f)).recoveryCount = (s.feeder f).recoveryCount := by rfl) : P (s.onFeeder f g) :=
  k.quiet _ _ _ ⟨hf, hi, hc, hx, ho, hm, hn, hr⟩ h

/-! ### Switching units -/

theorem SwitchKeeps.sendOpDone (k : SwitchKeeps R P) (f : Feeder) [Fact (R f)] (c : Completed) (sup : Option (Nat × Origin)) (s : State)
    (h : P s) : P (sendOpDone f c sup s) := by
  unfold Machine.sendOpDone
  refine foldl_keeps P _ (fun s o hs => ?_) _ _ h
  split
  · exact k.offer _ _ _ hs
  · exact hs

theorem SwitchKeeps.reportCompletion (k : SwitchKeeps R P) (f : Feeder) [Fact (R f)] (c : Completed) (sup : Option (Nat × Origin)) (s : State)
    (h : P s) : P (reportCompletion f c sup s) :=
  k.judged _ _ _ (k.seqCompletion _ _ _ (k.sendOpDone _ _ _ _ (k.calm _ _ _ rfl h)))

theorem SwitchKeeps.admitTrip (k : SwitchKeeps R P) (f : Feeder) [Fact (R f)] (o : Origin) (permit : Option Bool) (s : State) (h : P s) :
    P (admitOp f .trip o permit s) := k.opId _ (k.trip _ _ _ _ rfl h)

theorem SwitchKeeps.admitClose (k : SwitchKeeps R P) (f : Feeder) [Fact (R f)] (o : Origin) (permit : Option Bool) (s : State)
    (hh : holdsHoldOpen s f = false) (h : P s) : P (admitOp f .close o permit s) := k.opId _ (k.close _ _ _ _ rfl hh h)

theorem SwitchKeeps.completeAlready (k : SwitchKeeps R P) (f : Feeder) [Fact (R f)] (kind : OpKind) (o : Origin) (permit : Option Bool)
    (s : State) (h : P s) : P (completeAlready f kind o permit s).1 :=
  k.reportCompletion _ _ _ _ (k.opId _ h)

theorem SwitchKeeps.supersede (k : SwitchKeeps R P) (f : Feeder) [Fact (R f)] (c : Operation) (o : Origin) (permit : Option Bool) (s : State)
    (h : P s) : P (supersede f c o permit s).1 := k.reportCompletion _ _ _ _ (k.admitTrip _ _ _ _ h)

theorem SwitchKeeps.requestTrip (k : SwitchKeeps R P) (f : Feeder) [Fact (R f)] (o : Origin) (permit : Option Bool) (s : State) (h : P s) :
    P (requestTrip f o permit s).1 := by
  unfold Machine.requestTrip
  split
  · next y hy =>
    split
    · next hk => exact k.join _ _ _ _ _ hy hk h
    · exact k.supersede _ _ _ _ _ h
  · split
    · exact k.completeAlready _ _ _ _ _ h
    · exact k.admitTrip _ _ _ _ h

theorem SwitchKeeps.requestPortClose (k : SwitchKeeps R P) (f : Feeder) [Fact (R f)] (p : Port) (s : State) (h : P s) :
    P (requestPortClose f p s).1 := by
  unfold Machine.requestPortClose
  dsimp only
  split_ifs with h1 h2 h3 h4 h5 h6
  · exact h
  · exact h
  · exact h
  · exact k.completeAlready _ _ _ _ _ h
  · exact h
  · exact h
  · exact k.admitClose _ _ _ _ (by simpa using h6) h

theorem SwitchKeeps.requestBlockClose (k : SwitchKeeps R P) (f : Feeder) [Fact (R f)] (o : Origin) (blocked : Bool) (s : State)
    (hb : blocked = false → holdsHoldOpen s f = false) (h : P s) : P (requestBlockClose f o blocked s).1 := by
  unfold Machine.requestBlockClose
  dsimp only
  split_ifs with h1 h2 h3 h4 h5
  · exact h
  · exact h
  · exact k.completeAlready _ _ _ _ _ h
  · exact h
  · exact h
  · exact k.admitClose _ _ _ _ (hb (by simpa using h5)) h

theorem SwitchKeeps.requestReclose (k : SwitchKeeps R P) (f : Feeder) [Fact (R f)] (s : State) (h : P s) : P (requestReclose f s).1 :=
  k.requestBlockClose _ _ _ _ (fun hb => holdsHoldOpen_of_empty _ _ (by simpa using hb)) h

theorem SwitchKeeps.requestHuntClose (k : SwitchKeeps R P) (f : Feeder) [Fact (R f)] (s : State) (h : P s) : P (requestHuntClose f s).1 := by
  unfold Machine.requestHuntClose
  split
  · exact h
  · exact k.requestBlockClose _ _ _ _ (holdsHoldOpen_of_restore _ _) h

theorem SwitchKeeps.reportEnd (k : SwitchKeeps R P) (f : Feeder) [Fact (R f)] (s : State) (h : P s) : P (reportEnd f s) := by
  unfold Machine.reportEnd
  dsimp only
  split
  · exact k.judge _ _ (k.calm _ _ _ rfl h)
  · exact k.judge _ _ h

theorem EngineKeeps.completeInFlight (k : EngineKeeps R P) (f : Feeder) [Fact (R f)] (op : Operation) (o : OpOutcome) (s : State) (h : P s) :
    P (completeInFlight f op o s).1 := by
  unfold Machine.completeInFlight
  dsimp only
  split
  · exact k.reportCompletion _ _ _ _ (k.placeSystemClaim _ _ _ (by decide) (k.broadcast _ _ (k.endOp _ _ h)))
  · exact k.reportCompletion _ _ _ _ (k.endOp _ _ h)

theorem SwitchKeeps.huntTakeLock (k : SwitchKeeps R P) (f : Feeder) [Fact (R f)] (s t : State) (h : P s) (ht : huntTakeLock f s = some t) :
    P t := by
  unfold Machine.huntTakeLock at ht
  split at ht
  · cases ht; exact k.judge _ _ (k.onHunt _ _ (k.changeLock _ _ _ _ h))
  · cases ht; exact k.onHunt _ _ h
  · cases ht

theorem SwitchKeeps.huntDropLock (k : SwitchKeeps R P) (f : Feeder) [Fact (R f)] (s : State) (h : P s) : P (huntDropLock f s) := by
  unfold Machine.huntDropLock
  split
  · exact k.judge _ _ (k.onHunt _ _ (k.changeLock _ _ _ _ h))
  · exact h

/-! ### The hunt -/

variable [∀ f, Fact (R f)]

omit [∀ f, Fact (R f)] in
theorem SwitchKeeps.setHuntState (k : SwitchKeeps R P) (n : HuntState) (d : HuntDetail) (s : State) (h : P s) :
    P (setHuntState n d s) := by
  unfold Machine.setHuntState
  dsimp only
  split
  · exact k.onHunt _ _ h
  · exact k.sayHunt _ _ _ _ (k.onHunt _ _ h)

omit [∀ f, Fact (R f)] in
theorem SwitchKeeps.beginWindow (k : SwitchKeeps R P) (s : State) (h : P s) : P (beginWindow s) := by
  unfold Machine.beginWindow
  split
  · exact h
  · exact k.onHunt _ _ h

omit [∀ f, Fact (R f)] in
theorem SwitchKeeps.setPendingIfNone (k : SwitchKeeps R P) (r : HuntResult) (s : State) (h : P s) : P (setPendingIfNone r s) := by
  unfold Machine.setPendingIfNone
  split
  · split
    · exact k.onHunt _ _ h
    · exact h
  · exact h

omit [∀ f, Fact (R f)] in
theorem SwitchKeeps.concludeCandidate (k : SwitchKeeps R P) (i : Nat) (o : CandidateOutcome) (s : State) (h : P s) :
    P (concludeCandidate i o s) := k.onHunt _ _ (k.onHunt _ _ h)

omit [∀ f, Fact (R f)] in
theorem SwitchKeeps.suspendHunt (k : SwitchKeeps R P) (r : ResumePoint) (s : State) (h : P s) : P (suspendHunt r s) :=
  k.setHuntState _ _ _ (k.onHunt _ _ (k.onHunt _ _ h))

omit [∀ f, Fact (R f)] in
theorem SwitchKeeps.startHunt (k : SwitchKeeps R P) (c : HuntCause) (s : State) (h : P s) : P (startHunt c s).1 := by
  have h1 := k.hunt s (some (newHunt c s)) h
  unfold Machine.startHunt
  split
  · exact k.setHuntState .identify { cause := some c } _ (k.beginWindow _ h1)
  · exact h1

omit [∀ f, Fact (R f)] in
theorem SwitchKeeps.trialEntry (k : SwitchKeeps R P) (w : Option (Nat × Nat × Option Feeder)) (c : Option HuntCause) (s : State)
    (h : P s) : P (trialEntry w c s).1 := by
  unfold Machine.trialEntry
  split
  · exact h
  · dsimp only
    split_ifs
    · exact h
    · exact k.suspendHunt _ _ h
    · exact k.onHunt _ _ (k.setHuntState _ _ _ (k.onHunt _ _ h))
    · exact k.onHunt _ _ (k.onHunt _ _ h)
    · exact k.setHuntState _ _ _ (k.onHunt _ _ (k.onHunt _ _ h))

theorem SwitchKeeps.tripCandidate (k : SwitchKeeps R P) (i : Nat) (f : Feeder) (s : State) (h : P s) :
    P (tripCandidate i f s).1 := by
  have h1 := k.setHuntState .trialOpen {} _ (k.onHunt (fun r => { r with current := some i, resume := none }) _ h)
  unfold Machine.tripCandidate
  dsimp only
  split
  · exact k.concludeCandidate _ _ _ h1
  · next s2 h2 =>
    have h3 := k.requestTrip f .hunt none s2 (k.huntTakeLock _ _ _ h1 h2)
    split
    · exact k.onHunt _ _ h3
    · exact k.onHunt _ _ h3
    · exact k.huntDropLock _ _ (k.concludeCandidate _ _ _ h3)
    · exact k.huntDropLock _ _ (k.concludeCandidate _ _ _ h3)

theorem SwitchKeeps.candidateTurn (k : SwitchKeeps R P) (i : Nat) (f : Feeder) (s : State) (h : P s) :
    P (candidateTurn i f s).1 := by
  unfold Machine.candidateTurn
  dsimp only
  split_ifs
  · exact k.concludeCandidate _ _ _ h
  · exact k.concludeCandidate _ _ _ h
  · exact k.concludeCandidate _ _ _ h
  · exact k.tripCandidate _ _ _ h

theorem SwitchKeeps.nextCandidate (k : SwitchKeeps R P) (s : State) (h : P s) : P (nextCandidate s).1 := by
  unfold Machine.nextCandidate
  split
  · exact h
  · split
    · exact h
    · split
      · exact k.onHunt _ _ h
      · split_ifs
        · exact k.suspendHunt _ _ h
        · exact k.onHunt _ _ h
        · split
          · exact k.candidateTurn _ _ _ h
          · exact h

theorem SwitchKeeps.concludeRestore (k : SwitchKeeps R P) (f : Feeder) (b : Bool) (s : State) (h : P s) :
    P (concludeRestore f b s).1 := by
  unfold Machine.concludeRestore
  split
  · exact h
  · split
    · exact k.huntDropLock _ _ (k.concludeCandidate _ _ _ h)
    · exact k.huntDropLock _ _ (k.onHunt _ _ (k.onHunt _ _ h))

theorem SwitchKeeps.restoreFeeder (k : SwitchKeeps R P) (f : Feeder) (s : State) (h : P s) : P (restoreFeeder f s).1 := by
  have h1 := k.requestHuntClose f _ (k.setHuntState .trialRestore {} _ (k.onHunt
    (fun r => { r with deadline := none, window := none, tripInWatch := none, dropoutSeen := none }) _ h))
  unfold Machine.restoreFeeder
  dsimp only
  split
  · exact k.onHunt _ _ h1
  · exact k.concludeRestore _ _ _ h1
  · exact k.concludeRestore _ _ _ h1
  · exact k.concludeRestore _ _ _ h1

omit [∀ f, Fact (R f)] in
theorem SwitchKeeps.detectorUnresolved (k : SwitchKeeps R P) (vn : Option Nat) (s : State) (h : P s) : P (detectorUnresolved vn s) := by
  unfold Machine.detectorUnresolved
  split
  · exact h
  · exact k.broadcast _ _ (k.detector _ _ h)

omit [∀ f, Fact (R f)] in
theorem SwitchKeeps.becomeIdle (k : SwitchKeeps R P) (vn : Option Nat) (r : HuntRun) (res : HuntResult) (s : State) (h : P s) :
    P (becomeIdle vn r res s).1 := by
  have h1 := k.broadcast (.huntResult (huntReport s r res)) _
    (k.sayHunt r.state .idle {} _ (k.lastHunt _ (some (huntReport s r res)) (k.hunt s none h)))
  unfold Machine.becomeIdle
  dsimp only
  split
  · exact k.detectorUnresolved _ _ h1
  · split
    · exact k.startHunt _ _ h1
    · exact h1

theorem SwitchKeeps.outcomeWithoutRestore (k : SwitchKeeps R P) (f : Feeder) (g : State → State) (s : State) (h : P (g s)) :
    P (outcomeWithoutRestore f g s).1 := k.huntDropLock _ _ h

theorem SwitchKeeps.restoreIdentified (k : SwitchKeeps R P) (f : Feeder) (s : State) (h : P s) : P (restoreIdentified f s).1 := by
  unfold Machine.restoreIdentified
  dsimp only
  split
  · exact k.outcomeWithoutRestore _ _ _ (k.onHunt _ _ h)
  · split
    · exact k.outcomeWithoutRestore _ _ _ (k.onHunt _ _ h)
    · exact k.outcomeWithoutRestore _ _ _ (k.onHunt _ _ h)
    · exact k.outcomeWithoutRestore _ _ _ (k.onHunt _ _ h)
    · split
      · exact k.outcomeWithoutRestore _ _ _ (k.onHunt _ _ h)
      · next s1 h1 => exact k.restoreFeeder _ _ (k.huntTakeLock _ _ _ h h1)

theorem SwitchKeeps.finishHunt (k : SwitchKeeps R P) (vn : Option Nat) (s : State) (h : P s) : P (finishHunt vn s).1 := by
  unfold Machine.finishHunt
  split
  · exact h
  · split
    · exact h
    · split
      · exact k.becomeIdle _ _ _ _ h
      · split
        · split
          · exact k.restoreFeeder _ _ h
          · exact k.outcomeWithoutRestore _ _ _ (k.concludeCandidate _ _ _ h)
        · split
          · exact k.restoreIdentified _ _ h
          · exact k.becomeIdle _ _ _ _ h

theorem SwitchKeeps.huntStep (k : SwitchKeeps R P) (vn : Option Nat) (g : HuntGo) (s : State) (h : P s) : P (huntStep vn g s).1 := by
  unfold Machine.huntStep
  split
  · exact h
  · exact k.trialEntry _ _ _ h
  · exact k.nextCandidate _ h
  · exact k.finishHunt _ _ h

theorem SwitchKeeps.huntRun (k : SwitchKeeps R P) (vn : Option Nat) : ∀ (n : Nat) (x : State × HuntGo), P x.1 → P (huntRun vn n x)
  | 0, _, h => h
  | n + 1, (s, g), h => by
    unfold Machine.huntRun
    split
    · exact h
    · exact k.huntRun vn n _ (k.huntStep _ _ _ h)

/-- Whatever the hunt does at once from a step keeps the property. -/
theorem SwitchKeeps.huntSettle (k : SwitchKeeps R P) (vn : Option Nat) (x : State × HuntGo) (h : P x.1) : P (huntSettle vn x) :=
  k.huntRun _ _ _ h

theorem SwitchKeeps.foundOn (k : SwitchKeeps R P) (f : Feeder) (r : HuntResult) (s : State) (h : P s) : P (foundOn f r s).1 :=
  k.huntDropLock _ _ (k.placeSystemClaim _ _ _ (by decide) (k.onHunt _ _ (k.onHunt _ _ h)))

theorem SwitchKeeps.isolateDone (k : SwitchKeeps R P) (r : HuntRun) (f : Feeder) (o : OpOutcome) (s : State) (h : P s) :
    P (isolateDone r f o s).1 := by
  have h1 := k.onHunt (fun r => { r with op := none }) s h
  unfold Machine.isolateDone
  dsimp only
  by_cases ho : o = .done
  · simp only [ho, if_true]
    split_ifs
    · exact k.foundOn _ _ _ (k.onHunt _ _ h1)
    · exact k.onHunt _ _ h1
    · exact k.setHuntState _ _ _ (k.onHunt _ _ (k.onHunt _ _ h1))
  · simp only [ho, if_false]
    have h2 := fun o : IsolateOutcome => k.huntDropLock f _ (k.onHunt
      (fun r => { r with identified := r.identified.map fun i => { i with isolate := o } }) _
      (k.onHunt (fun r => { r with deadline := none, window := none, tripInWatch := none, dropoutSeen := none }) _ h1))
    split_ifs <;> first | exact h2 _ | exact k.onHunt _ _ (h2 _)

theorem SwitchKeeps.trialTripDone (k : SwitchKeeps R P) (r : HuntRun) (i : Nat) (f : Feeder) (o : OpOutcome) (s : State)
    (h : P s) : P (trialTripDone r i f o s).1 := by
  have h1 := k.onHunt (fun r => { r with op := none }) s h
  unfold Machine.trialTripDone
  dsimp only
  split_ifs
  · exact k.restoreFeeder _ _ h1
  · exact k.setHuntState _ _ _ (k.onHunt _ _ h1)
  · exact k.huntDropLock _ _ (k.concludeCandidate _ _ _ h1)

theorem SwitchKeeps.huntOpDone (k : SwitchKeeps R P) (f : Feeder) (id : Nat) (kind : OpKind) (o : OpOutcome) (sup : Option Origin)
    (s : State) (h : P s) : P (huntOpDone f id kind o sup s).1 := by
  unfold Machine.huntOpDone
  split
  · exact h
  · split
    · exact h
    · split
      · split
        · exact k.isolateDone _ _ _ _ h
        · exact k.trialTripDone _ _ _ _ _ h
        · exact k.concludeRestore _ _ _ h
        · exact h
      · exact h

omit [∀ f, Fact (R f)] in
theorem SwitchKeeps.huntProtectionTrip (k : SwitchKeeps R P) (f : Feeder) (s : State) (h : P s) :
    P (huntProtectionTrip f s) := by
  unfold Machine.huntProtectionTrip
  split
  · exact h
  · split
    · exact k.beginWindow _ h
    · split
      · exact h
      · exact k.onHunt _ _ h
    · exact h

theorem SwitchKeeps.deliver (k : SwitchKeeps R P) (vn : Option Nat) (ns : List HuntNotice) (s : State) (h : P s) :
    P (deliver vn ns s) := by
  unfold Machine.deliver
  refine foldl_keeps P _ (fun s n hs => ?_) _ _ h
  split
  · exact k.huntSettle _ _ (k.huntOpDone _ _ _ _ _ _ hs)
  · exact k.huntProtectionTrip _ _ hs

theorem SwitchKeeps.huntDropout (k : SwitchKeeps R P) (s : State) (h : P s) : P (huntDropout s).1 := by
  unfold Machine.huntDropout
  split
  · exact h
  · split
    · exact h
    · exact k.onHunt _ _ (k.onHunt _ _ h)
    · exact k.onHunt _ _ h
    · split
      · exact h
      · split
        · exact k.foundOn _ _ _ (k.onHunt _ _ h)
        · exact k.huntDropLock _ _ (k.onHunt _ _ (k.onHunt _ _ (k.onHunt _ _ h)))
    · exact k.setPendingIfNone _ _ h
    · split
      · split_ifs
        · exact k.setHuntState _ _ _ (k.onHunt _ _ (k.onHunt _ _ h))
        · exact k.onHunt _ _ (k.onHunt _ _ h)
        · exact k.foundOn _ _ _ (k.onHunt _ _ (k.onHunt _ _ h))
      · exact h
    · exact k.setPendingIfNone _ _ h
    · exact k.onHunt _ _ h

omit [∀ f, Fact (R f)] in
theorem SwitchKeeps.abortHunt (k : SwitchKeeps R P) (r : HuntResult) (s : State) (h : P s) : P (abortHunt r s).1 := by
  unfold Machine.abortHunt
  split
  · exact h
  · split
    · exact h
    · split <;> first | exact h | exact k.onHunt _ _ h | exact k.onHunt _ _ (k.onHunt _ _ h)

theorem SwitchKeeps.confirmExpired (k : SwitchKeeps R P) (r : HuntRun) (s : State) (h : P s) : P (confirmExpired r s).1 := by
  unfold Machine.confirmExpired
  split
  · exact h
  · exact k.huntDropLock _ _ (k.onHunt _ _ (k.onHunt _ _ h))

theorem SwitchKeeps.enterIsolate (k : SwitchKeeps R P) (f : Feeder) (w : Nat × Nat × Option Feeder) (s : State) (h : P s) :
    P (enterIsolate f w s).1 := by
  have h1 := k.setHuntState .isolate { sums := some w } _ (k.onHunt
    (fun r =>
      { r with identified := some { feeder := f, isolate := .opened, endRestore := none }, dropoutSeen := some false }) _
    (k.onHunt (fun r => { r with deadline := none, window := none, tripInWatch := none, dropoutSeen := none }) s h))
  unfold Machine.enterIsolate
  dsimp only
  split
  · exact k.onHunt _ _ (k.onHunt _ _ h1)
  · split
    · exact k.onHunt _ _ (k.onHunt _ _ h1)
    · next s2 h2 =>
      have h3 := k.requestTrip f .hunt none s2 (k.huntTakeLock _ _ _ h1 h2)
      split
      · exact k.onHunt _ _ h3
      · exact k.onHunt _ _ h3
      · exact k.huntDropLock _ _ (k.onHunt _ _ (k.onHunt _ _ h3))
      · exact k.huntDropLock _ _ (k.onHunt _ _ (k.onHunt _ _ h3))

theorem SwitchKeeps.endWindow (k : SwitchKeeps R P) (r : HuntRun) (w : Window) (s : State) (h : P s) :
    P (endWindow r w s).1 := by
  unfold Machine.endWindow
  dsimp only
  split
  · split
    · exact k.enterIsolate _ _ _ (k.onHunt _ _ h)
    · exact k.onHunt _ _ h
  · exact k.onHunt _ _ h

theorem SwitchKeeps.countFrame (k : SwitchKeeps R P) (rs : PerFeeder ScoredRecord) (s : State) (h : P s) :
    P (countFrame rs s).1 := by
  unfold Machine.countFrame
  split
  · exact h
  · split
    · dsimp only
      split
      · exact k.endWindow _ _ _ (k.onHunt _ _ h)
      · exact k.onHunt _ _ h
    · exact h

/-! ### Elements, detector, completions -/

theorem SwitchKeeps.protectionTrip (k : SwitchKeeps R P) (vn : Option Nat) (f : Feeder) (b : Bool) (s : State) (h : P s) :
    P (protectionTrip vn f b s) := k.deliver _ _ _ (k.requestTrip _ _ _ _ h)

theorem EngineKeeps.raiseTrip (k : EngineKeeps R P) (vn : Option Nat) (f : Feeder) (r : FeederRecord) (x : FeederFire) (els : List ElementName)
    (s : State) (h : P s) : P (raiseTrip vn f r x els s) := by
  unfold Machine.raiseTrip
  split
  · exact h
  · exact k.protectionTrip _ _ _ _ (k.broadcast _ _ (k.silent _ _ _ rfl rfl rfl rfl rfl h))

theorem EngineKeeps.reportElements (k : EngineKeeps R P) (f : Feeder) (s : State) (h : P s) : P (reportElements f s) :=
  k.judge _ _ (k.silent _ _ _ rfl rfl rfl rfl rfl h)

theorem EngineKeeps.reachElements (k : EngineKeeps R P) (vn : Option Nat) (f : Feeder) (n : Nat) (r : FeederRecord) (s : State) (h : P s) :
    P (reachElements vn f n r s) := by
  unfold Machine.reachElements
  dsimp only
  split
  · exact h
  · split
    · exact h
    · exact k.reportElements _ _ (k.raiseTrip _ _ _ _ _ _ (k.silent _ _ _ rfl rfl rfl rfl rfl h))

/-- A change of a feeder's measurement state alone. -/
def setMeas (m : MeasState) (a b : Nat) (x : FeederState) : FeederState :=
  { x with meas := m, invalidCount := a, recoveryCount := b }

theorem measMove_eq (v : Bool) (x : FeederState) :
    measMove v x = setMeas (measMove v x).meas (measMove v x).invalidCount (measMove v x).recoveryCount x := by
  unfold measMove setMeas
  split <;> (try split) <;> rfl

theorem onFeeder_measMove (s : State) (f : Feeder) (v : Bool) :
    s.onFeeder f (measMove v) = s.onFeeder f (setMeas (measMove v (s.feeder f)).meas (measMove v (s.feeder f)).invalidCount
      (measMove v (s.feeder f)).recoveryCount) := by
  unfold State.onFeeder State.feeder
  rw [← measMove_eq]

/-- A record keeps what its move of the measurement state keeps. -/
theorem SwitchKeeps.measRecord (k : SwitchKeeps R P) (f : Feeder) (v : Bool) (s : State) (h1 : P (s.onFeeder f (measMove v))) :
    P (measRecord f v s) := by
  unfold Machine.measRecord
  dsimp only
  split
  · exact k.placeSystemClaim _ _ _ (by decide) (k.broadcast _ _ h1)
  · split
    · exact k.removeSystemClaim _ _ _ (by decide) (k.broadcast _ _ h1)
    · exact h1

theorem SwitchKeeps.detectorFrame (k : SwitchKeeps R P) (vn : Nat) (v : Bool) (n : Nat) (s : State) (h : P s) :
    P (detectorFrame vn v n s) := by
  unfold Machine.detectorFrame
  split
  · exact h
  · have h1 := fun d => k.detector s d h
    dsimp only
    split
    · split
      · exact k.huntSettle _ _ (k.startHunt _ _ (k.broadcast _ _ (h1 _)))
      · exact k.broadcast _ _ (h1 _)
    · split
      · split
        · exact k.huntSettle _ _ (k.huntDropout _ (h1 _))
        · exact k.huntSettle _ _ (k.huntDropout _ (k.broadcast _ _ (h1 _)))
      · exact h1 _

theorem SwitchKeeps.huntFrame (k : SwitchKeeps R P) (fr : MeasFrame) (s : State) (h : P s) : P (huntFrame fr s) := by
  unfold Machine.huntFrame
  dsimp only
  split
  · exact k.huntSettle _ _ (k.countFrame _ _ (k.detectorFrame _ _ _ _ h))
  · exact k.detectorFrame _ _ _ _ h

/-- An accepted frame keeps the property if the changes of the measurement states, of the link and of the bus record do. -/
theorem EngineKeeps.acceptFrame (k : EngineKeeps R P) (fr : MeasFrame) (s : State)
    (hm : ∀ t f m a b, P t → P (t.onFeeder f (setMeas m a b))) (hl : P (acceptOnLink fr s)) (hb : ∀ t, P t → P { t with bus := { vn := fr.vn, valid := fr.busValid } }) :
    P (acceptFrame fr s) := by
  unfold Machine.acceptFrame
  dsimp only
  exact k.huntFrame _ _ (forFeeders_keeps P _ (fun f t ht => k.reachElements _ _ _ _ _ ht) _ _
    (hb _ (forFeeders_keeps P _ (fun f t ht => k.measRecord _ _ _ (onFeeder_measMove t f _ ▸ hm _ _ _ _ _ ht)) _ _ hl)))

theorem EngineKeeps.completeOperation (k : EngineKeeps R P) (f : Feeder) (op : Operation) (o : OpOutcome) (s : State) (h : P s) :
    P (completeOperation f op o s) := k.reportEnd _ _ (k.deliver _ _ _ (k.completeInFlight _ _ _ _ h))

omit [∀ f, Fact (R f)] in
theorem SwitchKeeps.sayExternal (k : SwitchKeeps R P) (f : Feeder) (m : Movement) (s : State) (h : P s) : P (sayExternal f m s) :=
  k.broadcast _ _ h

theorem EngineKeeps.switchingEnd (k : EngineKeeps R P) (f : Feeder) (b : Bool) (s : State) (h : P s) :
    P (switchingEnd f b s) := by
  have h1 := k.silent f (fun y => { y with lastEnd := if b then .closed else .opened }) s rfl rfl rfl rfl rfl h
  unfold Machine.switchingEnd
  dsimp only
  split
  · split
    · exact k.completeOperation _ _ _ _ h1
    · exact h1
  · split
    · exact k.judged _ _ _ (k.seqExternalOpen _ _ (k.sayExternal _ _ _ h1))
    · split
      · exact k.judged _ _ _ (k.seqExternalClose _ _ (k.sayExternal _ _ _ h1))
      · exact h1

theorem EngineKeeps.positionChanged (k : EngineKeeps R P) (f : Feeder) (s : State) (h : P s) : P (positionChanged f s) := by
  unfold Machine.positionChanged
  dsimp only
  split_ifs with hf
  · have h1 := k.silent f (restartTimers s.partTime) s rfl rfl rfl rfl rfl h
    split <;> first | exact h1 | exact k.switchingEnd _ _ _ h1
  · split <;> first | exact h | exact k.switchingEnd _ _ _ h

/-- A feeder's contacts after a scan of both. -/
def scanContacts (raw : ContactLevels) (y : FeederState) : FeederState :=
  { y with closedContact := y.closedContact.scan raw.closedContact, openContact := y.openContact.scan raw.openContact }

/-- A scan of a feeder keeps what its scanned contacts keep. -/
theorem EngineKeeps.scanFeeder (k : EngineKeeps R P) (f : Feeder) (raw : ContactLevels) (s : State)
    (h1 : P (s.onFeeder f (scanContacts raw))) : P (scanFeeder f raw s) := by
  unfold scanContacts at h1
  unfold Machine.scanFeeder
  dsimp only
  split_ifs <;>
    first
      | exact h1
      | exact k.positionChanged _ _ h1
      | exact k.judged _ _ _ (k.seqStartPosition _ _ h1)
      | exact k.judged _ _ _ (k.seqStartPosition _ _ (k.positionChanged _ _ h1))

theorem EngineKeeps.declareFault (k : EngineKeeps R P) (f : Feeder) (x : FaultKind) (s : State) (h : P s) :
    P (declareFault f x s) := by
  unfold Machine.declareFault
  cases x
  · exact k.broadcast _ _ (k.placeSystemClaim _ _ _ (by decide) (k.silent _ _ _ rfl rfl rfl rfl rfl h))
  · exact k.broadcast _ _ (k.placeSystemClaim _ _ _ (by decide) (k.silent _ _ _ rfl rfl rfl rfl rfl h))

/-! ### Targets -/

omit [∀ f, Fact (R f)] in
/-- A rise applied to a feeder, or a fall judged, keeps the property if loading any level does. -/
theorem EngineKeeps.followTarget (k : EngineKeeps R P) (load : ∀ s f l, P s → P (loadEffective f l s)) (old new : Level)
    (f : Feeder) [Fact (R f)] (s : State) (h : P s) : P (followTarget old new f s) := by
  unfold Machine.followTarget
  split
  · exact h
  · split
    · exact k.judged _ _ _ (k.applyLevel _ _ _ _ h fun _ => load _ _ _ h)
    · split
      · exact k.judge _ _ h
      · exact h

/-- Recomputing a target keeps the property if replacing a target and loading any level do. -/
theorem EngineKeeps.recomputeTarget (k : EngineKeeps R P) (load : ∀ s f l, P s → P (loadEffective f l s))
    (target : ∀ s d l, P s → P (s.onDistrict d fun y => { y with target := l })) (d : District) (s : State) (h : P s) :
    P (recomputeTarget d s) := by
  unfold Machine.recomputeTarget
  dsimp only
  split
  · exact h
  · exact forFeeders_keeps P _ (fun f t ht => k.followTarget load _ _ f t ht) _ _ (k.broadcast _ _ (target _ _ _ h))

/-! ### Queues -/

/-- What the blocks do puts entries at the tails of the queues and takes none away (R196, R197). -/
theorem queues_grow (q : PerPort (List EventEntry)) : EngineKeeps (fun _ => True) (fun s => ∀ p, q.get p <+: s.queues.get p) where
  still := fun _ _ _ _ _ h => h
  claim := fun _ _ _ _ _ _ h => h
  level := fun _ _ _ _ h => h
  reload := fun _ _ _ _ _ h => h
  offer := by
    intro s r ev h p
    refine (h p).trans ?_
    have g : ∀ (l : List EventEntry) (e : EventEntry), l <+: queueOffered l e := by
      intro l e
      unfold queueOffered
      split
      · exact List.prefix_append _ _
      · split
        · exact List.prefix_append _ _
        · exact List.prefix_rfl
    unfold offer
    split
    · exact List.prefix_rfl
    · cases p <;> cases r <;> first | exact g _ _ | exact List.prefix_rfl
  hunt := fun _ _ h => h
  quiet := fun _ _ _ _ _ h => h
  endOp := fun _ _ _ h => h
  trip := fun _ _ _ _ _ _ h => h
  close := fun _ _ _ _ _ _ _ h => h
  join := fun s f _ y o p _ _ h => by unfold joinTrip; exact h
  opId := fun _ h => h
  detector := fun _ _ h => h
  lastHunt := fun _ _ h => h

end Sys2Proof.Machine
end

