-- ==== Sys2Proof/Laws/Commands.lean ====
section
/-! SUPPORT. What a command other than a start-up can do to the part, said once: a property that the elementary updates below keep is
kept by `exec`. -/
namespace Sys2Proof.Machine

/-- A claim that the command may take out of the pool: a NORECLOSE claim, or the claim that a release or a force release names. -/
def mayLeave (i : Instr) (c : PortClaim) : Prop :=
  c.kind = .noReclose ∨
  match i with
  | .releaseClaim p target payload => c.is (target.toNat |> Feeder.ofNumber |>.getD c.feeder) c.kind p (numberAt payload 1 2) = true
  | .forceRelease _ _ _ => c.holder ≠ .crew
  | _ => False

/-- Every feeder: a command may reach any of them. -/
def Everywhere : Feeder → Prop := fun _ => True

theorem everywhere (f : Feeder) : Fact (Everywhere f) := ⟨trivial⟩

/-- A claim may enter the pool: PLACE_CLAIM (R87). -/
def mayEnter : Instr → Prop
  | .placeClaim _ _ _ => True
  | _ => False

/-- The command is a scan of the inputs. -/
def isScan : Instr → Prop
  | .inputScan _ => True
  | _ => False

/-- The command may move a measurement state: a frame, link loss, and the commit of a commissioning record (R4, R7, R8). -/
def mayMeasure : Instr → Prop
  | .measurementFrame _ => True
  | .linkLossDeadline => True
  | .commitEdit _ _ _ => True
  | _ => False

/-- A change of the pool that a command may make: the bound and the identities are kept, and only claims that may leave do. -/
structure PoolChange (i : Instr) (a b : List PortClaim) : Prop where
  size : a.length ≤ 32 → b.length ≤ 32
  distinct : Distinct a → Distinct b
  stays : ∀ c ∈ a, ¬ mayLeave i c → ∃ d ∈ b, SameClaim c d
  enters : mayEnter i ∨ ∀ d ∈ b, ∃ c ∈ a, SameClaim c d

/-- A change of the store that a command other than a start-up may make. -/
structure StoreChange (a b : Store) : Prop where
  frozen : a.frozen = true → b.frozen = true
  fits : StoreFits a → StoreFits b
  settings : a.frozen = true → heldSettings b = heldSettings a

/-- The command may remove a STORE claim: CLEAR_STORE_HOLD, and the commit of a commissioning record (R98, R101). -/
def mayClearStore : Instr → Prop
  | .clearStoreHold _ _ _ => True
  | .commitEdit _ _ _ => True
  | _ => False

/-- The property is kept by every elementary update that the command can make. -/
structure PartKeeps (i : Instr) (P : State → Prop) : Prop extends EngineKeeps Everywhere P where
  load : ∀ s f l, P s → P (loadEffective f l s)
  pend : ∀ s f, P s →
    P (s.onFeeder f fun x => { x with fire := x.fire.map fun y => { y with settingsPending := true } })
  unfit : ∀ s f, P s → P (s.onFeeder f fun x => { x with fire := none })
  clearStore : mayClearStore i → ∀ s f, P s → P (s.onFeeder f fun x => { x with claims := x.claims.put .store false })
  district : ∀ s d g, P s → P (s.onDistrict d g)
  port : ∀ s p g, P s → P (s.onPort p g)
  store : ∀ s g, StoreChange s.store (g s.store) → P s → P (s.onStore g)
  pool : ∀ s c, PoolChange i s.pool c → P s → P { s with pool := c }
  link : ∀ s l n t d b, P s → P { s with link := l, lastSequence := n, lastFrameTime := t, linkDeadline := d, bus := b }
  contacts : isScan i → ∀ s f a b, P s → P (s.onFeeder f fun x => { x with closedContact := a, openContact := b })
  meas : mayMeasure i → ∀ s f m a b, P s → P (s.onFeeder f (setMeas m a b))
  inputs : isScan i → ∀ s a b c, P s → P { s with fireBan := a, crewKey := b, setProtect := c }
  drop : ∀ s p n, P s → P (s.withQueue p ((s.queues.get p).drop n))
  sent : ∀ s x, P s → P { s with sent := x }
  crewWrite : ∀ s x, P s → P { s with crewWrite := x }
  free : ∀ s n, P s → P { s with freeIndex := n }

variable {i : Instr} {P : State → Prop}

/-! ### The pool -/

theorem PortClaim.is_iff (c : PortClaim) (f : Feeder) (k : ClaimKind) (h : Port) (tag : Nat) :
    c.is f k h tag = true ↔ c.feeder = f ∧ c.kind = k ∧ c.holder = h ∧ (h = .crew → c.tag = tag) := by
  simp only [PortClaim.is, Bool.and_eq_true, decide_eq_true_eq, Bool.or_eq_true]
  constructor
  · rintro ⟨⟨⟨h1, h2⟩, h3⟩, h4⟩
    exact ⟨h1, h2, h3, fun hc => h4.elim (absurd hc) id⟩
  · rintro ⟨h1, h2, h3, h4⟩
    refine ⟨⟨⟨h1, h2⟩, h3⟩, ?_⟩
    by_cases hc : h = .crew
    · exact .inr (h4 hc)
    · exact .inl hc

/-- Changing fields other than the identity of the claims is a change that any command may make. -/
theorem PoolChange.map (g : PortClaim → PortClaim) (hg : ∀ c, SameClaim c (g c)) (a : List PortClaim) :
    PoolChange i a (a.map g) where
  size h := by simpa using h
  distinct h := by
    refine List.Pairwise.map g (fun c d hcd hn => hcd ?_) h
    obtain ⟨h1, h2, h3, h4⟩ := hg c
    obtain ⟨k1, k2, k3, k4⟩ := hg d
    obtain ⟨n1, n2, n3, n4⟩ := hn
    exact ⟨k1 ▸ h1 ▸ n1, k2 ▸ h2 ▸ n2, k3 ▸ h3 ▸ n3, fun hc => k4 ▸ h4 ▸ n4 (h3.trans hc)⟩
  stays c hc _ := ⟨g c, List.mem_map_of_mem hc, hg c⟩
  enters := .inr fun d hd => by
    obtain ⟨c, hc, rfl⟩ := List.mem_map.1 hd
    exact ⟨c, hc, hg c⟩

/-- Taking out claims that may leave is a change that the command may make. -/
theorem PoolChange.sublist {a b : List PortClaim} (h : b.Sublist a) (hs : ∀ c ∈ a, ¬ mayLeave i c → c ∈ b) :
    PoolChange i a b where
  size ha := h.length_le.trans ha
  distinct ha := ha.sublist h
  stays c hc hn := ⟨c, hs c hc hn, rfl, rfl, rfl, rfl⟩
  enters := .inr fun d hd => ⟨d, h.subset hd, rfl, rfl, rfl, rfl⟩

/-- A new claim of an identity that the pool does not hold joins the tail while the pool is not full. -/
theorem PoolChange.add {a : List PortClaim} (hi : mayEnter i) (c : PortClaim) (hl : a.length < 32)
    (hn : ∀ d ∈ a, d.is c.feeder c.kind c.holder c.tag = false) : PoolChange i a (a ++ [c]) where
  size _ := by simp; omega
  distinct ha := by
    refine List.pairwise_append.2 ⟨ha, List.pairwise_singleton _ _, fun d hd e he hs => ?_⟩
    rw [List.mem_singleton.1 he] at hs
    have := hn d hd
    rw [Bool.eq_false_iff] at this
    exact this ((PortClaim.is_iff _ _ _ _ _).2
      ⟨hs.1.symm, hs.2.1.symm, hs.2.2.1.symm, fun hc => (hs.2.2.2 (hs.2.2.1 ▸ hc)).symm⟩)
  stays d hd _ := ⟨d, List.mem_append_left _ hd, rfl, rfl, rfl, rfl⟩
  enters := .inl hi

/-! ### Changes of the store -/

theorem EditFits.of_own {s : State} {p : Port} {r : RecordName} {c : RecordContent} {l : Nat}
    (h : ownOpenEdit s p = some (r, c, l)) (hf : EditFits s.store.edit) : contentFits r c = true := by
  unfold ownOpenEdit at h
  split at h
  · next he =>
    split at h
    · simp only [Option.some.injEq, Prod.mk.injEq] at h
      obtain ⟨rfl, rfl, rfl⟩ := h
      rw [he] at hf
      exact hf
    · cases h
  · cases h

theorem contentFits_held (s : State) (r : RecordName) : contentFits r (heldContent s r) = true := by
  cases r <;> rfl

theorem contentFits_setField {r : RecordName} {c c' : RecordContent} {no v : Nat} (h : c.setField no v = some c')
    (hf : contentFits r c = true) : contentFits r c' = true := by
  cases c <;> simp only [RecordContent.setField, Option.map_eq_some_iff, reduceCtorEq] at h <;>
    obtain ⟨x, -, rfl⟩ := h <;> cases r <;> first | rfl | exact hf

/-- Replacing the edit buffer is a change that a command may make when the content still fits. -/
theorem StoreChange.edit {a : Store} (b : EditBuffer) (h : EditFits a.edit → EditFits b) : StoreChange a { a with edit := b } :=
  ⟨id, fun hf => ⟨h hf.1, hf.2⟩, fun _ => rfl⟩

theorem EditFits.renewed (p : Port) (n : Nat) (b : EditBuffer) (h : EditFits b) : EditFits (b.renewed p n) := by
  cases b with
  | free => trivial
  | editing q r c l =>
    unfold EditBuffer.renewed
    dsimp only
    split <;> exact h
  | committing q r c => exact h

theorem EditFits.freed (e : WriteEntry) (b : EditBuffer) (h : EditFits b) : EditFits (freeCommitted e b) := by
  unfold freeCommitted
  split
  · split
    · trivial
    · exact h
  · exact h

theorem Store.onCell_shell (r : RecordName) (c : RecordContent) (g : (α : Type) → α → Cell α → Cell α) (st : Store) :
    (st.onCell r c g).edit = st.edit ∧ (st.onCell r c g).queue = st.queue ∧ (st.onCell r c g).writing = st.writing ∧
      (st.onCell r c g).frozen = st.frozen := by
  unfold Store.onCell
  split <;> exact ⟨rfl, rfl, rfl, rfl⟩

theorem StoreFits.of_shell {a b : Store} (h1 : b.edit = a.edit) (h2 : b.queue = a.queue) (h3 : b.writing = a.writing)
    (h : StoreFits a) : StoreFits b := by
  unfold StoreFits
  rw [h1, h2, h3]
  exact h

/-! ### Claims, store and ports -/

section Everywhere

set_option linter.unusedSectionVars false

variable [∀ f, Fact (Everywhere f)]

theorem PartKeeps.queueWrite (k : PartKeeps i P) (p : Port) (r : RecordName) (s : State) (h : P s) : P (queueWrite p r s) :=
  k.store _ _ ⟨id, fun hf => ⟨hf.1, fun w hw => by
    obtain ⟨e, rest, he, hc⟩ := hf.2 w hw
    exact ⟨e, rest ++ [⟨p, r⟩], by simp [he], hc⟩⟩, fun _ => rfl⟩ h

theorem Store.completed_frozen (r : RecordName) (c : RecordContent) (st : Store) :
    (st.completed r c).frozen = st.frozen := by
  unfold Store.completed
  split
  · rfl
  · exact (Store.onCell_shell _ _ _ _).2.2.2

/-- An update of a record's cell that keeps the held content, or one of a floor or a ban level, keeps the settings held. -/
theorem Store.onCell_settings (r : RecordName) (c : RecordContent) (g : (α : Type) → α → Cell α → Cell α) (st : Store)
    (h : (∀ α x cell, (g α x cell).held = cell.held) ∨ r.district?.isSome = true) :
    heldSettings (st.onCell r c g) = heldSettings st := by
  unfold Store.onCell
  split <;> rcases h with h | h <;> first
    | rfl
    | cases h
    | (simp only [heldSettings, h]; done)
    | (rename_i f l x; cases f <;> cases l <;> simp [heldSettings, PerFeeder.of, PerFeeder.get, PerFeeder.set, PerLevel.of,
        PerLevel.get, PerLevel.set, h])

theorem PartKeeps.setHeld (k : PartKeeps i P) (r : RecordName) (c : RecordContent) (s : State) (h : P s)
    (hr : s.store.frozen = false ∨ r.district?.isSome = true) : P (setHeld r c s) := by
  obtain ⟨h1, h2, h3, h4⟩ := Store.onCell_shell r c (fun _ x cell => { cell with held := x }) s.store
  refine k.store _ _ ⟨fun hf => h4.trans hf, StoreFits.of_shell h1 h2 h3, fun hf => ?_⟩ h
  rcases hr with hr | hr
  · rw [hr] at hf
    cases hf
  · exact Store.onCell_settings r c _ s.store (.inr hr)

theorem Store.completed_settings (r : RecordName) (c : RecordContent) (st : Store) :
    heldSettings (st.completed r c) = heldSettings st := by
  unfold Store.completed
  split
  · rfl
  · exact Store.onCell_settings _ _ _ _ (.inl fun _ _ _ => rfl)

theorem PartKeeps.respond (k : PartKeeps i P) (p : Port) (st : Status) (pl : List Byte) (s : State) (h : P s) :
    P (respond p st pl s) := k.port _ _ _ h

theorem PartKeeps.recompute (k : PartKeeps i P) (d : District) (s : State) (h : P s) : P (recomputeTarget d s) :=
  k.recomputeTarget k.load (fun s d _ hs => k.district s d _ hs) d s h

theorem PartKeeps.removeClaim (k : PartKeeps i P) (f : Feeder) (kind : ClaimKind) (p : Port) (tag : Nat) (c : ReleaseCause)
    (s : State) (hl : ∀ d ∈ s.pool, d.is f kind p tag = true → mayLeave i d) (h : P s) : P (removeClaim f kind p tag c s) := by
  unfold Machine.removeClaim
  split
  · refine k.claimLeft _ _ _ _ (k.pool _ _ (.sublist (List.eraseP_sublist) fun d hd hn => ?_) h)
    exact (List.mem_eraseP_of_neg (by
      intro ht
      exact hn (hl d hd ht))).2 hd
  · exact h

theorem PartKeeps.clearNoReclose (k : PartKeeps i P) (f : Feeder) (s : State) (h : P s) : P (clearNoReclose f s) := by
  unfold Machine.clearNoReclose
  dsimp only
  refine foldl_keeps P _ (fun t c ht => k.claimLeft _ _ _ _ ht) _ _ (k.pool _ _ (.sublist List.filter_sublist ?_) h)
  intro c hc hn
  refine List.mem_filter.2 ⟨hc, ?_⟩
  have : c.kind ≠ .noReclose := fun hk => hn (.inl hk)
  simp [this]

/-! ### Commits -/

theorem PartKeeps.setSettingsPending (k : PartKeeps i P) (f : Feeder) (s : State) (h : P s) : P (setSettingsPending f s) :=
  k.judge _ _ (k.pend _ _ h)

theorem PartKeeps.commissionFire (k : PartKeeps i P) (f : Feeder) (s : State) (h : P s) : P (commissionFire f s) := by
  unfold Machine.commissionFire
  split
  · exact k.handSettings _ _ _ (k.setFireClaim _ _ (k.broadcast _ _ (k.load _ _ _ h)))
  · exact k.removeSystemClaim _ _ _ (by decide) (k.unfit _ _ h)

theorem PartKeeps.commissionFeeder (k : PartKeeps i P) (hi : mayClearStore i) (hm : mayMeasure i) (f : Feeder) (s : State) (h : P s) :
    P (commissionFeeder f s) := by
  have hIntake : P (commissionIntake f s) := by
    have h1 := k.meas hm s f .awaiting 0 0 h
    unfold Machine.commissionIntake
    dsimp only
    split
    · exact k.placeSystemClaim _ _ _ (by decide) h1
    · exact k.removeSystemClaim _ _ _ (by decide) h1
  have hFilter : ∀ t, P t → P (commissionFilter f t) := fun t ht => by
    unfold Machine.commissionFilter
    split <;> exact k.silent _ _ _ rfl rfl rfl rfl rfl ht
  have hClaims : ∀ t, P t → P (commissionClaims f t) := fun t ht => by
    have h1 := k.removeSystemClaim f .breaker _ (by decide) (k.removeSystemClaim f .hunt _ (by decide) (k.clearNoReclose f t ht))
    unfold Machine.commissionClaims
    dsimp only
    split
    · exact h1
    · exact k.setClaimOf _ _ _ _ h1 (k.clearStore hi _ _ h1)
  have hSwitching : ∀ t, P t → P (commissionSwitching f t) := fun t ht => by
    have h1 : P (t.onFeeder f fun x => { x with inFlight := none, lastOp := none, lastEnd := .unknown }) := by
      have := k.silent f (fun x => { x with lastOp := none, lastEnd := .unknown }) _ rfl rfl rfl rfl rfl (k.endOp t f ht)
      rwa [State.onFeeder_onFeeder] at this
    unfold Machine.commissionSwitching
    dsimp only
    split
    · exact k.changeLock _ _ _ _ h1
    · exact h1
  exact k.judged _ _ _ (k.seqCommission _ _ (hSwitching _ (hClaims _ (k.commissionFire _ _
    (k.quiet _ f _ ⟨rfl, rfl, rfl, rfl, rfl, rfl, rfl, rfl⟩ (hFilter _ hIntake))))))

theorem PartKeeps.handOnCommit (k : PartKeeps i P) (hi : mayClearStore i) (hm : mayMeasure i) (r : RecordName) (s : State) (h : P s) :
    P (handOnCommit r s) := by
  unfold Machine.handOnCommit
  split
  · split
    · split
      · exact k.setSettingsPending _ _ h
      · exact h
    · exact h
  · exact forFeeders_keeps P _ (fun f t ht => k.setSettingsPending f t ht) _ _ h
  · exact k.commissionFeeder hi hm _ _ h
  · exact h

/-! ### Requests -/

theorem ite_keeps (P : State → Prop) {c : Prop} [Decidable c] {a b : State} (ha : P a) (hb : P b) : P (if c then a else b) := by
  split
  · exact ha
  · exact hb

theorem PartKeeps.frameArrives (k : PartKeeps i P) (p : Port) (check : State → State) (hc : ∀ s, P s → P (check s)) (s : State)
    (h : P s) : P (frameArrives p check s) := by
  unfold Machine.frameArrives
  refine ite_keeps P h ?_
  split
  · exact hc _ (k.port _ _ _ h)
  · exact hc _ (k.port _ _ _ h)
  · exact k.port _ _ _ h
  · exact k.port _ _ _ h

/-- A transfer keeps the property if what the port unit makes of it does. -/
theorem PartKeeps.transfer (k : PartKeeps i P) (p : Port) (act : State → State) (ha : ∀ s, P s → P (act s)) (s : State) (h : P s) :
    P (transfer p act s) := by
  have h0 : P (sends p (idleLine p) s) := k.sent s _ h
  have h1 : P (listens p s) := k.crewWrite _ _ h0
  unfold Machine.transfer
  split
  · exact h
  · exact h0
  · exact ha _ h1

/-- A request keeps the property if its owner's action does, on the state as the port hands it on. -/
theorem PartKeeps.takeRequest (k : PartKeeps i P) (q : Request) (p : Port) (target : Byte) (payload : List Byte)
    (body : State → State × Reply) (hb : ∀ s, P s → P (body s).1) (s : State) (h : P s) :
    P (takeRequest q p target payload body s) := by
  refine k.transfer _ _ (k.frameArrives _ _ fun t ht => ?_) s h
  unfold checkRequest
  split
  · exact k.respond _ _ _ _ ht
  · have h1 : P (renewNamed q p target.toNat t) := by
      unfold renewNamed
      split
      · exact k.renewLock _ _ _ ht
      · exact ht
    have h2 := hb _ h1
    unfold answer
    split
    · exact k.respond _ _ _ _ h2
    · exact k.port _ _ _ h2
    · exact h2

theorem onFeederTarget_keeps (P : State → Prop) (target : Byte) (body : Feeder → State → State × Reply)
    (hb : ∀ f s, Feeder.ofNumber target.toNat = some f → P s → P (body f s).1) (s : State) (h : P s) :
    P (onFeederTarget target body s).1 := by
  unfold onFeederTarget
  split
  · next f hf => exact hb f s hf h
  · exact h

theorem onDistrictTarget_keeps (P : State → Prop) (target : Byte) (body : District → State → State × Reply)
    (hb : ∀ d s, P s → P (body d s).1) (s : State) (h : P s) : P (onDistrictTarget target body s).1 := by
  unfold onDistrictTarget
  split
  · exact hb _ _ h
  · exact h

theorem PartKeeps.switched (k : PartKeeps i P) (r : State × SwitchAnswer × List HuntNotice) (h : P r.1) : P (switched r).1 :=
  k.deliver _ _ _ h

theorem PartKeeps.claimDone (k : PartKeeps i P) (p : Port) (kind : ClaimKind) (s : State) (h : P s) :
    P (claimDone p kind s).1 := by
  unfold Machine.claimDone
  split
  · exact h
  · exact k.queueWrite _ _ _ h

theorem PartKeeps.placeClaimBody (k : PartKeeps i P) (hi : mayEnter i) (p : Port) (payload : List Byte) (f : Feeder) (s : State) (h : P s) :
    P (placeClaimBody p payload f s).1 := by
  unfold Machine.placeClaimBody
  split
  · exact h
  · next o _ =>
    split_ifs with hd hl
    · refine k.claimDone _ _ _ (k.pool _ _ (.map _ (fun c => ?_) _) h)
      split <;> exact ⟨rfl, rfl, rfl, rfl⟩
    · exact h
    · refine k.claimDone _ _ _ (k.judged _ _ _ (k.claimEntered _ _ _ (k.pool _ _ (.add hi _ ?_ ?_) h)))
      · exact Nat.not_le.1 hl
      · intro d hd2
        simp only [Option.not_isSome_iff_eq_none, findClaim, List.find?_eq_none] at hd
        exact Bool.eq_false_iff.2 (hd d hd2)

theorem PartKeeps.takeEdit (k : PartKeeps i P) (p : Port) (body : State → State × Reply) (hb : ∀ s, P s → P (body s).1)
    (s : State) (h : P s) : P (takeEdit p body s).1 :=
  hb _ (k.store _ _ (.edit _ (EditFits.renewed _ _ _)) h)

theorem PartKeeps.openEditBody (k : PartKeeps i P) (p : Port) (payload : List Byte) (s : State) (h : P s) :
    P (openEditBody p payload s).1 := by
  unfold Machine.openEditBody
  split
  · exact h
  · split
    · exact h
    · split
      · exact h
      · split_ifs
        · exact h
        · exact h
        · exact k.store s (fun st => { st with edit := _ }) (.edit _ fun _ => contentFits_held _ _) h

theorem PartKeeps.setFieldBody (k : PartKeeps i P) (p : Port) (payload : List Byte) (s : State) (h : P s) :
    P (setFieldBody p payload s).1 := by
  unfold Machine.setFieldBody
  split
  · exact h
  · next r c lease ho =>
    split
    · exact h
    · next c' hc =>
      split
      · exact h
      · exact k.store s (fun st => { st with edit := _ })
          (.edit _ fun hf => contentFits_setField hc (EditFits.of_own ho hf)) h

theorem PartKeeps.discardEditBody (k : PartKeeps i P) (p : Port) (s : State) (h : P s) : P (discardEditBody p s).1 := by
  unfold Machine.discardEditBody
  split
  · exact h
  · exact k.store s (fun st => { st with edit := .free }) (.edit _ fun _ => trivial) h

theorem PartKeeps.commitEditBody (k : PartKeeps i P) (hi : mayClearStore i) (hm : mayMeasure i) (p : Port) (s : State) (h : P s) :
    P (commitEditBody p s).1 := by
  unfold Machine.commitEditBody
  split
  · exact h
  · next r c lease ho =>
    split_ifs with hz
    · exact h
    · exact h
    · exact h
    · exact h
    · exact k.handOnCommit hi hm _ _ (k.queueWrite _ _ _ (k.store _ _ (.edit _ fun hf =>
        EditFits.of_own ho ((Store.onCell_shell r c (fun _ x cell => { cell with held := x }) s.store).1 ▸ hf))
          (k.setHeld _ _ _ h (.inl (Bool.eq_false_iff.2 hz)))))

theorem PartKeeps.setFloorBody (k : PartKeeps i P) (p : Port) (payload : List Byte) (d : District) (s : State) (h : P s) :
    P (setFloorBody p payload d s).1 := by
  unfold Machine.setFloorBody
  split
  · exact h
  · exact k.recompute _ _ (k.queueWrite _ _ _ (k.setHeld _ _ _ h (.inr rfl)))

theorem PartKeeps.setBanLevelBody (k : PartKeeps i P) (p : Port) (payload : List Byte) (d : District) (s : State) (h : P s) :
    P (setBanLevelBody p payload d s).1 := by
  unfold Machine.setBanLevelBody
  split
  · exact h
  · have h1 := fun l => k.queueWrite p (.banLevel d) _ (k.setHeld (.banLevel d) l s h (.inr rfl))
    dsimp only
    split
    · exact k.recompute _ _ (h1 _)
    · exact h1 _

theorem PartKeeps.setProtectModeBody (k : PartKeeps i P) (p : Port) (payload : List Byte) (s : State) (h : P s) :
    P (setProtectModeBody p payload s).1 := by
  unfold Machine.setProtectModeBody
  split
  · exact h
  · split
    · exact h
    · next hz => exact k.queueWrite _ _ _ (k.setHeld _ _ _ h (.inl (Bool.eq_false_iff.2 hz)))

theorem PartKeeps.setFireRequestBody (k : PartKeeps i P) (p : Port) (payload : List Byte) (d : District) (s : State)
    (h : P s) : P (setFireRequestBody p payload d s).1 := by
  unfold Machine.setFireRequestBody
  split
  · exact h
  · exact k.recompute _ _ (k.district _ _ _ h)

theorem PartKeeps.removeNamed (k : PartKeeps i P) (f : Feeder) (n : SystemClaim) (hn : n ≠ .store ∨ mayClearStore i) (s : State)
    (h : P s) : P (removeSystemClaim f n s) := by
  rcases hn with hn | hn
  · exact k.removeSystemClaim _ _ _ hn h
  · by_cases hs : n = .store
    · subst hs
      exact k.setClaimOf _ _ _ _ h (k.clearStore hn _ _ h)
    · exact k.removeSystemClaim _ _ _ hs h

theorem PartKeeps.clearClaim (k : PartKeeps i P) (n : SystemClaim) (b : Bool) (hn : n ≠ .store ∨ mayClearStore i) (f : Feeder)
    (s : State) (h : P s) : P (clearClaim n b f s).1 := by
  unfold Machine.clearClaim
  split
  · exact k.removeNamed _ _ hn _ h
  · exact h

theorem PartKeeps.resumeFrom (k : PartKeeps i P) (r : HuntRun) (s : State) (h : P s) : P (resumeFrom r s).1 := by
  have h1 := k.onHunt (fun r => { r with resume := none }) s h
  unfold Machine.resumeFrom
  dsimp only
  split
  · split
    · exact k.setHuntState _ _ _ (k.beginWindow _ h1)
    · exact h1
  · exact h1
  · exact h1
  · exact h1

/-! ### Inputs and deadlines -/

theorem PartKeeps.scanInputs (k : PartKeeps i P) (hi : isScan i) (lv : ScanLevels) (s : State) (h : P s) : P (scanInputs lv s) := by
  have h1 := forFeeders_keeps P (fun f => scanFeeder f (lv.contacts.get f)) (fun f t ht => k.scanFeeder f _ t (k.contacts hi t f _ _ ht)) Feeder.all s h
  have h2 : ∀ t, P t → P (scanFireBan lv.fireBan t) := fun t ht => by
    have h3 := k.inputs hi t (t.fireBan.scan lv.fireBan) t.crewKey t.setProtect ht
    unfold scanFireBan
    dsimp only
    split
    · exact h3
    · exact foldl_keeps P _ (fun a d ha => k.recompute d a ha) _ _ h3
  have h3 : ∀ t, P t → P (scanCrewKey lv.crewKey t) := fun t ht => by
    have h4 := k.inputs hi t t.fireBan (t.crewKey.scan lv.crewKey) t.setProtect ht
    unfold scanCrewKey
    dsimp only
    split
    · have := k.drop _ .crew ((t.queues.get .crew).length) h4
      simpa using this
    · exact h4
  exact k.inputs hi _ (scanCrewKey lv.crewKey (scanFireBan lv.fireBan _)).fireBan
    (scanCrewKey lv.crewKey (scanFireBan lv.fireBan _)).crewKey _ (h3 _ (h2 _ h1))

theorem PartKeeps.linkLoss (k : PartKeeps i P) (hm : mayMeasure i) (s : State) (h : P s) : P (linkLoss s) := by
  have h1 := k.link s .lost none s.lastFrameTime none { s.bus with valid := false } h
  have h2 := forFeeders_keeps P
    (fun f a => a.onFeeder f fun x => { x with meas := .lost, invalidCount := 3, recoveryCount := 0 })
    (fun f t ht => k.meas hm t f .lost 3 0 ht) s.fittedFeeders _ h1
  have h3 := forFeeders_keeps P (feederLinkLoss s.feeders) (fun f t ht => by
    unfold feederLinkLoss
    dsimp only
    split
    · exact k.placeSystemClaim _ _ _ (by decide) ht
    · exact k.placeSystemClaim _ _ _ (by decide) (k.broadcast _ _ ht)) s.fittedFeeders _ h2
  exact k.huntSettle _ _ (k.abortHunt _ _ (k.broadcast _ _ h3))

theorem PartKeeps.deliverUnit (k : PartKeeps i P) (hm : mayMeasure i) (bs : List Byte) (s : State) (h : P s) : P (deliverUnit bs s) := by
  unfold Machine.deliverUnit
  split
  · exact h
  · next fr _ =>
    split
    · exact h
    · have h1 := k.link s .up (some fr.sequence) (some s.partTime) (some (s.partTime + 100)) s.bus h
      refine k.acceptFrame fr s (fun t f m a b ht => k.meas hm t f m a b ht) ?_ fun t ht => k.link t t.link t.lastSequence t.lastFrameTime t.linkDeadline _ ht
      unfold acceptOnLink
      dsimp only
      split
      · exact h1
      · exact k.broadcast _ _ h1

theorem PartKeeps.endDeadTime (k : PartKeeps i P) (f : Feeder) (s : State) (h : P s) : P (endDeadTime f s) := by
  unfold Machine.endDeadTime
  split
  · have h1 := k.requestReclose f _ (k.judged f _ _ (k.seqToClosing f s h))
    unfold recloseAnswer
    split
    · exact k.silent _ _ _ rfl rfl rfl rfl rfl h1
    · exact k.judged _ _ _ (k.toLockout _ _ _ _ h1)
    · exact h1
    · exact h1
  · exact k.judged _ _ _ (k.toLockout _ _ _ _ h)

theorem PartKeeps.beginWrite (k : PartKeeps i P) (s : State) (h : P s) : P (beginWrite s) := by
  unfold Machine.beginWrite
  split
  · next e rest hw hq =>
    have h1 := k.store s (fun st => { st with writing := some { content := heldContent s e.record, began := s.partTime } })
      ⟨id, fun hf => ⟨hf.1, fun w hw => by
        obtain rfl := Option.some.inj hw
        exact ⟨e, rest, hq, contentFits_held s e.record⟩⟩, fun _ => rfl⟩ h
    dsimp only
    split
    · exact k.pool _ _ (.map (fun c : PortClaim => { c with inWrite := decide (c.kind = .holdOpen) })
        (fun c => ⟨rfl, rfl, rfl, rfl⟩) _) h1
    · exact h1
  · exact h

theorem PartKeeps.completeWrite (k : PartKeeps i P) (s : State) (h : P s) : P (completeWrite s) := by
  unfold Machine.completeWrite
  split
  · next w e rest _ _ =>
    have h1 := k.store s
      (fun st => { (st.completed e.record w.content) with writing := none, queue := rest, edit := freeCommitted e st.edit })
      ⟨fun hf => by simpa [Store.completed_frozen] using hf, fun hf => ⟨EditFits.freed _ _ hf.1, fun w hw => nomatch hw⟩,
        fun _ => Store.completed_settings e.record w.content s.store⟩ h
    have hp := k.pool _ _ (.map (i := i) (fun c : PortClaim => { c with persisted := c.persisted || c.inWrite, inWrite := false })
      (fun c => ⟨rfl, rfl, rfl, rfl⟩) _) h1
    have ha : ∀ t, P t → P (answerWritten e.port t) := fun t ht => by
      unfold answerWritten
      split
      · exact k.respond _ _ _ _ ht
      · exact ht
    dsimp only
    split
    · exact ha _ hp
    · exact ha _ h1
  · exact h

theorem PartKeeps.fetchAt (k : PartKeeps i P) (p : Port) (n : Nat) (s : State) (h : P s) : P (fetchAt p n s) := by
  have h1 := fun bs => k.sent s (s.sent.set p bs) h
  unfold Machine.fetchAt
  split
  · exact h
  · exact h1 _
  · split
    · exact h1 _
    · exact h1 _
    · exact h1 _
    · dsimp only
      split
      · exact k.port _ _ _ (h1 _)
      · exact h1 _

/-- A command that does something only while the part runs keeps the property if that does. -/
theorem whileRunning_keeps (P : State → Prop) (act : State → State) (ha : ∀ s, P s → P (act s)) (s : State) (h : P s) :
    P (whileRunning act s) := by
  unfold whileRunning
  split
  · exact ha _ h
  · exact h

/-! ### The other requests and events -/

theorem PartKeeps.readEventsBody (k : PartKeeps i P) (p : Port) (payload : List Byte) (s : State) (h : P s) :
    P (readEventsBody p payload s).1 := by
  unfold Machine.readEventsBody
  dsimp only
  split
  · exact h
  · exact k.drop _ _ _ h

theorem readEffectiveBody_keeps (f : Feeder) (s : State) (h : P s) : P (readEffectiveBody f s).1 := by
  unfold readEffectiveBody
  split <;> exact h

theorem PartKeeps.readRecordBody (k : PartKeeps i P) (payload : List Byte) (s : State) (h : P s) :
    P (readRecordBody payload s).1 := by
  unfold Machine.readRecordBody
  split
  · exact h
  · split
    · split
      · exact h
      · exact k.free _ _ h
    · exact h

theorem PartKeeps.tripBody (k : PartKeeps i P) (p : Port) (f : Feeder) (s : State) (h : P s) : P (tripBody p f s).1 := by
  unfold Machine.tripBody
  dsimp only
  split
  · exact h
  · exact k.switched _ (k.requestTrip _ _ _ _ h)

theorem PartKeeps.closeBody (k : PartKeeps i P) (p : Port) (f : Feeder) (s : State) (h : P s) : P (closeBody p f s).1 := by
  unfold Machine.closeBody
  dsimp only
  split
  · exact h
  · exact k.switched _ (k.requestPortClose _ _ _ h)

theorem PartKeeps.takeLockBody (k : PartKeeps i P) (p : Port) (f : Feeder) (s : State) (h : P s) : P (takeLockBody p f s).1 := by
  unfold Machine.takeLockBody
  dsimp only
  split
  · exact h
  · split
    · exact k.renewLock _ _ _ h
    · exact k.changeLock _ _ _ _ h

theorem PartKeeps.dropLockBody (k : PartKeeps i P) (p : Port) (f : Feeder) (s : State) (h : P s) : P (dropLockBody p f s).1 := by
  unfold Machine.dropLockBody
  dsimp only
  split
  · exact k.changeLock _ _ _ _ h
  · exact h

/-- A release may take out the claim of its identity. -/
theorem PartKeeps.releaseClaimBody (k : PartKeeps i P) (p : Port) (payload : List Byte) (f : Feeder)
    (hl : ∀ d : PortClaim, (∃ kind, d.is f kind p (numberAt payload 1 2) = true) → mayLeave i d) (s : State) (h : P s) :
    P (releaseClaimBody p payload f s).1 := by
  unfold Machine.releaseClaimBody
  dsimp only
  split
  · exact h
  · next kind _ =>
    split
    · exact h
    · split
      · exact h
      · exact k.claimDone _ _ _ (k.removeClaim _ _ _ _ _ _ (fun d _ hd => hl d ⟨kind, hd⟩) h)

/-- A force release may take out a claim that is no HOLD_OPEN claim of the crew. -/
theorem PartKeeps.forceReleaseBody (k : PartKeeps i P) (p : Port) (payload : List Byte) (f : Feeder)
    (hl : ∀ d : PortClaim, d.holder ≠ .crew → mayLeave i d) (s : State) (h : P s) : P (forceReleaseBody p payload f s).1 := by
  unfold Machine.forceReleaseBody
  dsimp only
  split
  · split
    · exact h
    · split
      · exact h
      · split
        · exact h
        · next kind hd _ _ _ _ hn =>
          refine k.claimDone _ _ _ (k.removeClaim _ _ _ _ _ _ (fun d _ hd => ?_) h)
          obtain ⟨-, hk, hh, -⟩ := (PortClaim.is_iff _ _ _ _ _).1 hd
          by_cases hc : d.holder = .crew
          · refine .inl ?_
            cases hkind : d.kind with
            | noReclose => rfl
            | holdOpen => exact absurd ⟨hk ▸ hkind, hh ▸ hc⟩ hn
          · exact hl d hc
  · exact h

theorem mayRelease {p : Port} {target : Byte} {payload : List Byte} {f : Feeder} (hf : Feeder.ofNumber target.toNat = some f)
    (d : PortClaim) (hd : ∃ kind, d.is f kind p (numberAt payload 1 2) = true) :
    mayLeave (.releaseClaim p target payload) d := by
  obtain ⟨kind, hk⟩ := hd
  have h1 := ((PortClaim.is_iff _ _ _ _ _).1 hk).2.1
  refine .inr ?_
  show d.is ((Feeder.ofNumber target.toNat).getD d.feeder) d.kind p (numberAt payload 1 2) = true
  rw [hf, h1]
  exact hk

theorem PartKeeps.startHuntBody (k : PartKeeps i P) (s : State) (h : P s) : P (startHuntBody s).1 := by
  unfold Machine.startHuntBody
  split
  · exact h
  · split
    · exact h
    · exact k.huntSettle _ _ (k.startHunt _ _ h)

theorem PartKeeps.suspendHuntBody (k : PartKeeps i P) (s : State) (h : P s) : P (suspendHuntBody s).1 := by
  unfold Machine.suspendHuntBody
  split
  · exact h
  · split_ifs
    · exact h
    · exact h
    · exact k.suspendHunt _ _ h
    · exact k.onHunt _ _ h

theorem PartKeeps.resumeHuntBody (k : PartKeeps i P) (s : State) (h : P s) : P (resumeHuntBody s).1 := by
  unfold Machine.resumeHuntBody
  split
  · exact h
  · split_ifs
    · exact k.huntSettle _ _ (k.resumeFrom _ _ h)
    · exact k.onHunt _ _ h
    · exact h

theorem PartKeeps.abortHuntBody (k : PartKeeps i P) (s : State) (h : P s) : P (abortHuntBody s).1 := by
  unfold Machine.abortHuntBody
  split
  · exact h
  · split
    · exact h
    · exact k.huntSettle _ _ (k.abortHunt _ _ h)

theorem PartKeeps.linkLossDue (k : PartKeeps i P) (hm : mayMeasure i) (s : State) (h : P s) : P (linkLossDue s) := ite_keeps P (k.linkLoss hm _ h) h

theorem PartKeeps.operationDue (k : PartKeeps i P) (kind : OpKind) (w : Position) (f : Feeder) (s : State) (h : P s) :
    P (operationDue kind w f s) := by
  unfold Machine.operationDue
  dsimp only
  split
  · exact h
  · exact ite_keeps P (k.completeOperation _ _ _ _ h) h

theorem PartKeeps.confirmDue (k : PartKeeps i P) (s : State) (h : P s) : P (confirmDue s) := by
  unfold Machine.confirmDue
  split
  · exact h
  · exact ite_keeps P (k.huntSettle _ _ (k.confirmExpired _ _ h)) h

theorem PartKeeps.trialWatchDue (k : PartKeeps i P) (s : State) (h : P s) : P (trialWatchDue s) := by
  unfold Machine.trialWatchDue
  split
  · exact h
  · split
    · exact h
    · exact ite_keeps P (k.huntSettle _ _ (k.restoreFeeder _ _ h)) h

theorem PartKeeps.expireEdit (k : PartKeeps i P) (s : State) (h : P s) : P (expireEdit s) := by
  unfold Machine.expireEdit
  split
  · exact ite_keeps P (k.offer _ _ _ (k.store s (fun st => { st with edit := .free }) (.edit _ fun _ => trivial) h)) h
  · exact h

theorem PartKeeps.lockLeaseDue (k : PartKeeps i P) (f : Feeder) (s : State) (h : P s) : P (lockLeaseDue f s) := by
  unfold Machine.lockLeaseDue
  split
  · exact ite_keeps P (k.changeLock _ _ _ _ h) h
  · exact h

theorem PartKeeps.claimDue (k : PartKeeps i P) (f : Feeder) (p : Port) (tag : Nat) (s : State) (h : P s) :
    P (claimDue f p tag s) := by
  unfold Machine.claimDue
  split
  · exact ite_keeps P (k.removeClaim _ _ _ _ _ _
      (fun d _ hd => .inl ((PortClaim.is_iff _ _ _ _ _).1 hd).2.1) h) h
  · exact h

theorem PartKeeps.frameEndsEarly (k : PartKeeps i P) (p : Port) (s : State) (h : P s) : P (frameEndsEarly p s) := by
  unfold Machine.frameEndsEarly
  refine ite_keeps P h ?_
  split <;> exact k.port _ _ _ h

theorem PartKeeps.frameCollides (k : PartKeeps i P) (p : Port) (s : State) (h : P s) : P (frameCollides p s) := by
  unfold Machine.frameCollides
  refine ite_keeps P h ?_
  split
  · exact h
  · exact h
  · exact k.port _ _ _ h
  · exact k.port _ _ _ h

theorem PartKeeps.watchStall (k : PartKeeps i P) (p : Port) (b : Bool) (s : State) (h : P s) : P (watchStall p b s) := by
  unfold Machine.watchStall
  exact ite_keeps P (k.crewWrite _ _ h) h

theorem PartKeeps.stallDue (k : PartKeeps i P) (s : State) (h : P s) : P (stallDue s) := by
  unfold Machine.stallDue
  split
  · exact h
  · refine ite_keeps P (ite_keeps P ?_ ?_) h <;> exact k.port _ _ _ (k.crewWrite _ _ h)

theorem PartKeeps.frameBegins (k : PartKeeps i P) (p : Port) (s : State) (h : P s) : P (frameBegins p s) := by
  unfold Machine.frameBegins
  split
  · exact k.watchStall _ _ _ (k.port _ _ _ h)
  · exact k.watchStall _ _ _ h
  · exact h
  · exact k.watchStall _ _ _ h

theorem PartKeeps.crewStalls (k : PartKeeps i P) (x : StallPoint) (s : State) (h : P s) : P (crewStalls x s) := by
  cases x with
  | underWay => exact ite_keeps P (k.stallDue s h) h
  | writeAfterAddress => exact k.transfer _ _ (fun t ht => k.frameEndsEarly _ t ht) s h
  | writeAfterByte => exact k.transfer _ _ (fun t ht => k.frameEndsEarly _ t ht) s h
  | read => exact h

/-! ### Every command -/

theorem next_keeps (P : State → Prop) {a t : State} (he : (Host.Outcome.next a : Host.Outcome State Fault Refusal) = .next t)
    (h : P a) : P t := Host.Outcome.next.inj he ▸ h

/-- What the elementary updates of a command keep, the command keeps, unless it is a start-up. -/
theorem exec_keeps_everywhere (k : PartKeeps i P) (hi : isStartUp i = false) {s t : State} (he : exec i s = .next t) (h : P s) :
    P t := by
  cases i with
  | powerOn _ => cases hi
  | powerLoss => cases hi
  | resetAsserted => cases hi
  | resetReleased _ => cases hi
  | restart _ _ _ => cases hi
  | measurementFrame _ => exact next_keeps P he (whileRunning_keeps P _ (fun t ht => k.deliverUnit trivial _ t ht) s h)
  | linkLossDeadline => exact next_keeps P he (whileRunning_keeps P _ (fun t ht => k.linkLossDue trivial t ht) s h)
  | inputScan _ => exact next_keeps P he (whileRunning_keeps P _ (fun t ht => k.scanInputs trivial _ t ht) s h)
  | invalidTimerExpiry _ => exact next_keeps P he (whileRunning_keeps P _ (fun t ht => ite_keeps P (k.declareFault _ _ t ht) ht) s h)
  | transitTimerExpiry _ => exact next_keeps P he (whileRunning_keeps P _ (fun t ht => ite_keeps P (k.declareFault _ _ t ht) ht) s h)
  | tripDeadline _ => exact next_keeps P he (whileRunning_keeps P _ (fun t ht => k.operationDue _ _ _ t ht) s h)
  | closeDeadline _ => exact next_keeps P he (whileRunning_keeps P _ (fun t ht => k.operationDue _ _ _ t ht) s h)
  | deadTimeExpiry _ => exact next_keeps P he (whileRunning_keeps P _ (fun t ht => ite_keeps P (k.endDeadTime _ t ht) ht) s h)
  | reclaimExpiry _ => exact next_keeps P he (whileRunning_keeps P _ (fun t ht => ite_keeps P (k.judged _ _ _ (k.seqReclaimExpiry _ t ht)) ht) s h)
  | confirmExpiry => exact next_keeps P he (whileRunning_keeps P _ (fun t ht => k.confirmDue t ht) s h)
  | trialWatchExpiry => exact next_keeps P he (whileRunning_keeps P _ (fun t ht => k.trialWatchDue t ht) s h)
  | editLeaseExpiry => exact next_keeps P he (whileRunning_keeps P _ (fun t ht => k.expireEdit t ht) s h)
  | lockLeaseExpiry _ => exact next_keeps P he (whileRunning_keeps P _ (fun t ht => k.lockLeaseDue _ t ht) s h)
  | claimExpiry _ _ _ => exact next_keeps P he (whileRunning_keeps P _ (fun t ht => k.claimDue _ _ _ t ht) s h)
  | storeWriteBegins => exact next_keeps P he (whileRunning_keeps P _ (fun t ht => k.beginWrite t ht) s h)
  | storeWriteComplete => exact next_keeps P he (whileRunning_keeps P _ (fun t ht => k.completeWrite t ht) s h)
  | loweringApplied _ => exact next_keeps P he (whileRunning_keeps P _ (fun t ht => k.judge t _ ht) s h)
  | fetch _ _ => exact next_keeps P he (k.fetchAt _ _ s h)
  | badTransferType _ _ => exact next_keeps P he (k.transfer _ _ (fun t ht => ite_keeps P ht (k.port _ _ _ ht)) s h)
  | frameEndedEarly _ => exact next_keeps P he (k.transfer _ _ (fun t ht => k.frameEndsEarly _ t ht) s h)
  | collidedFrame _ => exact next_keeps P he (k.transfer _ _ (fun t ht => k.frameCollides _ t ht) s h)
  | crewStall x => exact next_keeps P he (k.crewStalls x s h)
  | badFrame _ => exact next_keeps P he (k.transfer _ _ (k.frameArrives _ _ fun t ht => k.respond _ _ _ t ht) s h)
  | unknownRequest _ => exact next_keeps P he (k.transfer _ _ (k.frameArrives _ _ fun t ht => k.respond _ _ _ t ht) s h)
  | requestFrameBegins _ => exact next_keeps P he (k.transfer _ _ (fun t ht => k.frameBegins _ t ht) s h)
  | identify _ _ _ => exact next_keeps P he (k.takeRequest _ _ _ _ _ (fun _ ht => ht) s h)
  | readPart _ _ _ => exact next_keeps P he (k.takeRequest _ _ _ _ _ (fun _ ht => ht) s h)
  | readFeeder _ _ _ => exact next_keeps P he (k.takeRequest _ _ _ _ _ (onFeederTarget_keeps P _ _ fun _ _ _ ht => ht) s h)
  | readClaims _ _ _ => exact next_keeps P he (k.takeRequest _ _ _ _ _ (fun _ ht => ht) s h)
  | readEvents _ _ _ => exact next_keeps P he (k.takeRequest _ _ _ _ _ (fun t ht => k.readEventsBody _ _ t ht) s h)
  | readFire _ _ _ => exact next_keeps P he (k.takeRequest _ _ _ _ _ (fun _ ht => ht) s h)
  | readEffective _ _ _ => exact next_keeps P he (k.takeRequest _ _ _ _ _ (onFeederTarget_keeps P _ _ fun f t _ ht => readEffectiveBody_keeps f t ht) s h)
  | readRecord _ _ _ => exact next_keeps P he (k.takeRequest _ _ _ _ _ (fun t ht => k.readRecordBody _ t ht) s h)
  | readStore _ _ _ => exact next_keeps P he (k.takeRequest _ _ _ _ _ (fun _ ht => ht) s h)
  | readEdit _ _ _ => exact next_keeps P he (k.takeRequest _ _ _ _ _ (k.takeEdit _ _ fun _ ht => ht) s h)
  | readHunt _ _ _ => exact next_keeps P he (k.takeRequest _ _ _ _ _ (fun _ ht => ht) s h)
  | trip _ _ _ => exact next_keeps P he (k.takeRequest _ _ _ _ _ (onFeederTarget_keeps P _ _ fun f t _ ht => k.tripBody _ f t ht) s h)
  | close _ _ _ => exact next_keeps P he (k.takeRequest _ _ _ _ _ (onFeederTarget_keeps P _ _ fun f t _ ht => k.closeBody _ f t ht) s h)
  | takeLock _ _ _ => exact next_keeps P he (k.takeRequest _ _ _ _ _ (onFeederTarget_keeps P _ _ fun f t _ ht => k.takeLockBody _ f t ht) s h)
  | dropLock _ _ _ => exact next_keeps P he (k.takeRequest _ _ _ _ _ (onFeederTarget_keeps P _ _ fun f t _ ht => k.dropLockBody _ f t ht) s h)
  | placeClaim _ _ _ => exact next_keeps P he (k.takeRequest _ _ _ _ _ (onFeederTarget_keeps P _ _ fun f t _ ht => k.placeClaimBody trivial _ _ f t ht) s h)
  | releaseClaim _ _ _ => exact next_keeps P he (k.takeRequest _ _ _ _ _ (onFeederTarget_keeps P _ _ fun f t hf ht => k.releaseClaimBody _ _ f (mayRelease hf) t ht) s h)
  | forceRelease _ _ _ => exact next_keeps P he (k.takeRequest _ _ _ _ _ (onFeederTarget_keeps P _ _ fun f t _ ht => k.forceReleaseBody _ _ f (fun d hd => .inr hd) t ht) s h)
  | clearBreakerFail _ _ _ => exact next_keeps P he (k.takeRequest _ _ _ _ _ (onFeederTarget_keeps P _ _ fun f t _ ht => k.clearClaim _ _ (.inl (by decide)) f t ht) s h)
  | clearHuntClaim _ _ _ => exact next_keeps P he (k.takeRequest _ _ _ _ _ (onFeederTarget_keeps P _ _ fun f t _ ht => k.clearClaim _ _ (.inl (by decide)) f t ht) s h)
  | clearStoreHold _ _ _ => exact next_keeps P he (k.takeRequest _ _ _ _ _ (onFeederTarget_keeps P _ _ fun f t _ ht => k.clearClaim _ _ (.inr trivial) f t ht) s h)
  | setFireRequest _ _ _ => exact next_keeps P he (k.takeRequest _ _ _ _ _ (onDistrictTarget_keeps P _ _ fun d t ht => k.setFireRequestBody _ _ d t ht) s h)
  | setFloor _ _ _ => exact next_keeps P he (k.takeRequest _ _ _ _ _ (onDistrictTarget_keeps P _ _ fun d t ht => k.setFloorBody _ _ d t ht) s h)
  | setBanLevel _ _ _ => exact next_keeps P he (k.takeRequest _ _ _ _ _ (onDistrictTarget_keeps P _ _ fun d t ht => k.setBanLevelBody _ _ d t ht) s h)
  | openEdit _ _ _ => exact next_keeps P he (k.takeRequest _ _ _ _ _ (k.takeEdit _ _ fun t ht => k.openEditBody _ _ t ht) s h)
  | setField _ _ _ => exact next_keeps P he (k.takeRequest _ _ _ _ _ (k.takeEdit _ _ fun t ht => k.setFieldBody _ _ t ht) s h)
  | commitEdit _ _ _ => exact next_keeps P he (k.takeRequest _ _ _ _ _ (k.takeEdit _ _ fun t ht => k.commitEditBody trivial trivial _ t ht) s h)
  | discardEdit _ _ _ => exact next_keeps P he (k.takeRequest _ _ _ _ _ (k.takeEdit _ _ fun t ht => k.discardEditBody _ t ht) s h)
  | setProtectMode _ _ _ => exact next_keeps P he (k.takeRequest _ _ _ _ _ (fun t ht => k.setProtectModeBody _ _ t ht) s h)
  | freezeSettings _ _ _ => exact next_keeps P he (k.takeRequest _ _ _ _ _ (fun t ht => k.store t (fun st => { st with frozen := true })
      ⟨fun _ => rfl, StoreFits.of_shell rfl rfl rfl, fun _ => rfl⟩ ht) s h)
  | startHunt _ _ _ => exact next_keeps P he (k.takeRequest _ _ _ _ _ (fun t ht => k.startHuntBody t ht) s h)
  | suspendHunt _ _ _ => exact next_keeps P he (k.takeRequest _ _ _ _ _ (fun t ht => k.suspendHuntBody t ht) s h)
  | resumeHunt _ _ _ => exact next_keeps P he (k.takeRequest _ _ _ _ _ (fun t ht => k.resumeHuntBody t ht) s h)
  | abortHunt _ _ _ => exact next_keeps P he (k.takeRequest _ _ _ _ _ (fun t ht => k.abortHuntBody t ht) s h)

end Everywhere

/-- What the elementary updates of a command keep, the command keeps, unless it is a start-up. -/
theorem exec_keeps (k : PartKeeps i P) (hi : isStartUp i = false) {s t : State} (he : exec i s = .next t) (h : P s) : P t :=
  haveI := everywhere
  exec_keeps_everywhere k hi he h

end Sys2Proof.Machine
end

