-- ==== Sys2Proof/Laws/Requests.lean ====
section
/-! SUPPORT. What a request that is taken comes to: its owner's action on the port's RECEIVING state and the answer, and what the
shared operations leave, each said once. -/
namespace Sys2Proof

@[simp] theorem Feeder.ofNumber_byte (f : Feeder) : Feeder.ofNumber f.byte.toNat = some f := by cases f <;> rfl

@[simp] theorem Feeder.byte_toNat (f : Feeder) : f.byte.toNat = f.number := by cases f <;> rfl

@[simp] theorem Feeder.ofNumber_number (f : Feeder) : Feeder.ofNumber f.number = some f := by cases f <;> rfl

@[simp] theorem District.ofNumber_byte (d : District) : District.ofNumber d.byte.toNat = some d := by cases d <;> rfl

@[simp] theorem District.byte_toNat (d : District) : d.byte.toNat = d.number := by cases d <;> rfl

namespace Machine

/-! ### Entries -/

/-- The three queues after a broadcast. -/
def offeredAll (key : Bool) (now : Nat) (ev : Event) (q : PerPort (List EventEntry)) : PerPort (List EventEntry) :=
  { network := queueOffered q.network { time := now, event := ev }
    panel := queueOffered q.panel { time := now, event := ev }
    crew := if key then queueOffered q.crew { time := now, event := ev } else q.crew }

/-- A broadcast changes the queues and nothing else. -/
theorem broadcast_form (ev : Event) (s : State) :
    broadcast ev s = { s with queues := offeredAll (crewKeyActive s) s.partTime ev s.queues } := by
  cases h : crewKeyActive s <;>
    simp [broadcast, offer, offeredAll, State.withQueue, PerPort.set, PerPort.get, crewKeyActive] at h ⊢ <;> simp [h]

/-- A broadcast and a change of one feeder can be taken in either order. -/
theorem broadcast_onFeeder (ev : Event) (s : State) (f : Feeder) (g : FeederState → FeederState) :
    broadcast ev (s.onFeeder f g) = (broadcast ev s).onFeeder f g := by
  simp only [broadcast_form]; rfl

/-- A broadcast and a change of one port can be taken in either order. -/
theorem broadcast_onPort (ev : Event) (s : State) (p : Port) (g : PortUnit → PortUnit) :
    broadcast ev (s.onPort p g) = (broadcast ev s).onPort p g := by
  simp only [broadcast_form]; rfl

/-- A broadcast and a change of the store can be taken in either order. -/
theorem broadcast_onStore (ev : Event) (s : State) (g : Store → Store) :
    broadcast ev (s.onStore g) = (broadcast ev s).onStore g := by
  simp only [broadcast_form]; rfl

/-- A queue never holds more than 32 entries after an offer when it did not before. -/
theorem queueOffered_length (q : List EventEntry) (e : EventEntry) (h : q.length ≤ 32) : (queueOffered q e).length ≤ 32 := by
  unfold queueOffered
  split
  · simp; omega
  · split
    · simp; omega
    · exact h

/-! ### Ports -/

/-- A response takes the port's flags alone, so it is the same whether or not the port was RECEIVING. -/
@[simp] theorem respond_receive (p : Port) (st : Status) (payload : List Byte) (s : State) :
    respond p st payload (receive p s) = respond p st payload s := by
  simp only [respond, receive, State.onPort]
  congr 1
  cases p <;> rfl

/-- Making a response ready and a broadcast can be taken in either order. -/
theorem respond_broadcast (p : Port) (st : Status) (payload : List Byte) (ev : Event) (s : State) :
    respond p st payload (broadcast ev s) = broadcast ev (respond p st payload s) := by
  simp only [respond, broadcast_onPort]

/-- The checks read nothing of the port itself. -/
@[simp] theorem portCheck_receive (s : State) (q : Request) (p : Port) (target : Nat) (payload : List Byte) :
    portCheck (receive p s) q p target payload = portCheck s q p target payload := rfl

/-- The crew port acknowledges its address exactly while the part runs and the port is not EXECUTING (R179, R190). -/
theorem crewAcknowledges_iff (s : State) :
    crewAcknowledges s = true ↔ s.phase = .running ∧ ∀ code target, (s.ports.get .crew).state ≠ .executing code target := by
  unfold crewAcknowledges
  cases s.phase <;> cases (s.ports.get .crew).state <;> simp

/-- What is sent to a port of the running part reaches it, but at a crew port that is EXECUTING. -/
theorem reaches_iff (s : State) (p : Port) (h : s.phase = .running) :
    reaches s p = true ↔ (p = .crew → ∀ code target, (s.ports.get p).state ≠ .executing code target) := by
  cases p <;> simp [reaches, crewAcknowledges_iff, h]

/-- What is sent to a free port reaches it. -/
theorem portFree.reaches {s : State} {p : Port} (hf : portFree s p) (hr : s.phase = .running) : reaches s p = true := by
  rw [reaches_iff s p hr]
  intro _ code target
  rcases hf with h | h <;> simp [h]

/-- The checks read nothing of what a port has sent. -/
@[simp] theorem portCheck_listens (r : Port) (s : State) (q : Request) (p : Port) (target : Nat) (payload : List Byte) :
    portCheck (listens r s) q p target payload = portCheck s q p target payload := rfl

/-- What a port has sent bears on no check of a request. -/
theorem takes_listens (q : Request) (p r : Port) (target : Byte) (payload : List Byte) (s : State) :
    Takes q p target payload (listens r s) ↔ Takes q p target payload s :=
  ⟨fun h => ⟨h.running, h.free, h.passes⟩, fun h => ⟨h.running, h.free, h.passes⟩⟩

/-- A transfer at a port of the running part: the port unit acts, the port having sent what a listening port sends. -/
theorem transfer_running (p : Port) (act : State → State) {s : State} (h : s.phase = .running) :
    transfer p act s = act (listens p s) := by simp [transfer, h]

/-- A transfer under RESET changes what the port has sent and nothing else (R190). -/
theorem transfer_held (p : Port) (act : State → State) {s : State} (h : s.phase = .held) :
    transfer p act s = sends p (idleLine p) s := by
  simp [transfer, h]

/-- A transfer without power changes nothing. -/
theorem transfer_off (p : Port) (act : State → State) {s : State} (h : s.phase = .off) : transfer p act s = s := by
  simp [transfer, h]

/-- No stall comes while no crew write is under way (R180). -/
theorem stallDue_none {s : State} (h : s.crewWrite = none) : stallDue s = s := by simp [stallDue, h]

/-- A byte taken before the stall puts it off: before its time a stall does nothing (R180). -/
theorem stallDue_early {s : State} {w : CrewWrite} (h : s.crewWrite = some w) (ht : s.partTime < w.stall) : stallDue s = s := by
  simp [stallDue, h, Nat.not_le.2 ht]

/-- At its time a stall ends the write under way and discards its frame (R176, R180). -/
theorem stallDue_reached {s : State} {w : CrewWrite} (h : s.crewWrite = some w) (ht : w.stall ≤ s.partTime) :
    stallDue s =
      { s with crewWrite := none }.onPort .crew fun u =>
        if w.collides then { u with collided := true } else { u with state := .idle, incomplete := true } := by
  simp only [stallDue, h, ht, if_true]
  cases w.collides <;> rfl

/-- A request that is taken: its owner acts on the port's RECEIVING state with the lock's lease renewed, and is answered. -/
theorem Takes.request {q : Request} {p : Port} {target : Byte} {payload : List Byte} {s₀ : State}
    (h : Takes q p target payload (listens p s₀)) (body : State → State × Reply) :
    let s := listens p s₀
    takeRequest q p target payload body s₀ =
      answer q p target.toNat (body (renewNamed q p target.toNat (receive p s))) := by
  intro s
  have hc : checkRequest q p target.toNat payload body (receive p s) =
      answer q p target.toNat (body (renewNamed q p target.toNat (receive p s))) := by
    simp [checkRequest, s, h.passes]
  unfold takeRequest
  rw [transfer_running p _ (s := s₀) h.running]
  change frameArrives p _ s = _
  unfold frameArrives
  have hs : reaches s p = true := h.free.reaches h.running
  have hf : portFree s p := h.free
  rcases hf with hf | hf <;> simp [hf, hc, hs]

/-- A request that fails a check is answered by the port unit. -/
theorem takeRequest_refused {q : Request} {p : Port} {target : Byte} {payload : List Byte} {s₀ : State} {st : Status} :
    let s := listens p s₀
    s.phase = .running → portFree s p → portCheck s q p target.toNat payload = some st →
    ∀ body : State → State × Reply, takeRequest q p target payload body s₀ = respond p st [] s := by
  intro s hr hf hc body
  have h : checkRequest q p target.toNat payload body (receive p s) = respond p st [] s := by
    simp [checkRequest, hc]
  unfold takeRequest
  rw [transfer_running p _ (s := s₀) hr]
  change frameArrives p _ s = _
  unfold frameArrives
  have hs := hf.reaches hr
  rcases hf with hf | hf <;> simp [hf, h, hs]

/-- The lease of the lock that a request's port holds on the feeder it names is renewed. -/
theorem renewNamed_feeder (q : Request) (p : Port) (f : Feeder) (s : State)
    (h : q.targetKind = .feeder ∨ q.targetKind = .feederOrAll) :
    renewNamed q p f.byte.toNat (receive p s) = namingFeeder f p s := by
  rcases h with h | h <;> simp [renewNamed, Request.targetFeeder, h, namingFeeder]

/-- A request that names no feeder renews no lock. -/
theorem renewNamed_none (q : Request) (p : Port) (target : Nat) (s : State)
    (h : q.targetKind = .noTarget ∨ q.targetKind = .district) : renewNamed q p target s = s := by
  rcases h with h | h <;> simp [renewNamed, Request.targetFeeder, h]

/-- A request at a free port whose target is a feeder, once taken. -/
theorem Takes.onFeeder {q : Request} {p : Port} {f : Feeder} {payload : List Byte} {s₀ : State}
    (h : Takes q p f.byte payload (listens p s₀)) (hk : q.targetKind = .feeder) (body : Feeder → State → State × Reply) :
    let s := listens p s₀
    takeRequest q p f.byte payload (onFeederTarget f.byte body) s₀ = answer q p f.number (body f (namingFeeder f p s)) := by
  intro s
  rw [h.request, renewNamed_feeder q p f s (.inl hk)]
  simp [onFeederTarget]

/-- A request at a free port that names no feeder, once taken. -/
theorem Takes.plain {q : Request} {p : Port} {target : Byte} {payload : List Byte} {s₀ : State}
    (h : Takes q p target payload (listens p s₀)) (hk : q.targetKind = .noTarget ∨ q.targetKind = .district)
    (body : State → State × Reply) :
    let s := listens p s₀
    takeRequest q p target payload body s₀ = answer q p target.toNat (body (receive p s)) := by
  intro s
  rw [h.request, renewNamed_none q p _ _ hk]

/-! ### Inputs and frames -/

/-- A feeder whose contacts have not both settled reads TRANSIT (R17). -/
theorem FeederState.position_unsettled {x : FeederState} (h : x.settled = false) : x.position = .transit := by
  simp [FeederState.position, h]

/-- A feeder whose contacts have both settled is decoded from them (R11). -/
theorem FeederState.position_settled {x : FeederState} (h : x.settled = true) :
    x.position = decodePosition (x.closedContact.reads false) (x.openContact.reads false) := by
  simp [FeederState.position, h]

/-- A frame whose bus record is invalid gives no block a Vn (R1). -/
theorem MeasFrame.usedVn_invalid {fr : MeasFrame} (h : fr.busValid = false) : fr.usedVn = none := by simp [MeasFrame.usedVn, h]

/-- A frame whose bus record is valid gives its Vn (R1). -/
theorem MeasFrame.usedVn_valid {fr : MeasFrame} (h : fr.busValid = true) : fr.usedVn = some fr.vn := by simp [MeasFrame.usedVn, h]

/-! ### The lock's lease -/

/-- The renewal of a lease changes one feeder's lock and nothing else. -/
theorem renewLock_form (f : Feeder) (p : Port) (s : State) :
    renewLock f p s = s.onFeeder f fun x =>
      { x with
        lock := match x.lock with
          | .port q d => if q = p then .port p (s.partTime + 300000) else .port q d
          | l => l } := by
  have hx : s.onFeeder f id = s := by simp [State.onFeeder]
  unfold renewLock
  cases h : (s.feeder f).lock with
  | free => simp only; conv_lhs => rw [← hx]
            simp only [State.feeder] at h; simp only [State.onFeeder, id]; congr 2; cases hc : s.feeders.get f; simp_all
  | hunt => simp only; conv_lhs => rw [← hx]
            simp only [State.feeder] at h; simp only [State.onFeeder, id]; congr 2; cases hc : s.feeders.get f; simp_all
  | port q d =>
    simp only [State.feeder] at h
    by_cases hq : q = p
    · subst hq; simp only [State.onFeeder, h, if_true]
    · simp only [hq, if_false]; conv_lhs => rw [← hx]
      simp only [State.onFeeder, id]; congr 2; cases hc : s.feeders.get f; simp_all

end Machine

end Sys2Proof
end

