-- ==== Sys2Proof/Laws/Hunt.lean ====
section
/-! SUPPORT. What the hunt's shared operations leave (chapter 8), each said once: the entries that steps send, its locks and operations,
the change of its state, and the candidate list. -/
namespace Sys2Proof.Machine

/-! ### Entries in turn -/

theorem said_nil (s : State) : said [] s = s.queues := rfl

/-- What entries leave in the queues depends on the queues, the part time and CREW_KEY alone (R197, R199). -/
theorem said_congr (evs : List Event) {s t : State} (hk : t.crewKey = s.crewKey) (ht : t.partTime = s.partTime)
    (hq : t.queues = s.queues) : said evs t = said evs s := by
  induction evs generalizing s t with
  | nil => exact hq
  | cons e es ih =>
    exact ih (s := broadcast e s) (t := broadcast e t) (by simp [broadcast_form, hk]) (by simp [broadcast_form, ht])
      (by simp [broadcast_form, hk, ht, hq, crewKeyActive])

/-- Entries sent on queues that earlier entries left are entries sent after them. -/
theorem said_append (a b : List Event) {s t : State} (hk : t.crewKey = s.crewKey) (ht : t.partTime = s.partTime)
    (hq : t.queues = said a s) : said b t = said (a ++ b) s := by
  have kept : ∀ (l : List Event) (u : State),
      (l.foldl (fun x e => broadcast e x) u).crewKey = u.crewKey ∧ (l.foldl (fun x e => broadcast e x) u).partTime = u.partTime := by
    intro l
    induction l with
    | nil => intro u; simp
    | cons e es ih => intro u; simp only [List.foldl_cons]; rw [(ih _).1, (ih _).2]; simp [broadcast_form]
  have e : said (a ++ b) s = said b (a.foldl (fun x e => broadcast e x) s) := by simp [said, List.foldl_append]
  rw [e]
  exact said_congr b (by rw [hk, (kept a s).1]) (by rw [ht, (kept a s).2]) hq

/-- The detector level depends on the feeders' fire states and on which are fitted (R145). -/
theorem detectorLevel_congr {s t : State} (hf : ∀ f, (t.feeder f).fire = (s.feeder f).fire)
    (hc : t.store.commissioning = s.store.commissioning) : detectorLevel t = detectorLevel s := by
  unfold detectorLevel State.fittedFeeders State.fitted State.commissioning
  simp only [hf, hc]

/-! ### Judgements that change nothing -/

/-- With nothing pending a judgement does nothing (R79). -/
theorem judge_nothing {f : Feeder} {s : State} (h : NothingPending s f) : judge f s = s := by simp [judge, h.1, h.2]

/-- A feeder whose lock the hunt holds is not quiescent, so a judgement of it does nothing (R75, R79). -/
theorem judge_locked {f : Feeder} {s : State} (h : (s.feeder f).lock = .hunt) : judge f s = s := by
  have q : quiescent s f = false := by simp [quiescent, h, Lock.notHunt]
  simp [judge, q]

/-- What waits for a feeder's quiescence depends on its fire state, the targets and the commissioning records (R76). -/
theorem NothingPending.congr {f : Feeder} {s t : State} (h : NothingPending s f) (hf : (t.feeder f).fire = (s.feeder f).fire)
    (hd : t.districts = s.districts) (hc : t.store.commissioning = s.store.commissioning) : NothingPending t f := by
  unfold NothingPending loweringPending settingsPending targetLevel State.commissioning at *
  simp only [hf, hd, hc]
  exact h

/-! ### Locks, claims and operations of the hunt -/

/-- The hunt drops a lock that it holds: it is free, LOCK_CHANGE goes, and the hunt holds none (R118). -/
theorem huntDropLock_spec {f : Feeder} {s : State} (h : (s.feeder f).lock = .hunt) (hn : NothingPending s f) :
    huntDropLock f s =
      { s with
        hunt := s.hunt.map fun r => { r with locked := none }
        feeders := s.feeders.set f { s.feeder f with lock := .free }
        queues := said [lockDropped f] s } := by
  unfold huntDropLock
  rw [h]
  simp only []
  rw [judge_nothing]
  · have h' : (s.feeders.get f).lock = .hunt := h
    simp [changeLock, h', Lock.holder, said, lockDropped, broadcast_form, State.onHunt, State.onFeeder, State.feeder, crewKeyActive]
  · exact hn.congr (by simp [changeLock, broadcast_form, State.onHunt, State.onFeeder, State.feeder])
      (by simp [changeLock, broadcast_form, State.onHunt, State.onFeeder])
      (by simp [changeLock, broadcast_form, State.onHunt, State.onFeeder])

/-- The hunt drops no lock of a feeder that it does not hold (R118). -/
theorem huntDropLock_other {f : Feeder} {s : State} (h : (s.feeder f).lock ≠ .hunt) : huntDropLock f s = s := by
  unfold huntDropLock
  cases e : (s.feeder f).lock <;> simp_all

/-- The hunt takes a lock that no port holds: LOCK_CHANGE goes when it was free (R118). -/
theorem huntTakeLock_spec {f : Feeder} {s : State} (hl : (s.feeder f).lock.heldByPort = false) :
    huntTakeLock f s = some
      { s with
        feeders := s.feeders.set f { s.feeder f with lock := .hunt }
        hunt := s.hunt.map fun r => { r with locked := some f }
        queues := said (lockTaken s f) s } := by
  unfold huntTakeLock
  cases e : (s.feeder f).lock with
  | free =>
    have e' : (s.feeders.get f).lock = .free := e
    simp only []
    rw [judge_locked (by simp [changeLock, broadcast_form, State.onHunt, State.onFeeder, State.feeder])]
    simp [changeLock, broadcast_form, State.onHunt, State.onFeeder, State.feeder, lockTaken, e', said, Lock.holder, crewKeyActive]
  | hunt =>
    have e' : { s.feeder f with lock := .hunt } = s.feeders.get f := by
      show { s.feeder f with lock := .hunt } = s.feeder f
      rw [← e]
    simp [State.onHunt, lockTaken, e, said_nil, e']
  | port p d => rw [e] at hl; simp [Lock.heldByPort] at hl

/-- The HUNT claim of a found feeder is present, and reported when it was absent (R95, R100, R162). -/
theorem placeSystemClaim_hunt {f : Feeder} {s : State} (ha : (s.feeder f).ar.state ≠ .deadTime) :
    placeSystemClaim f .hunt s =
      { s with
        feeders := s.feeders.set f { s.feeder f with claims := { (s.feeder f).claims with hunt := true } }
        queues := said (if (s.feeder f).claims.hunt = true then [] else [.claimPlaced f (.system .hunt)]) s } := by
  by_cases hc : (s.feeder f).claims.hunt = true
  · have e : { s.feeder f with claims := { (s.feeder f).claims with hunt := true } } = s.feeders.get f := by
      show { s.feeder f with claims := { (s.feeder f).claims with hunt := true } } = s.feeder f
      cases hx : s.feeder f
      simp [hx] at hc ⊢
      rename_i c _ _ _ _ _
      cases c
      simp_all
    rw [e]
    simp [placeSystemClaim, judged, setSystemClaim, SystemClaims.has, hc, said_nil]
  · have hf : (s.feeder f).claims.hunt = false := by simpa using hc
    have hg : (s.feeders.get f).claims.hunt = false := hf
    have hd : (s.feeders.get f).ar.state ≠ .deadTime := ha
    simp [placeSystemClaim, judged, setSystemClaim, SystemClaims.has, SystemClaims.put, claimEntered, seqClaimEntry, broadcast_form,
      State.onFeeder, State.feeder, said, crewKeyActive, hd, hg]

/-- A hunt trip of a CLOSED feeder with nothing in flight is admitted under the next op id (R104 to R106). -/
theorem requestTrip_hunt {f : Feeder} {s : State} (hp : (s.feeder f).position = .closed) (hi : (s.feeder f).inFlight = none) :
    requestTrip f .hunt none s =
      ({ s with
          feeders := s.feeders.set f
            { s.feeder f with
              inFlight := some { op := huntOperation s .trip, deadline := s.partTime + (s.commissioning f).tripConfirm }
              transitTimer := none }
          opCounter := nextOpId s.opCounter }, .admitted s.opCounter, []) := by
  unfold requestTrip
  simp only [hi, hp]
  rfl

/-- The restore rule bars no close exactly when the block set holds no claim but FIRE and HUNT (R99, R110). -/
theorem restoreBlocked_iff (s : State) (f : Feeder) : restoreBlocked s f = false ↔ RestoreFree s f := by
  simp only [restoreBlocked, blockSet, RestoreFree, SystemClaim.all, portClaims]
  cases hm : (s.feeder f).claims.measure <;> cases hb : (s.feeder f).claims.breaker <;> cases hs : (s.feeder f).claims.store <;>
    cases hf : (s.feeder f).claims.fire <;> cases hh : (s.feeder f).claims.hunt <;>
    simp [SystemClaims.has, hm, hb, hs, hf, hh, ClaimInfo.blocksRestore, PortClaim.info]

/-- A hunt close that meets its checks is admitted under the next op id (R104, R105, R110). -/
theorem requestHuntClose_spec {f : Feeder} {s : State} (h : HuntMayClose s f) :
    requestHuntClose f s =
      ({ s with
          feeders := s.feeders.set f
            { s.feeder f with
              inFlight := some { op := huntOperation s .close, deadline := s.partTime + (s.commissioning f).closeConfirm }
              transitTimer := none }
          opCounter := nextOpId s.opCounter }, .admitted s.opCounter) := by
  have e : requestHuntClose f s = (admitOp f .close .hunt none s, .admitted s.opCounter) := by
    simp [requestHuntClose, h.lock, requestBlockClose, inFlightKind, h.idle, h.apart, h.sound, (restoreBlocked_iff s f).2 h.free]
  rw [e]
  rfl

/-- A hunt close of a breaker that is not CLOSED is refused, with no change, when the restore rule bars it (R110, R163). -/
theorem requestHuntClose_barred {f : Feeder} {s : State} (hp : (s.feeder f).position ≠ .closed) (hb : restoreBlocked s f = true) :
    ∃ reason, requestHuntClose f s = (s, .refused reason) := by
  unfold requestHuntClose requestBlockClose
  simp only [hp, if_false, hb, if_true]
  (repeat' split) <;> exact ⟨_, rfl⟩

/-- What admits a hunt close depends on the feeder and the pool. -/
theorem HuntMayClose.congr {f : Feeder} {s t : State} (h : HuntMayClose s f) (hf : t.feeder f = s.feeder f) (hp : t.pool = s.pool) :
    HuntMayClose t f :=
  ⟨hf ▸ h.lock, hf ▸ h.idle, hf ▸ h.apart, hf ▸ h.sound, by have k := h.free; unfold RestoreFree at *; rw [hf, hp]; exact k⟩

/-! ### Steps of the hunt -/

/-- A change of hunt state sends HUNT_STATE when it changes; the resume point is held in SUSPENDED alone (section 8.2, log 12). -/
theorem setHuntState_spec {s : State} {h : HuntRun} (hh : s.hunt = some h) (new : HuntState) (d : HuntDetail) :
    setHuntState new d s =
      { s with
        hunt := some { h with state := new, resume := if new = .suspended then h.resume else none }
        queues := said (huntMoved s h.state new d) s } := by
  by_cases e : h.state = new
  · simp [setHuntState, State.onHunt, huntState, hh, e, huntMoved, said_nil]
  · simp [setHuntState, State.onHunt, huntState, hh, e, huntMoved, said, sayHunt, broadcast_form, crewKeyActive]
    rfl

theorem endStep_spec {s : State} {h : HuntRun} (hh : s.hunt = some h) : endStep s = { s with hunt := some (stepEnded h) } := by
  simp [endStep, State.onHunt, hh, stepEnded]

/-- An abort acts by the hunt's state: it leaves a pending result standing, waits for the operation in flight, or ends the step (R168,
R169). -/
theorem abortHunt_spec {s : State} {h : HuntRun} (hh : s.hunt = some h) (res : HuntResult) :
    abortHunt res s =
      if h.pendingResult.isSome = true ∨ h.state = .idle then (s, .wait)
      else if h.state = .isolate ∨ h.state = .trialOpen ∨ h.state = .trialRestore then ({ s with hunt := some (resulting h res) }, .wait)
      else if h.state = .suspended then ({ s with hunt := some (resulting h res) }, .finish)
      else ({ s with hunt := some (resulting (stepEnded h) res) }, .finish) := by
  simp only [abortHunt, hh]
  cases hp : h.pendingResult <;> cases hs : h.state <;> simp [setPending, State.onHunt, hh, resulting, endStep, stepEnded]

/-- A restore of a feeder whose lock the hunt holds and whose close meets its checks: TRIAL_RESTORE, with the close in flight
(R160). -/
theorem restoreFeeder_close {f : Feeder} {s : State} {h : HuntRun} (hh : s.hunt = some h) (hm : HuntMayClose s f)
    (hl : (s.feeder f).lock = .hunt) :
    LeadsWith s (restoreFeeder f s) .wait { stepEnded h with state := .trialRestore, resume := none, op := some (huntOp s .close f) } f
      (huntClosing s f) (nextOpId s.opCounter) (huntMoved s h.state .trialRestore {}) := by
  simp only [restoreFeeder, LeadsWith]
  rw [endStep_spec hh, setHuntState_spec (h := stepEnded h) rfl, requestHuntClose_spec]
  · have hl' : (s.feeders.get f).lock = .hunt := hl
    simp [State.onHunt, stepEnded, huntOp, huntClosing, huntOperation, State.feeder, State.commissioning, hl']
    exact said_congr (s := s) _ rfl rfl rfl
  · exact hm.congr rfl rfl

/-! ### The candidate list -/

theorem excludedAsIdentified_iff (h : HuntRun) (f : Feeder) : excludedAsIdentified h f = false ↔ barredFeeder h ≠ some f := by
  unfold excludedAsIdentified barredFeeder
  cases h.identified with
  | none => simp
  | some i => by_cases e : i.feeder = f <;> cases hi : i.isolate <;> simp [e, and_assoc]

theorem candidateFit_iff (s : State) (h : HuntRun) (f : Feeder) :
    (candidateFit s h f = true ∧ 1 ≤ (s.commissioning f).trialPriority ∧ (s.commissioning f).trialPriority ≤ 6) ↔
      MayBeTried s (barredFeeder h) f := by
  simp only [candidateFit, MayBeTried, Bool.and_eq_true, decide_eq_true_eq, Bool.not_eq_true', excludedAsIdentified_iff]
  tauto

/-- The list that trial entry builds holds the feeders that meet the conditions, in their order, each NOT_TRIED (R156). -/
theorem candidateList_trial (s : State) (h : HuntRun) : TrialList s (barredFeeder h) (candidateList s h) := by
  constructor
  · intro f
    rw [← candidateFit_iff]
    simp only [candidateList, List.mem_map, List.mem_flatMap, List.mem_filter]
    constructor
    · rintro ⟨c, ⟨g, ⟨k, hk, hg, hfit⟩, rfl⟩, rfl⟩
      simp only [Bool.and_eq_true, decide_eq_true_eq] at hfit
      have e : k = (s.commissioning g).trialPriority := hfit.2.symm
      simp at hk
      show candidateFit s h g = true ∧ 1 ≤ (s.commissioning g).trialPriority ∧ (s.commissioning g).trialPriority ≤ 6
      exact ⟨hfit.1, by omega, by omega⟩
    · rintro ⟨fit, low, high⟩
      refine ⟨⟨f, .notTried⟩, ⟨f, ⟨(s.commissioning f).trialPriority, ?_, ?_, by simp [fit]⟩, rfl⟩, rfl⟩
      · simp; omega
      · cases f <;> simp [Feeder.all]
  · intro c hc
    simp only [candidateList, List.mem_map] at hc
    obtain ⟨f, _, rfl⟩ := hc
    rfl
  · simp only [candidateList, List.pairwise_map]
    rw [List.pairwise_flatMap]
    constructor
    · intro k _
      have numbered : Feeder.all.Pairwise fun a b => a.number < b.number := by decide
      refine (numbered.filter _).imp_of_mem ?_
      intro a b ha hb hab
      simp only [List.mem_filter, Bool.and_eq_true, decide_eq_true_eq] at ha hb
      exact .inr ⟨ha.2.2.trans hb.2.2.symm, hab⟩
    · have priorities : [1, 2, 3, 4, 5, 6].Pairwise fun a b : Nat => a < b := by decide
      refine priorities.imp ?_
      intro j k hjk a ha b hb
      simp only [List.mem_filter, Bool.and_eq_true, decide_eq_true_eq] at ha hb
      exact .inl (by rw [ha.2.2, hb.2.2]; exact hjk)

/-- The next candidate is the first that is still NOT_TRIED (R157). -/
theorem nextUntried_first {h : HuntRun} {i : Nat} {c : Candidate} (hc : (h.candidates.getD [])[i]? = some c)
    (ho : c.outcome = .notTried) (hb : ∀ j e, j < i → (h.candidates.getD [])[j]? = some e → e.outcome ≠ .notTried) :
    nextUntried h = some i := by
  rw [nextUntried, List.findIdx?_eq_some_iff_getElem]
  obtain ⟨hi, he⟩ := List.getElem?_eq_some_iff.1 hc
  exact ⟨hi, by simp [he, ho], fun j hj => by simp [hb j _ hj (List.getElem?_eq_getElem (by omega))]⟩

end Sys2Proof.Machine
end

