-- ==== Sys2Proof/Laws/Switching.lean ====
section
/-! SUPPORT. What the shared operations of the sequencer, the claim table, the fire level unit and the switching units leave (chapters 4
to 7), each said once. -/
namespace Sys2Proof.Machine

/-! ### Reports and trips -/

/-- OP_DONE goes to queues and changes nothing else (R114). -/
theorem sendOpDone_form (f : Feeder) (c : Completed) (sup : Option (Nat × Origin)) (s : State) :
    sendOpDone f c sup s = { s with queues := (sendOpDone f c sup s).queues } := by
  unfold sendOpDone
  generalize c.op.requesters = rs
  suffices h : ∀ (g : State → Origin → State), (∀ a o, g a o = { a with queues := (g a o).queues }) →
      ∀ (l : List Origin) (a : State), l.foldl g a = { a with queues := (l.foldl g a).queues } by
    refine h _ (fun a o => ?_) rs s
    cases o <;> (simp only [offer]; try split) <;> rfl
  intro g hg l
  induction l with
  | nil => intro a; rfl
  | cons o l ih => intro a; rw [List.foldl_cons, ih, hg a o]

/-- The OP_DONE entries that a completion leaves depend on the queues, the part time and CREW_KEY alone (R114, R197, R199). -/
theorem sendOpDone_congr (f : Feeder) (c : Completed) (sup : Option (Nat × Origin)) {s t : State} (hk : t.crewKey = s.crewKey)
    (ht : t.partTime = s.partTime) (hq : t.queues = s.queues) : (sendOpDone f c sup t).queues = (sendOpDone f c sup s).queues := by
  have one : ∀ (p : Port) (ev : Event) (a b : State), b.crewKey = a.crewKey → b.partTime = a.partTime → b.queues = a.queues →
      (offer p ev b).queues = (offer p ev a).queues ∧ (offer p ev b).crewKey = (offer p ev a).crewKey ∧
        (offer p ev b).partTime = (offer p ev a).partTime := by
    intro p ev a b h1 h2 h3
    by_cases k : p = .crew ∧ crewKeyActive a = false
    · have k' : p = .crew ∧ crewKeyActive b = false := by simpa [crewKeyActive, h1] using k
      simp only [offer, if_pos k, if_pos k', h1, h2, h3, and_self]
    · have k' : ¬ (p = .crew ∧ crewKeyActive b = false) := by simpa [crewKeyActive, h1] using k
      simp [offer, if_neg k, if_neg k', State.withQueue, h1, h2, h3]
  suffices h : ∀ (ev : Event) (l : List Origin) (a b : State), b.crewKey = a.crewKey → b.partTime = a.partTime →
      b.queues = a.queues →
      (l.foldl (fun acc o => match o with | .port p => offer p ev acc | _ => acc) b).queues =
        (l.foldl (fun acc o => match o with | .port p => offer p ev acc | _ => acc) a).queues from
    h _ c.op.requesters s t hk ht hq
  intro ev l
  induction l with
  | nil => exact fun _ _ _ _ h => h
  | cons o l ih =>
    intro a b h1 h2 h3
    rw [List.foldl_cons, List.foldl_cons]
    cases o
    case port p => exact ih _ _ (one p ev a b h1 h2 h3).2.1 (one p ev a b h1 h2 h3).2.2 (one p ev a b h1 h2 h3).1
    all_goals exact ih a b h1 h2 h3

/-- A superseded close leaves the sequencer's record as it is, but for the op id of a RECLOSE close in CLOSING (R132, R137). -/
theorem seqCompletion_superseded (f : Feeder) (op : Operation) (now : Nat) (s : State) (hk : op.kind = .close) :
    seqCompletion f { op := op, outcome := .superseded, completed := now } s =
      s.onFeeder f fun x =>
        { x with
          ar :=
            if op.origin = .reclose ∧ x.ar.state = .closing ∧ x.ar.closeOp = some op.id then { x.ar with closeOp := none }
            else x.ar } := by
  have same : s.onFeeder f (fun x => x) = s := by simp [State.onFeeder]
  have kept : ¬ (op.origin = .reclose ∧ (s.feeder f).ar.state = .closing ∧ (s.feeder f).ar.closeOp = some op.id) →
      (s.onFeeder f fun x =>
        { x with
          ar :=
            if op.origin = .reclose ∧ x.ar.state = .closing ∧ x.ar.closeOp = some op.id then { x.ar with closeOp := none }
            else x.ar }) = s := by
    intro h
    have h' : ¬ (op.origin = .reclose ∧ (s.feeders.get f).ar.state = .closing ∧ (s.feeders.get f).ar.closeOp = some op.id) := h
    conv_rhs => rw [← same]
    simp only [State.onFeeder, if_neg h']
  simp only [seqCompletion, hk, seqRecloseCompletion, seqCloseCompletion]
  by_cases ho : op.origin = .reclose
  · by_cases hs : (s.feeder f).ar.state = .closing
    · by_cases hc : (s.feeder f).ar.closeOp = some op.id
      · have hs' : (s.feeders.get f).ar.state = .closing := hs
        have hc' : (s.feeders.get f).ar.closeOp = some op.id := hc
        simp [ho, hs, hc, State.onFeeder, hs', hc']
      · rw [kept (by simp [hc])]
        simp [ho, hc]
    · rw [kept (by simp [hs])]
      simp [ho, hs]
  · rw [kept (by simp [ho])]
    simp only [ho, if_false]
    cases (s.feeder f).ar.state <;> rfl

/-- A trip supersedes a close: it is in flight under the next op id, the close is the last operation, SUPERSEDED, entries go, and the hunt
is told of a close of its own (R108, R114). -/
theorem supersede_spec (f : Feeder) (op : Operation) (origin : Origin) (permit : Option Bool) (s : State) (hk : op.kind = .close) :
    supersede f op origin permit s =
      ({ s with
          opCounter := nextOpId s.opCounter
          feeders := s.feeders.set f
            { s.feeder f with
              inFlight := some { op := newOperation s .trip origin permit, deadline := s.partTime + (s.commissioning f).tripConfirm }
              transitTimer := none
              lastOp := some { op := op, outcome := .superseded, completed := s.partTime }
              ar :=
                if op.origin = .reclose ∧ (s.feeder f).ar.state = .closing ∧ (s.feeder f).ar.closeOp = some op.id then
                  { (s.feeder f).ar with closeOp := none }
                else (s.feeder f).ar }
          queues :=
            (sendOpDone f { op := op, outcome := .superseded, completed := s.partTime } (some (s.opCounter, origin)) s).queues },
       if .hunt ∈ op.requesters then [.opDone f op.id .close .superseded (some origin)] else []) := by
  let c : Completed := { op := op, outcome := .superseded, completed := s.partTime }
  let u := (admitOp f .trip origin permit s).onFeeder f fun x => { x with lastOp := some c }
  rw [← sendOpDone_congr f { op := op, outcome := .superseded, completed := s.partTime } (some (s.opCounter, origin)) (s := s) (t := u) rfl rfl rfl]
  have e : supersede f op origin permit s =
      (judged f (seqCompletion f c) (sendOpDone f c (some (s.opCounter, origin)) u), huntNotices f c (some origin)) := rfl
  have hc : seqCompletion f c = seqCompletion f { op := op, outcome := .superseded, completed := s.partTime } := rfl
  rw [e, sendOpDone_form, judged, hc]
  simp only [seqCompletion_superseded f op _ _ hk]
  refine Prod.ext ?_ (by simp [c, huntNotices, hk, List.contains_eq_mem])
  rw [if_pos]
  · simp [u, c, admitOp, advanceOpId, State.onFeeder, confirmTimeOf, State.feeder, State.commissioning]
    congr
  · simp only [State.onFeeder, State.feeder, PerFeeder.get_set_self]
    split <;> rfl

/-- A trip joins a trip in flight: its origin is listed and its permit combined, and nothing else changes (R41, R107). -/
theorem requestTrip_joins {f : Feeder} {s : State} {o : InFlight} (ho : (s.feeder f).inFlight = some o) (hk : o.op.kind = .trip)
    (origin : Origin) (permit : Option Bool) :
    requestTrip f origin permit s =
      ({ s with
          feeders := s.feeders.set f
            { s.feeder f with
              inFlight := some
                { o with
                  op :=
                    { o.op with
                      requesters := if origin ∈ o.op.requesters then o.op.requesters else o.op.requesters ++ [origin]
                      permit := joinPermit o.op.permit permit } } } }, .joined o.op.id, []) := by
  have ho' : (s.feeders.get f).inFlight = some o := ho
  simp [requestTrip, hk, joinTrip, State.onFeeder, ho', List.contains_eq_mem, State.feeder]

/-- A trip of the elements that finds the breaker open and nothing in flight is the last operation, ALREADY (R106, R114, R128). -/
theorem requestTrip_protection_already {f : Feeder} {s : State} (hi : (s.feeder f).inFlight = none)
    (hp : (s.feeder f).position = .opened) (permit : Option Bool) :
    requestTrip f .protection permit s =
      ({ s with
          opCounter := nextOpId s.opCounter
          feeders := s.feeders.set f
            { s.feeder f with
              lastOp := some { op := newOperation s .trip .protection permit, outcome := .already, completed := s.partTime } } },
       .already s.opCounter, []) := by
  have kept : ∀ u : State,
      seqCompletion f { op := newOperation s .trip .protection permit, outcome := .already, completed := s.partTime } u = u := by
    intro u
    simp only [seqCompletion, newOperation, seqTripCompletion, List.contains_eq_mem, List.mem_singleton, decide_true, if_true]
    cases (u.feeder f).ar.state <;> rfl
  have silent : ∀ u : State,
      sendOpDone f { op := newOperation s .trip .protection permit, outcome := .already, completed := s.partTime } none u = u :=
    fun _ => rfl
  simp only [requestTrip, completeAlready, reportCompletion, judged, silent, kept, if_true, advanceOpId, State.onFeeder, State.feeder]
  rw [show (s.feeders.get f).inFlight = none from hi]
  rw [show (s.feeders.get f).position = .opened from hp]
  rfl

/-- The notices of a completion, given to the hunt unit at no frame, are what it is told (R114). -/
theorem deliver_notices (f : Feeder) (c : Completed) (superseding : Option Origin) (s : State) :
    deliver none (huntNotices f c superseding) s = huntTold f c superseding s := by
  unfold deliver huntNotices huntTold
  simp only [List.contains_eq_mem, decide_eq_true_eq]
  split_ifs <;> rfl

/-! ### Claims and settings -/

/-- A claim that enters the block set of a feeder in DEAD_TIME takes its sequencer to LOCKOUT, with the entries of both (R100, R129). -/
theorem claimEntered_deadTime {f : Feeder} {s : State} (h : (s.feeder f).ar.state = .deadTime) (claim : ClaimInfo) :
    claimEntered f claim s =
      broadcast (.arState f .deadTime .lockout (s.feeder f).ar.shotsUsed none none .claim)
        (broadcast (.lockout f .claim (s.feeder f).ar.shotsUsed { claim := some claim })
          (broadcast (.claimPlaced f claim)
            (s.onFeeder f fun x =>
              { x with
                ar := { ArRecord.bare .lockout s.partTime with shotsUsed := x.ar.shotsUsed, cause := some .claim } }))) := by
  have h' : (s.feeders.get f).ar.state = .deadTime := h
  simp [claimEntered, seqClaimEntry, toLockout, arMove, ArRecord.enter, ArRecord.bare, broadcast_form, State.onFeeder, State.feeder, h',
    crewKeyActive]

/-- An element at a replacement of the settings keeps what it has when it was and stays enabled (R36). -/
theorem Element.afterReload_spec (e : Element) (was now : Bool) :
    e.afterReload was now = if was = true ∧ now = true then e else { state := .normal, amount := 0 } := by
  simp [Element.afterReload, Element.rest]

/-- New settings end a dead time whose current shot their shot count no longer reaches (R130). -/
theorem seqReload_spec (f : Feeder) (s : State) :
    seqReload f s =
      if (s.feeder f).ar.state = .deadTime ∧ shotCount s f < (s.feeder f).ar.currentShot.getD 0 then
        { s with
          feeders := s.feeders.set f
            { s.feeder f with
              ar := { ArRecord.bare .lockout s.partTime with shotsUsed := (s.feeder f).ar.shotsUsed, cause := some .shotsReduced } }
          queues := said
            [.lockout f .shotsReduced (s.feeder f).ar.shotsUsed {},
             .arState f .deadTime .lockout (s.feeder f).ar.shotsUsed none none .shotsReduced] s }
      else s := by
  unfold seqReload
  by_cases c : (s.feeder f).ar.state = .deadTime ∧ shotCount s f < (s.feeder f).ar.currentShot.getD 0
  · have h' : (s.feeders.get f).ar.state = .deadTime := c.1
    rw [if_pos c, if_pos c]
    simp [toLockout, arMove, ArRecord.enter, ArRecord.bare, broadcast_form, State.onFeeder, State.feeder, h', said, crewKeyActive]
  · rw [if_neg c, if_neg c]

/-- A hunt level below the detector level is raised to it, with HUNT_STATE (R148). -/
theorem raiseHuntLevel_spec (s : State) :
    raiseHuntLevel s =
      { s with
        hunt := s.hunt.map fun h => if h.level.number < (detectorLevel s).number then { h with level := detectorLevel s } else h
        queues := said
          (match s.hunt with
           | some h =>
             if h.level.number < (detectorLevel s).number then
               [.huntState s.detector.state s.detector.state h.state h.state (detectorLevel s) { level := some (detectorLevel s) }]
             else []
           | none => []) s } := by
  unfold raiseHuntLevel
  cases hh : s.hunt with
  | none => cases s; simp_all [said_nil]
  | some h =>
    by_cases c : h.level.number < (detectorLevel s).number
    · simp only [c, if_true, sayHunt, State.onHunt, hh, Option.map_some, broadcast_form, said, List.foldl_cons, List.foldl_nil]
      congr 1
    · simp only [c, if_false, said_nil, Option.map_some]
      rw [← hh]

end Sys2Proof.Machine
end

