-- ==== Sys2Proof/Laws/Fire.lean ====
section
/-! SUPPORT. What the fire level unit does (chapter 4), said once: a level that is applied, the judgement, a district's new target and the
hand-on of a commit. -/
namespace Sys2Proof.Machine

/-- A broadcast is one entry said. -/
theorem broadcast_said (ev : Event) (s : State) : broadcast ev s = { s with queues := said [ev] s } := by
  simp [broadcast_form, said]

/-- An entry said on queues that earlier entries left stands after them. -/
theorem broadcast_after (ev : Event) (evs : List Event) {s t : State} (hk : t.crewKey = s.crewKey) (ht : t.partTime = s.partTime)
    (hq : t.queues = said evs s) : broadcast ev t = { t with queues := said (evs ++ [ev]) s } := by
  rw [broadcast_said, said_append evs [ev] hk ht hq]

/-- The FIRE claim is set present or absent, with its entries, and a claim that enters ends a dead time (R95, R100, R129). -/
theorem setSystemClaim_fire (f : Feeder) (blocked : Bool) {evs : List Event} {s t : State} (hk : t.crewKey = s.crewKey) (ht : t.partTime = s.partTime)
    (hq : t.queues = said evs s) :
    let y := t.feeder f
    let byClaim := decide (y.ar.state = .deadTime) && !y.claims.fire && blocked
    setSystemClaim f .fire blocked t =
      { t with
        feeders := t.feeders.set f
          { y with
            claims := { y.claims with fire := blocked }
            ar :=
              if byClaim then { ArRecord.bare .lockout s.partTime with shotsUsed := y.ar.shotsUsed, cause := some .claim } else y.ar }
        queues := said
          (evs ++
            (if y.claims.fire = blocked then []
             else if blocked then [.claimPlaced f (.system .fire)]
             else [.claimReleased f (.system .fire) .cleared]) ++
            (if byClaim then
              [.lockout f .claim y.ar.shotsUsed { claim := some (.system .fire) },
               .arState f .deadTime .lockout y.ar.shotsUsed none none .claim]
             else []))
          s } := by
  intro y byClaim
  have hq' : said evs s = t.queues := hq.symm
  have back : ∀ b, y.claims.fire = b →
      t.feeders.set f { y with claims := { y.claims with fire := b } } = t.feeders := by
    intro b hb
    have : { y with claims := { y.claims with fire := b } } = t.feeders.get f := by
      subst hb; rfl
    rw [this, PerFeeder.set_get]
  by_cases hb : y.claims.fire = blocked
  · have hc : byClaim = false := by simp only [byClaim]; rw [hb]; cases blocked <;> simp
    have e : setSystemClaim f .fire blocked t = t := by
      have hb' : (t.feeder f).claims.has .fire = blocked := hb
      simp [setSystemClaim, hb']
    rw [e]
    simp only [hc, if_pos hb, Bool.false_eq_true, if_false, List.append_nil, hq', back blocked hb]
  · have hb' : ¬ (t.feeder f).claims.has .fire = blocked := hb
    have e : setSystemClaim f .fire blocked t =
        (if blocked then claimEntered f (.system .fire) else claimLeft f (.system .fire) .cleared)
          (t.onFeeder f fun z => { z with claims := { z.claims with fire := blocked } }) := by
      simp only [setSystemClaim, if_neg hb']
      cases blocked <;> rfl
    rw [e]
    cases hbl : blocked
    · have hc : byClaim = false := by simp [byClaim, hbl]
      rw [hbl] at hb
      simp only [hc, Bool.false_eq_true, if_false, hb, claimLeft, List.append_nil]
      rw [broadcast_after _ evs (s := s) (by simp [hk]) (by simp [ht]) (by simp [hq])]
      rfl
    · rw [hbl] at hb
      have hf : y.claims.fire = false := by simpa using hb
      by_cases hd : y.ar.state = .deadTime
      · have hc : byClaim = true := by simp [byClaim, hbl, hf, hd]
        have hd' : (t.feeders.get f).ar.state = .deadTime := hd
        have turn : ∀ (u : State) (a b c : Event),
            broadcast c (broadcast b (broadcast a u)) = { u with queues := said [a, b, c] u } := by
          intros; simp [broadcast_form, said]
        rw [if_pos rfl, claimEntered_deadTime (by simpa [State.feeder] using hd'), turn,
          said_append evs _ (s := s) (by simp [hk]) (by simp [ht]) (by simp [hq])]
        simp only [hc, if_true, hb]
        simp [State.onFeeder, State.feeder, ht, y]
      · have hc : byClaim = false := by simp [byClaim, hd]
        have e2 : claimEntered f (.system .fire) (t.onFeeder f fun z => { z with claims := { z.claims with fire := true } }) =
            broadcast (.claimPlaced f (.system .fire)) (t.onFeeder f fun z => { z with claims := { z.claims with fire := true } }) := by
          have hd' : (t.feeders.get f).ar.state ≠ .deadTime := hd
          simp [claimEntered, seqClaimEntry, broadcast_form, State.feeder, hd']
        rw [if_pos rfl, e2, broadcast_after _ evs (s := s) (by simp [hk]) (by simp [ht]) (by simp [hq])]
        simp only [hc, Bool.false_eq_true, if_true, hb, if_false, List.append_nil]
        rfl

/-- New effective settings are handed on: the elements and the feeder's report, a dead time that the shot count ends, and a hunt level
that the detector level raises (R36, R42, R81, R130, R148). -/
theorem handSettings_spec {f : Feeder} {x : FeederFire} {s : State} (hx : (s.feeder f).fire = some x) (old : Group) :
    let g := x.effective.group
    let kept (was now : Bool) (e : Element) : Element := if was = true ∧ now = true then e else { state := .normal, amount := 0 }
    let y := s.feeder f
    let highSet := kept old.highSetEnable g.highSetEnable y.highSet
    let earthIdmt := kept old.earthEnable g.earthEnable y.earthIdmt
    let sef := kept old.sefEnable g.sefEnable y.sef
    let up (e : Element) : Bool := decide (e.state = .pickedUp ∨ e.state = .held ∨ e.state = .operated)
    let reduced := y.ar.state = .deadTime ∧ (y.ar.currentShot.any fun n => decide (g.shots < n)) = true
    let level := detectorLevel s
    handSettings f old s =
      { s with
        feeders := s.feeders.set f
          { y with
            highSet := highSet, earthIdmt := earthIdmt, sef := sef
            pickedUp := up y.phaseIdmt || up highSet || up earthIdmt || up sef
            ar :=
              if reduced then
                { ArRecord.bare .lockout s.partTime with shotsUsed := y.ar.shotsUsed, cause := some .shotsReduced }
              else y.ar }
        hunt := s.hunt.map fun h => if h.level.number < level.number then { h with level := level } else h
        queues := said
          ((if reduced then
              [.lockout f .shotsReduced y.ar.shotsUsed {},
               .arState f .deadTime .lockout y.ar.shotsUsed none none .shotsReduced]
            else []) ++
           (match s.hunt with
            | some h =>
              if h.level.number < level.number then
                [.huntState s.detector.state s.detector.state h.state h.state level { level := some level }]
              else []
            | none => []))
          s } := by
  intro g kept y highSet earthIdmt sef up reduced level
  have hx' : (s.feeders.get f).fire = some x := hx
  have hup : ∀ z : FeederState, z.anyPickedUp = (up z.phaseIdmt || up z.highSet || up z.earthIdmt || up z.sef) := by
    intro z
    have h1 : ∀ e : Element, decide (e.state ≠ .normal) = up e := by intro e; simp only [up]; cases e.state <;> simp
    simp only [FeederState.anyPickedUp, h1, List.any_cons, List.any_nil, Bool.or_false, Bool.or_assoc]
  let z : FeederState := { y with highSet := highSet, earthIdmt := earthIdmt, sef := sef, pickedUp := up y.phaseIdmt || up highSet || up earthIdmt || up sef }
  let a : State := { s with feeders := s.feeders.set f z }
  have hp : ∀ e, kept true true e = e := by intro e; simp [kept]
  have ez : elementsReload old g (s.feeders.get f) = z := by
    simp only [elementsReload, hup, Element.afterReload_spec, Group.enables]
    rfl
  have e1 : handSettings f old s = raiseHuntLevel (seqReload f a) := by
    simp only [handSettings, State.onFeeder, hx', a]
    rw [ez]
  have haf : (a.feeder f) = z := by simp [a, State.feeder]
  have hzf : z.fire = some x := hx'
  have hr : ((a.feeder f).ar.state = .deadTime ∧ shotCount a f < (a.feeder f).ar.currentShot.getD 0) ↔ reduced := by
    simp only [shotCount, haf, hzf, reduced]
    show (y.ar.state = .deadTime ∧ _ < y.ar.currentShot.getD 0) ↔ _
    apply and_congr_right; intro _
    cases y.ar.currentShot <;> simp [g]
  have hd : ∀ w : State, (∀ q, (w.feeder q).fire = (s.feeder q).fire) → w.store.commissioning = s.store.commissioning → detectorLevel w = level := fun w h1 h2 => detectorLevel_congr h1 h2
  have key : ∀ w : State, (∀ q, (w.feeder q).fire = (s.feeder q).fire) → w.store.commissioning = s.store.commissioning → w.hunt = s.hunt → w.detector = s.detector →
      raiseHuntLevel w = { w with
        hunt := s.hunt.map fun h => if h.level.number < level.number then { h with level := level } else h
        queues := said
           (match s.hunt with
            | some h =>
              if h.level.number < level.number then
                [.huntState s.detector.state s.detector.state h.state h.state level { level := some level }]
              else []
            | none => []) w } := by
    intro w h1 h2 h3 h4
    rw [raiseHuntLevel_spec, hd w h1 h2, h3]; simp only [h4]; all_goals (cases s.hunt <;> rfl)
  rw [e1, key]
  · rw [seqReload_spec]
    simp only [hr]
    by_cases c : reduced
    · simp only [c, if_true]
      simp only [a, z, y, State.feeder, PerFeeder.set_set]
      congr 1
      · simp only [PerFeeder.get_set_self]
      · refine said_append _ _ rfl rfl ?_
        simp only [PerFeeder.get_set_self]
        exact said_congr _ rfl rfl rfl
    · simp only [c, if_false, List.nil_append]
      simp only [a, z]
      congr 1
      exact said_congr _ rfl rfl rfl
  · intro q; rw [seqReload_spec]; by_cases e : q = f <;> split <;> simp [State.feeder, e, y, a, z]
  · rw [seqReload_spec]; split <;> rfl
  · rw [seqReload_spec]; split <;> rfl
  · rw [seqReload_spec]; split <;> rfl

/-- A level that is applied is a reload (R74, R77 to R81). -/
theorem applyLevel_spec {f : Feeder} {x : FeederFire} {s : State} (hx : (s.feeder f).fire = some x) (l : Level) (cause : ApplyCause) :
    applyLevel f l cause s = reloaded f l cause s := by
  generalize hev : ((if cause = .raise ∨ cause = .lower then [.appliedLevel f x.applied l cause] else []) ++
    [.settingsApplied f l cause] : List Event) = evs
  let t : State := { loadEffective f l s with queues := said evs s }
  have h1 : broadcast (.settingsApplied f l cause)
      (if cause = .raise ∨ cause = .lower then broadcast (.appliedLevel f x.applied l cause) (loadEffective f l s)
        else loadEffective f l s) = t := by
    by_cases c : cause = .raise ∨ cause = .lower <;>
      (simp only [c, if_true, if_false] at hev ⊢; subst hev; simp [t, broadcast_form, said, loadEffective, crewKeyActive])
  have hf : (t.feeder f).fire = some { applied := l, settingsPending := false, effective := s.effectiveFor f l } := by
    simp [t, loadEffective, State.feeder]
  have h2 : setFireClaim f t = setSystemClaim f .fire (atFireBlock l (s.commissioning f).fireBlock) t := by
    simp only [setFireClaim, hf]; rfl
  have h3 := setSystemClaim_fire f (atFireBlock l (s.commissioning f).fireBlock) (evs := evs) (s := s) (t := t) rfl rfl rfl
  generalize hw : setSystemClaim f .fire (atFireBlock l (s.commissioning f).fireBlock) t = w at h2 h3
  have hy : t.feeder f = { s.feeder f with
    fire := some { applied := l, settingsPending := false, effective := s.effectiveFor f l } } := by
    simp [t, loadEffective, State.feeder]
  have hs : t.feeders = s.feeders.set f (t.feeder f) := by simp [t, loadEffective, State.feeder]
  simp only [hs, PerFeeder.set_set] at h3
  simp only [hy] at h3
  have hwf : (w.feeder f).fire = some { applied := l, settingsPending := false, effective := s.effectiveFor f l } := by
    rw [h3]; simp [State.feeder]
  unfold applyLevel
  simp only [hx, h1, h2]
  rw [handSettings_spec hwf]
  clear hw h2
  simp only [reloaded, hx, hev]
  have level : ∀ u : State, u.store = s.store → (∀ g, (u.feeder g).fire = (w.feeder g).fire) → detectorLevel w = detectorLevel u := by
    intro u h1 h2
    refine detectorLevel_congr (fun g => (h2 g).symm) ?_
    rw [h3]; simp [t, loadEffective, h1]
  generalize hb : atFireBlock l (s.commissioning f).fireBlock = blocked at *
  generalize hL : detectorLevel w = L at *
  have lv : ∀ z : FeederState, z.fire = some { applied := l, settingsPending := false, effective := s.effectiveFor f l } →
      detectorLevel { s with feeders := s.feeders.set f z } = L := by
    intro z hz
    refine (level { s with feeders := s.feeders.set f z } rfl fun g => ?_).symm
    rw [h3]; simp only [State.feeder, PerFeeder.get_set]; split <;> simp [hz]
  rw [lv _ rfl]
  clear lv level hL
  have hz := (congrArg (fun u => State.feeder u f) h3).trans (PerFeeder.get_set_self _ _ _)
  have hd : w.detector = s.detector := by rw [h3]; rfl
  have hh : w.hunt = s.hunt := by rw [h3]; rfl
  have hk : w.crewKey = s.crewKey := by rw [h3]; rfl
  have ht : w.partTime = s.partTime := by rw [h3]; rfl
  have hq := congrArg State.queues h3
  simp only at hq
  have hw : ∀ a b c, { w with feeders := a, hunt := b, queues := c } = { s with feeders := a, hunt := b, queues := c } := by
    intros; rw [h3]; rfl
  rw [hw]
  simp only [said_append _ _ hk ht hq, hd, hh, ht]
  have hF : w.feeders = s.feeders.set f (w.feeder f) := by rw [h3]; simp [State.feeder]
  simp only [hF, PerFeeder.set_set]
  clear hw h3 hF hq hd hh hk ht
  simp only [hz]
  clear hz hwf h1 hy hs hf
  have close : ∀ {a : PerFeeder FeederState} {b : Option HuntRun} {p q : PerPort (List EventEntry)}, p = q →
      { s with feeders := a, hunt := b, queues := p } = { s with feeders := a, hunt := b, queues := q } := by
    rintro _ _ _ _ rfl; rfl
  by_cases c1 : (decide ((s.feeder f).ar.state = ArState.deadTime) && !(s.feeder f).claims.fire && blocked) = true
  · simp only [c1, if_true, ArRecord.bare, reduceCtorEq, false_and, if_false, List.nil_append, List.append_assoc]
    all_goals exact close (by cases s.hunt <;> rfl)
  · simp only [c1, if_false, List.append_nil, List.append_assoc, Bool.false_eq_true]
    by_cases c2 : (s.feeder f).ar.state = .deadTime ∧
        ((s.feeder f).ar.currentShot.any fun n => decide ((s.effectiveFor f l).group.shots < n)) = true
    · have c3 : (decide ((s.feeder f).ar.state = ArState.deadTime) &&
          (s.feeder f).ar.currentShot.any fun n => decide ((s.effectiveFor f l).group.shots < n)) = true := by
        simpa using c2
      simp only [if_pos c2, if_pos c3]
      all_goals exact close (by cases s.hunt <;> rfl)
    · have c3 : ¬ (decide ((s.feeder f).ar.state = ArState.deadTime) &&
          (s.feeder f).ar.currentShot.any fun n => decide ((s.effectiveFor f l).group.shots < n)) = true := by simpa using c2
      simp only [if_neg c2, if_neg c3]
      all_goals exact close (by cases s.hunt <;> rfl)

/-! ### What a reload leaves -/

theorem reloaded_store (f : Feeder) (l : Level) (c : ApplyCause) (s : State) : (reloaded f l c s).store = s.store := by
  unfold reloaded; split <;> rfl

theorem reloaded_districts (f : Feeder) (l : Level) (c : ApplyCause) (s : State) : (reloaded f l c s).districts = s.districts := by
  unfold reloaded; split <;> rfl

theorem reloaded_fire {f : Feeder} {x : FeederFire} {s : State} (hx : (s.feeder f).fire = some x) (l : Level) (c : ApplyCause) :
    ((reloaded f l c s).feeder f).fire = some { applied := l, settingsPending := false, effective := s.effectiveFor f l } := by
  simp only [reloaded, hx]
  simp [State.feeder]

/-- A reload leaves nothing of a feeder pending when it takes the feeder's target level (R77). -/
theorem reloaded_nothing {f : Feeder} {x : FeederFire} {s : State} (hx : (s.feeder f).fire = some x) {l : Level} (c : ApplyCause)
    (hl : targetLevel s f = l) : NothingPending (reloaded f l c s) f := by
  have ht : targetLevel (reloaded f l c s) f = l := by
    unfold targetLevel State.commissioning at *
    rw [reloaded_store, reloaded_districts, hl]
  simp [NothingPending, loweringPending, settingsPending, reloaded_fire hx, ht]

/-! ### Judgements, targets and commits -/

/-- A judgement applies what is pending of a quiescent feeder in one reload, a lowering first (R76, R77). -/
theorem judge_spec {f : Feeder} {x : FeederFire} {s : State} (hx : (s.feeder f).fire = some x) :
    judge f s =
      if quiescent s f = true ∧ (targetLevel s f).number < x.applied.number then reloaded f (targetLevel s f) .lower s
      else if quiescent s f = true ∧ x.settingsPending = true then reloaded f x.applied .commit s
      else s := by
  simp only [judge, loweringPending, settingsPending, hx, applyLevel_spec hx, decide_eq_true_eq]

/-- A fitted feeder acts on its target (R74, R75). -/
theorem followTarget_spec {f : Feeder} {s : State} {new : Level} (old : Level) (hl : targetLevel s f = new) :
    followTarget old new f s = followed old new f s := by
  unfold followTarget followed
  cases hx : (s.feeder f).fire with
  | none => rfl
  | some x =>
    simp only
    by_cases h1 : x.applied.number < new.number
    · rw [if_pos h1, if_pos h1, judged, applyLevel_spec hx, judge_nothing (reloaded_nothing hx _ hl)]
      split <;> rfl
    · rw [if_neg h1, if_neg h1, judge_spec hx, hl]
      by_cases h2 : new.number < x.applied.number ∧ new.number < old.number
      · simp only [h2, true_and, and_true, if_true]
        by_cases hq : quiescent s f = true <;> simp [hq]
      · have h3 : ¬ (new.number < x.applied.number ∧ new.number < old.number ∧ quiescent s f = true) := fun h => h2 ⟨h.1, h.2.1⟩
        rw [if_neg h2, if_neg h3]

theorem followed_store (old new : Level) (f : Feeder) (s : State) : (followed old new f s).store = s.store := by
  unfold followed; split
  · rfl
  · split
    · exact reloaded_store _ _ _ _
    · split
      · exact reloaded_store _ _ _ _
      · rfl

theorem followed_districts (old new : Level) (f : Feeder) (s : State) : (followed old new f s).districts = s.districts := by
  unfold followed; split
  · rfl
  · split
    · exact reloaded_districts _ _ _ _
    · split
      · exact reloaded_districts _ _ _ _
      · rfl

/-- A district's target is recomputed, and its fitted feeders act on a new one (R68). -/
theorem recomputeTarget_spec (d : District) (s : State) : recomputeTarget d s = targetTaken d s := by
  unfold recomputeTarget targetTaken
  simp only
  by_cases h : computedTarget s d = (s.districts.get d).target
  · rw [if_pos h, if_pos h]
  rw [if_neg h, if_neg h]
  have fold : ∀ (old new : Level) (fs : List Feeder) (a : State), (∀ g ∈ fs, targetLevel a g = new) →
      forFeeders fs (followTarget old new) a = fs.foldl (fun a f => followed old new f a) a := by
    intro old new fs
    induction fs with
    | nil => intro a _; rfl
    | cons g gs ih =>
      intro a ha
      simp only [forFeeders, List.foldl_cons] at ih ⊢
      rw [followTarget_spec old (ha g (by simp))]
      refine ih _ fun k hk => ?_
      have := ha k (by simp [hk])
      unfold targetLevel State.commissioning at *
      rw [followed_store, followed_districts, this]
  have hq : (broadcast (.fireTarget d (s.districts.get d).target (computedTarget s d) (s.districts.get d).network
      (s.districts.get d).panel (s.ban d) (s.floor d) (fireBanActive s))
      (s.onDistrict d fun y => { y with target := computedTarget s d })) =
      { s with
        districts := s.districts.set d { s.districts.get d with target := computedTarget s d }
        queues := said [.fireTarget d (s.districts.get d).target (computedTarget s d) (s.districts.get d).network
          (s.districts.get d).panel (s.ban d) (s.floor d) (fireBanActive s)] s } := by
    rw [broadcast_said, said_congr (s := s) (t := s.onDistrict d fun y => { y with target := computedTarget s d }) _ rfl rfl rfl]
    rfl
  rw [hq, fold]
  · simp [districtFeeders, State.fittedFeeders, List.filter_filter, Bool.and_comm]
  · intro g hg
    have hd : (s.commissioning g).district = d := by
      simpa [districtFeeders] using (List.mem_filter.1 hg).2
    unfold targetLevel
    change (PerDistrict.get (s.districts.set d _) (s.commissioning g).district).target = _
    rw [hd]; simp

/-- The reload of a feeder takes no note of whether its settings were pending (R79). -/
theorem reloaded_pending {f : Feeder} {x : FeederFire} {s : State} (hx : (s.feeder f).fire = some x) (b : Bool) (l : Level)
    (c : ApplyCause) :
    reloaded f l c (s.onFeeder f fun y => { y with fire := some { x with settingsPending := b } }) = reloaded f l c s := by
  simp only [reloaded, hx, State.feeder_onFeeder_self]
  simp only [State.onFeeder, PerFeeder.set_set]
  congr 1
  exact said_congr (s := s) _ rfl rfl rfl

/-- A fitted feeder is handed a commit: it takes it at once when it is quiescent, and holds it pending otherwise (R76 to R78). -/
theorem setSettingsPending_spec {f : Feeder} {x : FeederFire} {s : State} (hx : (s.feeder f).fire = some x) :
    setSettingsPending f s = commitTaken f s := by
  let t := s.onFeeder f fun y => { y with fire := some { x with settingsPending := true } }
  have e : setSettingsPending f s = judge f t := by
    have hx' : (s.feeders.get f).fire = some x := hx
    simp [setSettingsPending, t, State.onFeeder, hx']
  have hf : (t.feeder f).fire = some { x with settingsPending := true } := by simp [t, State.feeder]
  have hq : quiescent t f = quiescent s f := by simp [quiescent, t, State.fitted, State.commissioning]
  have hl : targetLevel t f = targetLevel s f := rfl
  rw [e, judge_spec hf, hq, hl]
  simp only [t, reloaded_pending hx]
  unfold commitTaken
  simp only [hx]
  by_cases q : quiescent s f = true
  · simp [q]
  · simp [q, State.onFeeder, State.feeder]

/-! ### The ports play no part -/

theorem reloaded_onPort (f : Feeder) (l : Level) (c : ApplyCause) (p : Port) (g : PortUnit → PortUnit) (s : State) :
    reloaded f l c (s.onPort p g) = (reloaded f l c s).onPort p g := by
  unfold reloaded
  cases hx : (s.feeder f).fire with
  | none => rw [show ((s.onPort p g).feeder f).fire = none from hx]
  | some x =>
    rw [show ((s.onPort p g).feeder f).fire = some x from hx]
    simp only
    rw [said_congr (s := s) (t := s.onPort p g) _ rfl rfl rfl]
    rfl

theorem followed_onPort (old new : Level) (f : Feeder) (p : Port) (g : PortUnit → PortUnit) (s : State) :
    followed old new f (s.onPort p g) = (followed old new f s).onPort p g := by
  unfold followed
  cases hx : (s.feeder f).fire with
  | none => rw [show ((s.onPort p g).feeder f).fire = none from hx]
  | some x =>
    rw [show ((s.onPort p g).feeder f).fire = some x from hx]
    simp only [reloaded_onPort, show quiescent (s.onPort p g) f = quiescent s f from rfl]
    split
    · rfl
    · split <;> rfl

/-- A district's target and its feeders change alike whatever the ports hold. -/
theorem targetTaken_onPort (d : District) (p : Port) (g : PortUnit → PortUnit) (s : State) :
    targetTaken d (s.onPort p g) = (targetTaken d s).onPort p g := by
  have fold : ∀ (old new : Level) (fs : List Feeder) (a : State),
      fs.foldl (fun a f => followed old new f a) (a.onPort p g) = (fs.foldl (fun a f => followed old new f a) a).onPort p g := by
    intro old new fs
    induction fs with
    | nil => intro a; rfl
    | cons k ks ih => intro a; simp only [List.foldl_cons, followed_onPort, ih]
  unfold targetTaken
  simp only
  by_cases h : computedTarget s d = (s.districts.get d).target
  · have h' : computedTarget (s.onPort p g) d = ((s.onPort p g).districts.get d).target := h
    rw [if_pos h, if_pos h']
  · have h' : ¬ computedTarget (s.onPort p g) d = ((s.onPort p g).districts.get d).target := h
    rw [if_neg h, if_neg h', ← fold]
    rw [said_congr (s := s) (t := s.onPort p g) _ rfl rfl rfl]
    rfl

theorem commitTaken_onPort (f : Feeder) (p : Port) (g : PortUnit → PortUnit) (s : State) :
    commitTaken f (s.onPort p g) = (commitTaken f s).onPort p g := by
  unfold commitTaken
  cases hx : (s.feeder f).fire with
  | none => rw [show ((s.onPort p g).feeder f).fire = none from hx]
  | some x =>
    rw [show ((s.onPort p g).feeder f).fire = some x from hx]
    simp only [reloaded_onPort, show quiescent (s.onPort p g) f = quiescent s f from rfl,
      show targetLevel (s.onPort p g) f = targetLevel s f from rfl]
    split
    · split <;> rfl
    · rfl

/-- What a commit hands to a feeder changes no record of the store (R78). -/
theorem commitTaken_store (f : Feeder) (s : State) : (commitTaken f s).store = s.store := by
  unfold commitTaken; (repeat' split) <;> first | rfl | exact reloaded_store _ _ _ _

/-- What a commit hands to a feeder changes no district (R78). -/
theorem commitTaken_districts (f : Feeder) (s : State) : (commitTaken f s).districts = s.districts := by
  unfold commitTaken; (repeat' split) <;> first | rfl | exact reloaded_districts _ _ _ _

/-- What a commit hands to a feeder changes no other feeder (R78). -/
theorem commitTaken_other {f g : Feeder} (h : g ≠ f) (s : State) : (commitTaken f s).feeder g = s.feeder g := by
  have r : ∀ l c, (reloaded f l c s).feeder g = s.feeder g := by
    intro l c; unfold reloaded; split
    · rfl
    · simp [State.feeder, h]
  unfold commitTaken; (repeat' split) <;> first | rfl | exact r _ _ | simp [State.feeder, h]

/-- A commit is loaded by a quiescent feeder, with a lowering that waits, and is pending at any other (R77, R78). -/
theorem commitTaken_fire {f : Feeder} {x : FeederFire} {s : State} (hx : (s.feeder f).fire = some x) :
    let level := if loweringPending s f = true then targetLevel s f else x.applied
    ((commitTaken f s).feeder f).fire =
      some
        (if quiescent s f = true then { applied := level, settingsPending := false, effective := s.effectiveFor f level }
         else { x with settingsPending := true }) := by
  intro level
  simp only [level, loweringPending, hx, decide_eq_true_eq]
  unfold commitTaken
  simp only [hx]
  by_cases q : quiescent s f = true
  · simp only [q, if_true]
    by_cases h : (targetLevel s f).number < x.applied.number
    · simp only [h, if_true]; exact reloaded_fire hx _ _
    · simp only [h, if_false]; exact reloaded_fire hx _ _
  · simp [q, State.feeder]

/-- A group's commit is handed to its feeder when the applied level names it (R59, R78). -/
theorem handOnCommit_group {f : Feeder} {l : Level} {x : FeederFire} {s : State} (hx : (s.feeder f).fire = some x) (hl : x.applied = l)
    (hf : s.fitted f = true) : handOnCommit (.group f l) s = commitTaken f s := by
  simp only [handOnCommit, hx, hf, hl, and_self, if_true]
  exact setSettingsPending_spec hx

/-- A user curve's commit is handed to feeders in turn (R59, R78). -/
theorem forFeeders_setSettingsPending (fs : List Feeder) (hn : fs.Nodup) (s : State) (hx : ∀ f ∈ fs, (s.feeder f).fire ≠ none) :
    forFeeders fs setSettingsPending s = fs.foldl (fun a f => commitTaken f a) s := by
  induction fs generalizing s with
  | nil => rfl
  | cons k ks ih =>
    simp only [forFeeders, List.foldl_cons] at ih ⊢
    obtain ⟨x, hk⟩ := Option.ne_none_iff_exists'.1 (hx k (by simp))
    rw [setSettingsPending_spec hk]
    refine ih (List.nodup_cons.1 hn).2 _ fun g hg => ?_
    have : g ≠ k := by rintro rfl; exact (List.nodup_cons.1 hn).1 hg
    rw [commitTaken_other this]
    exact hx g (by simp [hg])

end Sys2Proof.Machine
end

