-- ==== Sys2Proof/Laws/Follow.lean ====
section
/-! SUPPORT. What stays of one feeder while the blocks act on whatever they are told: its measurement state, contacts, elements, report,
trip record and fire state, as long as nothing of it is pending or an operation is in flight on it. -/
namespace Sys2Proof.Machine

/-- A judgement changes no other feeder (R77). -/
theorem judge_other {f g : Feeder} (h : g ≠ f) (s : State) : (judge f s).feeder g = s.feeder g := by
  have r : ∀ l c, (reloaded f l c s).feeder g = s.feeder g := by
    intro l c; unfold reloaded; split
    · rfl
    · simp [State.feeder, h]
  cases hx : (s.feeder f).fire with
  | none => simp [judge, loweringPending, settingsPending, hx]
  | some x => rw [judge_spec hx]; split_ifs <;> first | rfl | exact r _ _

/-- Two states share the phase, the part time, the store, the districts, the ports and the filtered crew key. -/
structure SamePart (s t : State) : Prop where
  phase : t.phase = s.phase
  partTime : t.partTime = s.partTime
  store : t.store = s.store
  districts : t.districts = s.districts
  ports : t.ports = s.ports
  crewKey : t.crewKey = s.crewKey

theorem SamePart.trans {s t u : State} (h : SamePart s t) (k : SamePart t u) : SamePart s u :=
  ⟨k.phase.trans h.phase, k.partTime.trans h.partTime, k.store.trans h.store, k.districts.trans h.districts, k.ports.trans h.ports,
    k.crewKey.trans h.crewKey⟩

theorem judge_part (f : Feeder) (s : State) : SamePart s (judge f s) := by
  have r : ∀ l c, SamePart s (reloaded f l c s) := by
    intro l c; unfold reloaded; split <;> exact ⟨rfl, rfl, rfl, rfl, rfl, rfl⟩
  cases hx : (s.feeder f).fire with
  | none => simp only [judge, loweringPending, settingsPending, hx]; simp; exact ⟨rfl, rfl, rfl, rfl, rfl, rfl⟩
  | some x => rw [judge_spec hx]; split_ifs <;> first | exact r _ _ | exact ⟨rfl, rfl, rfl, rfl, rfl, rfl⟩

/-- A feeder with an operation in flight is not quiescent, so a judgement of it does nothing (R76). -/
theorem judge_busy {f : Feeder} {s : State} (h : (s.feeder f).inFlight ≠ none) : judge f s = s := by
  have q : quiescent s f = false := by
    cases hi : (s.feeder f).inFlight with
    | none => exact absurd hi h
    | some y => simp [quiescent, hi]
  simp [judge, q]

/-- A change of a feeder's state in its timers, its position fault, its claims, its operations, its lock and its sequencer record
alone: its measurement state, contacts, elements, report, trip record and fire state stay. -/
def Acted (x y : FeederState) : Prop :=
  y = { x with
    invalidTimer := y.invalidTimer, transitTimer := y.transitTimer, positionFault := y.positionFault, claims := y.claims
    inFlight := y.inFlight, lastOp := y.lastOp, lastEnd := y.lastEnd, lock := y.lock, ar := y.ar }

theorem Acted.trans {x y z : FeederState} (h : Acted x y) (k : Acted y z) : Acted x z := by
  unfold Acted at *
  rw [h] at k
  exact k

theorem Acted.fire {x y : FeederState} (h : Acted x y) : y.fire = x.fire := by unfold Acted at h; rw [h]
theorem Acted.meas {x y : FeederState} (h : Acted x y) : y.meas = x.meas := by unfold Acted at h; rw [h]
theorem Acted.phaseIdmt {x y : FeederState} (h : Acted x y) : y.phaseIdmt = x.phaseIdmt := by unfold Acted at h; rw [h]
theorem Acted.highSet {x y : FeederState} (h : Acted x y) : y.highSet = x.highSet := by unfold Acted at h; rw [h]
theorem Acted.earthIdmt {x y : FeederState} (h : Acted x y) : y.earthIdmt = x.earthIdmt := by unfold Acted at h; rw [h]
theorem Acted.sef {x y : FeederState} (h : Acted x y) : y.sef = x.sef := by unfold Acted at h; rw [h]
theorem Acted.pickedUp {x y : FeederState} (h : Acted x y) : y.pickedUp = x.pickedUp := by unfold Acted at h; rw [h]
theorem Acted.tripRecord {x y : FeederState} (h : Acted x y) : y.tripRecord = x.tripRecord := by unfold Acted at h; rw [h]
theorem Acted.closedContact {x y : FeederState} (h : Acted x y) : y.closedContact = x.closedContact := by unfold Acted at h; rw [h]
theorem Acted.openContact {x y : FeederState} (h : Acted x y) : y.openContact = x.openContact := by unfold Acted at h; rw [h]
theorem Acted.position {x y : FeederState} (h : Acted x y) : y.position = x.position := by unfold Acted at h; rw [h]; rfl
theorem Acted.settled {x y : FeederState} (h : Acted x y) : y.settled = x.settled := by unfold Acted at h; rw [h]; rfl

theorem Light.acted {x y : FeederState} (h : Light x y) : Acted x y := by
  unfold Light at h
  unfold Acted
  rw [h]

theorem Calm.acted {x y : FeederState} (h : Calm x y) : Acted x y := by
  unfold Calm at h
  unfold Acted
  rw [h]

/-- A feeder that is acted on from a given state of it, and that no judgement changes. -/
structure Followed (f : Feeder) (x : FeederState) (s : State) : Prop where
  same : Acted x (s.feeder f)
  held : NothingPending s f ∨ (s.feeder f).inFlight ≠ none

/-- A judgement of a feeder that is followed does nothing. -/
theorem Followed.judge {f : Feeder} {x : FeederState} {s : State} (h : Followed f x s) : judge f s = s :=
  h.held.elim judge_nothing judge_busy

/-- A feeder is followed through a change that acts on it alone of it, ends no operation, and leaves the targets and the commissioning
records. -/
theorem Followed.through {f : Feeder} {x : FeederState} {s t : State} (h : Followed f x s) (he : Acted (s.feeder f) (t.feeder f))
    (hi : (s.feeder f).inFlight ≠ none → (t.feeder f).inFlight ≠ none) (hd : t.districts = s.districts)
    (hc : t.store.commissioning = s.store.commissioning) : Followed f x t :=
  ⟨h.same.trans he, h.held.imp (fun hn => hn.congr he.fire hd hc) hi⟩

/-- A feeder is followed through a change at any feeder that acts on it and ends no operation. -/
theorem Followed.onFeeder {f g : Feeder} {x : FeederState} {s : State} (h : Followed f x s) (k : FeederState → FeederState)
    (he : Acted (s.feeder g) (k (s.feeder g))) (hi : (s.feeder g).inFlight ≠ none → (k (s.feeder g)).inFlight ≠ none) :
    Followed f x (s.onFeeder g k) := by
  by_cases hg : f = g
  · subst hg
    exact h.through (by simpa using he) (by simpa using hi) rfl rfl
  · exact h.through (by simp [hg]; rfl) (by simp [hg]) rfl rfl

/-- A feeder is followed through a change of another. -/
theorem Followed.elsewhere {f g : Feeder} {x : FeederState} {s : State} (h : Followed f x s) (hg : f ≠ g)
    (k : FeederState → FeederState) : Followed f x (s.onFeeder g k) :=
  h.through (by simp [hg]; rfl) (by simp [hg]) rfl rfl

/-- A feeder stays followed whatever the sequencers, the claim table, the switching units and the hunt do. -/
theorem followed_keeps (f : Feeder) (x : FeederState) : SwitchKeeps (fun _ => True) (Followed f x) where
  light := fun s g _ k hg h => h.onFeeder k hg.acted (by rw [Light] at hg; rw [hg]; exact id)
  claim := fun s g _ n on _ h => h.onFeeder _ rfl id
  offer := fun s p ev h => h.through (by simp [State.feeder]; rfl) (by simp [State.feeder]) (by simp) (by simp)
  hunt := fun s r h => h.through rfl id rfl rfl
  judge := by
    intro s g _ h
    by_cases hg : f = g
    · subst hg; rw [h.judge]; exact h
    · exact h.through (by simp [judge_other hg]; rfl) (by simp [judge_other hg]) (judge_part _ _).districts (by rw [(judge_part _ _).store])
  calm := fun s g _ k hg h => h.onFeeder k hg.acted (by rw [Calm] at hg; rw [hg]; exact id)
  trip := fun s g _ op d _ h => h.onFeeder _ rfl (by simp)
  close := fun s g _ op d _ _ h => h.onFeeder _ rfl (by simp)
  join := fun s g _ y o p _ _ h => h.onFeeder _ rfl (by simp)
  opId := fun s h => h.through rfl id rfl rfl
  detector := fun s d h => h.through rfl id rfl rfl
  lastHunt := fun s r h => h.through rfl id rfl rfl

/-- The part's phase, time, store, districts and ports stay whatever the sequencers, the claim table, the switching units and the hunt
do. -/
theorem part_stays (r : State) : SwitchKeeps (fun _ => True) (SamePart r) where
  light := fun _ _ _ _ _ h => h.trans ⟨rfl, rfl, rfl, rfl, rfl, rfl⟩
  claim := fun _ _ _ _ _ _ h => h.trans ⟨rfl, rfl, rfl, rfl, rfl, rfl⟩
  offer := fun s p ev h => h.trans (by constructor <;> simp)
  hunt := fun _ _ h => h.trans ⟨rfl, rfl, rfl, rfl, rfl, rfl⟩
  judge := fun s f _ h => h.trans (judge_part f s)
  calm := fun _ _ _ _ _ h => h.trans ⟨rfl, rfl, rfl, rfl, rfl, rfl⟩
  trip := fun _ _ _ _ _ _ h => h.trans ⟨rfl, rfl, rfl, rfl, rfl, rfl⟩
  close := fun _ _ _ _ _ _ _ h => h.trans ⟨rfl, rfl, rfl, rfl, rfl, rfl⟩
  join := fun _ _ _ _ _ _ _ _ h => h.trans ⟨rfl, rfl, rfl, rfl, rfl, rfl⟩
  opId := fun _ h => h.trans ⟨rfl, rfl, rfl, rfl, rfl, rfl⟩
  detector := fun _ _ h => h.trans ⟨rfl, rfl, rfl, rfl, rfl, rfl⟩
  lastHunt := fun _ _ h => h.trans ⟨rfl, rfl, rfl, rfl, rfl, rfl⟩

end Sys2Proof.Machine
end

