-- ==== Sys2Proof/Laws/PerInstr.lean ====
section
/-! SUPPORT. A statement about every command as syntax, one lemma per constructor: a well-formed request is spelled by a frame of at
most 70 bytes. -/
namespace Sys2Proof.Laws.EncodingFits

open Sys2Proof Sys2Proof.Machine

/-- A well-formed command that is a request is spelled by a request frame of its port, target and payload, of at most 70 bytes
(R194). -/
def Statement (i : Instr) : Prop :=
  i.wellFormed = true → ∀ q, requestOf i = some q →
    ∃ p target payload, i = q.command p target payload ∧ (encodeRequest q target payload).length ≤ 70

/-- The length of a request frame: six bytes around the payload (R194). -/
theorem encodeRequest_length (q : Request) (target : Byte) (payload : List Byte) :
    (encodeRequest q target payload).length = payload.length + 6 := by
  simp [encodeRequest, frameOf, frameBody, checkField, be1, be2]

/-- The statement of a request, from the frame of its own operands. -/
theorem of_request (q : Request) (p : Port) (target : Byte) (payload : List Byte)
    (hw : (q.command p target payload).wellFormed = payloadFits payload) (hq : requestOf (q.command p target payload) = some q) :
    Statement (q.command p target payload) := by
  intro h r hr
  obtain rfl : q = r := Option.some.inj (hq.symm.trans hr)
  refine ⟨p, target, payload, rfl, ?_⟩
  rw [encodeRequest_length]
  rw [hw] at h
  have := of_decide_eq_true h
  unfold payloadLimit at this
  omega

section Lemmas

variable (port : Port) (target : Byte) (payload : List Byte)
theorem powerOn (straps : BitVec 2) : Statement (.powerOn straps) := fun _ _ h => nomatch h
theorem powerLoss : Statement .powerLoss := fun _ _ h => nomatch h
theorem resetAsserted : Statement .resetAsserted := fun _ _ h => nomatch h
theorem resetReleased (straps : BitVec 2) : Statement (.resetReleased straps) := fun _ _ h => nomatch h
theorem measurementFrame (unit : List Byte) : Statement (.measurementFrame unit) := fun _ _ h => nomatch h
theorem linkLossDeadline : Statement .linkLossDeadline := fun _ _ h => nomatch h
theorem inputScan (levels : ScanLevels) : Statement (.inputScan levels) := fun _ _ h => nomatch h
theorem invalidTimerExpiry (feeder : Feeder) : Statement (.invalidTimerExpiry feeder) := fun _ _ h => nomatch h
theorem transitTimerExpiry (feeder : Feeder) : Statement (.transitTimerExpiry feeder) := fun _ _ h => nomatch h
theorem tripDeadline (feeder : Feeder) : Statement (.tripDeadline feeder) := fun _ _ h => nomatch h
theorem closeDeadline (feeder : Feeder) : Statement (.closeDeadline feeder) := fun _ _ h => nomatch h
theorem deadTimeExpiry (feeder : Feeder) : Statement (.deadTimeExpiry feeder) := fun _ _ h => nomatch h
theorem reclaimExpiry (feeder : Feeder) : Statement (.reclaimExpiry feeder) := fun _ _ h => nomatch h
theorem confirmExpiry : Statement .confirmExpiry := fun _ _ h => nomatch h
theorem trialWatchExpiry : Statement .trialWatchExpiry := fun _ _ h => nomatch h
theorem editLeaseExpiry : Statement .editLeaseExpiry := fun _ _ h => nomatch h
theorem lockLeaseExpiry (feeder : Feeder) : Statement (.lockLeaseExpiry feeder) := fun _ _ h => nomatch h
theorem claimExpiry (feeder : Feeder) (holder : Port) (tag : Nat) : Statement (.claimExpiry feeder holder tag) := fun _ _ h => nomatch h
theorem storeWriteBegins : Statement .storeWriteBegins := fun _ _ h => nomatch h
theorem storeWriteComplete : Statement .storeWriteComplete := fun _ _ h => nomatch h
theorem loweringApplied (feeder : Feeder) : Statement (.loweringApplied feeder) := fun _ _ h => nomatch h
theorem fetch (port : Port) (clocked : Nat) : Statement (.fetch port clocked) := fun _ _ h => nomatch h
theorem badTransferType (port : SerialPort) (type : Byte) : Statement (.badTransferType port type) := fun _ _ h => nomatch h
theorem frameEndedEarly (port : Port) : Statement (.frameEndedEarly port) := fun _ _ h => nomatch h
theorem collidedFrame (port : Port) : Statement (.collidedFrame port) := fun _ _ h => nomatch h
theorem crewStall (point : StallPoint) : Statement (.crewStall point) := fun _ _ h => nomatch h
theorem badFrame (port : Port) : Statement (.badFrame port) := fun _ _ h => nomatch h
theorem unknownRequest (port : Port) : Statement (.unknownRequest port) := fun _ _ h => nomatch h
theorem identify : Statement (.identify port target payload) := of_request .identify port target payload rfl rfl
theorem readPart : Statement (.readPart port target payload) := of_request .readPart port target payload rfl rfl
theorem readFeeder : Statement (.readFeeder port target payload) := of_request .readFeeder port target payload rfl rfl
theorem readClaims : Statement (.readClaims port target payload) := of_request .readClaims port target payload rfl rfl
theorem readEvents : Statement (.readEvents port target payload) := of_request .readEvents port target payload rfl rfl
theorem readFire : Statement (.readFire port target payload) := of_request .readFire port target payload rfl rfl
theorem readEffective : Statement (.readEffective port target payload) := of_request .readEffective port target payload rfl rfl
theorem readRecord : Statement (.readRecord port target payload) := of_request .readRecord port target payload rfl rfl
theorem readStore : Statement (.readStore port target payload) := of_request .readStore port target payload rfl rfl
theorem readEdit : Statement (.readEdit port target payload) := of_request .readEdit port target payload rfl rfl
theorem readHunt : Statement (.readHunt port target payload) := of_request .readHunt port target payload rfl rfl
theorem trip : Statement (.trip port target payload) := of_request .trip port target payload rfl rfl
theorem close : Statement (.close port target payload) := of_request .close port target payload rfl rfl
theorem takeLock : Statement (.takeLock port target payload) := of_request .takeLock port target payload rfl rfl
theorem dropLock : Statement (.dropLock port target payload) := of_request .dropLock port target payload rfl rfl
theorem placeClaim : Statement (.placeClaim port target payload) := of_request .placeClaim port target payload rfl rfl
theorem releaseClaim : Statement (.releaseClaim port target payload) := of_request .releaseClaim port target payload rfl rfl
theorem forceRelease : Statement (.forceRelease port target payload) := of_request .forceRelease port target payload rfl rfl
theorem clearBreakerFail : Statement (.clearBreakerFail port target payload) := of_request .clearBreakerFail port target payload rfl rfl
theorem clearHuntClaim : Statement (.clearHuntClaim port target payload) := of_request .clearHuntClaim port target payload rfl rfl
theorem clearStoreHold : Statement (.clearStoreHold port target payload) := of_request .clearStoreHold port target payload rfl rfl
theorem setFireRequest : Statement (.setFireRequest port target payload) := of_request .setFireRequest port target payload rfl rfl
theorem setFloor : Statement (.setFloor port target payload) := of_request .setFloor port target payload rfl rfl
theorem setBanLevel : Statement (.setBanLevel port target payload) := of_request .setBanLevel port target payload rfl rfl
theorem openEdit : Statement (.openEdit port target payload) := of_request .openEdit port target payload rfl rfl
theorem setField : Statement (.setField port target payload) := of_request .setField port target payload rfl rfl
theorem commitEdit : Statement (.commitEdit port target payload) := of_request .commitEdit port target payload rfl rfl
theorem discardEdit : Statement (.discardEdit port target payload) := of_request .discardEdit port target payload rfl rfl
theorem setProtectMode : Statement (.setProtectMode port target payload) := of_request .setProtectMode port target payload rfl rfl
theorem freezeSettings : Statement (.freezeSettings port target payload) := of_request .freezeSettings port target payload rfl rfl
theorem startHunt : Statement (.startHunt port target payload) := of_request .startHunt port target payload rfl rfl
theorem suspendHunt : Statement (.suspendHunt port target payload) := of_request .suspendHunt port target payload rfl rfl
theorem resumeHunt : Statement (.resumeHunt port target payload) := of_request .resumeHunt port target payload rfl rfl
theorem abortHunt : Statement (.abortHunt port target payload) := of_request .abortHunt port target payload rfl rfl
theorem restart : Statement (.restart port target payload) := of_request .restart port target payload rfl rfl
theorem requestFrameBegins (port : Port) : Statement (.requestFrameBegins port) := fun _ _ h => nomatch h

end Lemmas

end Sys2Proof.Laws.EncodingFits
end

