-- ==== Sys2Proof/Tests/Slice0.lean ====
section
/-! SUPPORT. Tests of the model: ill-formed commands, the bytes of frames and transfers written out from the manual's layouts, the manual's
worked cases, one step of commands on a small part, and for every statement with hypotheses a state and operands that meet them. -/
namespace Sys2Proof.Tests

open Sys2Proof.Machine

set_option Elab.async false

/-! ### Parts to test on -/

/-- A settled input. -/
def contact (level : Bool) : FilteredInput := { level := some level, candidate := level, count := 0 }

/-- Feeder `f` fitted, in service and closed at L0, its sequencer READY. -/
def fit (f : Feeder) (s : State) : State :=
  let c : Commissioning := { defaultCommissioning f with fitted := true }
  let s := s.onStore fun st => { st with commissioning := st.commissioning.set f (.fresh c) }
  s.onFeeder f fun x =>
    { x with
      meas := .valid, closedContact := contact true, openContact := contact false, lastEnd := .closed, ar := .bare .ready 0
      fire := some { applied := .l0, settingsPending := false, effective := s.effectiveFor f .l0 } }

/-- A part that has run for a second, with every source at L0, its link up, the crew key on and F1 and F2 in service. -/
def part : State :=
  fit .f2 (fit .f1
    { State.reset with
      partTime := 1000, link := .up, linkDeadline := some 1050, lastSequence := some 7, lastFrameTime := some 950
      fireBan := contact false, crewKey := contact true, setProtect := contact false
      districts := .of fun _ => { network := .l0, panel := .l0, target := .l0 }
      queues := .of fun _ => [] })

/-- F1 of the part changed. -/
def partF1 (g : FeederState → FeederState) : State := part.onFeeder .f1 g

/-- The part with F1's breaker open. -/
def openF1 (x : FeederState) : FeederState := { x with closedContact := contact false, openContact := contact true }

/-- A port operation of F1 in flight since part time 900, with its deadline now. -/
def flying (kind : OpKind) (origin : Origin) : InFlight :=
  { op := { id := 5, kind := kind, origin := origin, requesters := [origin], permit := none, started := 900 }, deadline := 1000 }

/-- A measurement frame: sequence number, frame interval, Vn, and the same record for every feeder. -/
def frame (sequence interval vn ia residual direction flags : Nat) : List Byte :=
  let body := be1 sequence ++ (be4 interval).drop 1 ++ be2 vn ++ be1 1 ++
    Feeder.all.flatMap fun _ => be2 ia ++ be2 100 ++ be2 100 ++ be2 residual ++ be1 direction ++ be1 flags
  body ++ checkField body

/-- The state after a command, or the state itself where there is none. -/
def after (i : Instr) (s : State) : State :=
  match exec i s with
  | .next t => t
  | _ => s

/-- A request is taken, as a Boolean. -/
def takesB (q : Request) (p : Port) (target : Byte) (payload : List Byte) (s : State) : Bool :=
  decide (s.phase = .running) && (decide ((s.ports.get p).state = .idle) || decide ((s.ports.get p).state = .receiving)) &&
    decide (portCheck s q p target.toNat payload = none)

theorem takes {q : Request} {p : Port} {target : Byte} {payload : List Byte} {s : State} (h : takesB q p target payload s = true) :
    Takes q p target payload s := by
  simp only [takesB, Bool.and_eq_true, Bool.or_eq_true, decide_eq_true_eq] at h
  exact ⟨h.1.1, h.1.2, h.2⟩

theorem nothingPending {s : State} {f : Feeder} (h : loweringPending s f = false ∧ settingsPending s f = false) :
    NothingPending s f := h

theorem restoreFree {s : State} {f : Feeder} (h : restoreBlocked s f = false) : RestoreFree s f := (restoreBlocked_iff s f).1 h

theorem mayTrip {s : State} {f : Feeder}
    (h : s.fitted f = true ∧ (s.feeder f).lock.heldByPort = false ∧ (s.feeder f).position = .closed ∧ (s.feeder f).inFlight = none) :
    HuntMayTrip s f := ⟨h.1, h.2.1, h.2.2.1, h.2.2.2⟩

theorem mayClose {s : State} {f : Feeder}
    (h : (s.feeder f).lock.heldByPort = false ∧ (s.feeder f).inFlight = none ∧ (s.feeder f).position ≠ .closed ∧
      (s.feeder f).positionFault = none ∧ restoreBlocked s f = false) : HuntMayClose s f :=
  ⟨h.1, h.2.1, h.2.2.1, h.2.2.2.1, restoreFree h.2.2.2.2⟩

/-! ### Ill-formed commands are refused -/

/-- A payload of 65 bytes. -/
def tooLong : List Byte := List.replicate 65 0#8

theorem test_wellFormed_refuses_claim_tag :
    (Instr.claimExpiry .f1 .crew 0).wellFormed = false ∧ (Instr.claimExpiry .f1 .crew 10000).wellFormed = false ∧
      (Instr.claimExpiry .f1 .network 1).wellFormed = false ∧ (Instr.claimExpiry .f1 .panel 1).wellFormed = false ∧
      (Instr.claimExpiry .f1 .crew 9999).wellFormed = true := by decide +kernel
theorem test_wellFormed_refuses_transfer_type :
    (Instr.badTransferType .panel 0x01#8).wellFormed = false ∧ (Instr.badTransferType .panel 0x02#8).wellFormed = false ∧
      (Instr.badTransferType .panel 0x03#8).wellFormed = true := by decide +kernel
theorem test_wellFormed_refuses_payload : ∀ q : Request, (q.command .network 0#8 tooLong).wellFormed = false := by
  intro q; cases q <;> decide +kernel

/-! ### Layouts and worked cases of the manual -/

theorem test_crc_check_value :
    checkField [0x31#8, 0x32#8, 0x33#8, 0x34#8, 0x35#8, 0x36#8, 0x37#8, 0x38#8, 0x39#8] = [0x29#8, 0xB1#8] := by decide +kernel

/-- Requests as their frames, with the check bytes computed by hand from the generator of R194. -/
theorem test_transfer_bytes :
    decodeTransfer .network [0x01#8, 0x00#8, 0x00#8, 0x00#8, 0xF2#8, 0x74#8] = some (.identify .network 0x00#8 []) ∧
      decodeTransfer .crew [0x10#8, 0x01#8, 0x00#8, 0x00#8, 0xA8#8, 0x57#8] = some (.trip .crew 0x01#8 []) ∧
      decodeTransfer .panel [0x20#8, 0x01#8, 0x00#8, 0x01#8, 0x03#8, 0x6C#8, 0x5E#8] =
        some (.setFireRequest .panel 0x01#8 [0x03#8]) ∧
      decodeTransfer .network [0x29#8, 0x00#8, 0x00#8, 0x05#8, 0x01#8, 0x00#8, 0x00#8, 0x00#8, 0x01#8, 0x84#8, 0x23#8] =
        some (.setField .network 0x00#8 [0x01#8, 0x00#8, 0x00#8, 0x00#8, 0x01#8]) ∧
      decodeTransfer .network [0x30#8, 0x00#8, 0x00#8, 0x00#8, 0xA8#8, 0x29#8] = some (.startHunt .network 0x00#8 []) ∧
      decodeTransfer .network [0x05#8, 0x00#8, 0x00#8, 0x01#8, 0x08#8, 0x80#8, 0x62#8] =
        some (.readEvents .network 0x00#8 [0x08#8]) := by decide +kernel
theorem test_transfer_refusals :
    decodeTransfer .network [0xEE#8, 0x00#8, 0x00#8, 0x00#8, 0xA2#8, 0x70#8] = some (.unknownRequest .network) ∧
      decodeTransfer .network [0x01#8, 0x00#8, 0x00#8, 0x00#8, 0xF2#8, 0x75#8] = some (.badFrame .network) ∧
      decodeTransfer .network [0x01#8, 0x00#8, 0x00#8, 0x00#8, 0xF2#8] = some (.frameEndedEarly .network) := by decide +kernel

/-- A sustained fault on curve A (section 2.4): the first frames, and the frame that operates. -/
def worked : IdmtSettings := ⟨2000, .a, 25, 50, .instant, 1000⟩

theorem test_sustained_fault :
    idmtMove worked curveA 5700 20000 ⟨.normal, 0⟩ = ⟨.pickedUp, 13404⟩ ∧
      idmtMove worked curveA 5700 20000 ⟨.pickedUp, 991896⟩ = ⟨.operated, 1000000⟩ ∧
      increment (clampInterval 80000) 1492 = 33512 ∧ increment (clampInterval 3000) 1492 = 3351 := by decide +kernel
theorem test_limits_of_the_arithmetic :
    idmtMove ⟨4000, .c, 10, 50, .instant, 1000⟩ curveC 80000 20000 ⟨.normal, 0⟩ = ⟨.pickedUp, 400000⟩ ∧
      idmtMove ⟨4000, .c, 10, 50, .instant, 1000⟩ curveC 80000 20000 ⟨.pickedUp, 800000⟩ = ⟨.operated, 1000000⟩ ∧
      multiple16 65535 100 = 640 ∧ increment 5000 (operatingTime (curveTime curveC 16) 200 0) = 12 := by decide +kernel
theorem test_wandering_current :
    let set : IdmtSettings := ⟨2000, .a, 25, 50, .timed, 4000⟩
    idmtMove set curveA 1950 20000 ⟨.pickedUp, 26808⟩ = ⟨.held, 26808⟩ ∧
      idmtMove set curveA 1800 20000 ⟨.held, 26808⟩ = ⟨.normal, 21808⟩ ∧
      idmtMove set curveA 1950 20000 ⟨.normal, 21808⟩ = ⟨.normal, 16808⟩ ∧
      idmtMove set curveA 8000 20000 ⟨.normal, 16808⟩ = ⟨.pickedUp, 34585⟩ ∧
      idmtMove worked curveA 8000 20000 ⟨.normal, 0⟩ = ⟨.pickedUp, 17777⟩ := by decide +kernel
theorem test_high_set_example :
    highSetMove 8000 50 9000 20000 ⟨.pickedUp, 40000⟩ = ⟨.operated, 60000⟩ ∧
      highSetMove 8000 50 7900 20000 ⟨.pickedUp, 20000⟩ = ⟨.normal, 0⟩ := by decide +kernel
theorem test_directional_sef :
    sefMove 100 20000 .band ⟨.pickedUp, 40000⟩ = ⟨.held, 40000⟩ ∧ regionOf 90 20 19 = .band ∧ regionOf 90 20 17 = .belowDropout ∧
      sefMove 100 20000 .belowDropout ⟨.held, 40000⟩ = ⟨.normal, 0⟩ ∧
      sefMove 100 20000 .atPickup ⟨.pickedUp, 80000⟩ = ⟨.operated, 100000⟩ := by decide +kernel

/-- A hunt at L0 since part time 500, in a state. -/
def huntIn (st : HuntState) : HuntRun :=
  { state := st, cause := .requested, startTime := 500, level := .l0, window := none, sums := none, identified := none,
    dropoutSeen := none, candidates := none, current := none, locked := none, op := none, deadline := none, tripInWatch := none,
    pendingSuspend := false, resume := none, pendingResult := none }

/-- The part with a hunt, the detector DETECTED. -/
def hunting (h : HuntRun) : State := { part with hunt := some h, detector := { state := .detected, amount := 10000000 } }

/-- A window of ten frames with the sums of F1 and F2. -/
def window (f1 f2 : Nat) : Window := { length := 10, counted := 10, sums := { f1 := f1, f2 := f2, f3 := 0, f4 := 0, f5 := 0, f6 := 0 } }

/-- The state of the hunt after a window with these sums ends. -/
def judged (f1 f2 : Nat) : Option Feeder :=
  ((endWindow (huntIn .identify) (window f1 f2) (hunting (huntIn .identify))).1.hunt.bind (·.identified)).map (·.feeder)

/-- Judging a window (section 8.3): 340 against 120 identifies, 180 and a sum below the threshold do not. -/
theorem test_window : judged 120 340 = some .f2 ∧ judged 180 340 = none ∧ judged 0 190 = none := by decide +kernel

/-! ### One step of commands -/

theorem test_step_takes_the_front :
    (match step { part with pending := [.freezeSettings .network 0#8 [], .linkLossDeadline] } with
      | .next t => t.store.frozen && decide (t.pending = [.linkLossDeadline])
      | _ => false) = true := by decide +kernel
/-- R180: 25 ms after its last byte a crew write stalls, a further byte puts the stall off, and a taken frame ends the write. -/
theorem test_crewWrite_stalls :
    let held := after (.requestFrameBegins .crew) part
    let stalled := after (.crewStall .underWay) { held with partTime := 1025 }
    (match step { held with partTime := 1024, linkDeadline := none } with
      | .next t => decide (t.pending = [.crewStall .underWay])
      | _ => false) = true ∧
      stalled.crewWrite = none ∧ (stalled.ports.get .crew).state = .idle ∧ (stalled.ports.get .crew).incomplete = true := by
  decide +kernel
theorem test_crewWrite_renewed_and_ended :
    let held := after (.requestFrameBegins .crew) part
    (after (.requestFrameBegins .crew) { held with partTime := 1025 }).crewWrite = some { collides := false, stall := 1050 } ∧
      (after (.identify .crew 0#8 []) held).crewWrite = none ∧ (after (.identify .panel 0#8 []) held).crewWrite = held.crewWrite := by
  decide +kernel
theorem test_powerOn_address : (after (.powerOn 3#2) part).crewAddress = 0x5B#7 ∧ (after (.powerOn 3#2) part).queues.crew = [] := by
  decide +kernel
theorem test_powerLoss_tears :
    (after .powerLoss
      { part with
        store := { part.store with
          queue := [{ port := .panel, record := .protectMode }],
          writing := some { content := .protectMode .open_, began := 900 } } }).store.protectMode.written = .torn := by decide +kernel
theorem test_frame_interval_and_currents :
    (after (.measurementFrame (frame 8 20000 1500 12000 0 0 1)) part).bus = { vn := 1000, valid := true } ∧
      ((after (.measurementFrame (frame 8 20000 0 12000 0 0 1)) part).feeder .f1).highSet = ⟨.normal, 0⟩ ∧
      ((after (.measurementFrame (frame 8 20000 0 20000 0 0 1)) part).feeder .f1).highSet = ⟨.pickedUp, 20000⟩ ∧
      ((after (.measurementFrame (frame 8 20000 0 20000 0 0 3)) part).feeder .f1).earthIdmt.state = .pickedUp := by decide +kernel
theorem test_frame_invalid_record : ((after (.measurementFrame (frame 8 20000 0 20000 0 0 0)) part).feeder .f2).meas = .holding := by
  decide +kernel
theorem test_scan_closes_and_opens :
    let lv : ScanLevels :=
      { contacts := .of fun f => { closedContact := decide (f ≠ .f1), openContact := decide (f = .f1) }, fireBan := false,
        crewKey := true, setProtect := false }
    let s := after (.inputScan lv) (after (.inputScan lv) (after (.inputScan lv) part))
    (s.feeder .f1).position = .opened ∧ (s.feeder .f1).lastEnd = .opened ∧ (s.feeder .f1).ar.cause = some .externalOpen ∧
      (s.feeder .f2).position = .closed := by decide +kernel
theorem test_trip_then_done :
    let s := after (.trip .network 0x01#8 []) part
    (s.ports.get .network).state = .waiting { status := .accepted, collided := false, incomplete := false, payload := [0#8, 1#8] } ∧
      (s.feeder .f1).inFlight.map (·.deadline) = some 1150 ∧
      ((after (.tripDeadline .f1) { s with partTime := 1150 }).feeder .f1).claims.breaker = true := by decide +kernel
theorem test_fetch_consumes :
    let s := after (.discardEdit .panel 0#8 []) part
    ((after (.fetch .panel 6) s).ports.get .panel).state = .idle ∧
      ((after (.fetch .panel 5) s).ports.get .panel).state = ((s.ports.get .panel)).state := by decide +kernel
/-- R178: 0xFF throughout a transfer of an unknown type; R190: 0xFF in every transfer under RESET, nothing from the crew port. -/
theorem test_line_of_other_transfers :
    (after (.badTransferType .panel 3#8) part).sent.panel = .allOnes ∧
      (after (.identify .network 0#8 []) (after .resetAsserted part)).sent.network = .allOnes ∧
      (after (.identify .crew 0#8 []) (after .resetAsserted part)).sent.crew = .bytes [] ∧
      (after (.fetch .network 2) (after .resetAsserted part)).sent.network = .bytes [0xFF#8, 0xFF#8] := by decide +kernel
/-- R17: the position is TRANSIT while one contact has not settled, whatever the other reads. -/
theorem test_position_waits_for_both_contacts :
    ((partF1 fun x => { x with openContact := .unsettled }).feeder .f1).position = .transit ∧ (part.feeder .f1).position = .closed := by
  decide +kernel
/-- R1: a frame whose bus record is invalid gives no block a Vn. -/
theorem test_invalid_bus_record_has_no_vn :
    (parseFrame (frame 8 20000 140 0 0 0 1)).map MeasFrame.usedVn = some (some 140) ∧
      (parseFrame (let b := (frame 8 20000 140 0 0 0 1).set 6 0#8; b.take 67 ++ checkField (b.take 67))).map MeasFrame.usedVn = some none := by
  decide +kernel
/-- R68, R74: a rise sends FIRE_TARGET, then APPLIED_LEVEL and SETTINGS_APPLIED with cause RAISE for each feeder. -/
theorem test_rise_sends_its_entries :
    let s : State := { part with feeders := part.feeders.set .f2 { part.feeder .f2 with fire := none } }
    let d := (part.commissioning .f1).district
    ((after (.setFireRequest .network d.byte [1#8]) s).queues.panel.map fun e => e.event) =
      [.fireTarget d .l0 .l1 .l1 .l0 (part.ban d) (part.floor d) false, .appliedLevel .f1 .l0 .l1 .raise,
       .settingsApplied .f1 .l1 .raise] := by decide +kernel
/-- R38: the TRIP entry of an element that operates stands first. R9: LINK_RESTORED stands before it. -/
theorem test_trip_entry :
    let s : State := { partF1 (fun x => { x with highSet := ⟨.pickedUp, 40000⟩ }) with link := .awaiting }
    ((after (.measurementFrame (frame 8 20000 0 20000 0 0 1)) s).queues.panel.map fun e => e.event.kindCode) = [0x09, 0x02] := by
  decide +kernel
/-- An idle step queues a deadline that the next millisecond reaches, and none that it does not. -/
theorem test_idle_step_queues_what_is_due :
    (∀ d ∈ [1001, 1002],
      (match step (partF1 fun x => { x with lock := .port .network d }) with
        | .next t => decide (t.partTime = 1001 ∧ t.pending = if d = 1001 then [.lockLeaseExpiry .f1] else [])
        | _ => false) = true) := by decide +kernel
theorem test_restart_ends_the_pool :
    (after (.restart .network 0#8 []) { part with partTime := 77, opCounter := 9 }).opCounter = 1 ∧
      (after (.restart .network 0#8 []) part).startCause = .restart := by decide +kernel
theorem test_table_word_spells_none : decodeTableWord 8 0 = none ∧ State.reset.withFetchWord 8 0 = State.reset := by
  constructor <;> rfl

/-! ### The statements' hypotheses are met -/


theorem witness_StepRunsTheFrontCommandOrIdles :
    part.pending = [] ∧ part.phase = .running ∧ (after .powerLoss part).pending = [] ∧ (after .powerLoss part).phase ≠ .running := by
  decide +kernel
theorem witness_EveryStartUpSetsEveryBlock :
    (after .resetAsserted part).phase = .held ∧ Takes .restart .network 0#8 [] part := ⟨by decide +kernel, takes (by decide +kernel)⟩
theorem witness_PowerLossAndResetEndWrites : part.phase ≠ .off := by decide +kernel
/-- Hypotheses of HeldPartChangesNothing: without power, and held with a transfer, a crew request, a fetch and a deadline. -/
theorem witness_HeldPartChangesNothing :
    (after .powerLoss part).phase = .off ∧ (after .resetAsserted part).phase = .held ∧
      (isStartUp (.badTransferType .panel 0#8) = false ∧ ListensAt .panel (.badTransferType .panel 0#8)) ∧
      (isStartUp (.trip .crew 1#8 []) = false ∧ ListensAt .crew (.trip .crew 1#8 [])) ∧ isStartUp (.fetch .crew 3) = false ∧
      isStartUp .confirmExpiry = false ∧ isFetch .confirmExpiry = false ∧ ∀ p, ¬ ListensAt p .confirmExpiry := by
  refine ⟨by decide +kernel, by decide +kernel, ⟨rfl, .inr (.inr (.inr (.inr (.inr (.inl ⟨.panel, 0#8, rfl, rfl⟩)))))⟩,
    ⟨rfl, .inr (.inr (.inr (.inr (.inr (.inr (.inr ⟨.trip, 1#8, [], rfl⟩))))))⟩, rfl, rfl, rfl, ?_⟩
  rintro p (h | h | h | h | h | ⟨_, _, h, _⟩ | ⟨_, h | h⟩ | ⟨q, _, _, h⟩)
  all_goals first | cases h | cases q <;> cases h
theorem witness_FrameIsDiscardedOrAccepted :
    (frame 8 20000 0 0 0 0 1 ++ [0#8]).length ≠ 69 ∧ ((frame 8 20000 0 0 0 0 1).dropLast).length ≠ 69 ∧
      ((frame 8 20000 0 0 0 0 1).take 67 ++ [0#8, 0#8]).drop 67 ≠
        checkField (((frame 8 20000 0 0 0 0 1).take 67 ++ [0#8, 0#8]).take 67) ∧
      part.lastSequence = some (numberAt (frame 7 20000 0 0 0 0 1) 0 1) := by decide +kernel
/-- Hypotheses of FrameIsDiscardedOrAccepted and MeasurementStateMovesByItsTable, for a valid and an invalid record. -/
theorem witness_AcceptedFrame :
    part.phase = .running ∧ part.fitted .f1 = true ∧ part.fitted .f3 = false ∧ part.hunt = none ∧
      ∀ flags ∈ [0, 1], let bs := frame 8 20000 0 0 0 0 flags
        bs.length = 69 ∧ bs.drop 67 = checkField (bs.take 67) ∧ part.lastSequence ≠ some (numberAt bs 0 1) ∧
          (bs.getD (7 + 10 * (Feeder.f1.number - 1) + 9) 0#8).getLsbD 0 = decide (flags = 1) := by decide +kernel
/-- Hypotheses of FrameIsDiscardedOrAccepted at a frame that restores the link, with every fitted feeder AWAITING or LOST. -/
theorem witness_AcceptedFrame_restores :
    ∀ m ∈ [MeasState.awaiting, .lost], ∀ l ∈ [LinkState.awaiting, .lost],
      let s : State :=
        { part with
          link := l, lastSequence := none, feeders := .of fun f => { part.feeder f with meas := m, recoveryCount := 3 } }
      s.phase = .running ∧ s.link ≠ .up ∧ s.hunt = none ∧ s.lastSequence ≠ some (numberAt (frame 8 20000 0 0 0 0 1) 0 1) ∧
        ∀ f, s.fitted f = true → (s.feeder f).meas = m ∧ (s.feeder f).recoveryCount < 4 := by
  intro m hm l hl
  fin_cases hm <;> fin_cases hl <;>
    exact ⟨by decide +kernel, by decide +kernel, by decide +kernel, by decide +kernel,
      fun f h => ⟨by cases f <;> decide +kernel, by cases f <;> decide +kernel⟩⟩
theorem witness_AcceptedFrame_next :
    ∃ t, exec (.measurementFrame (frame 8 20000 0 0 0 0 1)) part = .next t := ⟨_, rfl⟩
theorem accepted {bs : List Byte} {s : State}
    (h : s.phase = .running ∧ bs.length = 69 ∧ bs.drop 67 = checkField (bs.take 67) ∧ s.lastSequence ≠ some (numberAt bs 0 1)) :
    Accepted bs s := ⟨h.1, h.2.1, h.2.2.1, h.2.2.2⟩
/-- Hypotheses of FrameIsDiscardedOrAccepted and ElementsMoveByTheirTables at an accepted frame: with and without a hunt, with a feeder to
evaluate and with none, and F1 evaluated and not. -/
theorem witness_AcceptedFrame_evaluated :
    let lost (s : State) : State := { s with feeders := .of fun f => { part.feeder f with meas := .lost, recoveryCount := 3 } }
    (∀ s ∈ [part, hunting (huntIn .identify), lost (hunting (huntIn .suspended))], ∀ flags ∈ [0, 1],
      Accepted (frame 8 20000 0 20000 0 0 flags) s ∧ s.fitted .f1 = true ∧ loweringPending s .f1 = false ∧
        settingsPending s .f1 = false) ∧
    ((hunting (huntIn .identify)).hunt ≠ none ∧ huntState (lost (hunting (huntIn .suspended))) ≠ .identify ∧
      ∀ f, (lost (hunting (huntIn .suspended))).fitted f = true →
        ((lost (hunting (huntIn .suspended))).feeder f).meas = .lost ∧ ((lost (hunting (huntIn .suspended))).feeder f).recoveryCount < 4) ∧
    (part.feeder .f1).fire = some { applied := .l0, settingsPending := false, effective := part.effectiveFor .f1 .l0 } ∧
    (∀ x ∈ [(MeasState.valid, 4), (.holding, 0), (.awaiting, 4), (.lost, 4)],
      Evaluated { part.feeder .f1 with meas := x.1, recoveryCount := x.2 } (recordAt (frame 8 20000 0 20000 0 0 1) .f1)) ∧
    ¬ Evaluated (part.feeder .f1) (recordAt (frame 8 20000 0 20000 0 0 0) .f1) ∧
    ¬ Evaluated { part.feeder .f1 with meas := .lost, recoveryCount := 3 } (recordAt (frame 8 20000 0 20000 0 0 1) .f1) := by
  refine ⟨fun s hs flags hf => ?_, ⟨by decide +kernel, by decide +kernel, fun f _ => ?_⟩, by decide +kernel, by unfold Evaluated; decide +kernel,
    by unfold Evaluated; decide +kernel, by unfold Evaluated; decide +kernel⟩
  · fin_cases hs <;> fin_cases hf <;> exact ⟨accepted (by decide +kernel), by decide +kernel⟩
  · cases f <;> exact ⟨by decide +kernel, by decide +kernel⟩
theorem witness_MeasurementStateMovesByItsTable :
    ∀ x ∈ [(MeasState.holding, 2, 0), (.awaiting, 0, 4), (.lost, 3, 4)],
      let s := partF1 fun y => { y with meas := x.1, invalidCount := x.2.1, recoveryCount := x.2.2 }
      (s.feeder .f1).ar.state ≠ .deadTime ∧ (s.feeder .f1).meas = x.1 ∧ (s.feeder .f1).invalidCount = x.2.1 ∧
        (s.feeder .f1).recoveryCount = x.2.2 := by decide +kernel
theorem witness_OneWrongByteIsCaught : (0#8 : Byte) ≠ 255#8 := by decide
theorem witness_LinkLossLosesEveryFeeder :
    part.phase = .running ∧ part.linkDeadline = some 1050 ∧ part.partTime < 1050 ∧
      ({ part with partTime := 1050 } : State).phase = .running ∧ (1050 : Nat) ≤ ({ part with partTime := 1050 } : State).partTime ∧
      part.hunt = none ∧ ∀ f ∈ part.fittedFeeders, (part.feeder f).ar.state ≠ .deadTime := by decide +kernel
/-- A hunt under way when the link is lost: F1 open and its current candidate, or its identified feeder, or neither. -/
theorem witness_LinkLossLosesEveryFeeder_hunt :
    (∀ st ∈ [HuntState.identify, .isolate, .confirm, .trialOpen, .trialWatch, .trialRestore, .suspended],
      (hunting (huntIn st)).hunt = some (huntIn st) ∧ (huntIn st).state ≠ .idle ∧ (huntIn st).pendingResult = none ∧
        ({ huntIn st with pendingResult := some .notFound } : HuntRun).pendingResult.isSome = true) ∧
    (∀ h ∈ [huntIn .identify, huntIn .suspended,
        { huntIn .trialWatch with candidates := some [{ feeder := .f1, outcome := .notTried }], current := some 0 },
        { huntIn .confirm with identified := some { feeder := .f1, isolate := .opened, endRestore := none } }],
      let s := { (hunting h).onFeeder .f1 openF1 with partTime := 1050 }
      s.phase = .running ∧ s.linkDeadline = some 1050 ∧ s.hunt = some h ∧ h.pendingResult = none ∧
        (h.current = none ∨ (h.candidates.getD [])[0]? = some { feeder := .f1, outcome := .notTried }) ∧
        s.fitted .f1 = true ∧ loweringPending s .f1 = false ∧ settingsPending s .f1 = false ∧ (s.feeder .f1).position = .opened ∧
        ∀ f ∈ s.fittedFeeders, (s.feeder f).ar.state ≠ .deadTime) := by decide +kernel
/-- The part with its crew key turned off for two scans. -/
def keyTurning : State := { part with crewKey := { level := some true, candidate := false, count := 2 } }
/-- A scan with the crew key off. -/
def keyOff : ScanLevels :=
  { contacts := .of fun _ => { closedContact := true, openContact := false }, fireBan := false, crewKey := false, setProtect := false }
/-- A contact that two scans have shown at another level than its own. -/
def turning (level : Bool) : FilteredInput := { level := some level, candidate := !level, count := 2 }
/-- The part with every contact settled, and a scan that shows F1's contacts so and all else as it is. -/
def still : State :=
  { part with feeders := .of fun f => { part.feeder f with closedContact := contact true, openContact := contact false } }
def scanF1 (closed opened : Bool) : ScanLevels :=
  { contacts := .of fun f => if f = .f1 then ⟨closed, opened⟩ else ⟨true, false⟩, fireBan := false, crewKey := true, setProtect := false }
theorem witness_ScanFiltersEveryInput :
    part.phase = .running ∧ fireBanActive part = false ∧
      fireBanActive (after (.inputScan { keyOff with fireBan := true }) { part with fireBan := turning false }) = true ∧
      fireBanActive (after (.inputScan keyOff) part) = false := by decide +kernel
/-- F1 opening with a trip in flight or nothing, F1 closing in DEAD_TIME, and F1 whose second contact settles in STARTING. -/
def moving : List (FeederState × Bool) :=
  let x := still.feeder .f1
  [({ x with closedContact := turning true, openContact := contact true, inFlight := some (flying .trip .protection) }, false),
   ({ x with closedContact := turning true, openContact := contact true }, false),
   ({ x with closedContact := contact true, openContact := turning true, lastEnd := .opened, ar := .bare .deadTime 0 }, true),
   ({ x with openContact := { level := none, candidate := false, count := 2 }, ar := .bare .starting 0 }, true)]
theorem witness_PositionChangeIsHandedOn :
    (∀ m ∈ moving, let s := still.onFeeder .f1 fun _ => m.1
      s.phase = .running ∧ s.hunt = none ∧ loweringPending s .f1 = false ∧ settingsPending s .f1 = false ∧
        (m.1.settled = false ∨ m.1.lastEnd ≠ .unknown) ∧
        (m.1.closedContact.scan m.2).level = some m.2 ∧ (m.1.openContact.scan (!m.2)).level = some (!m.2)) ∧
    (∀ g, g ≠ .f1 → Steady (still.feeder g).closedContact ((scanF1 false true).contacts.get g).closedContact ∧
      Steady (still.feeder g).openContact ((scanF1 false true).contacts.get g).openContact) ∧
    Steady still.fireBan (scanF1 false true).fireBan ∧ Steady still.crewKey (scanF1 false true).crewKey ∧
    Steady still.setProtect (scanF1 false true).setProtect := by
  refine ⟨by decide +kernel, fun g hg => ?_, ⟨by decide +kernel, by decide +kernel⟩, ⟨by decide +kernel, by decide +kernel⟩,
    ⟨by decide +kernel, by decide +kernel⟩⟩
  cases g
  · exact absurd rfl hg
  all_goals exact ⟨⟨by decide +kernel, by decide +kernel⟩, ⟨by decide +kernel, by decide +kernel⟩⟩
/-- F1's own contacts end an operation of the hunt's, and a protection trip under a hunt that is in no operation of its own. -/
theorem witness_PositionChangeIsHandedOn_hunt :
    ∀ x ∈ [(flying .trip .hunt, { huntIn .trialOpen with candidates := some [⟨.f1, .notTried⟩], current := some 0 }),
        (flying .trip .protection, huntIn .identify)],
      let s := { still.onFeeder .f1 fun y =>
        { y with closedContact := turning true, openContact := contact true, inFlight := some x.1 } with hunt := some x.2 }
      s.phase = .running ∧ s.hunt = some x.2 ∧ loweringPending s .f1 = false ∧ settingsPending s .f1 = false ∧
        ((turning true).scan false).level = some false ∧ ((contact true).scan true).level = some true := by decide +kernel
theorem witness_CrewQueueFollowsTheKey :
    crewKeyActive keyTurning = true ∧ crewKeyActive (after (.inputScan keyOff) keyTurning) = false ∧
      isStartUp (.identify .network 0#8 []) = false ∧ isInputScan (.identify .network 0#8 []) = false ∧
      crewKeyActive { part with crewKey := contact false } = false := by decide +kernel
theorem witness_FaultTimersDeclareTheFault :
    let invalid := partF1 fun x => { x with openContact := contact true, invalidTimer := some 1000 }
    let transit := partF1 fun x => { x with closedContact := contact false, transitTimer := some 1001 }
    invalid.phase = .running ∧ invalid.fitted .f1 = true ∧ (invalid.feeder .f1).ar.state ≠ .deadTime ∧
      (invalid.feeder .f1).invalidTimer = some 1000 ∧ (invalid.feeder .f1).position = .invalid ∧
      transit.phase = .running ∧ transit.fitted .f1 = true ∧ (transit.feeder .f1).ar.state ≠ .deadTime ∧
      (transit.feeder .f1).transitTimer = some 1001 ∧ (transit.feeder .f1).position = .transit ∧
      (transit.feeder .f1).inFlight = none := by decide +kernel
theorem witness_DeadlineEndsAnOperation :
    ∀ kind ∈ [OpKind.trip, .close], let s := partF1 fun x => openF1 { x with inFlight := some (flying kind (.port .panel)) }
      s.phase = .running ∧ (s.feeder .f1).inFlight = some (flying kind (.port .panel)) ∧
        (flying kind (.port .panel)).op.kind = kind ∧ (s.feeder .f1).position ≠ .closed ∧ s.hunt = none ∧
        loweringPending s .f1 = false ∧ settingsPending s .f1 = false := by decide +kernel
/-- The hunt's own operation at its deadline, and a protection trip DONE of F1 with the hunt in IDENTIFY, in TRIAL_WATCH on F2 and on F1. -/
theorem witness_DeadlineEndsAnOperation_hunt :
    (∀ kind ∈ [OpKind.trip, .close],
      let h := { huntIn .isolate with op := some { id := 5, kind := kind, feeder := .f1 }, locked := some .f1 }
      let s := (hunting h).onFeeder .f1 fun x => openF1 { x with lock := .hunt, inFlight := some (flying kind .hunt) }
      s.phase = .running ∧ s.hunt = some h ∧ (s.feeder .f1).inFlight = some (flying kind .hunt) ∧ (flying kind .hunt).op.kind = kind ∧
        .hunt ∈ (flying kind .hunt).op.requesters ∧ (s.feeder .f1).position ≠ .closed ∧ loweringPending s .f1 = false ∧
        settingsPending s .f1 = false) ∧
    ∀ x ∈ [(HuntState.identify, none), (.trialWatch, some Feeder.f2), (.trialWatch, some Feeder.f1), (.suspended, none)],
      let h := { huntIn x.1 with candidates := some [⟨.f1, .notTried⟩, ⟨.f2, .notTried⟩], current := x.2.map fun g => g.number - 1 }
      let s := (hunting h).onFeeder .f1 fun y => openF1 { y with inFlight := some (flying .trip .protection) }
      s.phase = .running ∧ s.hunt = some h ∧ h.currentFeeder = x.2 ∧ (s.feeder .f1).position = .opened ∧
        .hunt ∉ (flying .trip .protection).op.requesters ∧ .protection ∈ (flying .trip .protection).op.requesters ∧
        loweringPending s .f1 = false ∧ settingsPending s .f1 = false := by decide +kernel
/-- A completion of each kind and outcome, of the elements with a permit or of a port, or of the sequencer's close. -/
def completed (kind : OpKind) (origin : Origin) (outcome : OpOutcome) : Completed :=
  { op := { (flying kind origin).op with permit := if origin = .protection then some true else none }, outcome := outcome,
    completed := 1000 }
theorem witness_SequencerTakesCompletions :
    (∀ o ∈ [OpOutcome.done, .already, .failed], (completed .trip .protection o).op.kind = .trip ∧
      (completed .trip .protection o).outcome = o ∧
      (completed .trip .protection o).op.requesters.contains .protection = true ∧
      (completed .trip (.port .crew) o).op.requesters.contains .protection = false) ∧
    (completed .close .reclose .failed).op.kind = .close ∧ (completed .close .reclose .failed).op.origin = .reclose ∧
    (∀ o ∈ [OpOutcome.done, .already, .failed, .superseded], (completed .close .hunt o).op.kind = .close ∧
      (completed .close .hunt o).op.origin ≠ .reclose ∧ (completed .close .hunt o).outcome = o) ∧
    ∀ st ∈ [ArState.starting, .ready, .deadTime, .closing, .reclaim, .lockout, .openManual, .outOfService],
      let s := partF1 fun x => { x with ar := { ArRecord.bare st 0 with closeOp := some 5 } }
      (s.feeder .f1).ar.state = st ∧ (s.feeder .f1).ar.closeOp = some (completed .close .reclose .failed).op.id ∧
        ((partF1 fun x => { x with ar := .bare st 0 }).feeder .f1).ar.closeOp = none := by decide +kernel
/-- The part with F1 open in DEAD_TIME until a deadline, for its first shot. -/
def deadTime (d : Nat) : State :=
  partF1 fun x => openF1 { x with ar := { ArRecord.bare .deadTime 0 with currentShot := some 1, deadline := some d } }
theorem witness_SequencerDeadlinesAct :
    (∀ d ∈ [1000, 1001], (deadTime d).phase = .running ∧ ((deadTime d).feeder .f1).ar.state = .deadTime ∧
      ((deadTime d).feeder .f1).ar.deadline = some d ∧ ((deadTime d).feeder .f1).ar.currentShot = some 1) ∧
    (1000 ≤ (deadTime 1000).partTime ∧ (deadTime 1001).partTime < 1001) ∧
    (blockSet (deadTime 1000) .f1 = [] ∧ ((deadTime 1000).feeder .f1).inFlight = none ∧
      ((deadTime 1000).feeder .f1).position ≠ .closed ∧ ((deadTime 1000).feeder .f1).positionFault = none) ∧
    (∀ k ∈ [OpKind.trip, .close],
      (((deadTime 1000).onFeeder .f1 fun x => { x with inFlight := some (flying k .hunt) }).feeder .f1).inFlight = some (flying k .hunt)) ∧
    (let s := (deadTime 1000).onFeeder .f1 fun x => { x with closedContact := contact true, openContact := contact false }
     (s.feeder .f1).position = .closed ∧ (s.feeder .f1).inFlight = none ∧ blockSet s .f1 = []) ∧
    (let s := (deadTime 1000).onFeeder .f1 fun x => { x with openContact := contact false, positionFault := some .transit }
     (s.feeder .f1).position ≠ .closed ∧ (s.feeder .f1).positionFault ≠ none ∧ blockSet s .f1 = [] ∧
       loweringPending s .f1 = false ∧ settingsPending s .f1 = false) ∧
    (let s := (deadTime 1000).onFeeder .f1 fun x => { x with claims := { x.claims with measure := true } }
     blockSet s .f1 = [.system .measure] ∧ loweringPending s .f1 = false ∧ settingsPending s .f1 = false) ∧
    ∀ d ∈ [1000, 1001], let s := partF1 fun x => { x with ar := { ArRecord.bare .reclaim 0 with reclaim := some d } }
      s.phase = .running ∧ (s.feeder .f1).ar.state = .reclaim ∧ (s.feeder .f1).ar.reclaim = some d ∧
        loweringPending s .f1 = false ∧ settingsPending s .f1 = false := by decide +kernel
theorem witness_ClaimEntryEndsADeadTime :
    (∀ s ∈ [deadTime 1001, part], s.pool = [] ∧ loweringPending s .f1 = false ∧ settingsPending s .f1 = false ∧
      (∀ e ∈ [none, some 60, some 86400],
        takesB .placeClaim .crew Feeder.f1.byte (claimPayload .noReclose 255 9999 e) s = true) ∧
      takesB .placeClaim .panel Feeder.f1.byte (claimPayload .holdOpen 0 0 none) s = true) ∧
    Port.crew.tagFits 9999 = true ∧ Port.panel.tagFits 0 = true ∧ ((deadTime 1001).feeder .f1).ar.state = .deadTime ∧
    (part.feeder .f1).ar.state ≠ .deadTime ∧
    (∀ n ∈ [SystemClaim.fire, .hunt, .measure, .breaker, .store], ((deadTime 1001).feeder .f1).claims.has n = false) ∧
    let invalid := (deadTime 1001).onFeeder .f1 fun x => { x with closedContact := contact true, invalidTimer := some 1000 }
    let transit := (deadTime 1001).onFeeder .f1 fun x => { x with openContact := contact false, transitTimer := some 1000 }
    invalid.phase = .running ∧ invalid.fitted .f1 = true ∧ (invalid.feeder .f1).invalidTimer = some 1000 ∧
      (invalid.feeder .f1).position = .invalid ∧ loweringPending invalid .f1 = false ∧ settingsPending invalid .f1 = false ∧
      (transit.feeder .f1).transitTimer = some 1000 ∧ (transit.feeder .f1).position = .transit ∧
      (transit.feeder .f1).inFlight = none ∧ transit.partTime = 1000 := by decide +kernel
/-- A claim of the pool. -/
def claimOf (kind : ClaimKind) (holder : Port) (tag : Nat) (expiry : Option Nat) : PortClaim :=
  { feeder := .f1, kind := kind, holder := holder, tag := tag, reason := 1, placedAt := 10, expiry := expiry, persisted := false,
    inWrite := false }
/-- The part with these claims. -/
def holding (cs : List PortClaim) : State := { part with pool := cs }
/-- The part with its store changed. -/
def storing (g : Store → Store) : State := part.onStore g
theorem witness_LeasesAndClaimsExpire :
    (∀ d ∈ [1000, 1001],
      (storing fun st => { st with edit := .editing .panel (.hunt .l1) (.hunt (defaultHunt .l1)) d }).store.edit =
        .editing .panel (.hunt .l1) (.hunt (defaultHunt .l1)) d ∧
      ((partF1 fun x => { x with lock := .port .network d }).feeder .f1).lock = .port .network d) ∧
    (∀ d ∈ [some 1000, some 1001, none], claimOf .noReclose .crew 9999 d ∈ (holding [claimOf .noReclose .crew 9999 d]).pool ∧
      (claimOf .noReclose .crew 9999 d).holder.tagFits (claimOf .noReclose .crew 9999 d).tag = true) ∧
    part.phase = .running ∧ (holding []).partTime = 1000 := by decide +kernel
theorem witness_PoolSound (k : ClaimKind) (h : Port) (tag : Nat) (d : Option Nat) : PoolSound (holding [claimOf k h tag d]) := by
  simp [PoolSound, Distinct, holding]
/-- A claim write and a write of the protect mode queued, the second in flight or not. -/
def writingStore (w : Option StoreWrite) : State :=
  storing fun st =>
    { st with queue := [{ port := .network, record := .protectMode }, { port := .crew, record := .claims }], writing := w }
theorem witness_StoreWrites :
    part.phase = .running ∧ part.store.queue = [] ∧ (writingStore (some ⟨.protectMode .open_, 900⟩)).store.writing.isSome = true ∧
      (writingStore none).store.writing = none ∧
      (writingStore none).store.queue = { port := .network, record := .protectMode } :: [{ port := .crew, record := .claims }] ∧
      (writingStore (some ⟨.protectMode .open_, 900⟩)).store.writing = some ⟨.protectMode .open_, 900⟩ ∧
      contentFits .protectMode (.protectMode .open_) = true := by decide +kernel
/-- The part with F1's applied level at L2, above its target. -/
def lowering (ar : ArState) : State :=
  partF1 fun x =>
    { x with
      ar := .bare ar 0, fire := some { applied := .l2, settingsPending := true, effective := part.effectiveFor .f1 .l2 } }
theorem witness_JudgementAppliesWhatIsPending :
    (∀ ar ∈ [ArState.ready, .reclaim], (lowering ar).phase = .running ∧
      ((lowering ar).feeder .f1).fire = some { applied := .l2, settingsPending := true, effective := part.effectiveFor .f1 .l2 } ∧
      (targetLevel (lowering ar) .f1).number ≤ Level.l2.number) ∧
    quiescent (lowering .ready) .f1 = true ∧ quiescent (lowering .reclaim) .f1 = false ∧
    loweringPending (lowering .ready) .f1 = true ∧ loweringPending part .f1 = false ∧ settingsPending part .f1 = false := by
  decide +kernel
/-- The part with one port's unit in a state. -/
def portIn (p : Port) (st : PortState) : State := part.onPort p fun u => { u with state := st }
/-- A response that waits. -/
def okResponse : Response := { status := .ok, collided := false, incomplete := true, payload := [1#8] }
theorem witness_FetchSendsTheResponse :
    part.phase = .running ∧ (after .resetAsserted part).phase = .held ∧
      ∀ p ∈ Port.all, ((portIn p (.waiting okResponse)).ports.get p).state = .waiting okResponse ∧
        ((portIn p (.executing 0x21 1)).ports.get p).state = .executing 0x21 1 ∧ (part.ports.get p).state = .idle ∧
        ((portIn p .receiving).ports.get p).state = .receiving := by decide +kernel
/-- The small part, at 1000 ms, with a crew write under way that stalls at `t`. -/
def writing (collides : Bool) (t : Nat) : State := { part with crewWrite := some { collides := collides, stall := t } }
theorem witness_FramesThatAreNotTaken :
    part.phase = .running ∧ (3#8 : Byte) ≠ 0x01#8 ∧ (3#8 : Byte) ≠ 0x02#8 ∧ (part.ports.get .crew).state = .idle ∧
      ((portIn .crew (.waiting okResponse)).ports.get .crew).state = .waiting okResponse ∧
      ((portIn .crew (.executing 0x18 1)).ports.get .crew).state = .executing 0x18 1 ∧
      part.crewWrite = none ∧ (∀ b, (writing b 1000).crewWrite = some { collides := b, stall := 1000 } ∧ 1000 ≤ (writing b 1000).partTime) ∧
      (∀ b, (writing b 1001).crewWrite = some { collides := b, stall := 1001 } ∧ (writing b 1001).partTime < 1001) := by
  decide +kernel
/-- Hypotheses of FailedCheckIsAnsweredAtOnce and RightsOfThePorts, each check the first that fails. -/
theorem witness_FailedCheckIsAnsweredAtOnce :
    part.phase = .running ∧ (part.ports.get .panel).state = .idle ∧ 64 < tooLong.length ∧
      (Request.restart.rights.allow .panel && (decide (Port.panel ≠ .crew) || crewKeyActive part)) = false ∧
      (Request.trip.rights.allow .panel && (decide (Port.panel ≠ .crew) || crewKeyActive part)) = true ∧
      Request.trip.targetKind.admits 0 = false ∧ Request.trip.targetKind.admits 7 = false ∧
      Request.trip.targetKind.admits 6 = true ∧ Request.trip.payloadFits [] = true ∧ Request.trip.fittedCheck = true ∧
      Feeder.ofNumber 6 = some .f6 ∧ part.fitted .f6 = false ∧ part.fitted .f1 = true ∧
      Request.readClaims.targetKind.admits 0 = true ∧ Request.setFloor.targetKind.admits 4 = false ∧
      Request.setFloor.targetKind.admits 3 = true ∧ Request.restart.targetKind.admits 1 = false ∧
      Request.placeClaim.payloadFits [0#8, 1#8, 0#8, 0#8, 0#8] = true ∧ Request.placeClaim.payloadFits [0#8, 1#8, 0#8, 0#8, 1#8] = false ∧
      Request.placeClaim.payloadFits [0#8, 1#8, 0#8, 0#8, 1#8, 0#8, 0#8, 0#8, 60#8] = true := by decide +kernel
theorem witness_PartReadsShowTheState :
    ∀ q ∈ [Request.identify, .readPart, .readStore, .readHunt], takesB q .panel 0#8 [] part = true := by decide +kernel
theorem witness_FeederReadsShowTheState :
    (∀ q ∈ [Request.readFire, .readClaims], takesB q .panel 0#8 [] part = true) ∧
      (∀ q ∈ [Request.readClaims, .readFeeder, .readEffective], takesB q .network Feeder.f2.byte [] part = true) ∧
      (part.feeder .f2).fire = some { applied := .l0, settingsPending := false, effective := part.effectiveFor .f2 .l0 } := by
  decide +kernel
theorem witness_RecordReadsShowTheContent :
    takesB .readRecord .panel 0#8 (RecordName.group .f6 .l3).bytes part = true ∧
      takesB .readRecord .network 0#8 RecordName.claims.bytes part = true ∧ part.store.claimsWritten = .intact [] ∧
      takesB .readRecord .network 0#8 RecordName.claims.bytes (storing fun st => { st with claimsWritten := .torn }) = true ∧
      takesB .readRecord .network 0#8 [9#8, 0#8, 0#8] part = true ∧ namedRecord [9#8, 0#8, 0#8] = none ∧
      takesB .readEdit .panel 0#8 [] part = true := by decide +kernel
theorem witness_ReadEventsTakesTheOldest :
    ∀ n ∈ [0#8, 1#8, 8#8, 9#8], takesB .readEvents .crew 0#8 [n] part = true := by decide +kernel
theorem witness_OfferedEventJoinsOrOverflows :
    (Port.network ≠ .crew ∨ crewKeyActive part = true) ∧ crewKeyActive State.reset = false ∧
      ∀ n ∈ [30, 31, 32],
        (({ part with queues := part.queues.set .network (List.replicate n startEntry) } : State).queues.get .network).length = n := by
  decide +kernel
theorem witness_TripMeetsTheOperationInFlight :
    (∀ p ∈ Port.all, takesB .trip p Feeder.f1.byte [] part = true) ∧ (part.feeder .f1).lock.bars .panel = false ∧
      (part.feeder .f1).inFlight = none ∧ (part.feeder .f1).position ≠ .opened ∧
      ((partF1 fun x => { x with lock := .hunt }).feeder .f1).lock.bars .network = true ∧
      ((partF1 fun x => { x with inFlight := some (flying .trip .protection) }).feeder .f1).inFlight =
        some (flying .trip .protection) ∧ (flying .trip .protection).op.kind = .trip := by decide +kernel
theorem witness_TripMeetsTheOperationInFlight_other :
    let closing := partF1 fun x => openF1 { x with inFlight := some (flying .close .reclose), ar := ArRecord.bare .closing 0 }
    let opened := partF1 openF1
    (takesB .trip .panel Feeder.f1.byte [] closing = true ∧ (closing.feeder .f1).lock.bars .panel = false ∧ closing.hunt = none ∧
      (closing.feeder .f1).inFlight = some (flying .close .reclose)) ∧
    takesB .trip .crew Feeder.f1.byte [] opened = true ∧ opened.hunt = none ∧ (opened.feeder .f1).inFlight = none ∧
      (opened.feeder .f1).position = .opened ∧ (opened.feeder .f1).ar.state ≠ .deadTime ∧ loweringPending opened .f1 = false ∧
      settingsPending opened .f1 = false := by decide +kernel
/-- The hunt's close in flight, for a port's trip to supersede. -/
theorem witness_TripMeetsTheOperationInFlight_hunt :
    let s := (hunting { huntIn .trialRestore with op := some { id := 5, kind := .close, feeder := .f1 }, locked := some .f1 }).onFeeder .f1
      fun x => openF1 { x with inFlight := some (flying .close .hunt) }
    takesB .trip .panel Feeder.f1.byte [] s = true ∧ (s.feeder .f1).lock.bars .panel = false ∧ s.hunt ≠ none ∧
      (s.feeder .f1).inFlight = some (flying .close .hunt) ∧ (flying .close .hunt).op.kind = .close ∧
      .hunt ∈ (flying .close .hunt).op.requesters := by decide +kernel
theorem witness_PortCloseMeetsItsChecks :
    takesB .close .network Feeder.f1.byte [] part = true ∧ takesB .close .panel Feeder.f1.byte [] (partF1 openF1) = true ∧
      loweringPending part .f1 = false ∧ settingsPending part .f1 = false := by decide +kernel
theorem witness_LocksAreTakenAndDropped :
    ∀ p ∈ Port.all, takesB .takeLock p Feeder.f1.byte [] part = true ∧
      takesB .dropLock p Feeder.f1.byte [] (partF1 fun x => { x with lock := .port p 2000 }) = true := by decide +kernel
/-- A full pool. -/
def fullPool : List PortClaim :=
  (List.range 32).map fun n => { claimOf .noReclose .crew (n + 1) none with feeder := .f2 }
theorem witness_PlacementsJoinRenewOrAreRefused :
    takesB .placeClaim .crew Feeder.f1.byte (claimPayload .noReclose 0 1 (some 60)) part = true ∧
      takesB .placeClaim .crew Feeder.f1.byte (claimPayload .noReclose 255 9999 (some 86400)) part = true ∧
      takesB .placeClaim .panel Feeder.f1.byte (claimPayload .holdOpen 7 0 none) part = true ∧
      Port.crew.tagFits 1 = true ∧ Port.crew.tagFits 9999 = true ∧ Port.panel.tagFits 0 = true ∧ part.pool = [] ∧
      (part.feeder .f1).ar.state ≠ .deadTime := by decide +kernel
theorem witness_PlacementsJoinRenewOrAreRefused_other :
    (let c := claimOf .noReclose .crew 9999 none
     c ∈ (holding [c]).pool ∧ c.feeder = .f1 ∧ c.holder = .crew ∧ Port.crew.tagFits c.tag = true ∧
       takesB .placeClaim .crew Feeder.f1.byte (claimPayload c.kind 255 c.tag (some 86400)) (holding [c]) = true) ∧
    (takesB .placeClaim .crew Feeder.f1.byte (claimPayload .noReclose 0 0 none) part = true ∧ Port.crew.tagFits 0 = false ∧
      takesB .placeClaim .crew Feeder.f1.byte (claimPayload .noReclose 0 1 (some 59)) part = true ∧
      takesB .placeClaim .crew Feeder.f1.byte (claimPayload .noReclose 0 1 (some 86401)) part = true ∧
      takesB .placeClaim .crew Feeder.f1.byte (claimPayload .holdOpen 0 1 (some 60)) part = true) ∧
    (takesB .placeClaim .crew Feeder.f1.byte (claimPayload .noReclose 0 1 (some 60)) (holding fullPool) = true ∧
      (∀ c ∈ fullPool, c.is .f1 .noReclose .crew 1 = false) ∧ fullPool.length = 32) ∧
    takesB .placeClaim .crew Feeder.f1.byte (be1 2 ++ [0#8, 0#8, 1#8, 0#8]) part = true ∧
      2 ≤ numberAt (be1 2 ++ [0#8, 0#8, 1#8, 0#8]) 0 1 := by decide +kernel
theorem witness_ClaimsAreReleasedAndCleared :
    let c := claimOf .holdOpen .crew 9999 none
    let n := claimOf .noReclose .panel 0 none
    (c ∈ (holding [c]).pool ∧ c.holder.tagFits c.tag = true ∧ c.holder = .crew ∧
      takesB .releaseClaim .crew c.feeder.byte (be1 c.kind.code ++ be2 c.tag) (holding [c]) = true ∧
      takesB .forceRelease .network c.feeder.byte (be1 c.kind.code ++ be1 (portCode c.holder) ++ be2 c.tag) (holding [c]) = true) ∧
    takesB .forceRelease .network n.feeder.byte (be1 n.kind.code ++ be1 (portCode n.holder) ++ be2 n.tag) (holding [n]) = true ∧
      takesB .releaseClaim .crew Feeder.f1.byte (be1 ClaimKind.noReclose.code ++ be2 9999) (holding [c]) = true ∧
      c.is .f1 .noReclose .crew 9999 = false := by decide +kernel
/-- The RANGE refusals of RELEASE_CLAIM and FORCE_RELEASE, with a kind, a holder or a tag at the ends of the ranges and beyond them. -/
theorem witness_ClaimsAreReleasedAndCleared_range :
    (∀ x ∈ [(Port.crew, 2, 1), (.crew, 255, 9999), (.crew, 0, 0), (.crew, 1, 10000), (.crew, 1, 65535), (.panel, 0, 1), (.network, 1, 65535)],
      takesB .releaseClaim x.1 Feeder.f1.byte (be1 x.2.1 ++ be2 x.2.2) part = true ∧ (2 ≤ x.2.1 ∨ x.1.tagFits x.2.2 = false)) ∧
    (∀ x ∈ [(2, 1, 0), (255, 3, 1), (0, 0, 0), (1, 4, 0), (1, 255, 1)],
      takesB .forceRelease .network Feeder.f1.byte (be1 x.1 ++ be1 x.2.1 ++ be2 x.2.2) part = true ∧
        (2 ≤ x.1 ∨ x.2.1 = 0 ∨ 4 ≤ x.2.1)) ∧
    ∀ x ∈ [(Port.crew, 0), (.crew, 10000), (.panel, 1), (.network, 65535)],
      takesB .forceRelease .network Feeder.f1.byte (be1 1 ++ be1 (portCode x.1) ++ be2 x.2) part = true ∧ x.1.tagFits x.2 = false := by
  decide +kernel
theorem witness_ClaimsAreReleasedAndCleared_system :
    takesB .clearHuntClaim .panel Feeder.f1.byte [] part = true ∧ takesB .clearBreakerFail .panel Feeder.f1.byte [] part = true ∧
      takesB .clearStoreHold .network Feeder.f1.byte [] part = true := by decide +kernel
theorem witness_DistrictRequestsSetTheTarget :
    ∀ l ∈ [0, 3, 4, 255], takesB .setFireRequest .panel District.d1.byte [BitVec.ofNat 8 l] part = true ∧
      takesB .setFloor .network District.d3.byte [BitVec.ofNat 8 l] part = true ∧
      takesB .setBanLevel .network District.d3.byte [BitVec.ofNat 8 l] part = true := by decide +kernel
theorem witness_FeedersFollowTheirTarget :
    (∀ l ∈ [Level.l0, .l3], takesB .setFireRequest .network (part.commissioning .f1).district.byte [BitVec.ofNat 8 l.number] part = true ∧
      takesB .setFloor .network (part.commissioning .f1).district.byte [BitVec.ofNat 8 l.number] part = true ∧
      takesB .setBanLevel .network (part.commissioning .f1).district.byte [BitVec.ofNat 8 l.number] part = true) ∧
    (∀ g, Steady (still.feeder g).closedContact ((scanF1 true false).contacts.get g).closedContact ∧
      Steady (still.feeder g).openContact ((scanF1 true false).contacts.get g).openContact) ∧
    (part.feeder .f1).fire = some { applied := .l0, settingsPending := false, effective := part.effectiveFor .f1 .l0 } ∧
    FeederLevelsSound part .f1 ∧ FeederLevelsSound still .f1 ∧
    ∃ t, exec (.inputScan { scanF1 true false with fireBan := true }) { still with fireBan := turning false } = .next t := by
  refine ⟨by decide +kernel, fun g => ?_, by decide +kernel, ?_, ?_, ⟨_, rfl⟩⟩
  · cases g <;> exact ⟨⟨by decide +kernel, by decide +kernel⟩, ⟨by decide +kernel, by decide +kernel⟩⟩
  · show _ ∧ _; exact ⟨by decide +kernel, by decide +kernel⟩
  · show _ ∧ _; exact ⟨by decide +kernel, by decide +kernel⟩
/-- Hypotheses of FeedersFollowTheirTarget at a scan that changes FIRE_BAN and nothing else. -/
theorem witness_FeedersFollowTheirTarget_scan :
    let s : State := { still with fireBan := turning false }
    let lv := { scanF1 true false with fireBan := true }
    s.phase = .running ∧ Steady s.crewKey lv.crewKey ∧ Steady s.setProtect lv.setProtect ∧
      fireBanActive { s with fireBan := s.fireBan.scan lv.fireBan } ≠ fireBanActive s :=
  ⟨by decide +kernel, ⟨by decide +kernel, by decide +kernel⟩, ⟨by decide +kernel, by decide +kernel⟩, by decide +kernel⟩
/-- Hypotheses of the hand-on of settings in FeedersFollowTheirTarget: F1 in DEAD_TIME for its second shot, under settings with one shot,
with no hunt or one whose level is below the detector level. -/
theorem witness_FeedersFollowTheirTarget_settings :
    ∀ h ∈ [none, some (huntIn .suspended)],
      let s := { (deadTime 1001).onFeeder .f1 fun x =>
        { x with
          ar := { x.ar with currentShot := some 2 }
          fire := some { applied := .l1, settingsPending := false, effective := part.effectiveFor .f1 .l1 } } with hunt := h }
      (s.feeder .f1).fire = some { applied := .l1, settingsPending := false, effective := part.effectiveFor .f1 .l1 } ∧
        (s.feeder .f1).ar.state = .deadTime ∧ (part.effectiveFor .f1 .l1).group.shots < 2 ∧ s.hunt = h ∧
        Level.l0.number < (detectorLevel s).number := by decide +kernel
/-- F1's commissioning record out of service in the edit of a port. -/
def editingIn (p : Port) (r : RecordName) (c : RecordContent) : State :=
  (partF1 fun x => openF1 { x with ar := .bare .openManual 0 }).onStore fun st => { st with edit := .editing p r c 2000 }
theorem witness_OwnerOpensFillsOrDiscardsTheEdit :
    (∀ s ∈ [part, editingIn .panel (.hunt .l0) (.hunt (defaultHunt .l0))],
      takesB .openEdit .network 0#8 (RecordName.group .f1 .l0).bytes s = true) ∧
    namedRecord (RecordName.group .f1 .l0).bytes = some (.group .f1 .l0) ∧ (RecordName.group .f1 .l0).editable = true ∧
    takesB .openEdit .network 0#8 RecordName.claims.bytes part = true ∧ RecordName.claims.editable = false ∧
    (editingIn .panel (.hunt .l0) (.hunt (defaultHunt .l0))).store.edit.owner = some .panel ∧ part.store.edit.owner = none := by
  decide +kernel
theorem witness_OwnerOpensFillsOrDiscardsTheEdit_owner :
    part.store.edit = .free ∧ (∀ s ∈ [part, editingIn .panel (.hunt .l0) (.hunt (defaultHunt .l0))],
      takesB .setField .panel 0#8 [1#8, 0#8, 0#8, 0#8, 50#8] s = true ∧ takesB .discardEdit .panel 0#8 [] s = true) ∧
    (editingIn .panel (.hunt .l0) (.hunt (defaultHunt .l0))).store.edit =
      .editing .panel (.hunt .l0) (.hunt (defaultHunt .l0)) 2000 := by decide +kernel
/-- A hunt record whose hysteresis is not below its pickup (R49): inconsistent. -/
def badHunt : HuntSettings := { defaultHunt .l0 with hysteresis := 100, vnPickup := 20 }
theorem witness_CommitMeetsItsChecks :
    (∀ s ∈ [editingIn .panel (.hunt .l0) (.hunt (defaultHunt .l0)), editingIn .panel (.hunt .l0) (.hunt badHunt),
        editingIn .panel (.group .f1 .l0) (.group (defaultGroup .l1)), editingIn .panel (.group .f3 .l0) (.group (defaultGroup .l1)),
        editingIn .panel (.commissioning .f2) (.commissioning (defaultCommissioning .f2)),
        storing fun st => { st with frozen := true, edit := .editing .panel (.hunt .l0) (.hunt badHunt) 2000 }],
      takesB .commitEdit .panel 0#8 [] s = true ∧ s.store.edit.owner = some .panel) ∧
    (RecordContent.hunt badHunt).consistent = false ∧ (RecordContent.hunt (defaultHunt .l0)).consistent = true ∧
    (RecordContent.group (defaultGroup .l1)).consistent = true ∧ outOfService part .f2 = false ∧
    (¬ mayEdit (editingIn .panel (.hunt .l0) (.hunt badHunt) |>.onStore fun st =>
      { st with protectMode := .fresh .networkOnly }) .panel) ∧
    mayEdit (editingIn .panel (.hunt .l0) (.hunt badHunt)) .panel ∧ part.fitted .f1 = true ∧
    (part.feeder .f3).fire = none ∧ loweringPending part .f1 = false ∧
    (part.feeder .f1).fire = some { applied := .l0, settingsPending := false, effective := part.effectiveFor .f1 .l0 } := by
  decide +kernel
/-- The part with F1's group at L0 naming the user curve U1, and U1 in the edit of the panel port; F1 quiescent or not. -/
def naming (ar : ArState) : State :=
  let g : Group := { defaultGroup .l0 with phase := { (defaultGroup .l0).phase with curve := .u1 } }
  (partF1 fun x => { x with ar := .bare ar 0 }).onStore fun st =>
    { st with
      groups := st.groups.set .f1 ((st.groups.get .f1).set .l0 (.fresh g))
      edit := .editing .panel (.userCurve .u1) (.userCurve (defaultCurve .u1)) 2000 }
theorem witness_CommitMeetsItsChecks_curve :
    takesB .commitEdit .panel 0#8 [] part = true ∧ part.store.edit = .free ∧
    (∀ ar ∈ [ArState.ready, .reclaim], takesB .commitEdit .panel 0#8 [] (naming ar) = true ∧
      (naming ar).store.edit = .editing .panel (.userCurve .u1) (.userCurve (defaultCurve .u1)) 2000 ∧
      (naming ar).store.frozen = false ∧ mayEdit (naming ar) .panel ∧
      (RecordContent.userCurve (defaultCurve .u1)).consistent = true ∧ (naming ar).fitted .f1 = true ∧
      ((naming ar).group .f1 .l0).phase.curve = .u1 ∧ ((naming ar).group .f2 .l0).phase.curve ≠ .u1 ∧
      ((naming ar).group .f2 .l0).earth.curve ≠ .u1 ∧ loweringPending (naming ar) .f1 = false ∧
      ((naming ar).feeder .f1).fire = some { applied := .l0, settingsPending := false, effective := part.effectiveFor .f1 .l0 }) ∧
    quiescent (naming .ready) .f1 = true ∧ quiescent (naming .reclaim) .f1 = false := by decide +kernel
/-- Hypotheses of CommitMeetsItsChecks at a commit of the applied level's group while a lowering waits, F1 quiescent or not. -/
theorem witness_CommitMeetsItsChecks_lowering :
    (∀ ar ∈ [ArState.ready, .reclaim],
      let s := (lowering ar).onStore fun st => { st with edit := .editing .panel (.group .f1 .l2) (.group (defaultGroup .l1)) 2000 }
      takesB .commitEdit .panel 0#8 [] s = true ∧ s.store.frozen = false ∧ mayEdit s .panel ∧ s.fitted .f1 = true ∧
        s.store.edit = .editing .panel (.group .f1 .l2) (.group (defaultGroup .l1)) 2000 ∧ loweringPending s .f1 = true ∧
        (s.feeder .f1).fire = some { applied := .l2, settingsPending := true, effective := part.effectiveFor .f1 .l2 }) ∧
      (RecordContent.group (defaultGroup .l1)).consistent = true ∧ quiescent (lowering .ready) .f1 = true ∧
      quiescent (lowering .reclaim) .f1 = false := by decide +kernel
theorem witness_CommissioningStartsTheFeeder :
    let c : Commissioning := { defaultCommissioning .f1 with fitted := true, district := .d2 }
    let s := editingIn .network (.commissioning .f1) (.commissioning c)
    takesB .commitEdit .network 0#8 [] s = true ∧ s.store.edit = .editing .network (.commissioning .f1) (.commissioning c) 2000 ∧
      s.store.frozen = false ∧ mayEdit s .network ∧ outOfService s .f1 = true := by decide +kernel
/-- A commit that fits F1 and one that unfits it, with every claim of R94, a port's lock, a NORECLOSE port claim and a hunt whose level the
detector level does or does not exceed. -/
theorem witness_CommissioningStartsTheFeeder_entries :
    ∀ fitted ∈ [true, false], ∀ h ∈ [none, some (huntIn .suspended)],
      let c : Commissioning := { defaultCommissioning .f1 with fitted := fitted }
      let s := { (editingIn .network (.commissioning .f1) (.commissioning c)).onFeeder .f1 fun x =>
        { x with
          lock := .port .panel 5000
          claims := { fire := true, hunt := true, measure := true, breaker := true, store := true } } with
        hunt := h, pool := [claimOf .noReclose .panel 0 none], districts := .of fun _ => { network := .l2, panel := .l0, target := .l2 } }
      takesB .commitEdit .network 0#8 [] s = true ∧ s.store.edit = .editing .network (.commissioning .f1) (.commissioning c) 2000 ∧
        s.store.frozen = false ∧ mayEdit s .network ∧ outOfService s .f1 = true ∧ (s.feeder .f1).ar.state ≠ .deadTime ∧
        (fitted = true → .l2 = detectorLevel (after (.commitEdit .network 0#8 []) s)) := by decide +kernel
theorem witness_FreezeAndProtectMode :
    takesB .freezeSettings .network 0#8 [] part = true ∧
      (∀ s ∈ [part, storing fun st => { st with frozen := true }],
        ∀ n ∈ [0#8, 2#8, 3#8, 255#8], takesB .setProtectMode .network 0#8 [n] s = true) ∧
      (2#8 : Byte).toNat < 3 ∧ 3 ≤ (3#8 : Byte).toNat ∧ part.store.frozen = false := by decide +kernel
/-- The part with its hunt record at L0 changed. -/
def enabling (identify trial : Bool) (s : State) : State :=
  s.onStore fun st =>
    { st with hunts := st.hunts.set .l0 (.fresh { defaultHunt .l0 with identifyEnable := identify, trialEnable := trial }) }
/-- The part with its detector UNRESOLVED and identify disabled: F1 and F2 fitted, or none. -/
def unresolved : State := enabling false true { part with detector := { state := .unresolved, amount := 9 } }
/-- The state of a hunt with F1 open, its lock held by the hunt. -/
def opened (h : HuntRun) : State := (hunting h).onFeeder .f1 fun x => openF1 { x with lock := .hunt }
/-- F1 as the identified feeder that the hunt opened, and as the one candidate. -/
def withIdentified (h : HuntRun) : HuntRun :=
  { h with identified := some { feeder := .f1, isolate := .opened, endRestore := none }, dropoutSeen := some false, locked := some .f1 }
def withCandidate (h : HuntRun) : HuntRun :=
  { h with candidates := some [{ feeder := .f1, outcome := .notTried }], current := some 0, locked := some .f1 }
/-- The first candidate is the one feeder that may be tried, or stands before F2. -/
theorem firstCandidate {s : State} {barred : Option Feeder} {f : Feeder} (hf : MayBeTried s barred f)
    (h : ∀ g ∈ Feeder.all, g ≠ f → s.fitted g = false ∨ barred = some g ∨
      (s.commissioning f).trialPriority < (s.commissioning g).trialPriority) : FirstCandidate s barred f := by
  refine ⟨hf, fun g hg hne => ?_⟩
  rcases h g (by cases g <;> decide) hne with h | h | h
  · exact absurd hg.1 (by simp [h])
  · exact absurd h hg.2.2.2.2.1
  · exact .inl h
theorem mayBeTried {s : State} {barred : Option Feeder} {f : Feeder}
    (h : s.fitted f = true ∧ (s.feeder f).position = .closed ∧ (s.feeder f).meas = .valid ∧ (s.commissioning f).huntExclude = false ∧
      barred ≠ some f ∧ 1 ≤ (s.commissioning f).trialPriority ∧ (s.commissioning f).trialPriority ≤ 6) : MayBeTried s barred f := h
/-- The part with its detector about to enter DETECTED, by the enables at L0. -/
def detecting (identify trial : Bool) : State := enabling identify trial { part with detector := { state := .timing, amount := 60000000 } }
/-- Hypotheses of FrameIsDiscardedOrAccepted at the entry to DETECTED by each enable, at a trial with and without a candidate, and at a
dropout. -/
theorem witness_FrameIsDiscardedOrAccepted_detector :
    (∀ identify trial, let s := detecting identify trial
      let set := s.huntSettings (detectorLevel s)
      s.hunt = none ∧ s.detector.state = .timing ∧ set.vnPickup ≤ 1000 ∧ set.detectTime * 1000 ≤ s.detector.amount + 5000 ∧
        set.identifyEnable = identify ∧ set.trialEnable = trial ∧ 0 < set.vnPickup - set.hysteresis) ∧
    FirstCandidate (detecting false true) none .f1 ∧ HuntMayTrip (detecting false true) .f1 ∧ RestoreFree (detecting false true) .f1 ∧
    (let s : State := { detecting false true with feeders := .of fun f => openF1 (part.feeder f) }
     s.hunt = none ∧ ∀ f, ¬ MayBeTried s none f) ∧
    (let s : State := { detecting true true with hunt := some (huntIn .suspended) }
     s.hunt ≠ none ∧ s.detector.state = .timing ∧ (s.huntSettings (detectorLevel s)).vnPickup ≤ 1000) := by
  refine ⟨by decide +kernel, firstCandidate (mayBeTried (by decide +kernel)) (by decide +kernel), mayTrip (by decide +kernel),
    restoreFree (by decide +kernel), ⟨by decide +kernel, fun f h => absurd h.2.1 ?_⟩, by decide +kernel⟩
  cases f <;> decide +kernel
theorem witness_StartHuntBeginsItsFirstStep :
    (takesB .startHunt .panel 0#8 [] (hunting (huntIn .confirm)) = true ∧ (hunting (huntIn .confirm)).hunt.isSome = true) ∧
    (takesB .startHunt .panel 0#8 [] part = true ∧ part.hunt = none ∧ part.detector.state = .quiet) ∧
    (let s : State := { part with detector := { state := .timing, amount := 1 } }
     takesB .startHunt .panel 0#8 [] s = true ∧ s.hunt = none ∧ s.link = .up ∧ s.detector.state ≠ .quiet ∧
       (s.huntSettings (detectorLevel s)).identifyEnable = true) ∧
    (takesB .startHunt .panel 0#8 [] unresolved = true ∧ unresolved.hunt = none ∧ unresolved.link = .up ∧
      unresolved.detector.state ≠ .quiet ∧ (unresolved.huntSettings (detectorLevel unresolved)).identifyEnable = false ∧
      (unresolved.huntSettings (detectorLevel unresolved)).trialEnable = true) ∧
    FirstCandidate unresolved none .f1 ∧ HuntMayTrip unresolved .f1 ∧ RestoreFree unresolved .f1 ∧
    (let s : State := { unresolved with feeders := .of fun f => openF1 (unresolved.feeder f) }
     takesB .startHunt .panel 0#8 [] s = true ∧ ∀ f, ¬ MayBeTried s none f) := by
  refine ⟨by decide +kernel, by decide +kernel, by decide +kernel, by decide +kernel,
    firstCandidate (mayBeTried (by decide +kernel)) (by decide +kernel), mayTrip (by decide +kernel), restoreFree (by decide +kernel),
    by decide +kernel, fun f h => absurd h.2.1 ?_⟩
  cases f <;> decide +kernel
theorem witness_SuspendAndResumeActByTheState :
    (∀ q ∈ [Request.suspendHunt, .resumeHunt], takesB q .network 0#8 [] part = true ∧
      ∀ h ∈ [huntIn .identify, huntIn .isolate, { huntIn .suspended with resume := some .identify },
          { huntIn .trialWatch with pendingSuspend := true }, { huntIn .confirm with pendingResult := some .abortedLink }],
        takesB q .network 0#8 [] (hunting h) = true ∧ (hunting h).hunt = some h ∧ h.state ≠ .idle) ∧
    (part.huntSettings .l0).identifyEnable = true ∧ (part.huntSettings .l0).trialEnable = true ∧
    (let s := hunting { huntIn .suspended with resume := some .trialEntry }
     FirstCandidate s (barredFeeder { huntIn .suspended with resume := some .trialEntry }) .f1 ∧ HuntMayTrip s .f1 ∧ RestoreFree s .f1) ∧
    (let h := { huntIn .suspended with resume := some .nextCandidate, candidates := some [⟨.f2, .stranded⟩, ⟨.f1, .notTried⟩] }
     takesB .resumeHunt .network 0#8 [] (hunting h) = true ∧ (h.candidates.getD [])[1]? = some ⟨.f1, .notTried⟩ ∧
       (h.candidates.getD [])[0]? = some ⟨.f2, .stranded⟩ ∧ HuntMayTrip (hunting h) .f1 ∧ RestoreFree (hunting h) .f1) := by
  refine ⟨by decide +kernel, by decide +kernel, by decide +kernel,
    ⟨firstCandidate (mayBeTried (by decide +kernel)) (by decide +kernel), mayTrip (by decide +kernel), restoreFree (by decide +kernel)⟩,
    by decide +kernel, by decide +kernel, by decide +kernel, mayTrip (by decide +kernel), restoreFree (by decide +kernel)⟩
theorem witness_AbortActsByTheState :
    takesB .abortHunt .network 0#8 [] part = true ∧
    (∀ h ∈ [huntIn .identify, huntIn .isolate, huntIn .trialOpen, huntIn .suspended, { huntIn .confirm with pendingResult := some .abortedLink }],
        takesB .abortHunt .network 0#8 [] (hunting h) = true ∧ (hunting h).hunt = some h ∧ h.state ≠ .idle) ∧
    NothingToRestore (huntIn .identify) ∧
    (∀ h ∈ [withCandidate (huntIn .trialWatch), withIdentified (huntIn .confirm)], takesB .abortHunt .network 0#8 [] (opened h) = true ∧
      (opened h).hunt = some h ∧ (opened h).fitted .f1 = true ∧ ((opened h).feeder .f1).lock = .hunt ∧
      ((opened h).feeder .f1).position = .opened) ∧
    HuntMayClose (opened (withCandidate (huntIn .trialWatch))) .f1 ∧ HuntMayClose (opened (withIdentified (huntIn .confirm))) .f1 :=
  ⟨by decide +kernel, by decide +kernel, ⟨rfl, by simp [huntIn]⟩, by decide +kernel, mayClose (by decide +kernel), mayClose (by decide +kernel)⟩
/-- A hunt in CONFIRM on F1, and one in TRIAL_WATCH with F1 its candidate, with a deadline. -/
def confirming (d : Nat) (suspend : Bool) : State :=
  opened { withIdentified (huntIn .confirm) with deadline := some d, pendingSuspend := suspend }
def watching (d : Nat) : State :=
  opened { withCandidate (huntIn .trialWatch) with deadline := some d, tripInWatch := some false }
theorem witness_HuntDeadlinesAct :
    (∀ d ∈ [1000, 1001], ∀ b ∈ [true, false], (confirming d b).phase = .running ∧
      ((confirming d b).hunt.map fun h => (h.state, h.deadline, h.identified)) =
        some (.confirm, some d, some { feeder := .f1, isolate := .opened, endRestore := none }) ∧
      ((confirming d b).hunt.map fun h => (h.pendingSuspend, h.pendingResult, h.current)) = some (b, none, none) ∧
      ((confirming d b).feeder .f1).lock = .hunt ∧ loweringPending (confirming d b) .f1 = false ∧ settingsPending (confirming d b) .f1 = false) ∧
    1000 ≤ (confirming 1000 true).partTime ∧ (confirming 1001 true).partTime < 1001 ∧
    ((confirming 1000 false).huntSettings .l0).trialEnable = true ∧
    FirstCandidate (confirming 1000 false) (some .f1) .f2 ∧ HuntMayTrip (confirming 1000 false) .f2 ∧
    RestoreFree (confirming 1000 false) .f2 ∧
    (let s := enabling true false (confirming 1000 false)
     (s.huntSettings .l0).trialEnable = false ∧ s.fitted .f1 = true ∧ (s.feeder .f1).position = .opened ∧ HuntMayClose s .f1) ∧
    (∀ d ∈ [1000, 1001], (watching d).phase = .running ∧
      ((watching d).hunt.map fun h => (h.state, h.deadline, h.current, h.candidates.getD [])) =
        some (.trialWatch, some d, some 0, [{ feeder := .f1, outcome := .notTried }])) ∧
    ((watching 1000).feeder .f1).lock = .hunt ∧ HuntMayClose (watching 1000) .f1 := by
  refine ⟨by decide +kernel, by decide +kernel, by decide +kernel, by decide +kernel,
    firstCandidate (mayBeTried (by decide +kernel)) (by decide +kernel), mayTrip (by decide +kernel), restoreFree (by decide +kernel),
    ⟨by decide +kernel, by decide +kernel, by decide +kernel, mayClose (by decide +kernel)⟩, by decide +kernel, by decide +kernel,
    mayClose (by decide +kernel)⟩
/-- A window of ten frames of which these are counted, with the sums of F1 and F2. -/
def counting (n f1 f2 : Nat) : State := hunting { huntIn .identify with window := some { window f1 f2 with counted := n } }
/-- A frame with no residual current, Vn at dropout. -/
def quietFrame : MeasFrame := 
  { sequence := 8, interval := 20000, vn := 80, busValid := true
    records := .of fun _ => { ia := 100, ib := 100, ic := 100, residual := 0, direction := .forward, valid := true, saturated := false } }
theorem witness_IdentifyWindowIsJudged :
    (∀ n ∈ [8, 9], ∀ x ∈ [(120, 340), (180, 340)],
      ((counting n x.1 x.2).hunt.map fun h => (h.state, h.window)) = some (.identify, some { window x.1 x.2 with counted := n }) ∧
      ((counting n x.1 x.2).huntSettings (detectorLevel (counting n x.1 x.2))).dropout ≤ quietFrame.vn) ∧
    (part.fitted .f2 = true ∧ (∀ g ∈ Feeder.all, (window 120 340).sums.get g ≤ 340 ∧ (g.number < 2 → (window 120 340).sums.get g < 340)) ∧
      (part.huntSettings .l0).identifyThreshold * 10 ≤ 340 ∧
      ∀ g ∈ Feeder.all, g ≠ .f2 → (part.huntSettings .l0).identifyRatio * (window 120 340).sums.get g ≤ 100 * 340) ∧
    ¬ (part.huntSettings .l0).identifyRatio * (window 180 340).sums.get .f1 ≤ 100 * 340 ∧
    HuntMayTrip (counting 9 120 340) .f2 ∧
    (∀ x ∈ [({ part.feeder .f2 with lock := .port .crew 2000 } : FeederState), openF1 (part.feeder .f2),
        { part.feeder .f2 with inFlight := some (flying .trip .protection) }],
      let s := (counting 9 120 340).onFeeder .f2 fun _ => x
      (x.position = .closed ∧ x.lock.heldByPort = true) ∨ x.position ≠ .closed ∨
        ((s.feeder .f2).inFlight = some (flying .trip .protection) ∧ (s.feeder .f2).lock.heldByPort = false)) :=
  ⟨by decide +kernel, by decide +kernel, by decide +kernel, mayTrip (by decide +kernel), by decide +kernel⟩
/-- The second largest of the sums of a window, and of one with no other sum. -/
theorem witness_IdentifyWindowIsJudged_second :
    (∀ g, part.fitted g = true → g ≠ .f2 → (window 120 340).sums.get g ≤ 120) ∧
      (part.fitted .f1 = true ∧ Feeder.f1 ≠ .f2 ∧ 120 = (window 120 340).sums.get .f1) ∧
      ∀ g, part.fitted g = true → g ≠ .f2 → (window 0 340).sums.get g ≤ 0 := by
  refine ⟨fun g h hg => ?_, by decide +kernel, fun g h hg => ?_⟩ <;> cases g <;> revert h hg <;> decide +kernel
/-- A hunt with an operation of its own on F1 in flight. -/
def operating (h : HuntRun) (kind : OpKind) : HuntRun := { h with op := some { id := 5, kind := kind, feeder := .f1 }, locked := some .f1 }
theorem witness_HuntTakesItsCompletions :
    (∀ h ∈ [operating (withIdentified (huntIn .isolate)) .trip, { operating (withIdentified (huntIn .isolate)) .trip with dropoutSeen := some true },
        { operating (withIdentified (huntIn .isolate)) .trip with pendingResult := some .abortedLink },
        operating (withCandidate (huntIn .trialOpen)) .trip,
        { operating (withCandidate (huntIn .trialOpen)) .trip with pendingResult := some .abortedLink },
        operating (withCandidate (huntIn .trialRestore)) .close, operating (withIdentified (huntIn .trialRestore)) .close],
      (opened h).hunt = some h ∧ h.op.isSome = true ∧ ((opened h).feeder .f1).lock = .hunt ∧ loweringPending (opened h) .f1 = false ∧ settingsPending (opened h) .f1 = false ∧
        ((opened h).feeder .f1).ar.state ≠ .deadTime) ∧
    HuntMayClose (opened { operating (withCandidate (huntIn .trialOpen)) .trip with pendingResult := some .abortedLink }) .f1 := by
  exact ⟨by decide +kernel, mayClose (by decide +kernel)⟩
/-- A trial on F1 with what its turn finds of F1. -/
def onTrial (x : FeederState → FeederState) : State :=
  (hunting { huntIn .trialRestore with candidates := some [⟨.f1, .notTried⟩] }).onFeeder .f1 x
theorem witness_TrialTakesItsCandidates :
    (∀ r ∈ [none, some HuntResult.abortedLink], ∀ b ∈ [true, false], ∀ e ∈ [true, false],
      let h := { huntIn .confirm with pendingResult := r, pendingSuspend := b }
      (enabling true e (hunting h)).hunt = some h ∧ ((enabling true e (hunting h)).huntSettings h.level).trialEnable = e) ∧
    ((onTrial id).hunt = some { huntIn .trialRestore with candidates := some [⟨.f1, .notTried⟩] } ∧
      ∀ c ∈ [(⟨.f1, .stranded⟩ : Candidate)], c.outcome ≠ .notTried) ∧
    ((onTrial fun x => { x with lock := .port .panel 2000 }).feeder .f1).lock.heldByPort = true ∧
    ((onTrial openF1).feeder .f1).position ≠ .closed ∧
    ¬ RestoreFree (onTrial fun x => { x with claims := { x.claims with measure := true } }) .f1 ∧
    (HuntMayTrip (onTrial id) .f1 ∧ RestoreFree (onTrial id) .f1) ∧
    (let s := onTrial fun x => { x with inFlight := some (flying .trip .protection) }
     (s.feeder .f1).lock.heldByPort = false ∧ s.fitted .f1 = true ∧ (s.feeder .f1).position = .closed ∧ RestoreFree s .f1 ∧
       (s.feeder .f1).inFlight = some (flying .trip .protection)) := by
  refine ⟨by decide +kernel, by decide +kernel, by decide +kernel, by decide +kernel, fun h => absurd h.1 (by decide +kernel),
    ⟨mayTrip (by decide +kernel), restoreFree (by decide +kernel)⟩, by decide +kernel, by decide +kernel, by decide +kernel,
    restoreFree (by decide +kernel), by decide +kernel⟩
theorem witness_DropoutActsByTheStep :
    (∀ d ∈ [DetectorState.timing, .detected, .unresolved], let s : State := { part with detector := { state := d, amount := 1 } }
      s.detector.state ≠ .quiet ∧ 79 < (s.huntSettings (detectorLevel s)).dropout) ∧
    (∀ st ∈ [HuntState.identify, .isolate, .trialOpen, .trialRestore, .suspended], (hunting (huntIn st)).hunt = some (huntIn st)) ∧
    (∀ h ∈ [withIdentified (huntIn .confirm), { withCandidate (huntIn .trialWatch) with tripInWatch := some true },
        { withCandidate (huntIn .trialWatch) with tripInWatch := some false }],
      (opened h).hunt = some h ∧ ((opened h).feeder .f1).lock = .hunt ∧ ((opened h).feeder .f1).position = .opened ∧
        loweringPending (opened h) .f1 = false ∧ settingsPending (opened h) .f1 = false ∧ ((opened h).feeder .f1).ar.state ≠ .deadTime ∧
        (((opened h).onFeeder .f1 fun x => { x with openContact := contact false }).feeder .f1).position ≠ .opened) := by
  decide +kernel
/-- A hunt with a pending result. -/
def ending (r : HuntResult) (h : HuntRun) : HuntRun := { h with pendingResult := some r }
theorem witness_HuntEndsWithItsRestores :
    (∀ h ∈ [ending .abortedLink (withCandidate (huntIn .trialWatch)), ending .notFound (withIdentified (huntIn .confirm))],
      (opened h).hunt = some h ∧ h.pendingResult ≠ some .foundIdentified ∧ ((opened h).feeder .f1).lock = .hunt ∧
        ((opened h).feeder .f1).position = .opened ∧ (opened h).fitted .f1 = true ∧ loweringPending (opened h) .f1 = false ∧ settingsPending (opened h) .f1 = false ∧
        (((opened h).onFeeder .f1 fun x => { x with positionFault := some .transit }).feeder .f1).positionFault ≠ none ∧
        (((opened h).onFeeder .f1 fun x => { x with openContact := contact false }).feeder .f1).position ≠ .opened ∧
        (((opened h).onFeeder .f1 fun x => { x with lock := .port .crew 2000 }).feeder .f1).lock.heldByPort = true) ∧
    HuntMayClose (opened (ending .abortedLink (withCandidate (huntIn .trialWatch)))) .f1 ∧
    (∀ r ∈ [HuntResult.notFound, .clearedSpontaneous], ∀ d ∈ [DetectorState.quiet, .detected, .unresolved], ∀ e ∈ [true, false],
      let s := enabling e true { hunting (ending r (huntIn .suspended)) with detector := { state := d, amount := 1 } }
      s.hunt = some (ending r (huntIn .suspended)) ∧ (s.huntSettings (detectorLevel s)).identifyEnable = e) ∧
    NothingToRestore (ending .notFound (huntIn .suspended)) := by
  exact ⟨by decide +kernel, mayClose (by decide +kernel), by decide +kernel, ⟨rfl, by simp [ending, huntIn]⟩⟩
theorem witness_ElementsMoveByTheirTables :
    curveAscends curveA = true ∧ ⟨32, 8000⟩ ∈ curveA ∧ (32 : Nat) ≤ 33 ∧ (curveA.head?.map (·.m)) = some 17 ∧
      (curveA.getLast?.map (·.m)) = some 320 ∧ ((partF1 fun x => { x with meas := .holding }).feeder .f1).meas ≠ .valid := by
  decide +kernel
/-- A record with a heavy current, and F1 with its high-set element about to operate. -/
def heavy : FeederRecord := readRecord (frame 8 20000 0 20000 0 0 1) .f1
def picked : State := partF1 fun x => { x with highSet := ⟨.pickedUp, 40000⟩ }
theorem witness_OperatedElementsTrip :
    (∀ o ∈ [none, some (flying .trip (.port .crew)), some (flying .trip .protection), some (flying .close .reclose),
        some (flying .close .hunt)],
      let s := picked.onFeeder .f1 fun x => { x with inFlight := o }
      (s.feeder .f1).meas = .valid ∧
        (s.feeder .f1).fire = some { applied := .l0, settingsPending := false, effective := part.effectiveFor .f1 .l0 } ∧
        (s.feeder .f1).inFlight = o ∧ (s.feeder .f1).position ≠ .opened ∧
        ((s.feeder .f1).element .highSet).state ≠ .operated ∧
        ((moveElements (part.effectiveFor .f1 .l0) 20000 heavy (s.feeder .f1)).element .highSet).state = .operated) ∧
    .hunt ∉ (flying .close .reclose).op.requesters ∧ .hunt ∈ (flying .close .hunt).op.requesters ∧
    ((picked.onFeeder .f1 openF1).feeder .f1).position = .opened ∧ ((picked.onFeeder .f1 openF1).feeder .f1).inFlight = none := by
  decide +kernel
/-- Hypotheses of ElementsMoveByTheirTables at a record of a VALID feeder: the high-set element operates, or none does. -/
theorem witness_ElementsMoveByTheirTables_record :
    (∀ s ∈ [picked, part], (s.feeder .f1).meas = .valid ∧
      (s.feeder .f1).fire = some { applied := .l0, settingsPending := false, effective := part.effectiveFor .f1 .l0 }) ∧
    (let y := moveElements (part.effectiveFor .f1 .l0) 20000 heavy (picked.feeder .f1)
     ((picked.feeder .f1).element .highSet).state ≠ .operated ∧ (y.element .highSet).state = .operated) ∧
    ∀ n : ElementName, ((moveElements (part.effectiveFor .f1 .l0) 20000 heavy (part.feeder .f1)).element n).state ≠ .operated := by
  refine ⟨by decide +kernel, by decide +kernel, fun n => ?_⟩
  cases n <;> decide +kernel
theorem witness_TransferSpellsItsRequest :
    (tooLong.drop 1).length = 64 ∧ 1 < (encodeRequest .setField 0#8 (tooLong.drop 1)).length ∧ Request.ofCode (0xEE#8 : Byte).toNat = none := by
  decide +kernel
theorem witness_part_sound :
    QueuesBounded part ∧ PoolSound part ∧ OpIdSound part ∧ StoreFits part.store ∧ LevelsSound part ∧ QuiescentSound part ∧
      EditEditable part.store.edit ∧ ∃ t, step { part with pending := [.trip .network 0x01#8 []] } = .next t := by
  refine ⟨fun p => by cases p <;> decide +kernel, ⟨by decide +kernel, List.Pairwise.nil⟩, by unfold OpIdSound; decide +kernel,
    ⟨trivial, fun w h => by revert h; simp [part, fit, State.onStore, State.onFeeder, State.reset, Store.manufactured]⟩, ⟨fun f => ?_, fun d => ?_⟩, fun f x hx => ?_, trivial, ⟨_, rfl⟩⟩
  · cases f
    · show _ ∧ _; exact ⟨by decide +kernel, by decide +kernel⟩
    · show _ ∧ _; exact ⟨by decide +kernel, by decide +kernel⟩
    all_goals show _ = false; decide +kernel
  · cases d <;> decide +kernel
  · cases f
    · obtain rfl : _ = x := Option.some.inj ((by decide +kernel : (part.feeder .f1).fire =
        some { applied := .l0, settingsPending := false, effective := part.effectiveFor .f1 .l0 }).symm.trans hx)
      decide +kernel
    · obtain rfl : _ = x := Option.some.inj ((by decide +kernel : (part.feeder .f2).fire =
        some { applied := .l0, settingsPending := false, effective := part.effectiveFor .f2 .l0 }).symm.trans hx)
      decide +kernel
    all_goals exact absurd hx (by simp [part, fit, State.feeder, State.onStore, State.onFeeder, State.reset, PerFeeder.get,
      PerFeeder.set, PerFeeder.of, FeederState.unfitted])
theorem witness_FreezeHoldsTheSettings :
    (storing fun st => { st with frozen := true }).store.frozen = true ∧ isStartUp (.discardEdit .panel 0#8 []) = false := by
  decide +kernel
theorem witness_CrewHoldIsReleasedByItsCrew :
    let c := claimOf .holdOpen .crew 9999 none
    c ∈ (holding [c]).pool ∧ c.kind = .holdOpen ∧ c.holder = .crew ∧
      isStartUp (.forceRelease .network Feeder.f1.byte (be1 1 ++ be1 3 ++ be2 9999)) = false := by decide +kernel
theorem witness_NoCloseAgainstAHold :
    let s := (partF1 fun x => openF1 { x with inFlight := some (flying .close (.port .panel)) }).onFeeder .f1 fun x =>
      { x with claims := { x.claims with store := true } }
    (s.feeder .f1).claims.store = true ∧ closeOutput (after (.identify .panel 0#8 []) s) .f1 = true := by decide +kernel
theorem witness_FeederCommandsTouchOneFeeder :
    part.hunt = none ∧ feederOf (.trip .network Feeder.f1.byte []) = some .f1 ∧ Feeder.f2 ≠ .f1 := by decide +kernel

end Sys2Proof.Tests
end

