-- ==== Sys2Proof/Proofs/StartUp.lean ====
section
/-! PROOFS. Start-up, the loss of power and RESET (R16, R17, R64 to R66, R84, R103, R190, R200): what the ending of writes, the loading of
the store and the entries of a start-up leave, and the statements about them. -/
namespace Sys2Proof.Machine

/-! ### Entries in turn -/

/-- Entries broadcast in turn change the queues and nothing else. -/
theorem foldl_broadcast (evs : List Event) (s : State) :
    evs.foldl (fun a e => broadcast e a) s = { s with queues := said evs s } := by
  induction evs using List.reverseRecOn with
  | nil => rfl
  | append_singleton evs e ih =>
    rw [List.foldl_append, ih, List.foldl_cons, List.foldl_nil]
    exact broadcast_after e evs rfl rfl rfl

/-- One more entry goes to the queues that the entries before it left. -/
theorem said_snoc (evs : List Event) (e : Event) (s : State) :
    said (evs ++ [e]) s = offeredAll (crewKeyActive s) s.partTime e (said evs s) := by
  rw [← said_append evs [e] (s := s) (t := { s with queues := said evs s }) rfl rfl rfl]
  show (broadcast e { s with queues := said evs s }).queues = _
  rw [broadcast_form]
  rfl

/-- At part time 0, on empty queues and with CREW_KEY unsettled, entries reach the network and panel queues alone (R199, R200). -/
theorem said_atStart (evs : List Event) {s : State} (hk : s.crewKey.level = none) (ht : s.partTime = 0)
    (hq : s.queues = .of fun _ => []) :
    said evs s = { network := offeredAtStart evs, panel := offeredAtStart evs, crew := [] } := by
  have hkey : crewKeyActive s = false := by simp [crewKeyActive, FilteredInput.reads, hk]
  induction evs using List.reverseRecOn with
  | nil => exact hq
  | append_singleton evs e ih =>
    rw [said_snoc, ih, hkey, ht]
    simp [offeredAll, offeredAtStart, List.foldl_append]

/-! ### Written copies -/

theorem sameWritten_refl (st : Store) (r : RecordName) : sameWritten st st r := by
  unfold sameWritten
  split <;> rfl

theorem sameWritten.trans {a b c : Store} {r : RecordName} (h : sameWritten a b r) (k : sameWritten b c r) :
    sameWritten a c r := by
  unfold sameWritten at *
  split <;> exact k.trans h

/-- A written copy that stays as it is stays torn. -/
theorem tornAt.stays {a b : Store} {r : RecordName} (h : tornAt a r) (k : sameWritten a b r) : tornAt b r := by
  unfold tornAt sameWritten at *
  split <;> exact k.trans h

/-- The record whose write is ended is torn (R64). -/
theorem tornAt_tear (r : RecordName) (st : Store) : tornAt (st.tear r) r := by
  cases r with
  | userCurve u => cases u <;> rfl
  | _ => simp [tornAt, Store.tear, Store.onNamed]

/-- The ending of a record's write leaves every other written copy (R64). -/
theorem sameWritten_tear {r k : RecordName} (h : k ≠ r) (st : Store) : sameWritten st (st.tear r) k := by
  cases r with
  | group f l =>
    cases k with
    | group g m =>
      by_cases hg : g = f
      · subst hg
        have hm : m ≠ l := fun e => h (by rw [e])
        simp [sameWritten, Store.tear, Store.onNamed, hm]
      · simp [sameWritten, Store.tear, Store.onNamed, hg]
    | userCurve u => cases u <;> rfl
    | _ => rfl
  | commissioning f =>
    cases k with
    | commissioning g =>
      have hg : g ≠ f := fun e => h (by rw [e])
      simp [sameWritten, Store.tear, Store.onNamed, hg]
    | userCurve u => cases u <;> rfl
    | _ => rfl
  | hunt l =>
    cases k with
    | hunt m =>
      have hm : m ≠ l := fun e => h (by rw [e])
      simp [sameWritten, Store.tear, Store.onNamed, hm]
    | userCurve u => cases u <;> rfl
    | _ => rfl
  | userCurve u =>
    cases k with
    | userCurve v => cases u <;> cases v <;> first | rfl | exact absurd rfl h
    | _ => cases u <;> rfl
  | seasonFloor d =>
    cases k with
    | seasonFloor e =>
      have he : e ≠ d := fun c => h (by rw [c])
      simp [sameWritten, Store.tear, Store.onNamed, he]
    | userCurve u => cases u <;> rfl
    | _ => rfl
  | banLevel d =>
    cases k with
    | banLevel e =>
      have he : e ≠ d := fun c => h (by rw [c])
      simp [sameWritten, Store.tear, Store.onNamed, he]
    | userCurve u => cases u <;> rfl
    | _ => rfl
  | protectMode =>
    cases k with
    | protectMode => exact absurd rfl h
    | userCurve u => cases u <;> rfl
    | _ => rfl
  | claims =>
    cases k with
    | claims => exact absurd rfl h
    | userCurve u => cases u <;> rfl
    | _ => rfl

/-- Every write ends (R64). -/
theorem writesEnded_endWrites (st : Store) : WritesEnded st st.endWrites := by
  refine ⟨fun w e rest hw hq => ?_, fun hw r => ?_, rfl, rfl⟩
  · have he : ∀ r, sameWritten (st.tear e.record) st.endWrites r := fun r => by
      simp only [Store.endWrites, hw, hq]
      cases r with
      | userCurve u => cases u <;> rfl
      | _ => rfl
    exact ⟨(tornAt_tear _ _).stays (he _), fun r hr => (sameWritten_tear hr st).trans (he r)⟩
  · simp only [Store.endWrites, hw]
    cases r with
    | userCurve u => cases u <;> rfl
    | _ => rfl

/-! ### Loading the store -/

@[simp] theorem Cell.load_written {α : Type} (ok : α → Bool) (dflt : α) (c : Cell α) : (c.load ok dflt).written = c.written := by
  unfold Cell.load
  split <;> rfl

/-- A record is loaded from its written copy, or takes its default with the mark (R44, R65). -/
theorem cellLoaded_load {α : Type} (ok : α → Bool) (dflt : α) (c : Cell α) : cellLoaded ok dflt (c.load ok dflt) := by
  unfold cellLoaded
  rw [Cell.load_written]
  cases hw : c.written with
  | torn => simp [Cell.load, Written.passing, hw]
  | intact v => cases hv : ok v <;> simp [Cell.load, Written.passing, hw, hv]

/-- Loading leaves every written copy as the ending of the writes left it (R65). -/
theorem sameWritten_loaded (st : Store) (r : RecordName) : sameWritten st.endWrites st.loaded r := by
  cases r with
  | userCurve u => cases u <;> simp [sameWritten, Store.loaded]
  | _ => simp [sameWritten, Store.loaded]

theorem writesEnded_loaded (st : Store) : WritesEnded st st.loaded := by
  have h := writesEnded_endWrites st
  refine ⟨fun w e rest hw hq => ?_, fun hw r => (h.kept hw r).trans (sameWritten_loaded st r), rfl, rfl⟩
  obtain ⟨torn, others⟩ := h.torn w e rest hw hq
  exact ⟨torn.stays (sameWritten_loaded st _), fun r hr => (others r hr).trans (sameWritten_loaded st r)⟩

/-- The claim record is defaulted unless its written list passes (R65, R103). -/
theorem claimsDefaulted_iff (c : Written (List PersistedClaim)) :
    (c.passing claimsSound).isNone = false ↔ ∃ cs, c = .intact cs ∧ claimsSound cs = true := by
  cases c with
  | torn => simp [Written.passing]
  | intact cs => cases h : claimsSound cs <;> simp [Written.passing, h]

theorem recordsLoaded_loaded (st : Store) : RecordsLoaded st.loaded where
  groups f l := by simp only [Store.loaded, PerFeeder.get_of, PerLevel.get_of]; exact cellLoaded_load groupPasses _ _
  commissioning f := by simpa [Store.loaded] using cellLoaded_load _ (defaultCommissioning f) _
  hunts l := by simp only [Store.loaded, PerLevel.get_of]; exact cellLoaded_load huntPasses _ _
  curves := ⟨cellLoaded_load curvePasses _ _, cellLoaded_load curvePasses _ _⟩
  floors d := by simpa [Store.loaded] using cellLoaded_load (fun _ => true) Level.l0 _
  bans d := by simpa [Store.loaded] using cellLoaded_load (fun _ => true) Level.l2 _
  protectMode := cellLoaded_load _ _ _
  claims := claimsDefaulted_iff _
  rest := ⟨rfl, rfl⟩

/-! ### Start-ups -/

/-- The start-up values are those of a start-up, the queues empty until its entries go (R200). -/
theorem startUp_form (cause : StartCause) (straps : BitVec 2) (s : State) :
    startUp cause straps s =
      { startValues cause straps s with
        queues := said (startEvents cause (startValues cause straps s)) (startValues cause straps s) } := by
  rw [← foldl_broadcast, startEvents, List.foldl_cons, List.foldl_map]
  simp only [startUp, broadcast_store]

/-- The crew port's bus address is the base with the straps in its low bits (R190). -/
theorem crewAddress_toNat (straps : BitVec 2) :
    (Config.crewAddressBase ||| straps.setWidth 7).toNat = 0x58 + straps.toNat := by
  revert straps
  decide

/-- A feeder after a start-up, fitted or unfitted (R17, R43, R84, R103, R122, R144). -/
theorem feederStarted {t : State} {f : Feeder} (h : t.feeder f = startFeeder t f) : FeederStarted t f := by
  cases hf : t.fitted f with
  | false =>
    have hx : t.feeder f = .unfitted := by rw [h, startFeeder, hf]; rfl
    constructor <;> rw [hx] <;> simp [FeederState.unfitted, FilteredInput.unsettled, Element.rest, SystemClaims.none, hf]
  | true =>
    constructor <;> rw [h] <;> simp [startFeeder, FeederState.unfitted, FilteredInput.unsettled, Element.rest, SystemClaims.none, hf]

/-- A start-up of any cause gives every block its start-up values, from any state. -/
theorem startedUp_startUp (cause : StartCause) (straps : BitVec 2) (s : State) :
    StartedUp cause straps s (startUp cause straps s) := by
  rw [startUp_form]
  have hq : said (startEvents cause (startValues cause straps s)) (startValues cause straps s) =
      { network := offeredAtStart (startEvents cause (startValues cause straps s))
        panel := offeredAtStart (startEvents cause (startValues cause straps s)), crew := [] } := said_atStart _ rfl rfl rfl
  rw [hq]
  exact
    { runs := ⟨rfl, rfl, rfl, rfl⟩
      address := ⟨rfl, crewAddress_toNat straps⟩
      link := ⟨rfl, rfl, rfl, rfl, rfl⟩
      inputs := ⟨rfl, rfl, rfl, rfl, rfl, rfl⟩
      writes := writesEnded_loaded s.store
      store := recordsLoaded_loaded s.store
      districts := fun d => PerDistrict.get_of _ d
      feeders := fun f => feederStarted (PerFeeder.get_of _ f)
      pool := rfl
      hunt := ⟨rfl, rfl, rfl⟩
      ports := fun p => PerPort.get_of _ p
      crewWrite := rfl
      queues := ⟨rfl, rfl, rfl⟩ }

/-- Of the state before it a start-up takes the store alone. -/
theorem StartedUp.ofStore {cause : StartCause} {straps : BitVec 2} {s s' t : State} (h : StartedUp cause straps s t)
    (hs : s.store = s'.store) : StartedUp cause straps s' t := { h with writes := hs ▸ h.writes }

/-- What the part holds while it does not run: the start-up values with every queue empty (R16, R64, R190, R200). -/
theorem atRest_startValues (cause : StartCause) (straps : BitVec 2) (s : State) (phase : Phase) :
    AtRest s { startValues cause straps s with phase := phase } where
  ports p := PerPort.get_of _ p
  queues p := PerPort.get_of _ p
  outputs f := by
    have h : ({ startValues cause straps s with phase := phase } : State).feeder f =
        startFeeder (startValues cause straps s) f := PerFeeder.get_of _ f
    have hi : (startFeeder (startValues cause straps s) f).inFlight = none := by
      unfold startFeeder
      split <;> rfl
    simp [tripOutput, closeOutput, h, hi]
  time := rfl
  hunt := rfl
  crewWrite := rfl
  writes := writesEnded_loaded s.store

end Sys2Proof.Machine

open Sys2Proof Sys2Proof.Machine

/-- Settles O3: each of the three commands comes to `startUp` with its cause. -/
theorem everyStartUpSetsEveryBlock : Obligations.EveryStartUpSetsEveryBlock := by
  refine ⟨fun straps s => ⟨_, rfl, startedUp_startUp _ _ _⟩, fun straps s hs => ?_, fun s hs => ?_⟩
  · have h : exec (.resetReleased straps) s = .next (startUp .reset straps s) := by
      show Host.Outcome.next (resetEnded straps s) = _
      rw [resetEnded, if_pos hs]
    exact ⟨_, h, startedUp_startUp _ _ _⟩
  · have h : exec (.restart .network 0#8 []) s = .next (startUp .restart s.strapPins (receive .network (listens .network s))) := by
      show Host.Outcome.next (takeRequest .restart .network 0#8 [] restartBody s) = _
      rw [((takes_listens _ _ .network _ _ _).2 hs).plain (.inl rfl)]
      rfl
    exact ⟨_, h, (startedUp_startUp _ _ _).ofStore rfl⟩

/-- Settles O5: a part that loses power or is held by RESET holds the start-up values of every block. -/
theorem powerLossAndResetEndWrites : Obligations.PowerLossAndResetEndWrites := by
  refine fun s => ⟨⟨_, rfl, rfl, atRest_startValues _ _ _ _⟩, fun hs => ?_⟩
  have h : exec .resetAsserted s = .next { startValues .reset s.strapPins s with phase := .held } := by
    show Host.Outcome.next (resetHeld s) = _
    rw [resetHeld, if_neg hs]
  exact ⟨_, h, rfl, atRest_startValues _ _ _ _⟩

/-- Settles O4: `State.reset` is what a power-on makes of it, and no feeder of it is fitted or has a fire state. -/
theorem resetStateIsSound : Obligations.ResetStateIsSound := by
  have started : StartedUp .powerOn 0#2 State.reset State.reset := by
    have h : startUp .powerOn 0#2 State.reset = State.reset := by decide +kernel
    exact h ▸ startedUp_startUp .powerOn 0#2 State.reset
  have unfitted : ∀ f, State.reset.fitted f = false := fun f => by cases f <;> rfl
  have noFire : ∀ f, (State.reset.feeder f).fire = none := fun f => by cases f <;> rfl
  refine ⟨started, unfitted, fun p => by cases p <;> decide, ⟨Nat.zero_le _, List.Pairwise.nil⟩, by unfold OpIdSound; decide,
    ⟨fun f => ?_, fun d => by cases d <;> decide⟩, fun f x hx => ?_, ⟨trivial, fun w hw => nomatch hw⟩, trivial⟩
  · simp only [FeederLevelsSound, noFire, unfitted]
  · exact nomatch (noFire f).symm.trans hx

end

