-- ==== Sys2Proof/Proofs/Idle.lean ====
section
/-! PROOFS. What an idle step queues (log 2), and the part held by RESET or without power (R16, R190). -/
namespace Sys2Proof.Machine

/-! ### The commands that an idle step queues -/

theorem mem_dueWhen (due : Bool) (c d : Instr) : c ∈ dueWhen due d ↔ due = true ∧ c = d := by
  cases due <;> simp [dueWhen]

theorem reached_iff (s : State) (deadline : Option Nat) : reached s deadline = true ↔ ∃ d, deadline = some d ∧ d ≤ s.partTime := by
  cases deadline <;> simp [reached]

theorem operationReached_iff (s : State) (f : Feeder) (kind : OpKind) :
    operationReached s f kind = true ↔ ∃ y, (s.feeder f).inFlight = some y ∧ y.op.kind = kind ∧ y.deadline ≤ s.partTime := by
  unfold operationReached
  cases (s.feeder f).inFlight <;> simp

theorem lockLease_iff (l : Lock) (now : Nat) : (∃ d, l.lease = some d ∧ d ≤ now) ↔ ∃ p d, l = .port p d ∧ d ≤ now := by
  cases l <;> simp [Lock.lease]

theorem editReached_iff (s : State) :
    editReached s = true ↔ ∃ p r c d, s.store.edit = .editing p r c d ∧ d ≤ s.partTime := by
  unfold editReached
  cases s.store.edit <;> simp

/-- The deadlines of a feeder, each with its command. -/
theorem mem_dueOfFeeder (s : State) (f : Feeder) (c : Instr) :
    c ∈ dueOfFeeder s f ↔
      (reached s (s.feeder f).invalidTimer = true ∧ c = .invalidTimerExpiry f) ∨
      (reached s (s.feeder f).transitTimer = true ∧ c = .transitTimerExpiry f) ∨
      (operationReached s f .trip = true ∧ c = .tripDeadline f) ∨ (operationReached s f .close = true ∧ c = .closeDeadline f) ∨
      (reached s (s.feeder f).ar.deadline = true ∧ c = .deadTimeExpiry f) ∨
      (reached s (s.feeder f).ar.reclaim = true ∧ c = .reclaimExpiry f) ∨
      (reached s (s.feeder f).lock.lease = true ∧ c = .lockLeaseExpiry f) := by
  simp only [dueOfFeeder, List.mem_append, mem_dueWhen, or_assoc]

theorem mem_dueOfHunt (s : State) (c : Instr) :
    c ∈ dueOfHunt s ↔ ∃ h, s.hunt = some h ∧
      ((h.state = .confirm ∧ reached s h.deadline = true ∧ c = .confirmExpiry) ∨
       (h.state = .trialWatch ∧ reached s h.deadline = true ∧ c = .trialWatchExpiry)) := by
  unfold dueOfHunt
  cases s.hunt <;> simp [mem_dueWhen, and_assoc, and_left_comm]

/-- The command of a claim's expiry: it names the tag for holder CREW alone (section 5.2). -/
def expiryOf (c : PortClaim) : Instr := .claimExpiry c.feeder c.holder (if c.holder = .crew then c.tag else 0)

theorem mem_dueOfClaims (s : State) (c : Instr) :
    c ∈ dueOfClaims s ↔ ∃ k, (k ∈ s.pool ∧ k.kind = .noReclose ∧ reached s k.expiry = true) ∧ expiryOf k = c := by
  have tag : ∀ k : PortClaim, k.shownTag.getD 0 = if k.holder = .crew then k.tag else 0 := fun k => by
    unfold PortClaim.shownTag
    split <;> rfl
  simp [dueOfClaims, expiryOf, tag]

theorem mem_dueOfStore (s : State) (c : Instr) :
    c ∈ dueOfStore s ↔
      (s.store.writing = none ∧ s.store.queue ≠ [] ∧ c = .storeWriteBegins) ∨
      ∃ w e rest, s.store.writing = some w ∧ s.store.queue = e :: rest ∧
        w.began + (if e.record = .claims then 50 else 400) ≤ s.partTime ∧ c = .storeWriteComplete := by
  unfold dueOfStore
  cases s.store.writing with
  | none => cases s.store.queue <;> simp
  | some w =>
    cases s.store.queue with
    | nil => simp
    | cons e rest =>
      rw [mem_dueWhen, decide_eq_true_eq]
      refine ⟨fun ⟨h, hc⟩ => .inr ⟨w, e, rest, rfl, rfl, h, hc⟩, fun h => ?_⟩
      rcases h with ⟨hw, -⟩ | ⟨_, _, _, hw, hq, h, hc⟩
      · exact nomatch hw
      · cases hw; cases hq; exact ⟨h, hc⟩

/-- The commands of the deadlines that the part time has reached, and no other. -/
theorem mem_dueCommands (s : State) (c : Instr) :
    c ∈ dueCommands s ↔
      (reached s s.linkDeadline = true ∧ c = .linkLossDeadline) ∨ (∃ f, c ∈ dueOfFeeder s f) ∨ c ∈ dueOfHunt s ∨
      (editReached s = true ∧ c = .editLeaseExpiry) ∨ c ∈ dueOfClaims s ∨
      (reached s (s.crewWrite.map (·.stall)) = true ∧ c = .crewStall .underWay) ∨ c ∈ dueOfStore s := by
  have all : ∀ f, f ∈ Feeder.all := fun f => by cases f <;> decide
  simp only [dueCommands, dueOfCrew, List.mem_append, mem_dueWhen, List.mem_flatMap, all, true_and, or_assoc]

/-- Each deadline that the part time has reached, with its command, said out. -/
theorem mem_dueCommands_iff (s : State) (c : Instr) :
    c ∈ dueCommands s ↔
      (reached s s.linkDeadline = true ∧ c = .linkLossDeadline) ∨
      (∃ f,
        (reached s (s.feeder f).invalidTimer = true ∧ c = .invalidTimerExpiry f) ∨
        (reached s (s.feeder f).transitTimer = true ∧ c = .transitTimerExpiry f) ∨
        (operationReached s f .trip = true ∧ c = .tripDeadline f) ∨ (operationReached s f .close = true ∧ c = .closeDeadline f) ∨
        (reached s (s.feeder f).ar.deadline = true ∧ c = .deadTimeExpiry f) ∨
        (reached s (s.feeder f).ar.reclaim = true ∧ c = .reclaimExpiry f) ∨
        (reached s (s.feeder f).lock.lease = true ∧ c = .lockLeaseExpiry f)) ∨
      (∃ h, s.hunt = some h ∧
        ((h.state = .confirm ∧ reached s h.deadline = true ∧ c = .confirmExpiry) ∨
         (h.state = .trialWatch ∧ reached s h.deadline = true ∧ c = .trialWatchExpiry))) ∨
      (editReached s = true ∧ c = .editLeaseExpiry) ∨
      (∃ k, (k ∈ s.pool ∧ k.kind = .noReclose ∧ reached s k.expiry = true) ∧ expiryOf k = c) ∨
      (reached s (s.crewWrite.map (·.stall)) = true ∧ c = .crewStall .underWay) ∨
      (s.store.writing = none ∧ s.store.queue ≠ [] ∧ c = .storeWriteBegins) ∨
      ∃ w e rest, s.store.writing = some w ∧ s.store.queue = e :: rest ∧
        w.began + (if e.record = .claims then 50 else 400) ≤ s.partTime ∧ c = .storeWriteComplete := by
  simp only [mem_dueCommands, mem_dueOfFeeder, mem_dueOfHunt, mem_dueOfClaims, mem_dueOfStore]

end Sys2Proof.Machine

open Sys2Proof Sys2Proof.Machine

/-- Settles O1: the commands of an idle step are the members of `dueCommands` at the new part time, said out. -/
theorem stepRunsTheFrontCommandOrIdles : Obligations.StepRunsTheFrontCommandOrIdles := by
  refine ⟨fun c s => rfl, fun s hs => ⟨fun hp => ?_, fun hp => ?_⟩⟩
  · simp only [step, hs, tick, if_neg hp]
  · intro due op expires of
    have stepped : step s = .next
        { s with partTime := s.partTime + 1, pending := dueCommands { s with partTime := s.partTime + 1 } } := by
      simp only [step, hs, tick, if_pos hp]
    have now : ∀ deadline, reached { s with partTime := s.partTime + 1 } deadline = true ↔ due deadline :=
      fun deadline => reached_iff _ deadline
    have ops : ∀ f kind, operationReached { s with partTime := s.partTime + 1 } f kind = true ↔ op f kind :=
      fun f kind => operationReached_iff _ f kind
    have edit := editReached_iff { s with partTime := s.partTime + 1 }
    have lease : ∀ l : Lock, due l.lease ↔ ∃ p d, l = .port p d ∧ d ≤ s.partTime + 1 := fun l => lockLease_iff l _
    have stall : due (s.crewWrite.map (·.stall)) ↔ ∃ w, s.crewWrite = some w ∧ w.stall ≤ s.partTime + 1 := by
      cases h : s.crewWrite <;> simp [due]
    have feeder : ∀ f, ({ s with partTime := s.partTime + 1 } : State).feeder f = s.feeder f := fun f => rfl
    have mem := mem_dueCommands_iff { s with partTime := s.partTime + 1 }
    simp only [now, ops, edit, feeder, lease, stall] at mem
    refine ⟨_, stepped, ?_⟩
    generalize dueCommands _ = q at mem
    refine ⟨?_, fun f => ⟨?_, ?_, ?_, ?_, ?_, ?_, ?_⟩, ?_, ?_, ?_, fun f p tag => ?_, ?_, ?_, ?_, fun c hc => ?_⟩
    on_goal 16 =>
      rcases (mem c).1 hc with ⟨-, rfl⟩ | ⟨f, hf⟩ | ⟨h, -, hh⟩ | ⟨-, rfl⟩ | ⟨k, hk, rfl⟩ | ⟨-, rfl⟩ | ⟨-, -, rfl⟩ |
        ⟨w, e, rest, -, -, -, rfl⟩
      · exact .inl (by simp)
      · refine .inr (.inl ⟨f, ?_⟩)
        rcases hf with ⟨-, rfl⟩ | ⟨-, rfl⟩ | ⟨-, rfl⟩ | ⟨-, rfl⟩ | ⟨-, rfl⟩ | ⟨-, rfl⟩ | ⟨-, rfl⟩ <;> simp
      · exact .inl (by rcases hh with ⟨-, -, rfl⟩ | ⟨-, -, rfl⟩ <;> simp)
      · exact .inl (by simp)
      · exact .inr (.inr ⟨k, hk, rfl⟩)
      all_goals exact .inl (by simp)
    all_goals simp [mem, expiryOf, of, expires]
end

