-- ==== Sys2Proof/Proofs/Held.lean ====
section
/-! PROOFS. The three shapes of a command other than power and RESET, and the part that does not run (R16, R190). -/
namespace Sys2Proof.Machine

/-! ### Requests as commands -/

theorem requestOf_command (q : Request) (p : Port) (target : Byte) (payload : List Byte) :
    requestOf (q.command p target payload) = some q := by
  cases q <;> rfl

theorem command_of_requestOf {i : Instr} {q : Request} (h : requestOf i = some q) :
    ∃ p target payload, i = q.command p target payload := by
  cases i <;> cases h <;> exact ⟨_, _, _, rfl⟩

/-- A request arrives at one port. -/
theorem command_port {q r : Request} {p p' : Port} {target target' : Byte} {payload payload' : List Byte}
    (h : q.command p target payload = r.command p' target' payload') : p = p' := by
  have hq : some q = some r := by rw [← requestOf_command q p target payload, h, requestOf_command]
  cases hq
  cases q <;> cases h <;> rfl

theorem listensAt_command (q : Request) (p r : Port) (target : Byte) (payload : List Byte) :
    ListensAt r (q.command p target payload) ↔ r = p := by
  constructor
  · intro h
    have other : ∀ i, requestOf i = none → q.command p target payload ≠ i := fun i hi e => by
      rw [← e, requestOf_command] at hi
      cases hi
    rcases h with h | h | h | h | h | ⟨_, _, h, -⟩ | ⟨-, h | h⟩ | ⟨_, _, _, h⟩
    iterate 8 exact absurd h (other _ rfl)
    exact (command_port h).symm
  · rintro rfl
    exact .inr (.inr (.inr (.inr (.inr (.inr (.inr ⟨q, target, payload, rfl⟩))))))

/-- A command that is no request is a transfer at a port in these rows alone. -/
theorem listensAt_iff {i : Instr} (h : requestOf i = none) (p : Port) :
    ListensAt p i ↔
      i = .requestFrameBegins p ∨ i = .frameEndedEarly p ∨ i = .collidedFrame p ∨ i = .badFrame p ∨ i = .unknownRequest p ∨
        (∃ q type, i = .badTransferType q type ∧ q.port = p) ∨
        (p = .crew ∧ (i = .crewStall .writeAfterByte ∨ i = .crewStall .writeAfterAddress)) := by
  have hc : ¬ ∃ (q : Request) (target : Byte) (payload : List Byte), i = q.command p target payload := by
    rintro ⟨q, target, payload, rfl⟩
    rw [requestOf_command] at h
    cases h
  simp only [ListensAt, hc, or_false]

/-! ### The shapes of a command -/

/-- What a command other than power and RESET is: an act of the running part, a transfer at a port, or a fetch. -/
inductive Acts : Instr → Prop where
  | running (i : Instr) (act : State → State) (silent : ∀ p, ¬ ListensAt p i) (noFetch : isFetch i = false)
      (meaning : ∀ s, exec i s = .next (whileRunning act s)) : Acts i
  | transfer (i : Instr) (p : Port) (act : State → State) (listens : ∀ r, ListensAt r i ↔ r = p) (noFetch : isFetch i = false)
      (meaning : ∀ s, exec i s = .next (transfer p act s)) : Acts i
  | fetch (p : Port) (n : Nat) : Acts (.fetch p n)

theorem acts_command (q : Request) (p : Port) (target : Byte) (payload : List Byte) : Acts (q.command p target payload) := by
  have noFetch : isFetch (q.command p target payload) = false := by cases q <;> rfl
  cases q <;> exact .transfer _ p _ (fun r => listensAt_command _ p r target payload) noFetch fun _ => rfl

theorem acts_of_noRequest {i : Instr} (hi : isStartUp i = false) (h : requestOf i = none) : Acts i := by
  have hl := listensAt_iff h
  cases i with
  | powerOn _ => cases hi
  | powerLoss => cases hi
  | resetAsserted => cases hi
  | resetReleased _ => cases hi
  | fetch p n => exact .fetch p n
  | badTransferType q type => exact .transfer _ q.port _ (fun r => by simp [hl, eq_comm]) rfl fun _ => rfl
  | frameEndedEarly p => exact .transfer _ p _ (fun r => by simp [hl, eq_comm]) rfl fun _ => rfl
  | collidedFrame p => exact .transfer _ p _ (fun r => by simp [hl, eq_comm]) rfl fun _ => rfl
  | badFrame p => exact .transfer _ p _ (fun r => by simp [hl, eq_comm]) rfl fun _ => rfl
  | unknownRequest p => exact .transfer _ p _ (fun r => by simp [hl, eq_comm]) rfl fun _ => rfl
  | requestFrameBegins p => exact .transfer _ p _ (fun r => by simp [hl, eq_comm]) rfl fun _ => rfl
  | crewStall point =>
    cases point with
    | underWay => exact .running _ stallDue (fun p => by simp [hl]) rfl fun _ => rfl
    | read => exact .running _ id (fun p => by simp [hl]) rfl fun s => by simp [whileRunning]; rfl
    | writeAfterAddress => exact .transfer _ .crew _ (fun r => by simp [hl]) rfl fun _ => rfl
    | writeAfterByte => exact .transfer _ .crew _ (fun r => by simp [hl]) rfl fun _ => rfl
  | _ => first | exact .running _ _ (fun p => by simp [hl]) rfl fun _ => rfl | exact nomatch h

/-- Every command but a power or RESET event acts in one of the three shapes. -/
theorem acts_of (i : Instr) (hi : isStartUp i = false ∨ ∃ p target payload, i = .restart p target payload) : Acts i := by
  cases hq : requestOf i with
  | some q =>
    obtain ⟨p, target, payload, rfl⟩ := command_of_requestOf hq
    exact acts_command q p target payload
  | none =>
    refine acts_of_noRequest (hi.resolve_right ?_) hq
    rintro ⟨p, target, payload, rfl⟩
    cases hq

theorem idleLine_eq (p : Port) : idleLine p = if p = .crew then .bytes [] else .allOnes := by cases p <;> rfl

/-- Held by RESET a serial port sends 0xFF in a fetch, and the crew port nothing (R190). -/
theorem unanswered_held {s : State} (h : s.phase = .held) (p : Port) (n : Nat) :
    unanswered s p n = if p = .crew then [] else List.replicate n 0xFF#8 := by
  cases p <;> simp [unanswered, reaches, crewAcknowledges, h, notReady]

end Sys2Proof.Machine

open Sys2Proof Sys2Proof.Machine

/-- Settles O6, by the three shapes of a command. -/
theorem heldPartChangesNothing : Obligations.HeldPartChangesNothing := by
  intro i s hi
  cases acts_of i hi with
  | running _ act silent noFetch meaning =>
    have still : s.phase ≠ .running → exec i s = .next s := fun h => by rw [meaning, whileRunning, if_neg h]
    refine ⟨fun h => still (by simp [h]), fun h => ⟨fun p hp => absurd hp (silent p), fun p n e => ?_, fun _ _ => still (by simp [h])⟩⟩
    rw [e] at noFetch
    cases noFetch
  | transfer _ p act listens noFetch meaning =>
    refine ⟨fun h => by rw [meaning, transfer_off p act h], fun h => ⟨fun r hr => ?_, fun r n e => ?_, fun hn _ => ?_⟩⟩
    · rw [(listens r).1 hr, meaning, transfer_held p act h, sends, idleLine_eq]
    · rw [e] at noFetch
      cases noFetch
    · exact absurd ((listens p).2 rfl) (hn p)
  | fetch p n =>
    have meaning : exec (.fetch p n) s = .next (fetchAt p n s) := rfl
    refine ⟨fun h => by rw [meaning, fetchAt, h], fun h => ⟨fun r hr => ?_, fun r k e => ?_, fun _ hf => nomatch hf⟩⟩
    · rw [listensAt_iff rfl] at hr
      simp at hr
    · cases e
      have held : fetchAt p n s = sends p (.bytes (unanswered s p n)) s := by rw [fetchAt, h]
      rw [meaning, held, unanswered_held h, sends]

end

