-- ==== Sys2Proof/Proofs/Claims.lean ====
section
/-! PROOFS. System claims and port claims as they enter and leave a block set, in a dead time and out of it (R87, R95, R100, R129), and
the position faults that place the BREAKER claim (R12, R13). -/
namespace Sys2Proof.Machine

/-! ### Claims that enter and leave -/

/-- Out of a dead time the sequencer takes no notice of a claim's entry (R129). -/
theorem claimEntered_other {f : Feeder} {s : State} (h : (s.feeder f).ar.state ≠ .deadTime) (claim : ClaimInfo) :
    claimEntered f claim s = broadcast (.claimPlaced f claim) s := by
  simp [claimEntered, seqClaimEntry, h]

theorem setSystemClaim_true {f : Feeder} {s : State} (h : (s.feeder f).ar.state ≠ .deadTime) (n : SystemClaim) :
    setSystemClaim f n true s = withClaim n f s := by
  unfold setSystemClaim withClaim
  simp only [if_true]
  rw [claimEntered_other (by simpa using h)]

theorem setSystemClaim_false (f : Feeder) (n : SystemClaim) (s : State) : setSystemClaim f n false s = withoutClaim n f s := by
  unfold setSystemClaim withoutClaim claimLeft
  cases (s.feeder f).claims.has n <;> rfl

/-- An act that leaves the sequencer's state is not judged (R76, R124). -/
theorem judged_same {f : Feeder} {act : State → State} {s : State}
    (h : ((act s).feeder f).ar.state = (s.feeder f).ar.state) : judged f act s = act s := by
  simp [judged, h]

/-- With nothing pending after it, an act's judgement does nothing (R76). -/
theorem judged_nothing {f : Feeder} {act : State → State} {s : State} (h : NothingPending (act s) f) :
    judged f act s = act s := by
  unfold judged
  simp only [judge_nothing h, ite_self]

@[simp] theorem withClaim_ar (n : SystemClaim) (f g : Feeder) (s : State) :
    ((withClaim n f s).feeder g).ar = (s.feeder g).ar := by
  unfold withClaim
  split
  · rfl
  · by_cases h : g = f
    · subst h; simp
    · simp [h]

theorem placeSystemClaim_other {f : Feeder} {s : State} (h : (s.feeder f).ar.state ≠ .deadTime) (n : SystemClaim) :
    placeSystemClaim f n s = withClaim n f s := by
  rw [placeSystemClaim, judged_same] <;> rw [setSystemClaim_true h]
  rw [withClaim_ar]

/-- A claim's entry changes neither what waits for the feeder nor its levels. -/
theorem NothingPending.claimEntered {f : Feeder} {s : State} (h : NothingPending s f) (hd : (s.feeder f).ar.state = .deadTime)
    (claim : ClaimInfo) : NothingPending (claimEntered f claim s) f := by
  rw [claimEntered_deadTime hd]
  exact h.congr (by simp) (by simp) (by simp)

/-- A system claim that enters in a dead time ends it (R95, R129). -/
theorem setSystemClaim_deadTime {f : Feeder} {n : SystemClaim} {s : State} (ha : (s.feeder f).claims.has n = false) :
    setSystemClaim f n true s =
      claimEntered f (.system n) (s.onFeeder f fun x => { x with claims := x.claims.put n true }) := by
  simp [setSystemClaim, ha]

theorem placeSystemClaim_deadTime {f : Feeder} {n : SystemClaim} {s : State} (hd : (s.feeder f).ar.state = .deadTime)
    (ha : (s.feeder f).claims.has n = false) (hn : NothingPending s f) :
    placeSystemClaim f n s =
      claimEntered f (.system n) (s.onFeeder f fun x => { x with claims := x.claims.put n true }) := by
  rw [placeSystemClaim, judged_nothing] <;> rw [setSystemClaim_deadTime ha]
  exact (hn.congr (by simp) (by simp) (by simp)).claimEntered (by simpa using hd) _

/-! ### Position faults -/

theorem reached_some (s : State) (d : Nat) : reached s (some d) = true ↔ d ≤ s.partTime := by simp [reached]

/-- The invalid timer at or before its deadline, the position standing (R12). -/
theorem exec_invalidTimerExpiry {f : Feeder} {s : State} {d : Nat} (hr : s.phase = .running) (hf : s.fitted f = true)
    (hd : (s.feeder f).invalidTimer = some d) (hp : (s.feeder f).position = .invalid) :
    exec (.invalidTimerExpiry f) s = .next (if d ≤ s.partTime then declareFault f .invalid s else s) := by
  show Host.Outcome.next (whileRunning (invalidTimerDue f) s) = _
  simp only [whileRunning, hr, if_true, invalidTimerDue, hf, hd, hp, reached_some, true_and, and_true]

/-- The transit timer at or before its deadline, the position standing with nothing in flight (R13). -/
theorem exec_transitTimerExpiry {f : Feeder} {s : State} {d : Nat} (hr : s.phase = .running) (hf : s.fitted f = true)
    (hd : (s.feeder f).transitTimer = some d) (hp : (s.feeder f).position = .transit) (hi : (s.feeder f).inFlight = none) :
    exec (.transitTimerExpiry f) s = .next (if d ≤ s.partTime then declareFault f .transit s else s) := by
  show Host.Outcome.next (whileRunning (transitTimerDue f) s) = _
  simp only [whileRunning, hr, if_true, transitTimerDue, hf, hd, hp, hi, reached_some, true_and, and_true]

theorem declareFault_invalid (f : Feeder) (s : State) :
    declareFault f .invalid s = broadcast (.positionFault f .invalid)
      (placeSystemClaim f .breaker (s.onFeeder f fun x => { x with invalidTimer := none, positionFault := some .invalid })) := rfl

theorem declareFault_transit (f : Feeder) (s : State) :
    declareFault f .transit s = broadcast (.positionFault f .transit)
      (placeSystemClaim f .breaker (s.onFeeder f fun x => { x with transitTimer := none, positionFault := some .transit })) := rfl

/-! ### PLACE_CLAIM -/

/-- The payload of a PLACE_CLAIM within its ranges is read back as it was laid out (R87, R192). -/
theorem claimOrder_claimPayload {p : Port} {k : ClaimKind} {reason tag : Nat} {expiry : Option Nat} (hr : reason < 256)
    (ht : p.tagFits tag = true) (he : ∀ e, expiry = some e → k = .noReclose ∧ 60 ≤ e ∧ e ≤ 86400) :
    claimOrder p (claimPayload k reason tag expiry) = some { kind := k, reason := reason, tag := tag, expiry := expiry } := by
  have htag : tag < 65536 ∧ tagInRange p tag = true := by
    cases p <;> simp [Port.tagFits, tagInRange, within] at ht ⊢ <;> omega
  have hkind : ClaimKind.ofCode (numberAt (claimPayload k reason tag expiry) 0 1) = some k := by cases k <;> rfl
  have hreason : numberAt (claimPayload k reason tag expiry) 1 1 = reason := by
    simp [numberAt, claimPayload, be1, readNumber]; omega
  have hnumber : numberAt (claimPayload k reason tag expiry) 2 2 = tag := by
    simp [numberAt, claimPayload, be1, be2, readNumber]; omega
  have hexpiry : orderedExpiry (claimPayload k reason tag expiry) = expiry := by
    cases expiry with
    | none => rfl
    | some e =>
      have hle := (he e rfl).2.2
      simp [orderedExpiry, numberAt, claimPayload, be1, be2, be4, beOpt, readNumber]; omega
  simp only [claimOrder, hkind, hreason, hnumber, hexpiry, htag.2]
  cases expiry with
  | none => rfl
  | some e => simp [within, he e rfl]

/-! The state on which a request's owner acts differs from the state before in its port and in a lock's lease (R119, R175). -/

@[simp] theorem namingFeeder_pool (f : Feeder) (p : Port) (s : State) : (namingFeeder f p s).pool = s.pool := by
  simp [namingFeeder, renewLock_form, receive]

@[simp] theorem namingFeeder_partTime (f : Feeder) (p : Port) (s : State) : (namingFeeder f p s).partTime = s.partTime := by
  simp [namingFeeder, renewLock_form, receive]

theorem namingFeeder_light (f : Feeder) (p : Port) (s : State) (g : Feeder) :
    Light (s.feeder g) ((namingFeeder f p s).feeder g) := by
  rw [namingFeeder, renewLock_form]
  by_cases h : g = f
  · subst h
    rw [State.feeder_onFeeder_self]
    rfl
  · rw [State.feeder_onFeeder_of_ne _ h]
    rfl

@[simp] theorem namingFeeder_ar (f : Feeder) (p : Port) (s : State) (g : Feeder) :
    ((namingFeeder f p s).feeder g).ar = (s.feeder g).ar := by
  rw [namingFeeder, renewLock_form]
  by_cases h : g = f
  · subst h
    rw [State.feeder_onFeeder_self]
    rfl
  · rw [State.feeder_onFeeder_of_ne _ h]
    rfl

theorem NothingPending.namingFeeder {f g : Feeder} {s : State} (h : NothingPending s f) (p : Port) :
    NothingPending (namingFeeder g p s) f := by
  refine h.congr ?_ ?_ ?_
  · rw [namingFeeder_light g p s f]
  all_goals simp [Machine.namingFeeder, renewLock_form, receive]

/-- A new claim within the ranges joins a pool that has room, and its entry reaches the sequencer (R87). -/
theorem placeClaimBody_new {p : Port} {f : Feeder} {payload : List Byte} {o : ClaimOrder} {s : State}
    (ho : claimOrder p payload = some o) (hnew : ∀ c, c ∈ s.pool → c.is f o.kind p o.tag = false) (hroom : s.pool.length < 32) :
    placeClaimBody p payload f s = claimDone p o.kind (judged f (addClaim (newClaim f p o s)) s) := by
  have hf : findClaim s f o.kind p o.tag = none := by
    simp only [findClaim, List.find?_eq_none]
    exact fun c hc => by simp [hnew c hc]
  have hr : ¬ poolSize ≤ s.pool.length := by simp only [poolSize]; omega
  simp only [placeClaimBody, ho, hf, Option.isSome_none, Bool.false_eq_true, if_false, hr]

/-- A port claim that enters in a dead time ends it (R100, R129). -/
theorem addClaim_deadTime {c : PortClaim} {s : State} (hd : (s.feeder c.feeder).ar.state = .deadTime)
    (hn : NothingPending s c.feeder) :
    judged c.feeder (addClaim c) s = claimEntered c.feeder c.info { s with pool := s.pool ++ [c] } := by
  refine judged_nothing (NothingPending.claimEntered (s := { s with pool := s.pool ++ [c] }) ?_ hd _)
  exact hn.congr (s := s) rfl rfl rfl

/-- Out of a dead time a port claim that enters leaves the sequencer's record (R129). -/
theorem addClaim_other {c : PortClaim} {s : State} (hd : (s.feeder c.feeder).ar.state ≠ .deadTime) :
    ((judged c.feeder (addClaim c) s).feeder c.feeder).ar = (s.feeder c.feeder).ar := by
  have same : ((addClaim c s).feeder c.feeder).ar = (s.feeder c.feeder).ar := by
    rw [addClaim, claimEntered_other (s := { s with pool := s.pool ++ [c] }) hd, feeder_broadcast]
    rfl
  rw [judged_same (by rw [same]), same]

@[simp] theorem claimDone_ar (p : Port) (n : Nat) (k : ClaimKind) (s : State) (f : Feeder) :
    ((answer .placeClaim p n (claimDone p k s)).feeder f).ar = (s.feeder f).ar := by
  cases k <;> rfl

end Sys2Proof.Machine

open Sys2Proof Sys2Proof.Machine

/-- Settles O14: at its deadline a timer declares the fault, whose claim enters out of a dead time. -/
theorem faultTimersDeclareTheFault : Obligations.FaultTimersDeclareTheFault := by
  intro f s hr hf hd
  refine ⟨fun d ht hp => ?_, fun d ht hp hi => ?_⟩
  · rw [exec_invalidTimerExpiry hr hf ht hp, declareFault_invalid, placeSystemClaim_other (by simpa using hd)]
  · rw [exec_transitTimerExpiry hr hf ht hp hi, declareFault_transit, placeSystemClaim_other (by simpa using hd)]

/-- Settles O18: a claim that enters, a port's or a system claim, reaches a sequencer in DEAD_TIME through `claimEntered`. -/
theorem claimEntryEndsADeadTime : Obligations.ClaimEntryEndsADeadTime := by
  delta Obligations.ClaimEntryEndsADeadTime
  intro locked ended withSystem
  have ended_eq : ∀ f claim s, (s.feeder f).ar.state = .deadTime → claimEntered f claim s = ended f claim s :=
    fun f claim s h => claimEntered_deadTime h claim
  have placed : ∀ f n s, (s.feeder f).ar.state = .deadTime → (s.feeder f).claims.has n = false → NothingPending s f →
      placeSystemClaim f n s = ended f (.system n) (withSystem f n s) := fun f n s hd ha hn => by
    rw [placeSystemClaim_deadTime hd ha hn]
    exact ended_eq _ _ _ (by simpa using hd)
  refine ⟨?_, fun f n s hd ha => ⟨?_, placed f n s hd ha⟩,
    fun f s hr hf hd ha hn => ⟨fun d ht hle hp => ?_, fun d ht hle hp hi => ?_⟩⟩
  · intro p f k reason tag expiry s₀ s hr ht he hs hnew hroom hn deadline c b
    have taken : exec (.placeClaim p f.byte (claimPayload k reason tag expiry)) s₀ = .next
        (answer .placeClaim p f.number
          (claimDone p k (judged f (addClaim c) (namingFeeder f p s)))) := by
      show Host.Outcome.next (takeRequest .placeClaim p f.byte _ (onFeederTarget f.byte (placeClaimBody p _)) s₀) = _
      rw [hs.onFeeder rfl, placeClaimBody_new (claimOrder_claimPayload hr ht he) (by rw [namingFeeder_pool]; exact hnew)
        (by rw [namingFeeder_pool]; exact hroom)]
      have hc : newClaim f p { kind := k, reason := reason, tag := tag, expiry := expiry } (namingFeeder f p s) = c := by
        simp only [newClaim, ClaimOrder.deadline, namingFeeder_partTime]
        rfl
      rw [hc]
    refine ⟨fun hd => ?_, fun hd => ⟨_, taken, ?_⟩⟩
    · have hd' : ((namingFeeder f p s).feeder f).ar.state = .deadTime := by rw [namingFeeder_ar, hd]
      have entered : judged f (addClaim c) (namingFeeder f p s) = b := by
        rw [addClaim_deadTime (c := c) hd' (hn.namingFeeder p), namingFeeder_pool]
        exact ended_eq f _ _ hd'
      rw [taken, entered]
      cases k <;> rfl
    · have hd' : ((namingFeeder f p s).feeder f).ar.state ≠ .deadTime := by rw [namingFeeder_ar]; exact hd
      rw [claimDone_ar, addClaim_other (c := c) hd', namingFeeder_ar]
  · rw [setSystemClaim_deadTime ha]
    exact ended_eq _ _ _ (by simpa using hd)
  · rw [exec_invalidTimerExpiry hr hf ht hp, if_pos hle, declareFault_invalid, placed]
    · simpa using hd
    · simpa [SystemClaims.has] using ha
    · exact hn.congr (by simp) rfl rfl
  · rw [exec_transitTimerExpiry hr hf ht hp hi, if_pos hle, declareFault_transit, placed]
    · simpa using hd
    · simpa [SystemClaims.has] using ha
    · exact hn.congr (by simp) rfl rfl

end

