-- ==== Sys2Proof/Proofs/Stays.lean ====
section
/-! PROOFS. What the blocks leave as it is, said once for the engine of the elements, the switching units and the hunt: the shell of the
part around the feeders, the districts, a feeder's contacts and its measurement state. -/
namespace Sys2Proof.Machine

/-- A state that differs from another in the feeders, the hunt unit, the op ids, the queues and the districts alone. -/
def SameShell (r s : State) : Prop :=
  s = { r with
    feeders := s.feeders, districts := s.districts, detector := s.detector, hunt := s.hunt, lastHunt := s.lastHunt
    opCounter := s.opCounter, queues := s.queues }

theorem SameShell.refl (s : State) : SameShell s s := rfl

section Fields
variable {r s : State}

theorem SameShell.phase (h : SameShell r s) : s.phase = r.phase := by unfold SameShell at h; rw [h]
theorem SameShell.partTime (h : SameShell r s) : s.partTime = r.partTime := by unfold SameShell at h; rw [h]
theorem SameShell.link (h : SameShell r s) : s.link = r.link := by unfold SameShell at h; rw [h]
theorem SameShell.lastSequence (h : SameShell r s) : s.lastSequence = r.lastSequence := by unfold SameShell at h; rw [h]
theorem SameShell.lastFrameTime (h : SameShell r s) : s.lastFrameTime = r.lastFrameTime := by unfold SameShell at h; rw [h]
theorem SameShell.linkDeadline (h : SameShell r s) : s.linkDeadline = r.linkDeadline := by unfold SameShell at h; rw [h]
theorem SameShell.bus (h : SameShell r s) : s.bus = r.bus := by unfold SameShell at h; rw [h]
theorem SameShell.fireBan (h : SameShell r s) : s.fireBan = r.fireBan := by unfold SameShell at h; rw [h]
theorem SameShell.crewKey (h : SameShell r s) : s.crewKey = r.crewKey := by unfold SameShell at h; rw [h]
theorem SameShell.setProtect (h : SameShell r s) : s.setProtect = r.setProtect := by unfold SameShell at h; rw [h]
theorem SameShell.store (h : SameShell r s) : s.store = r.store := by unfold SameShell at h; rw [h]
theorem SameShell.pool (h : SameShell r s) : s.pool = r.pool := by unfold SameShell at h; rw [h]

theorem SameShell.commissioning (h : SameShell r s) (f : Feeder) : s.commissioning f = r.commissioning f := by
  simp only [State.commissioning, h.store]

theorem SameShell.fitted (h : SameShell r s) (f : Feeder) : s.fitted f = r.fitted f := by
  simp only [State.fitted, h.commissioning]

theorem SameShell.fittedFeeders (h : SameShell r s) : s.fittedFeeders = r.fittedFeeders := by
  simp only [State.fittedFeeders, funext h.fitted]

theorem SameShell.huntSettings (h : SameShell r s) (l : Level) : s.huntSettings l = r.huntSettings l := by
  simp only [State.huntSettings, h.store]

end Fields

theorem SameShell.trans {r s t : State} (h : SameShell r s) (k : SameShell s t) : SameShell r t := by
  unfold SameShell at *
  rw [h] at k
  exact k

/-- A change of a state within the shell. -/
theorem SameShell.step {r s : State} (h : SameShell r s) (t : State) (k : SameShell s t := by rfl) : SameShell r t := h.trans k

theorem sameShell_offer (p : Port) (ev : Event) (s : State) : SameShell s (offer p ev s) := by
  unfold offer
  split <;> rfl

theorem sameShell_broadcast (ev : Event) (s : State) : SameShell s (broadcast ev s) := by
  rw [broadcast_form]
  rfl

/-- The engine acts within the shell. -/
theorem shell_stays (r : State) : EngineKeeps Everywhere (SameShell r) where
  still := fun s f _ g _ h => h.step (s.onFeeder f g)
  claim := fun s _ _ _ _ _ h => h.step (s.onFeeder _ _)
  level := fun s _ _ _ h => h.step (loadEffective _ _ s)
  reload := fun s _ _ _ _ h => h.step (loadEffective _ _ s)
  offer := fun s p ev h => h.step _ (sameShell_offer p ev s)
  hunt := fun s x h => h.step { s with hunt := x }
  quiet := fun s f _ g _ h => h.step (s.onFeeder f g)
  endOp := fun s _ _ h => h.step (s.onFeeder _ _)
  trip := fun s _ _ _ _ _ h => h.step (s.onFeeder _ _)
  close := fun s _ _ _ _ _ _ h => h.step (s.onFeeder _ _)
  join := fun s f _ _ o p _ _ h => h.step (joinTrip f o p s)
  opId := fun s h => h.step (advanceOpId s)
  detector := fun s d h => h.step { s with detector := d }
  lastHunt := fun s x h => h.step { s with lastHunt := x }

/-- The engine leaves the districts. -/
theorem districts_stay (d : PerDistrict DistrictState) : EngineKeeps Everywhere (fun s => s.districts = d) where
  still := fun _ _ _ _ _ h => h
  claim := fun _ _ _ _ _ _ h => h
  level := fun _ _ _ _ h => h
  reload := fun _ _ _ _ _ h => h
  offer := fun s p ev h => by rw [offer_districts]; exact h
  hunt := fun _ _ h => h
  quiet := fun _ _ _ _ _ h => h
  endOp := fun _ _ _ h => h
  trip := fun _ _ _ _ _ _ h => h
  close := fun _ _ _ _ _ _ _ h => h
  join := fun _ _ _ _ _ _ _ _ h => h
  opId := fun _ h => h
  detector := fun _ _ h => h
  lastHunt := fun _ _ h => h

/-! ### What stays of one feeder -/

/-- What the engine leaves of a feeder: its contacts, and its measurement state with the two counts. -/
structure Untouched (x y : FeederState) : Prop where
  closedContact : y.closedContact = x.closedContact
  openContact : y.openContact = x.openContact
  meas : y.meas = x.meas
  invalidCount : y.invalidCount = x.invalidCount
  recoveryCount : y.recoveryCount = x.recoveryCount

theorem Untouched.refl (x : FeederState) : Untouched x x := ⟨rfl, rfl, rfl, rfl, rfl⟩

theorem Untouched.trans {x y z : FeederState} (h : Untouched x y) (k : Untouched y z) : Untouched x z :=
  ⟨k.1.trans h.1, k.2.trans h.2, k.3.trans h.3, k.4.trans h.4, k.5.trans h.5⟩

theorem Quiet.untouched {x y : FeederState} (h : Quiet x y) : Untouched x y :=
  ⟨h.closedContact, h.openContact, h.meas, h.invalidCount, h.recoveryCount⟩

theorem Still.untouched {x y : FeederState} (h : Still x y) : Untouched x y := by
  unfold Still at h
  rw [h]
  exact ⟨rfl, rfl, rfl, rfl, rfl⟩

/-- A change at any feeder that leaves what the engine leaves. -/
theorem Untouched.onFeeder {f : Feeder} {x : FeederState} {s : State} (h : Untouched x (s.feeder f)) (g : Feeder)
    (k : FeederState → FeederState) (hk : Untouched (s.feeder g) (k (s.feeder g)) := by exact ⟨rfl, rfl, rfl, rfl, rfl⟩) :
    Untouched x ((s.onFeeder g k).feeder f) := by
  by_cases hg : f = g
  · subst hg
    rw [State.feeder_onFeeder_self]
    exact h.trans hk
  · rwa [State.feeder_onFeeder_of_ne _ hg]

theorem untouched_stays (f : Feeder) (x : FeederState) : EngineKeeps Everywhere (fun s => Untouched x (s.feeder f)) where
  still := fun _ g _ k hk h => h.onFeeder g k hk.untouched
  claim := fun _ g _ _ _ _ h => h.onFeeder g _
  level := fun _ g _ _ h => h.onFeeder g _
  reload := fun _ g _ _ _ h => h.onFeeder g _
  offer := fun s p ev h => by rw [feeder_offer]; exact h
  hunt := fun _ _ h => h
  quiet := fun _ g _ k hk h => h.onFeeder g k hk.untouched
  endOp := fun _ g _ h => h.onFeeder g _
  trip := fun _ g _ _ _ _ h => h.onFeeder g _
  close := fun _ g _ _ _ _ _ h => h.onFeeder g _
  join := fun _ g _ _ _ _ _ _ h => h.onFeeder g _
  opId := fun _ h => h
  detector := fun _ _ h => h
  lastHunt := fun _ _ h => h

/-! ### One feeder of several -/

/-- A step for each feeder of a list, in which a given feeder stands once: what holds before it is kept by the steps before its own, its own
step makes of it what the steps after keep. -/
theorem forFeeders_once {P Q : State → Prop} {step : Feeder → State → State} {f : Feeder}
    (before : ∀ g s, g ≠ f → P s → P (step g s)) (own : ∀ s, P s → Q (step f s)) (after : ∀ g s, g ≠ f → Q s → Q (step g s)) :
    ∀ {fs : List Feeder}, fs.Nodup → f ∈ fs → ∀ {s : State}, P s → Q (forFeeders fs step s)
  | [], _, hm, _, _ => nomatch hm
  | g :: fs, hn, hm, s, h => by
    obtain ⟨hg, hn⟩ := List.nodup_cons.1 hn
    by_cases e : g = f
    · subst e
      have rest : ∀ (l : List Feeder), g ∉ l → ∀ t, Q t → Q (forFeeders l step t) := by
        intro l
        induction l with
        | nil => exact fun _ _ ht => ht
        | cons k l ih =>
          intro hk t ht
          exact ih (fun c => hk (List.mem_cons_of_mem _ c)) _ (after k t (fun c => hk (c ▸ List.mem_cons_self)) ht)
      exact rest fs hg _ (own s h)
    · exact forFeeders_once before own after hn ((List.mem_cons.1 hm).resolve_left (fun c => e c.symm)) (before g s e h)

/-- A step for each feeder of a list in which a given feeder does not stand. -/
theorem forFeeders_others {P : State → Prop} {step : Feeder → State → State} {f : Feeder}
    (others : ∀ g s, g ≠ f → P s → P (step g s)) :
    ∀ {fs : List Feeder}, f ∉ fs → ∀ {s : State}, P s → P (forFeeders fs step s)
  | [], _, _, h => h
  | g :: _, hm, s, h =>
    forFeeders_others others (fun c => hm (List.mem_cons_of_mem _ c))
      (others g s (fun e => hm (e ▸ List.mem_cons_self)) h)

theorem Feeder.mem_all (f : Feeder) : f ∈ Feeder.all := by cases f <;> decide

theorem Feeder.nodup_all : Feeder.all.Nodup := by decide

theorem State.mem_fittedFeeders (s : State) (f : Feeder) : f ∈ s.fittedFeeders ↔ s.fitted f = true := by
  simp [State.fittedFeeders, Feeder.mem_all]

theorem State.nodup_fittedFeeders (s : State) : s.fittedFeeders.Nodup := Feeder.nodup_all.filter _

end Sys2Proof.Machine
end

