-- ==== Sys2Proof/Proofs/Scan.lean ====
section
/-! PROOFS. A scan of the inputs (R10, R68, R72). -/
namespace Sys2Proof.Machine

/-- A filtered input moves by the filter's rule (R10). -/
theorem scanned_scan (x : FilteredInput) (raw : Bool) : Scanned x raw (x.scan raw) where
  same := fun l hl hr => by simp [FilteredInput.scan, hl, hr]
  counting := fun l hl hr hc => by
    have h : x.count + 1 ≠ 3 := by omega
    simp [FilteredInput.scan, hl, hr, h]
  accepted := fun l hl hr hc => by simp [FilteredInput.scan, hl, hr, hc]
  first := fun hl h => by simp only [FilteredInput.scan, hl, if_pos h]
  second := fun hl hr hc => by
    have h : x.candidate = raw := hr.symm
    simp [FilteredInput.scan, hl, h, hc]
  settles := fun hl hr hc => by simp [FilteredInput.scan, hl, hr, hc]

/-! ### Targets -/

theorem Level.higher_number (a b : Level) : (a.higher b).number = max a.number b.number := by
  unfold Level.higher
  split <;> omega

/-- A district's target is computed as the highest of its sources (R68). -/
theorem computedTarget_number (s : State) (d : District) :
    (computedTarget s d).number =
      highestSource (s.districts.get d).network (s.districts.get d).panel (s.floor d) (s.ban d) (fireBanActive s) := by
  unfold computedTarget highestSource
  cases fireBanActive s <;> simp [Level.higher_number]

/-- What a district's target is computed of (R68). -/
theorem computedTarget_congr {s t : State} {d : District} (hn : (t.districts.get d).network = (s.districts.get d).network)
    (hp : (t.districts.get d).panel = (s.districts.get d).panel) (hs : t.store = s.store) (hf : t.fireBan = s.fireBan) :
    computedTarget t d = computedTarget s d := by
  simp only [computedTarget, hn, hp, State.floor, State.ban, hs, fireBanActive, hf]
  rfl

/-- A district's recomputation replaces its target and no other field of a district (R68). -/
theorem recomputeTarget_districts (d : District) (s : State) :
    (recomputeTarget d s).districts = s.districts.set d { s.districts.get d with target := computedTarget s d } := by
  rw [recomputeTarget_spec, targetTaken]
  dsimp only
  split
  · next h => rw [h]; exact (PerDistrict.set_get _ _).symm
  · exact foldl_keeps (fun t => t.districts = _) _ (fun t f ht => by rw [followed_districts]; exact ht) _ _ rfl

theorem recomputeTarget_shell (d : District) (s : State) : SameShell s (recomputeTarget d s) :=
  have := everywhere
  (shell_stays s).recomputeTarget (fun t _ _ h => h.step (loadEffective _ _ t)) (fun t _ _ h => h.step (t.onDistrict _ _)) d s rfl

theorem recomputeTarget_untouched (d : District) (s : State) (f : Feeder) : Untouched (s.feeder f) ((recomputeTarget d s).feeder f) :=
  have := everywhere
  (untouched_stays f _).recomputeTarget (fun _ _ _ h => h.onFeeder _ _) (fun _ _ _ h => h) d s (.refl _)

/-! ### The parts of a scan -/

theorem scanFeeder_untouched {f g : Feeder} {x : FeederState} {s : State} (raw : ContactLevels) (h : g ≠ f)
    (hx : Untouched x (s.feeder f)) : Untouched x ((scanFeeder g raw s).feeder f) := by
  have := everywhere
  refine (untouched_stays f x).scanFeeder g raw s ?_
  rwa [State.feeder_onFeeder_of_ne _ h.symm]

theorem scanFeeder_own {f : Feeder} {s : State} (raw : ContactLevels) :
    Untouched (scanContacts raw (s.feeder f)) ((scanFeeder f raw s).feeder f) := by
  have := everywhere
  refine (untouched_stays f _).scanFeeder f raw s ?_
  rw [State.feeder_onFeeder_self]
  exact .refl _

/-- The feeders' scans reach each feeder's contacts once, and leave the shell and the districts (R10, R11). -/
theorem scanFeeders_spec (lv : ScanLevels) (s : State) :
    let t := forFeeders Feeder.all (fun f => scanFeeder f (lv.contacts.get f)) s
    SameShell s t ∧ t.districts = s.districts ∧
      ∀ f, (t.feeder f).closedContact = (s.feeder f).closedContact.scan (lv.contacts.get f).closedContact ∧
        (t.feeder f).openContact = (s.feeder f).openContact.scan (lv.contacts.get f).openContact := by
  intro t
  have := everywhere
  refine ⟨forFeeders_keeps (SameShell s) _ (fun f u h => (shell_stays s).scanFeeder f _ u (h.step _)) _ _ rfl,
    forFeeders_keeps (fun u => u.districts = s.districts) _ (fun f u h => (districts_stay _).scanFeeder f _ u h) _ _ rfl, fun f => ?_⟩
  have h : ∃ x, Untouched x (t.feeder f) ∧ x.closedContact = (s.feeder f).closedContact.scan (lv.contacts.get f).closedContact ∧
      x.openContact = (s.feeder f).openContact.scan (lv.contacts.get f).openContact := by
    refine forFeeders_once (P := fun u => Untouched (s.feeder f) (u.feeder f))
      (Q := fun u => ∃ x, Untouched x (u.feeder f) ∧ x.closedContact = _ ∧ x.openContact = _)
      (fun g u hg hu => scanFeeder_untouched _ hg hu) (fun u hu => ⟨_, scanFeeder_own _, ?_, ?_⟩)
      (fun g u hg ⟨x, hx, hc⟩ => ⟨x, scanFeeder_untouched _ hg hx, hc⟩) Feeder.nodup_all (Feeder.mem_all f) (.refl _)
    · rw [scanContacts, hu.closedContact]
    · rw [scanContacts, hu.openContact]
  obtain ⟨x, hx, hc, ho⟩ := h
  exact ⟨hx.closedContact.trans hc, hx.openContact.trans ho⟩

/-- The districts after each is recomputed in turn (R72). -/
theorem recomputeAll_spec (s : State) :
    let t := District.all.foldl (fun a d => recomputeTarget d a) s
    SameShell s t ∧ (∀ f, Untouched (s.feeder f) (t.feeder f)) ∧
      ∀ d, t.districts.get d = { s.districts.get d with target := computedTarget s d } := by
  intro t
  refine ⟨foldl_keeps _ _ (fun u d h => h.trans (recomputeTarget_shell d u)) _ _ (.refl _),
    fun f => foldl_keeps (fun u => Untouched (s.feeder f) (u.feeder f)) _ (fun u d h => h.trans (recomputeTarget_untouched d u f)) _ _ (.refl _),
    fun d => ?_⟩
  have other : ∀ {d e : District} {u : State}, e ≠ d → (recomputeTarget d u).districts.get e = u.districts.get e := fun h => by
    rw [recomputeTarget_districts, PerDistrict.get_set_of_ne _ h]
  have own : ∀ {d : District} {u : State}, SameShell s u → u.districts.get d = s.districts.get d →
      (recomputeTarget d u).districts.get d = { s.districts.get d with target := computedTarget s d } := fun hs hd => by
    rw [recomputeTarget_districts, PerDistrict.get_set_self,
      computedTarget_congr (congrArg DistrictState.network hd) (congrArg DistrictState.panel hd) hs.store hs.fireBan, hd]
  have h1 := recomputeTarget_shell .d1 s
  have h2 := h1.trans (recomputeTarget_shell .d2 _)
  show (recomputeTarget .d3 (recomputeTarget .d2 (recomputeTarget .d1 s))).districts.get d = _
  cases d with
  | d1 => rw [other (by decide), other (by decide)]; exact own (.refl _) rfl
  | d2 => rw [other (by decide)]; exact own h1 (other (by decide))
  | d3 => exact own h2 (by rw [other (by decide), other (by decide)])

/-- A scan of FIRE_BAN moves the input, and recomputes the targets where the level read changes (R72). -/
theorem scanFireBan_spec (raw : Bool) (s : State) :
    let u : State := { s with fireBan := s.fireBan.scan raw }
    let t := scanFireBan raw s
    SameShell u t ∧ (∀ f, Untouched (s.feeder f) (t.feeder f)) ∧ (fireBanActive u = fireBanActive s → t.districts = s.districts) ∧
      ∀ d, (t.districts.get d).network = (s.districts.get d).network ∧ (t.districts.get d).panel = (s.districts.get d).panel ∧
        (fireBanActive u ≠ fireBanActive s → (t.districts.get d).target = computedTarget u d) := by
  intro u t
  by_cases h : fireBanActive u = fireBanActive s
  · have ht : t = u := by show scanFireBan raw s = u; simp only [scanFireBan]; exact if_pos h
    rw [ht]
    exact ⟨rfl, fun f => .refl _, fun _ => rfl, fun d => ⟨rfl, rfl, fun c => absurd h c⟩⟩
  · have ht : t = District.all.foldl (fun a d => recomputeTarget d a) u := by
      show scanFireBan raw s = _
      simp only [scanFireBan]
      exact if_neg h
    obtain ⟨shell, feeders, districts⟩ := recomputeAll_spec u
    rw [ht]
    exact ⟨shell, feeders, fun c => absurd c h, fun d => by rw [districts d]; exact ⟨rfl, rfl, fun _ => rfl⟩⟩

/-- A scan of CREW_KEY moves the input, and changes the crew queue besides at most (R199). -/
theorem scanCrewKey_form (raw : Bool) (s : State) :
    scanCrewKey raw s = { s with crewKey := s.crewKey.scan raw, queues := (scanCrewKey raw s).queues } := by
  simp only [scanCrewKey]
  split <;> rfl

end Sys2Proof.Machine

open Sys2Proof Sys2Proof.Machine

/-- Settles O11, part by part of the scan. -/
theorem scanFiltersEveryInput : Obligations.ScanFiltersEveryInput := by
  intro lv s hr
  obtain ⟨shell, districts, contacts⟩ := scanFeeders_spec lv s
  generalize hs1 : forFeeders Feeder.all (fun f => scanFeeder f (lv.contacts.get f)) s = s1 at shell districts contacts
  obtain ⟨shell2, untouched, still, moved⟩ := scanFireBan_spec lv.fireBan s1
  generalize hs2 : scanFireBan lv.fireBan s1 = s2 at shell2 untouched still moved
  have taken : exec (.inputScan lv) s = .next (scanSetProtect lv.setProtect (scanCrewKey lv.crewKey s2)) := by
    show Host.Outcome.next (whileRunning (scanInputs lv) s) = _
    rw [whileRunning, if_pos hr, scanInputs, hs1, hs2]
  have form := scanCrewKey_form lv.crewKey s2
  generalize scanCrewKey lv.crewKey s2 = s3 at taken form
  have feeders : s3.feeders = s2.feeders := by rw [form]
  have districts3 : s3.districts = s2.districts := by rw [form]
  have ban : s3.fireBan = s.fireBan.scan lv.fireBan := by
    have h : s3.fireBan = s2.fireBan := by rw [form]
    rw [h, shell2.fireBan, shell.fireBan]
  have key : s3.crewKey = s.crewKey.scan lv.crewKey := by
    have h : s3.crewKey = s2.crewKey.scan lv.crewKey := by rw [form]
    rw [h, shell2.crewKey, shell.crewKey]
  have protect : s3.setProtect = s.setProtect := by
    have h : s3.setProtect = s2.setProtect := by rw [form]
    rw [h, shell2.setProtect, shell.setProtect]
  have active : fireBanActive { s1 with fireBan := s1.fireBan.scan lv.fireBan } = fireBanActive s3 := by
    simp only [fireBanActive, ban, shell.fireBan]
  have before : fireBanActive s1 = fireBanActive s := by simp only [fireBanActive, shell.fireBan]
  rw [active, before] at still moved
  refine ⟨_, taken, ?_, ?_, ?_, fun f => ?_, fun h => ?_, fun d => ?_⟩
  · exact ban ▸ scanned_scan _ _
  · exact key ▸ scanned_scan _ _
  · exact protect ▸ scanned_scan _ _
  · have h : (scanSetProtect lv.setProtect s3).feeder f = s2.feeder f := congrArg (PerFeeder.get · f) feeders
    rw [h, (untouched f).closedContact, (untouched f).openContact, (contacts f).1, (contacts f).2]
    exact ⟨scanned_scan _ _, scanned_scan _ _⟩
  · exact districts3.trans ((still h).trans districts)
  · obtain ⟨network, panel, target⟩ := moved d
    have h : (scanSetProtect lv.setProtect s3).districts = s2.districts := districts3
    rw [h, ← districts]
    refine ⟨network, panel, fun hc => ?_⟩
    rw [target hc, computedTarget_number, active]
    simp only [State.floor, State.ban, shell.store]
    rfl

end

