-- ==== Sys2Proof/Proofs/Elements.lean ====
section
/-! PROOFS. The elements' tables and curves (R18 to R35), what a record that reaches them leaves, and an accepted frame's way to them
(R2 to R5, R20, R37, R38, R42). -/
namespace Sys2Proof.Machine

/-! ### Curves -/

/-- Between two breakpoints the time lies between theirs (R26). -/
theorem le_interpolated {p q : Breakpoint} {m : Nat} (ht : q.t ≤ p.t) (hm : m ≤ q.m) :
    q.t ≤ p.t - (p.t - q.t) * (m - p.m) / (q.m - p.m) := by
  have h : (p.t - q.t) * (m - p.m) / (q.m - p.m) ≤ p.t - q.t := by
    refine Nat.div_le_of_le_mul ?_
    rw [Nat.mul_comm]
    exact Nat.mul_le_mul_right _ (by omega)
  omega

/-- A curve's time never exceeds that of its first breakpoint (R26). -/
theorem curveTime_le_first : ∀ {p : Breakpoint} {rest : List Breakpoint}, curveAscends (p :: rest) = true →
    ∀ m, curveTime (p :: rest) m ≤ p.t
  | p, [], _, m => le_rfl
  | p, q :: rest, h, m => by
    simp only [curveAscends, Bool.and_eq_true, decide_eq_true_eq] at h
    obtain ⟨⟨hm, ht⟩, hr⟩ := h
    simp only [curveTime]
    split
    · exact le_rfl
    · split
      · exact Nat.sub_le _ _
      · exact (curveTime_le_first hr m).trans ht

/-- A curve's time is its first breakpoint's up to that breakpoint's multiple (R26). -/
theorem curveTime_first : ∀ {p : Breakpoint} {rest : List Breakpoint}, curveAscends (p :: rest) = true →
    ∀ {m : Nat}, m ≤ p.m → curveTime (p :: rest) m = p.t
  | p, [], _, m, _ => rfl
  | p, q :: rest, h, m, hm => by
    simp only [curveAscends, Bool.and_eq_true, decide_eq_true_eq] at h
    rcases Nat.lt_or_eq_of_le hm with hlt | rfl
    · simp only [curveTime, if_pos hlt]
    · simp [curveTime, h.1.1]

/-- A curve's time never grows with the multiple (R26). -/
theorem curveTime_antitone : ∀ {curve : List Breakpoint}, curveAscends curve = true →
    ∀ {m n : Nat}, m ≤ n → curveTime curve n ≤ curveTime curve m
  | [], _, _, _, _ => le_rfl
  | [_], _, _, _, _ => le_rfl
  | p :: q :: rest, h, m, n, hmn => by
    have first := curveTime_le_first h n
    simp only [curveAscends, Bool.and_eq_true, decide_eq_true_eq] at h
    obtain ⟨⟨hpq, ht⟩, hr⟩ := h
    by_cases hm : m < p.m
    · rwa [show curveTime (p :: q :: rest) m = p.t by simp only [curveTime, if_pos hm]]
    · have hn : ¬ n < p.m := by omega
      simp only [curveTime, if_neg hm, if_neg hn]
      by_cases hnq : n < q.m
      · rw [if_pos hnq, if_pos (by omega : m < q.m)]
        refine Nat.sub_le_sub_left (Nat.div_le_div_right (Nat.mul_le_mul_left _ (by omega))) _
      · rw [if_neg hnq]
        by_cases hmq : m < q.m
        · rw [if_pos hmq]
          exact (curveTime_le_first hr n).trans (le_interpolated ht (by omega))
        · rw [if_neg hmq]
          exact curveTime_antitone hr hmn

/-- A curve's time at a breakpoint is that breakpoint's (R26). -/
theorem curveTime_breakpoint : ∀ {curve : List Breakpoint}, curveAscends curve = true →
    ∀ b, b ∈ curve → curveTime curve b.m = b.t ∧ ∀ p rest, curve = p :: rest → p.m ≤ b.m
  | [], _, _, hb => nomatch hb
  | [p], _, b, hb => by
    cases List.mem_singleton.1 hb
    exact ⟨rfl, fun _ _ h => by cases h; exact le_rfl⟩
  | p :: q :: rest, h, b, hb => by
    have first := curveTime_first h (le_refl p.m)
    simp only [curveAscends, Bool.and_eq_true, decide_eq_true_eq] at h
    obtain ⟨⟨hpq, -⟩, hr⟩ := h
    rcases List.mem_cons.1 hb with rfl | hb
    · exact ⟨first, fun _ _ h => by cases h; exact le_rfl⟩
    · obtain ⟨time, least⟩ := curveTime_breakpoint hr b hb
      have hq := least q rest rfl
      refine ⟨?_, fun _ _ h => by cases h; omega⟩
      simp only [curveTime, if_neg (by omega : ¬ b.m < p.m), if_neg (by omega : ¬ b.m < q.m)]
      exact time

/-- A curve's time beyond its last breakpoint is that breakpoint's (R26). -/
theorem curveTime_last : ∀ {curve : List Breakpoint}, curveAscends curve = true →
    ∀ {b : Breakpoint}, curve.getLast? = some b → ∀ {m : Nat}, b.m ≤ m → curveTime curve m = b.t
  | [], _, _, hb, _, _ => nomatch hb
  | [p], _, b, hb, _, _ => by cases hb; rfl
  | p :: q :: rest, h, b, hb, m, hm => by
    have hb' : (q :: rest).getLast? = some b := by simpa using hb
    simp only [curveAscends, Bool.and_eq_true, decide_eq_true_eq] at h
    obtain ⟨⟨hpq, -⟩, hr⟩ := h
    have least := (curveTime_breakpoint hr b (List.mem_of_getLast? hb')).2 q rest rfl
    simp only [curveTime, if_neg (by omega : ¬ m < p.m), if_neg (by omega : ¬ m < q.m)]
    exact curveTime_last hr hb' hm

/-! ### The tables of the elements -/

theorem regionOf_spec (percent pickup current : Nat) :
    regionOf percent pickup current =
      if pickup ≤ current then .atPickup else if 100 * current < percent * pickup then .belowDropout else .band := rfl

/-- Progress is capped at full scale, where the element is OPERATED (R22). -/
theorem cappedProgress (gathered : Nat) :
    ({ state := if min 1000000 gathered = 1000000 then .operated else .pickedUp, amount := min 1000000 gathered } : Element) =
      if 1000000 ≤ gathered then ⟨.operated, 1000000⟩ else ⟨.pickedUp, gathered⟩ := by
  by_cases h : 1000000 ≤ gathered
  · simp [h]
  · have hm : min 1000000 gathered = gathered := by omega
    have hne : gathered ≠ 1000000 := by omega
    simp [h, hm, hne]

theorem accumulated_spec (delay interval : Nat) (e : Element) :
    accumulated delay interval e =
      if delay * 1000 ≤ e.amount + interval then ⟨.operated, e.amount + interval⟩ else ⟨.pickedUp, e.amount + interval⟩ := by
  unfold accumulated
  split <;> rfl

/-- An element with a band, by its region: at pickup it gathers, in the band it holds, below dropout it falls back (R21, R24, R33, R35). -/
theorem idmtMove_spec (set : IdmtSettings) (curve : List Breakpoint) (current interval : Nat) (e : Element) :
    idmtMove set curve current interval e =
      let reset : Element := { state := .normal, amount := resetProgress set interval e.amount }
      if set.pickup ≤ current then
        (if e.state = .operated then e else incremented set curve current interval e)
      else if 100 * current < 95 * set.pickup then reset
      else
        match e.state with
        | .normal => reset
        | .pickedUp => ⟨.held, e.amount⟩
        | .held => e
        | .operated => e := by
  obtain ⟨state, amount⟩ := e
  simp only [idmtMove, regionOf_spec]
  by_cases hp : set.pickup ≤ current
  · cases state <;> simp [hp]
  · by_cases hd : 100 * current < 95 * set.pickup
    · cases state <;> simp [hp, hd]
    · cases state <;> simp [hp, hd]

theorem highSetMove_spec (pickup delay current interval : Nat) (e : Element) :
    highSetMove pickup delay current interval e =
      if current < pickup then ⟨.normal, 0⟩
      else if e.state = .operated then e
      else if delay * 1000 ≤ e.amount + interval then ⟨.operated, e.amount + interval⟩ else ⟨.pickedUp, e.amount + interval⟩ := by
  unfold highSetMove
  by_cases h : pickup ≤ current
  · rw [if_pos h, if_neg (by omega : ¬ current < pickup), accumulated_spec]
  · rw [if_neg h, if_pos (by omega : current < pickup)]
    rfl

/-- An SEF element by its region (R33, R35). -/
theorem sefMove_spec (delay interval : Nat) (region : Region) (e : Element) :
    sefMove delay interval region e =
      match region with
      | .belowDropout => ⟨.normal, 0⟩
      | .atPickup => if e.state = .operated then e else accumulated delay interval e
      | .band =>
        match e.state with
        | .normal => ⟨.normal, 0⟩
        | .pickedUp => ⟨.held, e.amount⟩
        | .held => e
        | .operated => e := by
  obtain ⟨state, amount⟩ := e
  cases region <;> cases state <;> simp [sefMove, Element.rest]

/-! ### Reports -/

theorem anyPickedUp_eq (x : FeederState) : x.anyPickedUp = somePickedUp x := by
  have up : ∀ e : Element, decide (e.state ≠ .normal) = decide (e.state = .pickedUp ∨ e.state = .held ∨ e.state = .operated) :=
    fun e => by cases e.state <;> rfl
  simp only [FeederState.anyPickedUp, somePickedUp, List.any_cons, List.any_nil, up, Bool.or_false, Bool.or_assoc]

/-- A feeder that reports an element picked up is not quiescent, so a judgement of it does nothing (R76). -/
theorem judge_pickedUp {f : Feeder} {s : State} (h : (s.feeder f).pickedUp = true) : judge f s = s := by
  have q : quiescent s f = false := by simp [quiescent, h]
  simp [judge, q]

theorem somePickedUp_of_operated {x : FeederState} {n : ElementName} (h : (x.element n).state = .operated) : somePickedUp x = true := by
  cases n <;> simp only [FeederState.element] at h <;> simp [somePickedUp, h]

theorem SameElements.somePickedUp {x y : FeederState} (h : SameElements x y) : somePickedUp x = Machine.somePickedUp y := by
  obtain ⟨h1, h2, h3, h4⟩ := h
  simp only [Machine.somePickedUp, h1, h2, h3, h4]

theorem Acted.elements {x y : FeederState} (h : Acted x y) : SameElements y x := ⟨h.phaseIdmt, h.highSet, h.earthIdmt, h.sef⟩

theorem SameElements.trans {x y z : FeederState} (h : SameElements x y) (k : SameElements y z) : SameElements x z :=
  ⟨h.1.trans k.1, h.2.1.trans k.2.1, h.2.2.1.trans k.2.2.1, h.2.2.2.trans k.2.2.2⟩

theorem mem_enteredOperated (before after : FeederState) (n : ElementName) :
    n ∈ enteredOperated before after ↔ (before.element n).state ≠ .operated ∧ (after.element n).state = .operated := by
  have hall : n ∈ [ElementName.phaseIdmt, .highSet, .earthIdmt, .sef] := by cases n <;> decide
  simp only [enteredOperated, List.mem_filter, hall, true_and, Bool.and_eq_true, decide_eq_true_eq]

/-! ### A protection trip -/

/-- The blocks may reach any feeder. -/
theorem anyFeeder : Fact True := ⟨trivial⟩

/-- An operation that is admitted is in flight, and the transit timer stops (R13, R104). -/
theorem admitOp_feeder (f : Feeder) (kind : OpKind) (origin : Origin) (permit : Option Bool) (s : State) :
    (admitOp f kind origin permit s).feeder f =
      { s.feeder f with
        inFlight := some { op := newOperation s kind origin permit, deadline := s.partTime + confirmTimeOf s f kind }
        transitTimer := none } := by
  simp only [admitOp, advanceOpId, State.feeder, State.onFeeder, PerFeeder.get_set_self]

/-- A protection trip acts on the feeder's switching and sequencer alone: it is answered ALREADY, which tells nobody, or an operation is in
flight after it, until which no judgement of the feeder changes anything (R38, R76, R106 to R108). -/
theorem protectionTrip_acted (vn : Option Nat) (f : Feeder) (permit : Bool) (s : State) :
    Acted (s.feeder f) ((protectionTrip vn f permit s).feeder f) := by
  have := anyFeeder
  by_cases hi : (s.feeder f).inFlight = none
  · by_cases hp : (s.feeder f).position = .opened
    · have h : protectionTrip vn f permit s = (requestTrip f .protection (some permit) s).1 := by
        rw [protectionTrip, requestTrip_protection_already hi hp]
        rfl
      rw [h, requestTrip_protection_already hi hp]
      simp only [State.feeder, PerFeeder.get_set_self]
      rfl
    · have h : protectionTrip vn f permit s = admitOp f .trip .protection (some permit) s := by
        simp only [protectionTrip, requestTrip, hi, hp, if_false]
        rfl
      rw [h, admitOp_feeder]
      rfl
  · exact ((followed_keeps f (s.feeder f)).protectionTrip vn f permit s ⟨rfl, .inr hi⟩).same

/-- What the raising of a trip leaves of the feeder: its elements, its report and its fire state (R37, R38). -/
theorem raiseTrip_acted (vn : Option Nat) (f : Feeder) (r : FeederRecord) (fire : FeederFire) (els : List ElementName) (s : State) :
    ∃ record, Acted { s.feeder f with tripRecord := record } ((raiseTrip vn f r fire els s).feeder f) := by
  unfold raiseTrip
  split
  · exact ⟨(s.feeder f).tripRecord, rfl⟩
  · refine ⟨some (newTripRecord s (s.feeder f) fire r els), ?_⟩
    refine Eq.trans (protectionTrip_acted _ _ _ _) ?_
    rw [feeder_broadcast, State.feeder_onFeeder_self]

/-! ### A record reaches the elements -/

theorem reachElements_held {vn : Option Nat} {f : Feeder} {interval : Nat} {r : FeederRecord} {s : State}
    (h : (s.feeder f).meas ≠ .valid) : reachElements vn f interval r s = s := by
  simp only [reachElements]
  exact if_pos h

theorem reachElements_valid {vn : Option Nat} {f : Feeder} {interval : Nat} {r : FeederRecord} {fire : FeederFire} {s : State}
    (h : (s.feeder f).meas = .valid) (hf : (s.feeder f).fire = some fire) :
    reachElements vn f interval r s =
      let y := moveElements fire.effective interval r (s.feeder f)
      reportElements f (raiseTrip vn f r fire (enteredOperated (s.feeder f) y) (s.onFeeder f fun _ => y)) := by
  simp only [reachElements, h, hf]
  exact if_neg (by simp)

/-- At a record at which an element enters OPERATED, the elements and their report stand as moved (R37, R42). -/
theorem reachElements_operates {vn : Option Nat} {f : Feeder} {interval : Nat} {r : FeederRecord} {fire : FeederFire} {s : State}
    (h : (s.feeder f).meas = .valid) (hf : (s.feeder f).fire = some fire) {n : ElementName}
    (hn : ((moveElements fire.effective interval r (s.feeder f)).element n).state = .operated) :
    SameElements ((reachElements vn f interval r s).feeder f) (moveElements fire.effective interval r (s.feeder f)) ∧
      ((reachElements vn f interval r s).feeder f).pickedUp = true := by
  rw [reachElements_valid h hf]
  generalize hy : moveElements fire.effective interval r (s.feeder f) = y at hn
  dsimp only
  obtain ⟨record, acted⟩ := raiseTrip_acted vn f r fire (enteredOperated (s.feeder f) y) (s.onFeeder f fun _ => y)
  rw [State.feeder_onFeeder_self] at acted
  generalize raiseTrip vn f r fire (enteredOperated (s.feeder f) y) (s.onFeeder f fun _ => y) = u at acted
  have elements : SameElements (u.feeder f) y := acted.elements
  have report : (u.feeder f).anyPickedUp = true := by
    rw [anyPickedUp_eq, elements.somePickedUp]
    exact somePickedUp_of_operated hn
  rw [reportElements, judge_pickedUp (by rw [State.feeder_onFeeder_self]; exact report), State.feeder_onFeeder_self]
  exact ⟨elements, report⟩

/-- At a record at which none does, the elements and their report are all that changes, but for what the judgement then applies
(R42, R76). -/
theorem reachElements_quiet {vn : Option Nat} {f : Feeder} {interval : Nat} {r : FeederRecord} {fire : FeederFire} {s : State}
    (h : (s.feeder f).meas = .valid) (hf : (s.feeder f).fire = some fire)
    (hn : enteredOperated (s.feeder f) (moveElements fire.effective interval r (s.feeder f)) = []) :
    reachElements vn f interval r s =
      judge f { s with
        feeders := s.feeders.set f
          { moveElements fire.effective interval r (s.feeder f) with
            pickedUp := somePickedUp (moveElements fire.effective interval r (s.feeder f)) } } := by
  rw [reachElements_valid h hf]
  dsimp only
  rw [hn]
  generalize moveElements fire.effective interval r (s.feeder f) = y
  simp only [raiseTrip, List.isEmpty_nil, if_true, reportElements, State.onFeeder_onFeeder, anyPickedUp_eq]
  rfl

/-! ### Through an accepted frame -/

/-- A feeder is followed while a record reaches the elements of another. -/
theorem Followed.reachOther {f g : Feeder} {x : FeederState} {s : State} (h : Followed f x s) (hg : f ≠ g) (vn : Option Nat)
    (interval : Nat) (r : FeederRecord) : Followed f x (reachElements vn g interval r s) := by
  have := anyFeeder
  have k := followed_keeps f x
  have raised : ∀ fire els t, Followed f x t → Followed f x (raiseTrip vn g r fire els t) := fun fire els t ht => by
    unfold raiseTrip
    split
    · exact ht
    · exact k.protectionTrip _ _ _ _ (k.broadcast _ _ (ht.elsewhere hg _))
  have reported : ∀ t, Followed f x t → Followed f x (reportElements g t) := fun t ht => k.judge _ _ (ht.elsewhere hg _)
  unfold reachElements
  dsimp only
  split
  · exact h
  · split
    · exact h
    · exact reported _ (raised _ _ _ (h.elsewhere hg _))

/-- A feeder is followed from a change of its own that leaves its fire state and its operation in flight. -/
theorem Followed.own {f : Feeder} {x : FeederState} {s : State} (h : Followed f x s) (k : FeederState → FeederState)
    (hf : (k (s.feeder f)).fire = (s.feeder f).fire) (hi : (k (s.feeder f)).inFlight = (s.feeder f).inFlight) :
    Followed f (k (s.feeder f)) (s.onFeeder f k) := by
  refine ⟨by rw [State.feeder_onFeeder_self]; rfl, ?_⟩
  rw [State.feeder_onFeeder_self, hi]
  exact h.held.imp_left fun hn => hn.congr (by rw [State.feeder_onFeeder_self, hf]) rfl rfl

/-- A feeder with nothing pending is followed while its own record reaches its elements: they and the report stand as moved. -/
theorem Followed.reachOwn {f : Feeder} {x : FeederState} {fire : FeederFire} {s : State} (h : Followed f x s)
    (hm : x.meas = .valid) (hf : x.fire = some fire) (vn : Option Nat) (interval : Nat) (r : FeederRecord) :
    ∃ z, Followed f z (reachElements vn f interval r s) ∧ SameElements z (moveElements fire.effective interval r x) ∧
      z.pickedUp = somePickedUp (moveElements fire.effective interval r x) ∧ z.meas = .valid := by
  have := anyFeeder
  have hy : SameElements (moveElements fire.effective interval r (s.feeder f)) (moveElements fire.effective interval r x) := by
    simp only [SameElements, moveElements, h.same.phaseIdmt, h.same.highSet, h.same.earthIdmt, h.same.sef, and_self]
  have hmeas : (moveElements fire.effective interval r (s.feeder f)).meas = .valid := h.same.meas.trans hm
  rw [reachElements_valid (by rw [h.same.meas, hm]) (by rw [h.same.fire, hf])]
  have moved := h.own (fun _ => moveElements fire.effective interval r (s.feeder f)) rfl rfl
  generalize moveElements fire.effective interval r (s.feeder f) = y at hy hmeas moved
  obtain ⟨z, raised, elements, meas⟩ : ∃ z, Followed f z
      (raiseTrip vn f r fire (enteredOperated (s.feeder f) y) (s.onFeeder f fun _ => y)) ∧ SameElements z y ∧ z.meas = y.meas := by
    unfold raiseTrip
    split
    · exact ⟨y, moved, ⟨rfl, rfl, rfl, rfl⟩, rfl⟩
    · have own := moved.own (fun x => { x with tripRecord := some (newTripRecord (s.onFeeder f fun _ => y)
        ((s.onFeeder f fun _ => y).feeder f) fire r (enteredOperated (s.feeder f) y)) }) rfl rfl
      refine ⟨_, (followed_keeps f _).protectionTrip _ _ _ _ ((followed_keeps f _).broadcast _ _ own), ?_⟩
      rw [State.feeder_onFeeder_self]
      exact ⟨⟨rfl, rfl, rfl, rfl⟩, rfl⟩
  dsimp only
  generalize raiseTrip vn f r fire (enteredOperated (s.feeder f) y) (s.onFeeder f fun _ => y) = u at raised
  have reported := raised.own (fun x => { x with pickedUp := x.anyPickedUp }) rfl rfl
  have same : SameElements (u.feeder f) y := raised.same.elements.trans elements
  rw [reportElements, reported.judge]
  refine ⟨_, reported, same.trans hy, ?_, raised.same.meas.trans (meas.trans hmeas)⟩
  show (u.feeder f).anyPickedUp = _
  rw [anyPickedUp_eq, (same.trans hy).somePickedUp]

end Sys2Proof.Machine
end

