-- ==== Sys2Proof/Proofs/Frames.lean ====
section
/-! PROOFS. A unit of the link (R1, R2, R8, R9), the measurement states (R4 to R6), and what an accepted frame leaves of the elements
(R18 to R35). -/
namespace Sys2Proof.Machine

/-! ### Units of the link -/

theorem readRecord_eq (bs : List Byte) (f : Feeder) : readRecord bs f = recordAt bs f := by
  simp only [readRecord, recordAt, recordStart, bitAt, readCurrent, List.getD_eq_getElem?_getD, Nat.add_zero]
  congr 1
  generalize numberAt bs _ 1 = code
  match code with
  | 0 => rfl
  | 1 => rfl
  | 2 => rfl
  | n + 3 => simp [Direction.ofCode]

/-- A whole frame whose check matches is read by R1. -/
theorem parseFrame_whole {bs : List Byte} (hl : bs.length = 69) (hc : bs.drop 67 = checkField (bs.take 67)) :
    parseFrame bs = some (frameAt bs) := by
  have hr : readRecord bs = recordAt bs := funext (readRecord_eq bs)
  simp only [parseFrame, frameLength, hl, hc, hr, ne_eq, not_true_eq_false, if_false, frameAt, clampInterval, clampVn, bitAt,
    List.getD_eq_getElem?_getD]

theorem parseFrame_broken {bs : List Byte} (h : bs.length ≠ 69 ∨ bs.drop 67 ≠ checkField (bs.take 67)) : parseFrame bs = none := by
  unfold parseFrame frameLength
  split
  · rfl
  · rw [if_pos (h.resolve_left (by assumption))]

/-- An accepted unit acts as the frame it is (R2). -/
theorem Accepted.exec {bs : List Byte} {s : State} (h : Accepted bs s) :
    exec (.measurementFrame bs) s = .next (acceptFrame (frameAt bs) s) := by
  show Host.Outcome.next (whileRunning (deliverUnit bs) s) = _
  rw [whileRunning, if_pos h.running, deliverUnit, parseFrame_whole h.whole h.check]
  exact congrArg _ (if_neg h.fresh)

/-- Any other unit changes nothing (R2). -/
theorem exec_measurementFrame_discarded {bs : List Byte} {s : State}
    (h : bs.length ≠ 69 ∨ bs.drop 67 ≠ checkField (bs.take 67) ∨ s.lastSequence = some (numberAt bs 0 1)) :
    exec (.measurementFrame bs) s = .next s := by
  have delivered : deliverUnit bs s = s := by
    unfold deliverUnit
    by_cases hl : bs.length = 69
    · by_cases hc : bs.drop 67 = checkField (bs.take 67)
      · rw [parseFrame_whole hl hc]
        exact if_pos ((h.resolve_left (absurd hl)).resolve_left (absurd hc))
      · rw [parseFrame_broken (.inr hc)]
    · rw [parseFrame_broken (.inl hl)]
  show Host.Outcome.next (whileRunning (deliverUnit bs) s) = _
  rw [whileRunning, delivered, ite_self]

/-- The state once the link has accepted a frame (R8, R9). -/
def linkedBy (fr : MeasFrame) (s : State) : State :=
  { s with
    link := .up, lastSequence := some fr.sequence, lastFrameTime := some s.partTime, linkDeadline := some (s.partTime + 100)
    queues := said (if s.link = .up then [] else [.linkRestored fr.sequence]) s }

theorem acceptOnLink_eq (fr : MeasFrame) (s : State) : acceptOnLink fr s = linkedBy fr s := by
  unfold acceptOnLink linkedBy
  dsimp only
  by_cases h : s.link = .up
  · rw [if_pos h, if_pos h]
    rfl
  · rw [if_neg h, if_neg h, broadcast_said]
    simp only [State.mk.injEq, true_and, and_true]
    exact said_congr _ rfl rfl rfl

/-- The state once the link and the measurement states have moved (R3, R4, R8). -/
def measuredBy (fr : MeasFrame) (s : State) : State :=
  { forFeeders s.fittedFeeders (fun f => measRecord f (fr.records.get f).valid) (linkedBy fr s) with
    bus := { vn := fr.vn, valid := fr.busValid } }

/-- The state once the elements have been reached (R3, R20). -/
def reachedBy (fr : MeasFrame) (s : State) : State :=
  forFeeders s.fittedFeeders (fun f => reachElements fr.usedVn f fr.interval (fr.records.get f)) (measuredBy fr s)

theorem measRecord_shell (f : Feeder) (v : Bool) (s : State) : SameShell s (measRecord f v s) :=
  have := everywhere
  (shell_stays s).measRecord f v s rfl

/-- The measurement states move within the shell that the link left. -/
theorem measuredBy_shell (fr : MeasFrame) (s : State) :
    SameShell { linkedBy fr s with bus := { vn := fr.vn, valid := fr.busValid } } (measuredBy fr s) := by
  have h : SameShell (linkedBy fr s) (forFeeders s.fittedFeeders (fun f => measRecord f (fr.records.get f).valid) (linkedBy fr s)) :=
    forFeeders_keeps (SameShell (linkedBy fr s)) _ (fun f t ht => ht.trans (measRecord_shell f _ t)) _ _ rfl
  unfold measuredBy
  unfold SameShell at h ⊢
  rw [h]

/-- An accepted frame acts in four parts: the link, the measurement states and the bus record, the elements, and the hunt unit. -/
theorem acceptFrame_eq (fr : MeasFrame) (s : State) : acceptFrame fr s = huntFrame fr (reachedBy fr s) := by
  have fitted : (measuredBy fr s).fittedFeeders = s.fittedFeeders := (measuredBy_shell fr s).fittedFeeders
  unfold acceptFrame reachedBy
  rw [acceptOnLink_eq]
  show huntFrame fr (forFeeders (measuredBy fr s).fittedFeeders _ (measuredBy fr s)) = _
  rw [fitted]

end Sys2Proof.Machine
end

