-- ==== Sys2Proof/Proofs/ElementsInFrame.lean ====
section
/-! PROOFS. What an accepted frame leaves of a feeder's elements (R3, R5, R18 to R35). -/
namespace Sys2Proof.Machine

/-! ### The tables as the statement writes them -/

theorem incremented_spec (set : IdmtSettings) (curve : List Breakpoint) (current interval : Nat) (e : Element) :
    incremented set curve current interval e =
      let opTime := max (max (curveTime curve (min 640 (16 * current / set.pickup)) * set.tms / 100) set.minTime) 10
      let gathered := e.amount + max 1 (interval * 1000 / opTime)
      if 1000000 ≤ gathered then ⟨.operated, 1000000⟩ else ⟨.pickedUp, gathered⟩ :=
  cappedProgress _

theorem moveElements_eq (eff : Effective) (interval : Nat) (r : FeederRecord) (x : FeederState) :
    moveElements eff interval r x =
      let g := eff.group
      let phase := max (max r.ia r.ib) r.ic
      { x with
        phaseIdmt := idmtMove g.phase eff.phaseCurve phase interval x.phaseIdmt
        highSet :=
          if g.highSetEnable = true then highSetMove g.highSetPickup g.highSetDelay phase interval x.highSet else ⟨.normal, 0⟩
        earthIdmt := if g.earthEnable = true then idmtMove g.earth eff.earthCurve r.residual interval x.earthIdmt else ⟨.normal, 0⟩
        sef := if g.sefEnable = true then sefMove g.sefDelay interval (sefRegion g r) x.sef else ⟨.normal, 0⟩ } := rfl

/-- A SEF element by its group's settings (R33 to R35). -/
theorem sefMove_sefRegion (g : Group) (r : FeederRecord) (interval : Nat) (e : Element) :
    let reverse := g.sefDirectional = true ∧ r.direction ≠ .forward
    sefMove g.sefDelay interval (sefRegion g r) e =
      if reverse ∨ 100 * r.residual < 90 * g.sefPickup then ⟨.normal, 0⟩
      else if g.sefPickup ≤ r.residual then (if e.state = .operated then e
         else if g.sefDelay * 1000 ≤ e.amount + interval then ⟨.operated, e.amount + interval⟩
         else ⟨.pickedUp, e.amount + interval⟩)
      else
        match e.state with
        | .normal => ⟨.normal, 0⟩
        | .pickedUp => ⟨.held, e.amount⟩
        | .held => e
        | .operated => e := by
  intro reverse
  rw [sefMove_spec, ← accumulated_spec]
  unfold sefRegion
  by_cases hr : reverse
  · rw [if_pos hr]
    exact (if_pos (.inl hr)).symm
  · rw [if_neg hr, regionOf_spec]
    by_cases hp : g.sefPickup ≤ r.residual
    · have above : ¬ (reverse ∨ 100 * r.residual < 90 * g.sefPickup) := fun h => h.elim hr (by omega)
      rw [if_pos hp]
      exact ((if_neg above).trans (if_pos hp)).symm
    · by_cases hd : 100 * r.residual < 90 * g.sefPickup
      · rw [if_neg hp, if_pos hd]
        exact (if_pos (.inr hd)).symm
      · rw [if_neg hp, if_neg hd]
        refine Eq.trans ?_ ((if_neg (fun h => h.elim hr hd)).trans (if_neg hp)).symm
        cases e.state <;> rfl

/-- The judgement of a feeder whose target is not changed by the elements (R76). -/
theorem judge_moved {f : Feeder} {fire : FeederFire} {s : State} (y : FeederState) (hy : y.fire = some fire) :
    judge f (s.onFeeder f fun _ => y) =
      if quiescent (s.onFeeder f fun _ => y) f = true ∧ (targetLevel s f).number < fire.applied.number then
        reloaded f (targetLevel s f) .lower (s.onFeeder f fun _ => y)
      else if quiescent (s.onFeeder f fun _ => y) f = true ∧ fire.settingsPending = true then
        reloaded f fire.applied .commit (s.onFeeder f fun _ => y)
      else s.onFeeder f fun _ => y := by
  rw [judge_spec (by rw [State.feeder_onFeeder_self]; exact hy)]
  rfl

/-! ### A record through a frame -/

theorem frameAt_record (bs : List Byte) (f : Feeder) : (frameAt bs).records.get f = recordAt bs f := PerFeeder.get_of _ _

/-- The table of R4: the measurement state, the count of invalid and that of valid records after one more record. -/
def measNext (valid : Bool) (m : MeasState) (a b : Nat) : MeasState × Nat × Nat :=
  match m, valid with
  | .awaiting, true => if b + 1 = 5 then (.valid, a, 0) else (.awaiting, a, b + 1)
  | .awaiting, false => (.awaiting, a, 0)
  | .valid, true => (.valid, a, b)
  | .valid, false => (.holding, 1, b)
  | .holding, true => (.valid, 0, b)
  | .holding, false => if a + 1 = 3 then (.lost, 3, 0) else (.holding, a + 1, b)
  | .lost, true => if b + 1 = 5 then (.valid, 0, 0) else (.lost, a, b + 1)
  | .lost, false => (.lost, a, 0)

theorem measMove_next (v : Bool) (x : FeederState) :
    ((measMove v x).meas, (measMove v x).invalidCount, (measMove v x).recoveryCount) =
      measNext v x.meas x.invalidCount x.recoveryCount := by
  by_cases hr : x.recoveryCount = 4 <;> by_cases hi : x.invalidCount = 2 <;> cases hm : x.meas <;> cases v <;>
    simp [measMove, measNext, hm, hr, hi]

/-- A record evaluates a feeder when it leaves it VALID (R4, R5). -/
theorem measMove_valid_iff (x : FeederState) (r : FeederRecord) : (measMove r.valid x).meas = .valid ↔ Evaluated x r := by
  have h : (measMove r.valid x).meas = (measNext r.valid x.meas x.invalidCount x.recoveryCount).1 := congrArg Prod.fst (measMove_next _ _)
  rw [h, Evaluated]
  by_cases hr : x.recoveryCount = 4 <;> by_cases hi : x.invalidCount = 2 <;> cases x.meas <;> cases r.valid <;> simp [measNext, hr, hi]

/-- A move of the measurement state leaves the rest of the feeder. -/
theorem measMove_elements (v : Bool) (x : FeederState) : SameElements (measMove v x) x := by
  rw [measMove_eq]
  exact ⟨rfl, rfl, rfl, rfl⟩

theorem Acted.invalidCount {x y : FeederState} (h : Acted x y) : y.invalidCount = x.invalidCount := by unfold Acted at h; rw [h]
theorem Acted.recoveryCount {x y : FeederState} (h : Acted x y) : y.recoveryCount = x.recoveryCount := by unfold Acted at h; rw [h]

/-- The move of the measurement state depends on it and the two counts alone (R4). -/
theorem measMove_congr {x y : FeederState} (v : Bool) (hm : y.meas = x.meas) (hi : y.invalidCount = x.invalidCount)
    (hr : y.recoveryCount = x.recoveryCount) :
    measMove v y = setMeas (measMove v x).meas (measMove v x).invalidCount (measMove v x).recoveryCount y := by
  have next : (measMove v y).meas = (measMove v x).meas ∧ (measMove v y).invalidCount = (measMove v x).invalidCount ∧
      (measMove v y).recoveryCount = (measMove v x).recoveryCount := by
    have h := (measMove_next v y).trans (by rw [hm, hi, hr, ← measMove_next v x])
    exact ⟨congrArg Prod.fst h, congrArg (fun p => p.2.1) h, congrArg (fun p => p.2.2) h⟩
  rw [measMove_eq, next.1, next.2.1, next.2.2]

/-- A feeder is followed while a record moves the measurement state of another. -/
theorem Followed.measOther {f g : Feeder} {x : FeederState} {s : State} (h : Followed f x s) (hg : f ≠ g) (v : Bool) :
    Followed f x (measRecord g v s) :=
  have := anyFeeder
  (followed_keeps f x).measRecord g v s (h.elsewhere hg _)

/-- A feeder is followed while its own record moves its measurement state. -/
theorem Followed.measOwn {f : Feeder} {x : FeederState} {s : State} (h : Followed f x s) (v : Bool) :
    Followed f (measMove v x) (measRecord f v s) := by
  have := anyFeeder
  have moved : Followed f (measMove v (s.feeder f)) (s.onFeeder f (measMove v)) :=
    h.own _ (by rw [measMove_eq]; rfl) (by rw [measMove_eq]; rfl)
  have same : Acted (measMove v x) (measMove v (s.feeder f)) := by
    rw [measMove_eq v x, measMove_eq v (s.feeder f), measMove_congr v h.same.meas h.same.invalidCount h.same.recoveryCount]
    have e := h.same
    unfold Acted at e ⊢
    rw [e]
    rfl
  exact (followed_keeps f _).measRecord f v s ⟨same.trans moved.same, moved.held⟩

/-- A feeder with nothing pending is followed while the link and the measurement states move. -/
theorem followed_measuredBy {f : Feeder} {s : State} (h : NothingPending s f) (hf : s.fitted f = true) (fr : MeasFrame) :
    Followed f (measMove (fr.records.get f).valid (s.feeder f)) (measuredBy fr s) := by
  have start : Followed f (s.feeder f) (linkedBy fr s) := ⟨rfl, .inl h⟩
  have walked : Followed f (measMove (fr.records.get f).valid (s.feeder f))
      (forFeeders s.fittedFeeders (fun f => measRecord f (fr.records.get f).valid) (linkedBy fr s)) :=
    forFeeders_once (P := Followed f (s.feeder f)) (step := fun f => measRecord f (fr.records.get f).valid) (fun g t hg ht => ht.measOther (Ne.symm hg) _) (fun t ht => ht.measOwn _)
      (fun g t hg ht => ht.measOther (Ne.symm hg) _) s.nodup_fittedFeeders ((s.mem_fittedFeeders f).2 hf) start
  exact walked.through rfl id rfl rfl

/-- The hunt unit leaves a feeder that is followed. -/
theorem Followed.huntFrame {f : Feeder} {x : FeederState} {s : State} (h : Followed f x s) (fr : MeasFrame) :
    Followed f x (Machine.huntFrame fr s) :=
  have := anyFeeder
  (followed_keeps f x).huntFrame fr s h

/-- A feeder is followed with the elements and the report that an evaluated record leaves (R20, R42). -/
def FollowedMoved (f : Feeder) (y : FeederState) (t : State) : Prop :=
  ∃ z, Followed f z t ∧ SameElements z y ∧ z.pickedUp = somePickedUp y ∧ z.meas = .valid

/-- What an accepted frame leaves of a feeder that it makes VALID: its elements as their tables give, and their report (R20, R42). -/
theorem acceptFrame_evaluated {f : Feeder} {fire : FeederFire} {s : State} {fr : MeasFrame} (h : NothingPending s f)
    (hf : s.fitted f = true) (hx : (s.feeder f).fire = some fire)
    (hv : (measMove (fr.records.get f).valid (s.feeder f)).meas = .valid) :
    ((acceptFrame fr s).feeder f).meas = .valid ∧
      SameElements ((acceptFrame fr s).feeder f) (moveElements fire.effective fr.interval (fr.records.get f) (s.feeder f)) ∧
      ((acceptFrame fr s).feeder f).pickedUp =
        somePickedUp (moveElements fire.effective fr.interval (fr.records.get f) (s.feeder f)) := by
  have measured := followed_measuredBy h hf fr
  generalize hy : measMove (fr.records.get f).valid (s.feeder f) = y at measured hv
  have moves : SameElements (moveElements fire.effective fr.interval (fr.records.get f) y)
      (moveElements fire.effective fr.interval (fr.records.get f) (s.feeder f)) := by
    rw [← hy, measMove_eq]
    exact ⟨rfl, rfl, rfl, rfl⟩
  have hyf : y.fire = some fire := by rw [← hy, measMove_eq]; exact hx
  obtain ⟨z, reached, elements, report, valid⟩ :
      FollowedMoved f (moveElements fire.effective fr.interval (fr.records.get f) y) (reachedBy fr s) :=
    forFeeders_once (P := Followed f y) (Q := FollowedMoved f (moveElements fire.effective fr.interval (fr.records.get f) y))
      (step := fun f => reachElements fr.usedVn f fr.interval (fr.records.get f))
      (fun g t hg ht => ht.reachOther (Ne.symm hg) _ _ _) (fun t ht => ht.reachOwn hv hyf _ _ _)
      (fun g t hg ⟨z, hz, rest⟩ => ⟨z, hz.reachOther (Ne.symm hg) _ _ _, rest⟩) s.nodup_fittedFeeders
      ((s.mem_fittedFeeders f).2 hf) measured
  rw [acceptFrame_eq]
  have done := (reached.huntFrame fr).same
  exact ⟨done.meas.trans valid, done.elements.trans (elements.trans moves), done.pickedUp.trans (report.trans moves.somePickedUp)⟩

/-- What an accepted frame leaves of a feeder that is not VALID after its record: its elements and their report stay (R5). -/
theorem acceptFrame_held {f : Feeder} {s : State} {fr : MeasFrame} (h : NothingPending s f) (hf : s.fitted f = true)
    (hv : (measMove (fr.records.get f).valid (s.feeder f)).meas ≠ .valid) :
    ((acceptFrame fr s).feeder f).meas ≠ .valid ∧ SameElements ((acceptFrame fr s).feeder f) (s.feeder f) ∧
      ((acceptFrame fr s).feeder f).pickedUp = (s.feeder f).pickedUp := by
  have measured := followed_measuredBy h hf fr
  have same := measMove_elements (fr.records.get f).valid (s.feeder f)
  have report : (measMove (fr.records.get f).valid (s.feeder f)).pickedUp = (s.feeder f).pickedUp := by rw [measMove_eq]; rfl
  generalize measMove (fr.records.get f).valid (s.feeder f) = y at measured hv same report
  have reached : Followed f y (reachedBy fr s) := by
    refine forFeeders_keeps (Followed f y) _ (fun g t ht => ?_) _ _ measured
    by_cases hg : f = g
    · subst hg
      rwa [reachElements_held (by rw [ht.same.meas]; exact hv)]
    · exact ht.reachOther hg _ _ _
  rw [acceptFrame_eq]
  have done := (reached.huntFrame fr).same
  exact ⟨fun e => hv (done.meas.symm.trans e), done.elements.trans same, done.pickedUp.trans report⟩

end Sys2Proof.Machine

open Sys2Proof Sys2Proof.Machine

/-- Settles O51: each table by its regions, and a feeder with nothing pending followed through an accepted frame. -/
theorem elementsMoveByTheirTables : Obligations.ElementsMoveByTheirTables := by
  refine ⟨fun set curve current interval e => ?_, highSetMove_spec, fun g r interval e => ?_, moveElements_eq,
    fun vn f interval r s h => reachElements_held h, fun vn f interval r fire s hm hf => ⟨fun ⟨n, _, hn⟩ => ?_, fun hn => ?_⟩,
    fun bs f fire s ha hf hx hn => ⟨_, ha.exec, fun hv => ?_, fun hv => ?_⟩, fun curve hc => ⟨fun b hb => (curveTime_breakpoint hc b hb).1,
      fun m n => curveTime_antitone hc, fun b m hb hm => ?_, fun b m hb hm => curveTime_last hc hb hm⟩, by decide, by decide⟩
  · rw [idmtMove_spec]
    cases hr : set.resetMode <;> simp only [resetProgress, hr, incremented_spec, decrement] <;> rfl
  · exact sefMove_sefRegion g r interval e
  · exact reachElements_operates hm hf hn
  · have quiet : enteredOperated (s.feeder f) (moveElements fire.effective interval r (s.feeder f)) = [] :=
      List.eq_nil_iff_forall_not_mem.2 fun n hmem => hn ⟨n, (mem_enteredOperated _ _ n).1 hmem⟩
    rw [reachElements_quiet hm hf quiet]
    exact judge_moved _ hf
  · have e := (measMove_valid_iff _ _).2 hv
    rw [← frameAt_record] at e ⊢
    exact acceptFrame_evaluated hn hf hx e
  · have e := fun c => hv ((measMove_valid_iff _ _).1 c)
    rw [← frameAt_record] at e
    exact acceptFrame_held hn hf e
  · obtain ⟨p, rest⟩ | _ := curve
    · cases hb
    · cases hb
      exact curveTime_first hc hm
end

