-- ==== Sys2Proof/Proofs/MeasureClaims.lean ====
section
/-! PROOFS. The MEASURE claims: what the sequencers, the switching units, the elements and the hunt unit do leaves each feeder's MEASURE
claim as it is (R6, R95). -/
namespace Sys2Proof.Machine

/-- The MEASURE claim of each feeder. -/
def measures (s : State) (f : Feeder) : Bool := (s.feeder f).claims.measure

/-! ### The state's operations -/

/-- A change of one feeder that leaves its MEASURE claim. -/
theorem measures_onFeeder_of_eq (f : Feeder) (k : FeederState → FeederState) (s : State)
    (hk : (k (s.feeder f)).claims.measure = (s.feeder f).claims.measure) : measures (s.onFeeder f k) = measures s := by
  funext g
  by_cases h : g = f
  · subst h
    simp only [measures, State.feeder_onFeeder_self, hk]
  · simp only [measures, State.feeder_onFeeder_of_ne _ h]

@[simp] theorem measures_onFeeder (f : Feeder) (k : FeederState → FeederState) (s : State)
    (hk : ∀ x, (k x).claims.measure = x.claims.measure) : measures (s.onFeeder f k) = measures s :=
  measures_onFeeder_of_eq f k s (hk _)

@[simp] theorem measures_offer (p : Port) (ev : Event) (s : State) : measures (offer p ev s) = measures s := by
  funext g
  simp only [measures, feeder_offer]

@[simp] theorem measures_broadcast (ev : Event) (s : State) : measures (broadcast ev s) = measures s := by
  funext g
  simp only [measures, feeder_broadcast]

@[simp] theorem measures_onHunt (k : HuntRun → HuntRun) (s : State) : measures (s.onHunt k) = measures s := rfl

@[simp] theorem measures_sayHunt (a b : HuntState) (d : HuntDetail) (s : State) : measures (sayHunt a b d s) = measures s :=
  measures_broadcast _ _

@[simp] theorem SystemClaims.measure_put (c : SystemClaims) {n : SystemClaim} (on : Bool) (h : n ≠ .measure) :
    (c.put n on).measure = c.measure := by
  cases n <;> simp_all [SystemClaims.put]

/-! ### Sequencers and claims -/

@[simp] theorem measures_arMove (f : Feeder) (new : ArRecord) (c : ArCause) (d : LockoutDetail) (s : State) :
    measures (arMove f new c d s) = measures s := by
  unfold arMove
  dsimp only
  split
  · simp
  · split <;> simp

@[simp] theorem measures_toLockout (f : Feeder) (c : ArCause) (d : LockoutDetail) (s : State) :
    measures (toLockout f c d s) = measures s := measures_arMove _ _ _ _ _

@[simp] theorem measures_toOpenManual (f : Feeder) (s : State) : measures (toOpenManual f s) = measures s := measures_arMove _ _ _ _ _

@[simp] theorem measures_toReclaim (f : Feeder) (n : Nat) (c : ArCause) (s : State) : measures (toReclaim f n c s) = measures s :=
  measures_arMove _ _ _ _ _

@[simp] theorem measures_judgeSequence (f : Feeder) (permit : Option Bool) (s : State) :
    measures (judgeSequence f permit s) = measures s := by
  unfold judgeSequence
  dsimp only
  split_ifs <;> simp

@[simp] theorem measures_seqCompletion (f : Feeder) (c : Completed) (s : State) : measures (seqCompletion f c s) = measures s := by
  have trip : measures (seqTripCompletion f c s) = measures s := by
    unfold seqTripCompletion
    dsimp only
    split <;> (try split) <;> simp
  have reclose : measures (seqRecloseCompletion f c s) = measures s := by
    unfold seqRecloseCompletion
    dsimp only
    split
    · rfl
    · split <;> split <;> simp
  have close : measures (seqCloseCompletion f c s) = measures s := by
    unfold seqCloseCompletion
    split <;> simp
  unfold seqCompletion
  split
  · exact trip
  · split <;> assumption

@[simp] theorem measures_seqClaimEntry (f : Feeder) (c : ClaimInfo) (s : State) : measures (seqClaimEntry f c s) = measures s := by
  unfold seqClaimEntry
  split <;> simp

@[simp] theorem measures_seqReload (f : Feeder) (s : State) : measures (seqReload f s) = measures s := by
  unfold seqReload
  dsimp only
  split <;> simp

/-- Any other system claim leaves the MEASURE claims (R95). -/
@[simp] theorem measures_setSystemClaim (f : Feeder) {n : SystemClaim} (on : Bool) (s : State) (hn : n ≠ .measure) :
    measures (setSystemClaim f n on s) = measures s := by
  unfold setSystemClaim claimEntered claimLeft
  dsimp only
  split
  · rfl
  · split <;> simp [hn]

@[simp] theorem measures_raiseHuntLevel (s : State) : measures (raiseHuntLevel s) = measures s := by
  unfold raiseHuntLevel
  split
  · rfl
  · split <;> simp

@[simp] theorem measures_setFireClaim (f : Feeder) (s : State) : measures (setFireClaim f s) = measures s := by
  unfold setFireClaim
  split <;> simp

@[simp] theorem measures_handSettings (f : Feeder) (old : Group) (s : State) : measures (handSettings f old s) = measures s := by
  unfold handSettings
  rw [measures_raiseHuntLevel, measures_seqReload, measures_onFeeder]
  intro x
  split <;> rfl

@[simp] theorem measures_applyLevel (f : Feeder) (l : Level) (c : ApplyCause) (s : State) : measures (applyLevel f l c s) = measures s := by
  unfold applyLevel
  split
  · rfl
  · dsimp only
    split <;> simp [loadEffective]

/-- A judgement leaves the MEASURE claims (R76, R80). -/
@[simp] theorem measures_judge (f : Feeder) (s : State) : measures (judge f s) = measures s := by
  unfold judge
  split
  · simp
  · split
    · split <;> simp
    · rfl

@[simp] theorem measures_judged (f : Feeder) (act : State → State) (s : State) : measures (judged f act s) = measures (act s) := by
  unfold judged
  dsimp only
  split <;> simp

/-! ### Switching units -/

@[simp] theorem measures_sendOpDone (f : Feeder) (c : Completed) (sup : Option (Nat × Origin)) (s : State) :
    measures (sendOpDone f c sup s) = measures s := by
  rw [sendOpDone_form]
  rfl

@[simp] theorem measures_reportCompletion (f : Feeder) (c : Completed) (sup : Option (Nat × Origin)) (s : State) :
    measures (reportCompletion f c sup s) = measures s := by
  simp [reportCompletion]

@[simp] theorem measures_advanceOpId (s : State) : measures (advanceOpId s) = measures s := rfl

@[simp] theorem measures_admitOp (f : Feeder) (kind : OpKind) (o : Origin) (permit : Option Bool) (s : State) :
    measures (admitOp f kind o permit s) = measures s := by
  simp [admitOp]

@[simp] theorem measures_completeAlready (f : Feeder) (kind : OpKind) (o : Origin) (permit : Option Bool) (s : State) :
    measures (completeAlready f kind o permit s).1 = measures s := by
  simp [completeAlready]

@[simp] theorem measures_requestTrip (f : Feeder) (o : Origin) (permit : Option Bool) (s : State) :
    measures (requestTrip f o permit s).1 = measures s := by
  unfold requestTrip
  split
  · split <;> simp [joinTrip, supersede]
  · split <;> simp

@[simp] theorem measures_requestHuntClose (f : Feeder) (s : State) : measures (requestHuntClose f s).1 = measures s := by
  unfold requestHuntClose requestBlockClose
  dsimp only
  split_ifs <;> simp

@[simp] theorem measures_changeLock (f : Feeder) (l : Lock) (c : LockCause) (s : State) : measures (changeLock f l c s) = measures s := by
  simp [changeLock]

theorem measures_huntTakeLock {f : Feeder} {s t : State} (h : huntTakeLock f s = some t) : measures t = measures s := by
  unfold huntTakeLock at h
  split at h <;> cases h <;> simp

@[simp] theorem measures_huntDropLock (f : Feeder) (s : State) : measures (huntDropLock f s) = measures s := by
  unfold huntDropLock
  split <;> simp

/-! ### The hunt's steps -/

@[simp] theorem measures_setHuntState (n : HuntState) (d : HuntDetail) (s : State) : measures (setHuntState n d s) = measures s := by
  unfold setHuntState
  dsimp only
  split <;> simp

@[simp] theorem measures_beginWindow (s : State) : measures (beginWindow s) = measures s := by
  unfold beginWindow
  split <;> simp

@[simp] theorem measures_setPending (r : HuntResult) (s : State) : measures (setPending r s) = measures s := rfl
@[simp] theorem measures_endStep (s : State) : measures (endStep s) = measures s := rfl
@[simp] theorem measures_setIsolate (o : IsolateOutcome) (s : State) : measures (setIsolate o s) = measures s := rfl
@[simp] theorem measures_setEndRestore (o : EndRestore) (s : State) : measures (setEndRestore o s) = measures s := rfl
@[simp] theorem measures_setCandidate (i : Nat) (o : CandidateOutcome) (s : State) : measures (setCandidate i o s) = measures s := rfl
@[simp] theorem measures_concludeCandidate (i : Nat) (o : CandidateOutcome) (s : State) :
    measures (concludeCandidate i o s) = measures s := rfl

@[simp] theorem measures_setPendingIfNone (r : HuntResult) (s : State) : measures (setPendingIfNone r s) = measures s := by
  unfold setPendingIfNone
  split
  · split <;> simp
  · rfl

@[simp] theorem measures_suspendHunt (r : ResumePoint) (s : State) : measures (suspendHunt r s) = measures s := by
  simp [suspendHunt]

@[simp] theorem measures_startHunt (c : HuntCause) (s : State) : measures (startHunt c s).1 = measures s := by
  unfold startHunt
  dsimp only
  split
  · rw [measures_setHuntState, measures_beginWindow]; rfl
  · rfl

@[simp] theorem measures_trialEntry (w : Option (Nat × Nat × Option Feeder)) (c : Option HuntCause) (s : State) :
    measures (trialEntry w c s).1 = measures s := by
  unfold trialEntry
  dsimp only
  split
  · rfl
  · split_ifs <;> simp

/-- The HUNT trip of a feeder whose lock the hunt has taken, whatever the answer. -/
@[simp] theorem measures_tripCandidate (i : Nat) (f : Feeder) (s : State) : measures (tripCandidate i f s).1 = measures s := by
  unfold tripCandidate
  dsimp only
  split
  · simp
  · next h => split <;> simp [measures_huntTakeLock h]

@[simp] theorem measures_candidateTurn (i : Nat) (f : Feeder) (s : State) : measures (candidateTurn i f s).1 = measures s := by
  unfold candidateTurn
  dsimp only
  split_ifs <;> simp

@[simp] theorem measures_nextCandidate (s : State) : measures (nextCandidate s).1 = measures s := by
  unfold nextCandidate
  split
  · rfl
  · split
    · rfl
    · split
      · simp
      · split_ifs
        · simp
        · simp
        · split <;> simp

@[simp] theorem measures_concludeRestore (f : Feeder) (b : Bool) (s : State) : measures (concludeRestore f b s).1 = measures s := by
  unfold concludeRestore
  split
  · rfl
  · split <;> simp

@[simp] theorem measures_restoreFeeder (f : Feeder) (s : State) : measures (restoreFeeder f s).1 = measures s := by
  unfold restoreFeeder
  dsimp only
  split <;> simp

@[simp] theorem measures_detectorUnresolved (vn : Option Nat) (s : State) : measures (detectorUnresolved vn s) = measures s := by
  unfold detectorUnresolved
  split
  · rfl
  · rw [measures_broadcast]; rfl

@[simp] theorem measures_becomeIdle (vn : Option Nat) (h : HuntRun) (r : HuntResult) (s : State) :
    measures (becomeIdle vn h r s).1 = measures s := by
  have idle : ∀ rep, measures (sayHunt h.state .idle {} { s with hunt := none, lastHunt := some rep }) = measures s :=
    fun _ => measures_broadcast _ _
  unfold becomeIdle
  dsimp only
  split_ifs <;> simp [idle]

@[simp] theorem measures_restoreIdentified (f : Feeder) (s : State) : measures (restoreIdentified f s).1 = measures s := by
  unfold restoreIdentified outcomeWithoutRestore
  dsimp only
  split
  · simp
  · split
    · simp
    · simp
    · simp
    · split
      · simp
      · next h => simp [measures_huntTakeLock h]

@[simp] theorem measures_finishHunt (vn : Option Nat) (s : State) : measures (finishHunt vn s).1 = measures s := by
  unfold finishHunt outcomeWithoutRestore
  split
  · rfl
  · split
    · rfl
    · split
      · simp
      · split
        · split <;> simp
        · split <;> simp

theorem measures_huntRun (vn : Option Nat) : ∀ (n : Nat) (x : State × HuntGo), measures (huntRun vn n x) = measures x.1
  | 0, _ => rfl
  | n + 1, (s, g) => by
    unfold huntRun
    split
    · rfl
    · rw [measures_huntRun]
      cases g <;> simp [huntStep]

@[simp] theorem measures_huntSettle (vn : Option Nat) (x : State × HuntGo) : measures (huntSettle vn x) = measures x.1 :=
  measures_huntRun _ _ _

/-! ### What reaches the hunt -/

@[simp] theorem measures_foundOn (f : Feeder) (r : HuntResult) (s : State) : measures (foundOn f r s).1 = measures s := by
  simp [foundOn, placeSystemClaim]

@[simp] theorem measures_huntOpDone (f : Feeder) (id : Nat) (kind : OpKind) (o : OpOutcome) (sup : Option Origin) (s : State) :
    measures (huntOpDone f id kind o sup s).1 = measures s := by
  have isolate : ∀ h, measures (isolateDone h f o s).1 = measures s := fun h => by
    unfold isolateDone
    dsimp only
    split_ifs <;> simp
  have trial : ∀ h i, measures (trialTripDone h i f o s).1 = measures s := fun h i => by
    unfold trialTripDone
    dsimp only
    split_ifs <;> simp
  unfold huntOpDone
  split
  · rfl
  · split
    · rfl
    · split
      · split <;> simp [isolate, trial]
      · rfl

@[simp] theorem measures_huntProtectionTrip (f : Feeder) (s : State) : measures (huntProtectionTrip f s) = measures s := by
  unfold huntProtectionTrip
  split
  · rfl
  · split
    · simp
    · split <;> simp
    · rfl

@[simp] theorem measures_deliver (vn : Option Nat) (ns : List HuntNotice) (s : State) : measures (deliver vn ns s) = measures s := by
  unfold deliver
  induction ns generalizing s with
  | nil => rfl
  | cons n ns ih => rw [List.foldl_cons, ih]; cases n <;> simp

@[simp] theorem measures_huntDropout (s : State) : measures (huntDropout s).1 = measures s := by
  unfold huntDropout
  split
  · rfl
  · split <;> (try split) <;> (try split_ifs) <;> simp

@[simp] theorem measures_abortHunt (r : HuntResult) (s : State) : measures (abortHunt r s).1 = measures s := by
  unfold abortHunt
  split
  · rfl
  · split
    · rfl
    · split <;> simp

@[simp] theorem measures_countFrame (rs : PerFeeder ScoredRecord) (s : State) : measures (countFrame rs s).1 = measures s := by
  have isolate : ∀ f w t, measures (enterIsolate f w t).1 = measures t := fun f w t => by
    unfold enterIsolate
    dsimp only
    split
    · simp
    · split
      · simp
      · next h => split <;> simp [measures_huntTakeLock h]
  have judged : ∀ h w t, measures (endWindow h w t).1 = measures t := fun h w t => by
    unfold endWindow
    dsimp only
    split
    · split <;> simp [isolate]
    · simp
  unfold countFrame
  dsimp only
  split
  · rfl
  · split
    · split <;> simp [judged]
    · rfl

/-! ### What an accepted frame reaches -/

@[simp] theorem measures_protectionTrip (vn : Option Nat) (f : Feeder) (permit : Bool) (s : State) :
    measures (protectionTrip vn f permit s) = measures s := by
  simp [protectionTrip]

@[simp] theorem measures_raiseTrip (vn : Option Nat) (f : Feeder) (r : FeederRecord) (fire : FeederFire) (els : List ElementName)
    (s : State) : measures (raiseTrip vn f r fire els s) = measures s := by
  unfold raiseTrip
  split
  · rfl
  · rw [measures_protectionTrip, measures_broadcast, measures_onFeeder_of_eq _ _ _ rfl]

@[simp] theorem measures_reachElements (vn : Option Nat) (f : Feeder) (n : Nat) (r : FeederRecord) (s : State) :
    measures (reachElements vn f n r s) = measures s := by
  unfold reachElements reportElements
  dsimp only
  split
  · rfl
  · split
    · rfl
    · rw [measures_judge, measures_onFeeder_of_eq _ _ _ rfl, measures_raiseTrip, measures_onFeeder_of_eq _ _ _ rfl]

theorem measures_huntFrame (fr : MeasFrame) (s : State) : measures (huntFrame fr s) = measures s := by
  have moved : ∀ d, measures { s with detector := d } = measures s := fun _ => rfl
  have detected : measures (detectorFrame fr.vn fr.busValid fr.interval s) = measures s := by
    unfold detectorFrame
    dsimp only
    split_ifs <;> simp [moved]
  unfold huntFrame
  dsimp only
  split
  · rw [measures_huntSettle, measures_countFrame, detected]
  · exact detected

end Sys2Proof.Machine
end

