-- ==== Sys2Proof/Proofs/MeasurementStates.lean ====
section
/-! PROOFS. The measurement states, their counts and the MEASURE claims through an accepted frame (R3 to R6). -/
namespace Sys2Proof.Machine

/-- What the intake holds of a feeder, with its MEASURE claim. -/
def measurement (s : State) (f : Feeder) : MeasState × Nat × Nat × Bool :=
  ((s.feeder f).meas, (s.feeder f).invalidCount, (s.feeder f).recoveryCount, (s.feeder f).claims.measure)

/-- The table of R4 with the claim of R6. -/
def measurementNext (valid : Bool) (q : MeasState × Nat × Nat × Bool) : MeasState × Nat × Nat × Bool :=
  let new := measNext valid q.1 q.2.1 q.2.2.1
  (new.1, new.2.1, new.2.2,
    if new.1 = .lost ∧ q.1 ≠ .lost then true
    else if new.1 = .valid ∧ (q.1 = .lost ∨ q.1 = .awaiting) then false else q.2.2.2)

theorem measurement_eq {s t : State} {f : Feeder} (h : Untouched (s.feeder f) (t.feeder f)) (hm : measures t f = measures s f) :
    measurement t f = measurement s f := by
  unfold measures at hm
  simp only [measurement, h.meas, h.invalidCount, h.recoveryCount, hm]

theorem measures_setSystemClaim_of_ne {f g : Feeder} (h : f ≠ g) (n : SystemClaim) (on : Bool) (s : State) :
    measures (setSystemClaim g n on s) f = measures s f := by
  have put : measures (s.onFeeder g fun x => { x with claims := x.claims.put n on }) f = measures s f := by
    simp only [measures, State.feeder_onFeeder_of_ne _ h]
  unfold setSystemClaim claimEntered claimLeft
  dsimp only
  split
  · rfl
  · split <;> simp [put]

theorem measures_setMeasure (f : Feeder) (on : Bool) (s : State) : measures (setSystemClaim f .measure on s) f = on := by
  have put : measures (s.onFeeder f fun x => { x with claims := x.claims.put .measure on }) f = on := by
    simp only [measures, State.feeder_onFeeder_self]
    rfl
  unfold setSystemClaim claimEntered claimLeft
  dsimp only
  split
  · assumption
  · split <;> simp [put]

theorem measures_onMeas (f : Feeder) (v : Bool) (s : State) : measures (s.onFeeder f (measMove v)) = measures s :=
  measures_onFeeder_of_eq f _ s (by rw [measMove_eq]; rfl)

/-! ### A record -/

theorem measurement_measRecord_of_ne {f g : Feeder} (h : f ≠ g) (v : Bool) (s : State) :
    measurement (measRecord g v s) f = measurement s f := by
  have := everywhere
  have same : Untouched (s.feeder f) ((s.onFeeder g (measMove v)).feeder f) := by
    rw [State.feeder_onFeeder_of_ne _ h]
    exact .refl _
  refine measurement_eq ((untouched_stays f _).measRecord g v s same) ?_
  unfold measRecord placeSystemClaim removeSystemClaim
  dsimp only
  split
  · rw [measures_judged, measures_setSystemClaim_of_ne h, measures_broadcast, measures_onMeas]
  · split
    · rw [measures_setSystemClaim_of_ne h, measures_broadcast, measures_onMeas]
    · rw [measures_onMeas]

theorem measurement_measRecord (f : Feeder) (v : Bool) (s : State) :
    measurement (measRecord f v s) f = measurementNext v (measurement s f) := by
  have := everywhere
  have moved := measMove_next v (s.feeder f)
  have same : Untouched (measMove v (s.feeder f)) ((measRecord f v s).feeder f) :=
    (untouched_stays f _).measRecord f v s (by rw [State.feeder_onFeeder_self]; exact .refl _)
  have claim : measures (measRecord f v s) f = (measurementNext v (measurement s f)).2.2.2 := by
    have hm : (measMove v (s.feeder f)).meas = (measNext v (s.feeder f).meas (s.feeder f).invalidCount (s.feeder f).recoveryCount).1 :=
      congrArg Prod.fst moved
    unfold measRecord placeSystemClaim removeSystemClaim measurementNext measurement
    dsimp only
    rw [State.feeder_onFeeder_self, ← hm]
    split
    · rw [measures_judged, measures_setMeasure]
    · split
      · rw [measures_setMeasure]
      · rw [measures_onMeas]
        rfl
  have parts : ((measRecord f v s).feeder f).meas = (measurementNext v (measurement s f)).1 ∧
      ((measRecord f v s).feeder f).invalidCount = (measurementNext v (measurement s f)).2.1 ∧
      ((measRecord f v s).feeder f).recoveryCount = (measurementNext v (measurement s f)).2.2.1 :=
    ⟨same.meas.trans (congrArg Prod.fst moved), same.invalidCount.trans (congrArg (fun p => p.2.1) moved),
      same.recoveryCount.trans (congrArg (fun p => p.2.2) moved)⟩
  unfold measures at claim
  rw [measurement, parts.1, parts.2.1, parts.2.2, claim]

/-! ### A frame -/

/-- A step of the engine that leaves the MEASURE claims leaves what the intake holds. -/
theorem measurement_reachElements (vn : Option Nat) (g : Feeder) (n : Nat) (r : FeederRecord) (f : Feeder) (s : State) :
    measurement (reachElements vn g n r s) f = measurement s f :=
  have := everywhere
  measurement_eq ((untouched_stays f (s.feeder f)).reachElements vn g n r s (.refl _)) (by rw [measures_reachElements])

theorem measurement_huntFrame (fr : MeasFrame) (f : Feeder) (s : State) : measurement (huntFrame fr s) f = measurement s f :=
  have := everywhere
  measurement_eq ((untouched_stays f (s.feeder f)).huntFrame fr s (.refl _)) (by rw [measures_huntFrame])

/-- What an accepted frame leaves of a feeder's measurement state (R3, R4, R6). -/
theorem measurement_acceptFrame (fr : MeasFrame) (f : Feeder) (s : State) :
    measurement (acceptFrame fr s) f =
      if s.fitted f = true then measurementNext (fr.records.get f).valid (measurement s f) else measurement s f := by
  have measured : measurement (measuredBy fr s) f =
      if s.fitted f = true then measurementNext (fr.records.get f).valid (measurement s f) else measurement s f := by
    have linked : measurement (linkedBy fr s) f = measurement s f := rfl
    show measurement (forFeeders s.fittedFeeders (fun f => measRecord f (fr.records.get f).valid) (linkedBy fr s)) f = _
    by_cases hf : s.fitted f = true
    · rw [if_pos hf]
      exact forFeeders_once (P := fun t => measurement t f = measurement s f)
        (Q := fun t => measurement t f = measurementNext (fr.records.get f).valid (measurement s f))
        (step := fun f => measRecord f (fr.records.get f).valid)
        (fun g t hg ht => (measurement_measRecord_of_ne (Ne.symm hg) _ t).trans ht)
        (fun t ht => (measurement_measRecord f _ t).trans (by rw [ht]))
        (fun g t hg ht => (measurement_measRecord_of_ne (Ne.symm hg) _ t).trans ht)
        s.nodup_fittedFeeders ((s.mem_fittedFeeders f).2 hf) linked
    · rw [if_neg hf]
      exact forFeeders_others (P := fun t => measurement t f = measurement s f)
        (step := fun f => measRecord f (fr.records.get f).valid)
        (fun g t hg ht => (measurement_measRecord_of_ne (Ne.symm hg) _ t).trans ht)
        (fun hm => hf ((s.mem_fittedFeeders f).1 hm)) linked
  have reached : measurement (reachedBy fr s) f = measurement (measuredBy fr s) f :=
    forFeeders_keeps (fun t => measurement t f = measurement (measuredBy fr s) f) _
      (fun g t ht => (measurement_reachElements _ g _ _ f t).trans ht) _ _ rfl
  rw [acceptFrame_eq, measurement_huntFrame, reached, measured]

/-! ### The entries of a record -/

theorem measRecord_toLost {f : Feeder} {s : State} (ha : (s.feeder f).ar.state ≠ .deadTime) (hm : (s.feeder f).meas = .holding)
    (hi : (s.feeder f).invalidCount = 2) :
    measRecord f false s =
      withClaim .measure f
        (broadcast (.measLost f .records)
          (s.onFeeder f fun y => { y with meas := .lost, invalidCount := 3, recoveryCount := 0 })) := by
  have move : measMove false (s.feeder f) = { s.feeder f with meas := .lost, invalidCount := 3, recoveryCount := 0 } := by
    simp [measMove, hm, hi]
  have moved : s.onFeeder f (measMove false) =
      s.onFeeder f fun y => { y with meas := .lost, invalidCount := 3, recoveryCount := 0 } := by
    unfold State.onFeeder
    unfold State.feeder at move
    rw [move]
  unfold measRecord
  dsimp only
  rw [moved, if_pos ⟨by rw [State.feeder_onFeeder_self], by simp [hm]⟩]
  refine placeSystemClaim_other ?_ .measure
  rw [feeder_broadcast, State.feeder_onFeeder_self]
  exact ha

theorem measRecord_toValid {f : Feeder} {s : State} (hm : (s.feeder f).meas = .awaiting ∨ (s.feeder f).meas = .lost)
    (hr : (s.feeder f).recoveryCount = 4) :
    measRecord f true s =
      withoutClaim .measure f
        (broadcast (.measRestored f)
          (s.onFeeder f fun y =>
            { y with
              meas := .valid
              invalidCount := if (s.feeder f).meas = .lost then 0 else y.invalidCount
              recoveryCount := 0 })) := by
  have move : measMove true (s.feeder f) =
      { s.feeder f with
        meas := .valid
        invalidCount := if (s.feeder f).meas = .lost then 0 else (s.feeder f).invalidCount
        recoveryCount := 0 } := by
    rcases hm with hm | hm <;> simp [measMove, hm, hr]
  have moved : s.onFeeder f (measMove true) =
      s.onFeeder f fun y =>
        { y with
          meas := .valid
          invalidCount := if (s.feeder f).meas = .lost then 0 else y.invalidCount
          recoveryCount := 0 } := by
    unfold State.onFeeder State.feeder at *
    rw [move]
  unfold measRecord
  dsimp only
  rw [moved, if_neg (fun c => by rw [State.feeder_onFeeder_self] at c; cases c.1), if_pos ⟨by rw [State.feeder_onFeeder_self], hm.symm⟩]
  exact setSystemClaim_false _ _ _

end Sys2Proof.Machine

open Sys2Proof Sys2Proof.Machine

/-- Settles O9: each record moves its own feeder by the table, and nothing else in the frame does. -/
theorem measurementStateMovesByItsTable : Obligations.MeasurementStateMovesByItsTable := by
  refine ⟨fun bs s t f hr hl hc hs ht => ?_, fun f s ha => ⟨fun hm hi => measRecord_toLost ha hm hi, fun hm hr => measRecord_toValid hm hr⟩⟩
  have accepted : Accepted bs s := ⟨hr, hl, hc, hs⟩
  obtain rfl : acceptFrame (frameAt bs) s = t := Host.Outcome.next.inj (accepted.exec.symm.trans ht)
  intro valid x
  have h := measurement_acceptFrame (frameAt bs) f s
  rw [frameAt_record] at h
  generalize acceptFrame (frameAt bs) s = t at h
  by_cases hf : s.fitted f = true
  · rw [if_pos hf] at h
    obtain ⟨hm, hi, hr, hc⟩ : _ ∧ _ ∧ _ ∧ _ := by simpa only [measurement, measurementNext, Prod.mk.injEq] using h
    rw [hm, hi, hr, hc, if_neg (by rw [hf]; decide)]
    refine ⟨?_, if_congr And.comm rfl (if_congr And.comm rfl rfl)⟩
    rfl
  · rw [if_neg hf] at h
    obtain ⟨hm, hi, hr, hc⟩ : _ ∧ _ ∧ _ ∧ _ := by simpa only [measurement, Prod.mk.injEq] using h
    rw [hm, hi, hr, hc, if_pos (by simpa using hf)]
    refine ⟨rfl, ?_⟩
    rw [if_neg (fun c => c.1 c.2), ite_eq_right_iff.2]
    rintro ⟨c | c, d⟩ <;> exact absurd (c.symm.trans d) (by decide)
end

