-- ==== Sys2Proof/Proofs/LinkLoss.lean ====
section
/-! PROOFS. The link-loss deadline (R8), and a hunt that it aborts (R164, R168, R169). -/
namespace Sys2Proof.Machine

theorem PerFeeder.ext_get {α : Type} {x y : PerFeeder α} (h : ∀ f, x.get f = y.get f) : x = y := by
  have h1 := h .f1
  have h2 := h .f2
  have h3 := h .f3
  have h4 := h .f4
  have h5 := h .f5
  have h6 := h .f6
  cases x
  cases y
  simp only [PerFeeder.get] at h1 h2 h3 h4 h5 h6
  simp only [h1, h2, h3, h4, h5, h6]

/-! ### What the deadline leaves -/

theorem exec_linkLossDeadline_reached {s : State} {d : Nat} (hr : s.phase = .running) (hd : s.linkDeadline = some d)
    (h : d ≤ s.partTime) : exec .linkLossDeadline s = .next (linkLoss s) := by
  show Host.Outcome.next (whileRunning _ s) = _
  rw [whileRunning, if_pos hr, linkLossDue, hd, if_pos ((reached_some s d).2 h)]

theorem exec_linkLossDeadline_before {s : State} (h : ∀ d, s.linkDeadline = some d → s.partTime < d) :
    exec .linkLossDeadline s = .next s := by
  have early : reached s s.linkDeadline = false := by
    cases hd : s.linkDeadline with
    | none => rfl
    | some d => simpa [reached] using h d hd
  show Host.Outcome.next (whileRunning _ s) = _
  rw [whileRunning, linkLossDue, early]
  simp

/-- A feeder's part in the link's loss: LOST, its counts 3 and 0 (R8). -/
def lostMeas (x : FeederState) : FeederState := { x with meas := .lost, invalidCount := 3, recoveryCount := 0 }

/-- The state in which the link and every fitted feeder are LOST, before the entries and the claims (R8). -/
def lostBy (s : State) : State :=
  { s with
    link := .lost, linkDeadline := none, lastSequence := none, bus := { s.bus with valid := false }
    feeders := .of fun f => if s.fitted f then lostMeas (s.feeder f) else s.feeder f }

theorem lostBy_feeder (s : State) (f : Feeder) :
    (lostBy s).feeder f = if s.fitted f = true then lostMeas (s.feeder f) else s.feeder f := PerFeeder.get_of _ _

/-- The state after the entries and the claims of the link's loss (R6, R8). -/
def lossTold (s : State) : State :=
  broadcast (.linkLost s.lastFrameTime) (forFeeders s.fittedFeeders (feederLinkLoss s.feeders) (lostBy s))

/-- A change of several feeders, each on its own, as one change. -/
theorem forFeeders_onFeeder (k : Feeder → FeederState → FeederState) {fs : List Feeder} (hn : fs.Nodup) (s : State) :
    forFeeders fs (fun f a => a.onFeeder f (k f)) s = { s with feeders := .of fun f => if f ∈ fs then k f (s.feeder f) else s.feeder f } := by
  have shell : forFeeders fs (fun f a => a.onFeeder f (k f)) s = { s with feeders := (forFeeders fs (fun f a => a.onFeeder f (k f)) s).feeders } :=
    forFeeders_keeps (fun t => t = { s with feeders := t.feeders }) _ (fun f t ht => by rw [ht]; rfl) _ _ rfl
  rw [shell]
  congr 1
  refine PerFeeder.ext_get fun f => ?_
  rw [PerFeeder.get_of]
  by_cases hf : f ∈ fs
  · rw [if_pos hf]
    exact forFeeders_once (P := fun t => t.feeder f = s.feeder f) (Q := fun t => t.feeder f = k f (s.feeder f))
      (step := fun f a => a.onFeeder f (k f)) (fun g t hg ht => (State.feeder_onFeeder_of_ne _ (Ne.symm hg) _).trans ht)
      (fun t ht => by rw [State.feeder_onFeeder_self, ht]) (fun g t hg ht => (State.feeder_onFeeder_of_ne _ (Ne.symm hg) _).trans ht)
      hn hf rfl
  · rw [if_neg hf]
    exact forFeeders_others (P := fun t => t.feeder f = s.feeder f) (step := fun f a => a.onFeeder f (k f))
      (fun g t hg ht => (State.feeder_onFeeder_of_ne _ (Ne.symm hg) _).trans ht) hf rfl

/-- The deadline's effect, in its parts: the states, the entries and claims, the hunt (R8, R169). -/
theorem linkLoss_eq (s : State) : linkLoss s = huntSettle none (abortHunt .abortedLink (lossTold s)) := by
  unfold linkLoss lossTold
  dsimp only
  rw [forFeeders_onFeeder (fun _ => _) s.nodup_fittedFeeders]
  congr 4
  simp only [State.mem_fittedFeeders]
  rfl

theorem measurement_feederLinkLoss (old : PerFeeder FeederState) (f g : Feeder) (s : State) :
    measurement (feederLinkLoss old g s) f =
      if f = g then ((measurement s f).1, (measurement s f).2.1, (measurement s f).2.2.1, true) else measurement s f := by
  have := everywhere
  have same : Untouched (s.feeder f) ((feederLinkLoss old g s).feeder f) := by
    refine (untouched_stays f (s.feeder f)).placeSystemClaim g .measure _ (by decide) ?_
    split
    · exact .refl _
    · rw [feeder_broadcast]; exact .refl _
  have claim : measures (feederLinkLoss old g s) f = if f = g then true else measures s f := by
    unfold feederLinkLoss placeSystemClaim
    dsimp only
    rw [measures_judged]
    by_cases h : f = g
    · rw [if_pos h, h, measures_setMeasure]
    · rw [if_neg h, measures_setSystemClaim_of_ne h]
      split <;> simp
  by_cases h : f = g
  · rw [if_pos h] at claim ⊢
    unfold measures at claim
    simp only [measurement, same.meas, same.invalidCount, same.recoveryCount, claim]
  · rw [if_neg h] at claim ⊢
    exact measurement_eq same claim

/-- The measurement states and the MEASURE claims that the loss of the link leaves (R6, R8). -/
theorem measurement_lossTold (s : State) (f : Feeder) :
    measurement (lossTold s) f = if s.fitted f = true then (.lost, 3, 0, true) else measurement s f := by
  have said : measurement (lossTold s) f = measurement (forFeeders s.fittedFeeders (feederLinkLoss s.feeders) (lostBy s)) f := by
    simp only [lossTold, measurement, feeder_broadcast]
  have other : ∀ q g t, g ≠ f → measurement t f = q → measurement (feederLinkLoss s.feeders g t) f = q := fun q g t hg ht => by
    rw [measurement_feederLinkLoss, if_neg (Ne.symm hg), ht]
  have start : measurement (lostBy s) f =
      if s.fitted f = true then (.lost, 3, 0, (s.feeder f).claims.measure) else measurement s f := by
    simp only [measurement, lostBy_feeder]
    split <;> rfl
  rw [said]
  by_cases hf : s.fitted f = true
  · rw [if_pos hf] at start ⊢
    exact forFeeders_once (P := fun t => measurement t f = (.lost, 3, 0, (s.feeder f).claims.measure))
      (Q := fun t => measurement t f = (.lost, 3, 0, true)) (fun g t hg => other _ g t hg)
      (fun t ht => by rw [measurement_feederLinkLoss, if_pos rfl, ht]) (fun g t hg => other _ g t hg) s.nodup_fittedFeeders
      ((s.mem_fittedFeeders f).2 hf) start
  · rw [if_neg hf] at start ⊢
    exact forFeeders_others (P := fun t => measurement t f = measurement s f) (fun g t hg => other _ g t hg)
      (fun hm => hf ((s.mem_fittedFeeders f).1 hm)) start

theorem lossTold_shell (s : State) : SameShell (lostBy s) (lossTold s) := by
  have := everywhere
  refine SameShell.trans (forFeeders_keeps (SameShell (lostBy s)) _ (fun f t ht => ?_) _ _ (.refl _)) (sameShell_broadcast _ _)
  refine (shell_stays _).placeSystemClaim f .measure _ (by decide) ?_
  split
  · exact ht
  · exact ht.trans (sameShell_broadcast _ _)

theorem linkLoss_shell (s : State) : SameShell (lostBy s) (linkLoss s) := by
  have := everywhere
  rw [linkLoss_eq]
  exact (shell_stays _).huntSettle _ _ ((shell_stays _).abortHunt _ _ (lossTold_shell s))

theorem measurement_linkLoss (s : State) (f : Feeder) :
    measurement (linkLoss s) f = if s.fitted f = true then (.lost, 3, 0, true) else measurement s f := by
  have := everywhere
  rw [linkLoss_eq, ← measurement_lossTold]
  refine measurement_eq ?_ (by rw [measures_huntSettle, measures_abortHunt])
  exact (untouched_stays f _).huntSettle _ _ ((untouched_stays f _).abortHunt _ _ (.refl _))

/-! ### Its entries -/

theorem withClaim_measure_feeder (n : SystemClaim) (f g : Feeder) (s : State) :
    ∃ c, (withClaim n f s).feeder g = { s.feeder g with claims := c } := by
  unfold withClaim
  split
  · exact ⟨_, rfl⟩
  · rw [feeder_broadcast]
    by_cases h : g = f
    · subst h
      exact ⟨_, State.feeder_onFeeder_self _ _ _⟩
    · exact ⟨(s.feeder g).claims, State.feeder_onFeeder_of_ne _ h _⟩

/-- A fold of the feeders' entries, each of which sees a sequencer that is not in DEAD_TIME (R8, R100). -/
theorem forFeeders_feederLinkLoss (old : PerFeeder FeederState) : ∀ (fs : List Feeder) (s : State),
    (∀ f ∈ fs, (s.feeder f).ar.state ≠ .deadTime) →
    forFeeders fs (feederLinkLoss old) s =
      fs.foldl (fun a f => withClaim .measure f (if (old.get f).meas = .lost then a else broadcast (.measLost f .link) a)) s
  | [], _, _ => rfl
  | f :: fs, s, h => by
    have said : ∀ g, (if (old.get f).meas = .lost then s else broadcast (.measLost f .link) s).feeder g = s.feeder g := fun g => by
      split
      · rfl
      · rw [feeder_broadcast]
    have first : feederLinkLoss old f s =
        withClaim .measure f (if (old.get f).meas = .lost then s else broadcast (.measLost f .link) s) :=
      placeSystemClaim_other (by rw [said]; exact h f List.mem_cons_self) _
    show forFeeders fs (feederLinkLoss old) (feederLinkLoss old f s) = _
    rw [forFeeders_feederLinkLoss old fs, first]
    · rfl
    · intro g hg
      rw [first, withClaim_ar, said]
      exact h g (List.mem_cons_of_mem _ hg)

theorem lossTold_eq {s : State} (h : ∀ f, s.fitted f = true → (s.feeder f).ar.state ≠ .deadTime) :
    lossTold s =
      broadcast (.linkLost s.lastFrameTime)
        (s.fittedFeeders.foldl
          (fun a f => withClaim .measure f (if (s.feeder f).meas = .lost then a else broadcast (.measLost f .link) a)) (lostBy s)) := by
  unfold lossTold
  rw [forFeeders_feederLinkLoss]
  · rfl
  · intro f hf
    have fitted := (s.mem_fittedFeeders f).1 hf
    rw [lostBy_feeder, if_pos fitted]
    exact h f fitted

/-! ### A hunt that the loss of the link ends -/

/-- A state that differs from another in the hunt, the queues and the feeders' locks alone. -/
structure LocksOnly (s t : State) : Prop where
  rest : t = { s with hunt := t.hunt, queues := t.queues, feeders := t.feeders }
  feeder : ∀ f, t.feeder f = { s.feeder f with lock := (t.feeder f).lock }

section
variable {s t u : State}

theorem LocksOnly.refl (s : State) : LocksOnly s s := ⟨rfl, fun _ => rfl⟩

theorem LocksOnly.trans (h : LocksOnly s t) (k : LocksOnly t u) : LocksOnly s u := by
  refine ⟨?_, fun f => ?_⟩
  · have e := k.rest
    rw [h.rest] at e
    exact e
  · have e := k.feeder f
    rw [h.feeder f] at e
    exact e

/-- A change of the hunt and the queues. -/
theorem LocksOnly.sameFeeders (h : t = { s with hunt := t.hunt, queues := t.queues }) : LocksOnly s t := by
  have e : t.feeders = s.feeders := by rw [h]
  refine ⟨?_, fun f => ?_⟩
  · rw [e]; exact h
  · unfold State.feeder; rw [e]

/-- A change of one feeder's lock, besides the hunt and the queues. -/
theorem LocksOnly.ofLock {f : Feeder} {l : Lock}
    (h : t = { s with hunt := t.hunt, queues := t.queues, feeders := s.feeders.set f { s.feeder f with lock := l } }) : LocksOnly s t := by
  have e : t.feeders = s.feeders.set f { s.feeder f with lock := l } := by rw [h]
  refine ⟨?_, fun g => ?_⟩
  · rw [e]; exact h
  · unfold State.feeder
    rw [e]
    by_cases hg : g = f
    · subst hg; rw [PerFeeder.get_set_self]; rfl
    · rw [PerFeeder.get_set_of_ne _ hg]

theorem LocksOnly.nothingPending (h : LocksOnly s t) {f : Feeder} (hn : NothingPending s f) : NothingPending t f :=
  hn.congr (by rw [h.feeder f]) (by rw [h.rest]) (by rw [h.rest])

theorem LocksOnly.measures (h : LocksOnly s t) : Machine.measures t = Machine.measures s := by
  funext f
  unfold Machine.measures
  rw [h.feeder f]

theorem LocksOnly.position (h : LocksOnly s t) (f : Feeder) : (t.feeder f).position = (s.feeder f).position := by
  rw [h.feeder f]; rfl

theorem LocksOnly.inFlight (h : LocksOnly s t) (f : Feeder) : (t.feeder f).inFlight = (s.feeder f).inFlight := by rw [h.feeder f]

theorem LocksOnly.fitted (h : LocksOnly s t) (f : Feeder) : t.fitted f = s.fitted f := by
  unfold State.fitted State.commissioning
  rw [h.rest]

theorem LocksOnly.opCounter (h : LocksOnly s t) : t.opCounter = s.opCounter := by rw [h.rest]
theorem LocksOnly.detector (h : LocksOnly s t) : t.detector = s.detector := by rw [h.rest]
theorem LocksOnly.partTime (h : LocksOnly s t) : t.partTime = s.partTime := by rw [h.rest]

end

/-- A feeder with a MEASURE claim may not be closed by the hunt (R97, R110). -/
theorem restoreBlocked_of_measure {f : Feeder} {s : State} (h : measures s f = true) : restoreBlocked s f = true := by
  by_contra hb
  have free := (restoreBlocked_iff s f).1 (by simpa using hb)
  exact absurd (free.1.symm.trans h) (by decide)

/-- The hunt's dropping of a lock, whether or not it held it (R118). -/
theorem huntDropLock_leaves {f : Feeder} {s : State} {h : HuntRun} (hh : s.hunt = some h) (hn : NothingPending s f) :
    LocksOnly s (huntDropLock f s) ∧ ∃ l, (huntDropLock f s).hunt = some { h with locked := l } := by
  by_cases hl : (s.feeder f).lock = .hunt
  · rw [huntDropLock_spec hl hn, hh]
    exact ⟨.ofLock (f := f) (l := .free) rfl, none, rfl⟩
  · rw [huntDropLock_other hl]
    exact ⟨.refl s, h.locked, hh⟩

/-- A hunt on its way to its end: its result is pending and nothing else of the part has changed but locks. -/
structure Ending (s t : State) (h : HuntRun) : Prop where
  locks : LocksOnly s t
  hunt : t.hunt = some h
  pending : h.pendingResult = some .abortedLink

/-- A restore that the MEASURE claim bars is concluded at once, STRANDED (R97, R110, R160). -/
theorem restoreFeeder_barred {f : Feeder} {s : State} {h : HuntRun} (hh : s.hunt = some h) (hp : (s.feeder f).position = .opened)
    (hm : measures s f = true) :
    restoreFeeder f s = concludeRestore f false
      { s with
        hunt := some { stepEnded h with state := .trialRestore, resume := none }
        queues := said (huntMoved s h.state .trialRestore {}) s } := by
  unfold restoreFeeder
  dsimp only
  rw [endStep_spec hh, setHuntState_spec (h := stepEnded h) rfl]
  obtain ⟨reason, barred⟩ := requestHuntClose_barred (f := f)
    (s := { s with
      hunt := some { stepEnded h with state := .trialRestore, resume := none }
      queues := said (huntMoved s h.state .trialRestore {}) s })
    (by show (s.feeder f).position ≠ .closed; rw [hp]; decide) (restoreBlocked_of_measure hm)
  have same : { { s with hunt := some (stepEnded h) } with
      hunt := some { stepEnded h with
        state := .trialRestore, resume := if HuntState.trialRestore = .suspended then (stepEnded h).resume else none }
      queues := said (huntMoved { s with hunt := some (stepEnded h) } (stepEnded h).state .trialRestore {})
        { s with hunt := some (stepEnded h) } } =
      { s with
        hunt := some { stepEnded h with state := .trialRestore, resume := none }
        queues := said (huntMoved s h.state .trialRestore {}) s } := by
    simp only [State.mk.injEq, true_and, and_true]
    exact ⟨rfl, said_congr _ rfl rfl rfl⟩
  rw [same, barred]

/-- The end of an aborted hunt with a current candidate sets that candidate's outcome, STRANDED of an open one (R163). -/
theorem finishHunt_candidate {s : State} {h : HuntRun} {j : Nat} {c : Candidate} (hh : s.hunt = some h)
    (hr : h.pendingResult = some .abortedLink) (hj : h.current = some j) (hc : (h.candidates.getD [])[j]? = some c)
    (hn : c.outcome = .notTried) (np : NothingPending s c.feeder) (hm : measures s c.feeder = true) :
    ∃ t g o h', finishHunt none s = (t, g) ∧ (g = .boundary ∨ g = .finish) ∧ Ending s t h' ∧ h'.current = none ∧
      h'.identified = h.identified ∧ h'.candidates = h.candidates.map (fun cs => cs.modify j fun c => { c with outcome := o }) ∧
      ((s.feeder c.feeder).position = .opened → o = .stranded) := by
  have first : candidateToRestore h = some (j, c.feeder) := by
    simp only [candidateToRestore, hj, HuntRun.candidateAt, hc, hn, if_true]
  have start : finishHunt none s =
      if (s.feeder c.feeder).position = .opened then restoreFeeder c.feeder s
      else outcomeWithoutRestore c.feeder
        (concludeCandidate j (if (s.feeder c.feeder).position = .closed then .healthyRestored else .stranded)) s := by
    simp only [finishHunt, hh, hr, first]
    rfl
  by_cases hp : (s.feeder c.feeder).position = .opened
  · rw [start, if_pos hp, restoreFeeder_barred hh hp hm]
    generalize said (huntMoved s h.state .trialRestore {}) s = queues
    let r : HuntRun := { stepEnded h with state := .trialRestore, resume := none }
    obtain ⟨locks, l, hunt⟩ := huntDropLock_leaves (f := c.feeder) (s := { s with hunt := some (concluded r j .stranded), queues := queues })
      rfl (np.congr rfl rfl rfl)
    exact ⟨_, .boundary, .stranded, _, by simp only [concludeRestore, r, stepEnded, hj]; rfl, .inl rfl,
      ⟨(LocksOnly.sameFeeders rfl).trans locks, hunt, hr⟩, rfl, rfl, rfl, fun _ => rfl⟩
  · rw [start, if_neg hp]
    generalize (if (s.feeder c.feeder).position = .closed then CandidateOutcome.healthyRestored else .stranded) = o
    have set : concludeCandidate j o s = { s with hunt := some (concluded h j o) } := by
      simp [concludeCandidate, setCandidate, State.onHunt, hh, concluded, outcomeAt]
    obtain ⟨locks, l, hunt⟩ := huntDropLock_leaves (f := c.feeder) (s := { s with hunt := some (concluded h j o) })
      rfl (np.congr rfl rfl rfl)
    refine ⟨_, .finish, o, _, by rw [outcomeWithoutRestore, set], .inr rfl, ⟨(LocksOnly.sameFeeders rfl).trans locks, hunt, hr⟩,
      rfl, rfl, rfl, fun c => absurd c hp⟩

/-- An end step of an aborted hunt has set the identified feeder's end restore, STRANDED of an open one. -/
def IdentifiedRestored (s : State) (h : HuntRun) (i : Identified) (x : State × HuntGo) : Prop :=
  ∃ t o h', x = (t, .finish) ∧ Ending s t h' ∧ h'.current = none ∧ h'.candidates = h.candidates ∧
    h'.identified = some { i with endRestore := some o } ∧ ((s.feeder i.feeder).position = .opened → o = .stranded)

/-- The end restore of the identified feeder of an aborted hunt is set at once (R163). -/
theorem restoreIdentified_barred {s : State} {h : HuntRun} {i : Identified} (hh : s.hunt = some h)
    (hr : h.pendingResult = some .abortedLink) (hj : h.current = none) (hid : h.identified = some i) (hf : s.fitted i.feeder = true)
    (np : NothingPending s i.feeder) (hm : measures s i.feeder = true) :
    IdentifiedRestored s h i (restoreIdentified i.feeder s) := by
  have apart : ∀ o, ((s.feeder i.feeder).position = .opened → o = EndRestore.stranded) →
      IdentifiedRestored s h i (outcomeWithoutRestore i.feeder (setEndRestore o) s) := by
    intro o ho
    have set : setEndRestore o s = { s with hunt := some { h with identified := some { i with endRestore := some o } } } := by
      simp [setEndRestore, State.onHunt, hh, hid]
    obtain ⟨locks, l, hunt⟩ := huntDropLock_leaves (f := i.feeder)
      (s := { s with hunt := some { h with identified := some { i with endRestore := some o } } }) rfl (np.congr rfl rfl rfl)
    exact ⟨_, o, _, by rw [outcomeWithoutRestore, set], ⟨(LocksOnly.sameFeeders rfl).trans locks, hunt, hr⟩, hj, rfl, rfl, ho⟩
  by_cases hl : (s.feeder i.feeder).lock.heldByPort = true
  · have e : restoreIdentified i.feeder s = outcomeWithoutRestore i.feeder (setEndRestore .stranded) s := by
      simp only [restoreIdentified, hl, or_true, if_true]
    rw [e]
    exact apart .stranded fun _ => rfl
  · have hl' : (s.feeder i.feeder).lock.heldByPort = false := by simpa using hl
    unfold restoreIdentified
    dsimp only
    rw [if_neg (by simp [hl', hf])]
    split
    · next hp => exact apart .notNeeded fun c => by rw [hp] at c; cases c
    · exact apart .stranded fun _ => rfl
    · exact apart .stranded fun _ => rfl
    · next hp =>
      rw [huntTakeLock_spec hl', hh]
      generalize said (lockTaken s i.feeder) s = queues
      have locked : LocksOnly s
          { s with
            feeders := s.feeders.set i.feeder { s.feeder i.feeder with lock := .hunt }
            hunt := some { h with locked := some i.feeder }, queues := queues } := .ofLock (f := i.feeder) (l := .hunt) rfl
      have hunt : ({ s with
          feeders := s.feeders.set i.feeder { s.feeder i.feeder with lock := .hunt }
          hunt := some { h with locked := some i.feeder }, queues := queues } : State).hunt =
        some { h with locked := some i.feeder } := rfl
      show IdentifiedRestored s h i (restoreFeeder i.feeder { s with
          feeders := s.feeders.set i.feeder { s.feeder i.feeder with lock := .hunt }
          hunt := some { h with locked := some i.feeder }, queues := queues })
      generalize ({ s with
          feeders := s.feeders.set i.feeder { s.feeder i.feeder with lock := .hunt }
          hunt := some { h with locked := some i.feeder }, queues := queues } : State) = t at locked hunt
      rw [restoreFeeder_barred hunt ((locked.position _).trans hp) (by rw [locked.measures]; exact hm)]
      generalize said (huntMoved t _ .trialRestore {}) t = queues
      let r : HuntRun := { stepEnded h with
        locked := some i.feeder, state := .trialRestore, resume := none, op := none
        identified := some { i with endRestore := some .stranded } }
      obtain ⟨locks, l, hunt⟩ := huntDropLock_leaves (f := i.feeder) (s := { t with hunt := some r, queues := queues })
        rfl ((locked.nothingPending np).congr rfl rfl rfl)
      refine ⟨_, .stranded, _, ?_, ⟨(locked.trans (.sameFeeders rfl)).trans locks, hunt, hr⟩, hj, rfl, rfl, fun _ => rfl⟩
      simp only [concludeRestore, stepEnded, hj, setEndRestore, State.onHunt, hid, r, Option.map_some]
      rfl

/-- What the end of an aborted hunt leaves: no hunt, its record, and an unresolved displacement (R164, R169). -/
structure Aborted (s t : State) (r : HuntReport) : Prop where
  hunt : t.hunt = none
  lastHunt : t.lastHunt = some r
  opCounter : t.opCounter = s.opCounter
  inFlight : ∀ f, (t.feeder f).inFlight = (s.feeder f).inFlight
  detector : t.detector = if s.detector.state = .quiet then s.detector else { s.detector with state := .unresolved }
  result : r.result = .abortedLink
  endTime : r.endTime = s.partTime
  found : r.found = none

/-- With nothing to restore, an aborted hunt is over (R164, R169). -/
theorem finishHunt_idle {s : State} {h : HuntRun} (hh : s.hunt = some h) (hr : h.pendingResult = some .abortedLink)
    (hj : h.current = none) (hi : identifiedToRestore h = none) :
    ∃ t, finishHunt none s = (t, .wait) ∧ Aborted s t (huntReport s h .abortedLink) := by
  have start : finishHunt none s = becomeIdle none h .abortedLink s := by
    simp only [finishHunt, hh, hr, candidateToRestore, hj, hi]
    rfl
  refine ⟨detectorUnresolved none (broadcast (.huntResult (huntReport s h .abortedLink))
    (sayHunt h.state .idle {} { s with hunt := none, lastHunt := some (huntReport s h .abortedLink) })), start, ?_⟩
  unfold detectorUnresolved sayHunt
  simp only [broadcast_form]
  by_cases hq : s.detector.state = .quiet
  · rw [if_pos hq]
    exact ⟨rfl, rfl, rfl, fun _ => rfl, (if_pos hq).symm, rfl, rfl, by simp only [huntReport, foundFeeder, hr]⟩
  · rw [if_neg hq]
    exact ⟨rfl, rfl, rfl, fun _ => rfl, (if_neg hq).symm, rfl, rfl, by simp only [huntReport, foundFeeder, hr]⟩

theorem Aborted.of_ending {s t u : State} {h : HuntRun} {r : HuntReport} (e : Ending s t h) (a : Aborted t u r) : Aborted s u r :=
  ⟨a.hunt, a.lastHunt, a.opCounter.trans e.locks.opCounter, fun f => (a.inFlight f).trans (e.locks.inFlight f),
    by rw [a.detector, e.locks.detector], a.result, a.endTime.trans e.locks.partTime, a.found⟩

theorem huntRun_wait (vn : Option Nat) (n : Nat) (s : State) : huntRun vn n (s, .wait) = s := by
  cases n <;> rfl

theorem huntRun_finish (vn : Option Nat) (n : Nat) (s : State) : huntRun vn (n + 1) (s, .finish) = huntRun vn n (finishHunt vn s) := rfl

theorem huntRun_boundary (vn : Option Nat) (n : Nat) (s : State) : huntRun vn (n + 1) (s, .boundary) = huntRun vn n (nextCandidate s) := rfl

theorem nextCandidate_pending {s : State} {h : HuntRun} (hh : s.hunt = some h) (hr : h.pendingResult = some .abortedLink) :
    nextCandidate s = (s, .finish) := by
  simp only [nextCandidate, hh, hr]
  rfl

/-- The identified feeder, when there is one, is one whose settings wait for nothing and that the MEASURE claim bars. -/
def IdentifiedBarred (s : State) (h : HuntRun) : Prop :=
  ∀ i, h.identified = some i → s.fitted i.feeder = true ∧ NothingPending s i.feeder ∧ measures s i.feeder = true

/-- The end of an aborted hunt that holds no current candidate (R163, R164, R169). -/
theorem abortedHunt_ends_identified {s : State} {h : HuntRun} (hh : s.hunt = some h) (hr : h.pendingResult = some .abortedLink)
    (hj : h.current = none) (hid : IdentifiedBarred s h) (n : Nat) :
    ∃ r, Aborted s (huntRun none (n + 2) (s, .finish)) r ∧ r.candidates = h.candidates ∧
      ∀ i, h.identified = some i → i.endRestore = none → i.isolate = .misidentified ∨ i.isolate = .opened →
        (s.feeder i.feeder).position = .opened → r.identified = some { i with endRestore := some .stranded } := by
  have idle : identifiedToRestore h = none → ∃ r, Aborted s (huntRun none (n + 2) (s, .finish)) r ∧ r.candidates = h.candidates ∧
      r.identified = h.identified := fun hi => by
    obtain ⟨t, he, ha⟩ := finishHunt_idle hh hr hj hi
    exact ⟨_, by rw [huntRun_finish, he, huntRun_wait]; exact ha, rfl, rfl⟩
  cases hi : h.identified with
  | none =>
    obtain ⟨r, ha, hc, -⟩ := idle (by simp only [identifiedToRestore, hi])
    exact ⟨r, ha, hc, fun _ c => nomatch c⟩
  | some i =>
    by_cases hn : i.endRestore = none ∧ (i.isolate = .misidentified ∨ i.isolate = .opened)
    · obtain ⟨hf, np, hm⟩ := hid i hi
      have first : finishHunt none s = restoreIdentified i.feeder s := by
        simp only [finishHunt, hh, hr, candidateToRestore, hj, identifiedToRestore, hi, hn, and_self, if_true]
        rfl
      obtain ⟨t, o, h', he, ending, hj', hc, hi', ho⟩ := restoreIdentified_barred hh hr hj hi hf np hm
      obtain ⟨u, hu, ha⟩ := finishHunt_idle ending.hunt ending.pending hj' (by simp only [identifiedToRestore, hi']; rfl)
      refine ⟨_, by rw [huntRun_finish, first, he, huntRun_finish, hu, huntRun_wait]; exact .of_ending ending ha, hc, ?_⟩
      rintro i' ⟨⟩ - - hp
      show h'.identified = _
      rw [hi', ho hp]
    · obtain ⟨r, ha, hc, -⟩ := idle (by simp only [identifiedToRestore, hi, hn, if_false])
      refine ⟨r, ha, hc, ?_⟩
      rintro i' ⟨⟩ h1 h2
      exact absurd ⟨h1, h2⟩ hn

/-- The current candidate, when there is one, is one not tried, whose settings wait for nothing and that the MEASURE claim bars. -/
def CandidateBarred (s : State) (h : HuntRun) : Prop :=
  ∀ j, h.current = some j → ∃ c, (h.candidates.getD [])[j]? = some c ∧ c.outcome = .notTried ∧ NothingPending s c.feeder ∧
    measures s c.feeder = true

/-- The end of an aborted hunt: the current candidate, the identified feeder, then IDLE (R163, R164, R169). -/
theorem abortedHunt_ends {s : State} {h : HuntRun} (hh : s.hunt = some h) (hr : h.pendingResult = some .abortedLink)
    (hcd : CandidateBarred s h) (hid : IdentifiedBarred s h) :
    ∃ r, Aborted s (huntSettle none (s, .finish)) r ∧
      (∀ j c, h.current = some j → (h.candidates.getD [])[j]? = some c → (s.feeder c.feeder).position = .opened →
        (r.candidates.getD [])[j]? = some { c with outcome := .stranded }) ∧
      ∀ i, h.identified = some i → i.endRestore = none → i.isolate = .misidentified ∨ i.isolate = .opened →
        (s.feeder i.feeder).position = .opened → r.identified = some { i with endRestore := some .stranded } := by
  cases hj : h.current with
  | none =>
    obtain ⟨r, ha, -, hi⟩ := abortedHunt_ends_identified hh hr hj hid 38
    exact ⟨r, ha, (fun _ _ c => nomatch c), hi⟩
  | some j =>
    obtain ⟨c, hc, hn, np, hm⟩ := hcd j hj
    obtain ⟨t, g, o, h', he, hg, ending, hj', hi', hcs, ho⟩ := finishHunt_candidate hh hr hj hc hn np hm
    have barred : IdentifiedBarred t h' := fun i hi => by
      obtain ⟨hf, np, hm⟩ := hid i (hi' ▸ hi)
      exact ⟨(ending.locks.fitted _).trans hf, ending.locks.nothingPending np, by rw [ending.locks.measures]; exact hm⟩
    obtain ⟨r, ha, hcr, hir⟩ : ∃ r, Aborted t (huntSettle none (s, .finish)) r ∧ r.candidates = h'.candidates ∧
        ∀ i, h'.identified = some i → i.endRestore = none → i.isolate = .misidentified ∨ i.isolate = .opened →
          (t.feeder i.feeder).position = .opened → r.identified = some { i with endRestore := some .stranded } := by
      unfold huntSettle huntFuel
      rw [huntRun_finish, he]
      rcases hg with rfl | rfl
      · rw [huntRun_boundary, nextCandidate_pending ending.hunt ending.pending]
        exact abortedHunt_ends_identified ending.hunt ending.pending hj' barred 36
      · exact abortedHunt_ends_identified ending.hunt ending.pending hj' barred 37
    refine ⟨r, .of_ending ending ha, ?_, fun i hi h1 h2 hp => hir i (hi'.trans hi) h1 h2 ((ending.locks.position _).trans hp)⟩
    rintro j' c' ⟨⟩ hc' hp
    obtain rfl : c = c' := Option.some.inj (hc.symm.trans hc')
    have listed : h.candidates = some (h.candidates.getD []) := by
      cases e : h.candidates with
      | none => rw [e] at hc; cases hc
      | some cs => rfl
    rw [hcr, hcs, ho hp, listed]
    simp [hc]

/-! ### The abort, from the state that the loss of the link leaves -/

/-- A feeder after the loss of the link: its measurement state and its claims alone have changed. -/
theorem lossTold_feeder {s : State} (h : ∀ f, s.fitted f = true → (s.feeder f).ar.state ≠ .deadTime) (f : Feeder) :
    ∃ m a b c, (lossTold s).feeder f = { s.feeder f with meas := m, invalidCount := a, recoveryCount := b, claims := c } := by
  have start : ∃ m a b c, (lostBy s).feeder f = { s.feeder f with meas := m, invalidCount := a, recoveryCount := b, claims := c } := by
    rw [lostBy_feeder]
    split
    · exact ⟨_, _, _, _, rfl⟩
    · exact ⟨_, _, _, _, rfl⟩
  rw [lossTold_eq h, feeder_broadcast]
  refine foldl_keeps (fun t => ∃ m a b c, t.feeder f =
    { s.feeder f with meas := m, invalidCount := a, recoveryCount := b, claims := c }) _ (fun t g ht => ?_) _ _ start
  obtain ⟨m, a, b, c, ht⟩ := ht
  obtain ⟨c', hc⟩ := withClaim_measure_feeder .measure g f (if (s.feeder g).meas = .lost then t else broadcast (.measLost g .link) t)
  refine ⟨m, a, b, c', hc.trans ?_⟩
  have same : (if (s.feeder g).meas = .lost then t else broadcast (.measLost g .link) t).feeder f = t.feeder f := by
    split
    · rfl
    · exact feeder_broadcast _ _ _
  rw [same, ht]

/-- The loss of the link changes the feeders and the queues, and nothing of the hunt unit. -/
theorem lossTold_rest {s : State} (h : ∀ f, s.fitted f = true → (s.feeder f).ar.state ≠ .deadTime) :
    lossTold s = { lostBy s with feeders := (lossTold s).feeders, queues := (lossTold s).queues } := by
  rw [lossTold_eq h]
  have claimed : ∀ g t, withClaim .measure g t = { t with feeders := (withClaim .measure g t).feeders, queues := (withClaim .measure g t).queues } :=
    fun g t => by
      unfold withClaim
      split
      · rfl
      · rw [broadcast_form]; rfl
  have folded : ∀ t, t = { lostBy s with feeders := t.feeders, queues := t.queues } →
      broadcast (.linkLost s.lastFrameTime) t = { lostBy s with
        feeders := (broadcast (.linkLost s.lastFrameTime) t).feeders, queues := (broadcast (.linkLost s.lastFrameTime) t).queues } :=
    fun t ht => by rw [broadcast_form, ht]
  refine folded _ (foldl_keeps (fun t => t = { lostBy s with feeders := t.feeders, queues := t.queues }) _ (fun t g ht => ?_) _ _ rfl)
  rw [claimed]
  split
  · rw [ht]
  · rw [broadcast_form, ht]

end Sys2Proof.Machine

open Sys2Proof Sys2Proof.Machine

/-- Settles O10: the deadline's parts, and a hunt that the MEASURE claims keep from closing anything. -/
theorem linkLossLosesEveryFeeder : Obligations.LinkLossLosesEveryFeeder := by
  refine ⟨fun s hr => ⟨fun d hd hle => ⟨⟨linkLoss s, exec_linkLossDeadline_reached hr hd hle, ?_⟩, fun hq => ?_⟩,
    exec_linkLossDeadline_before⟩, fun h s hh hi => ?_⟩
  · have shell := linkLoss_shell s
    exact ⟨shell.link, shell.linkDeadline, shell.lastSequence, shell.lastFrameTime, shell.bus, fun f => measurement_linkLoss s f⟩
  · intro lost told
    have toldEq : told = lossTold s := (lossTold_eq hq).symm
    have run := exec_linkLossDeadline_reached hr hd hle
    rw [linkLoss_eq, ← toldEq] at run
    have rest := lossTold_rest hq
    have at_feeder := lossTold_feeder hq
    have claims : ∀ f, s.fitted f = true → measures (lossTold s) f = true := fun f hf =>
      congrArg (fun p => p.2.2.2) ((measurement_lossTold s f).trans (if_pos hf))
    rw [← toldEq] at rest at_feeder claims
    have hunt : told.hunt = s.hunt := by rw [rest]; rfl
    refine ⟨fun hn => ?_, run, fun h hh hp hs hc hid => ?_⟩
    · have none : abortHunt .abortedLink told = (told, .wait) := by simp only [abortHunt, hunt, hn]
      rw [run, none, huntSettle, huntRun_wait]
    · obtain ⟨h', hr', hc', hid', abort⟩ : ∃ h' : HuntRun, h'.pendingResult = some .abortedLink ∧
          (h'.current = h.current ∧ h'.candidates = h.candidates) ∧ h'.identified = h.identified ∧
          abortHunt .abortedLink told = ({ told with hunt := some h' }, .finish) := by
        rw [abortHunt_spec (hunt.trans hh), hp]
        rcases hs with hs | hs | hs | hs <;> rw [hs]
        · exact ⟨resulting (stepEnded h) .abortedLink, rfl, ⟨rfl, rfl⟩, rfl, rfl⟩
        · exact ⟨resulting (stepEnded h) .abortedLink, rfl, ⟨rfl, rfl⟩, rfl, rfl⟩
        · exact ⟨resulting (stepEnded h) .abortedLink, rfl, ⟨rfl, rfl⟩, rfl, rfl⟩
        · exact ⟨resulting h .abortedLink, rfl, ⟨rfl, rfl⟩, rfl, rfl⟩
      have pending : ∀ f, NothingPending s f → NothingPending { told with hunt := some h' } f := fun f np => by
        obtain ⟨m, a, b, c, hf⟩ := at_feeder f
        refine np.congr ?_ ?_ ?_
        · show (told.feeder f).fire = _; rw [hf]
        · show told.districts = _; rw [rest]; rfl
        · show told.store.commissioning = _; rw [rest]; rfl
      have position : ∀ f, (s.feeder f).position = .opened → (({ told with hunt := some h' } : State).feeder f).position = .opened :=
        fun f hp => by
          obtain ⟨m, a, b, c, hf⟩ := at_feeder f
          show (told.feeder f).position = _
          rw [hf]
          exact hp
      obtain ⟨r, ha, hcr, hir⟩ := abortedHunt_ends (s := { told with hunt := some h' }) rfl hr'
        (fun j hj => by
          obtain ⟨c, h1, h2, h3, h4⟩ := hc j (hc'.1 ▸ hj)
          exact ⟨c, hc'.2 ▸ h1, h2, pending _ h4, claims _ h3⟩)
        (fun i hi => by
          obtain ⟨h1, h2⟩ := hid i (hid' ▸ hi)
          refine ⟨?_, pending _ h2, claims _ h1⟩
          show told.fitted _ = _
          rw [rest]
          exact h1)
      rw [← abort] at ha
      refine ⟨_, r, run, ha.hunt, ha.lastHunt, ha.opCounter.trans ?_, fun f => (ha.inFlight f).trans ?_, ha.detector.trans ?_,
        ha.result, ha.endTime.trans ?_, ha.found, fun j c hj hc hp => hcr j c (hc'.1.trans hj) (by rw [hc'.2]; exact hc) (position _ hp),
        fun i hi h1 h2 hp => hir i (hid'.trans hi) h1 h2 (position _ hp)⟩
      · show told.opCounter = _; rw [rest]; rfl
      · obtain ⟨m, a, b, c, hf⟩ := at_feeder f
        show (told.feeder f).inFlight = _; rw [hf]
      · show (if told.detector.state = .quiet then told.detector else { told.detector with state := .unresolved }) = _
        rw [rest]; rfl
      · show told.partTime = _; rw [rest]; rfl
  · intro go
    refine ⟨fun hp => ?_, fun hp => ⟨fun hs => ?_, fun hs => ?_, fun hs => ?_⟩⟩
    · exact (abortHunt_spec hh _).trans (if_pos (.inl hp))
    all_goals
      show abortHunt .abortedLink s = _
      rw [abortHunt_spec hh, hp]
    · rcases hs with hs | hs | hs <;> rw [hs] <;> rfl
    · rcases hs with hs | hs | hs <;> rw [hs] <;> rfl
    · rw [hs]; rfl
end

