-- ==== Sys2Proof/Proofs/Deadlines.lean ====
section
/-! PROOFS. The deadline of an operation in flight (R111 to R114), and a feeder whose settings wait for nothing (R76). -/
namespace Sys2Proof.Machine

/-- Nothing comes to wait for a feeder, whatever the sequencers, the claim table, the switching units and the hunt do (R76). -/
theorem nothingPending_keeps (f : Feeder) : SwitchKeeps (fun _ => True) (fun s => NothingPending s f) := by
  have at_feeder : ∀ (s : State) (g : Feeder) (k : FeederState → FeederState), (k (s.feeder g)).fire = (s.feeder g).fire →
      NothingPending s f → NothingPending (s.onFeeder g k) f := fun s g k hk h => by
    refine h.congr ?_ rfl rfl
    by_cases hg : f = g
    · subst hg; rw [State.feeder_onFeeder_self, hk]
    · rw [State.feeder_onFeeder_of_ne _ hg]
  exact
    { light := fun s g _ k hk h => at_feeder s g k hk.acted.fire h
      claim := fun s g _ _ _ _ h => at_feeder s g _ rfl h
      offer := fun s p ev h => h.congr (by rw [feeder_offer]) (by rw [offer_districts]) (by simp)
      hunt := fun _ _ h => h.congr rfl rfl rfl
      judge := fun s g _ h => by
        by_cases hg : f = g
        · subst hg; rwa [judge_nothing h]
        · exact h.congr (by rw [judge_other hg]) (judge_part _ _).districts (by rw [(judge_part _ _).store])
      calm := fun s g _ k hk h => at_feeder s g k hk.acted.fire h
      trip := fun s g _ _ _ _ h => at_feeder s g _ rfl h
      close := fun s g _ _ _ _ _ h => at_feeder s g _ rfl h
      join := fun s g _ _ _ _ _ _ h => at_feeder s g _ rfl h
      opId := fun _ h => h.congr rfl rfl rfl
      detector := fun _ _ h => h.congr rfl rfl rfl
      lastHunt := fun _ _ h => h.congr rfl rfl rfl }

/-- Nothing comes to wait for a feeder by a change of it that leaves its fire state. -/
theorem NothingPending.onFeeder {f : Feeder} {s : State} (h : NothingPending s f) (k : FeederState → FeederState)
    (hk : (k (s.feeder f)).fire = (s.feeder f).fire) : NothingPending (s.onFeeder f k) f :=
  h.congr (by rw [State.feeder_onFeeder_self, hk]) rfl rfl

/-! ### The end of an operation -/

/-- A report to the ports and the sequencer, of a feeder whose settings wait for nothing (R114, steps 1 and 2). -/
theorem reportCompletion_spec {f : Feeder} {c : Completed} {sup : Option (Nat × Origin)} {s : State} (h : NothingPending s f) :
    reportCompletion f c sup s = seqCompletion f c (sendOpDone f c sup (s.onFeeder f fun x => { x with lastOp := some c })) := by
  have := anyFeeder
  have k := nothingPending_keeps f
  exact judged_nothing (k.seqCompletion _ _ _ (k.sendOpDone _ _ _ _ (h.onFeeder _ rfl)))

/-- The completion of an operation, of a feeder whose settings wait for nothing (R113, R114). -/
theorem completeInFlight_spec {f : Feeder} {op : Operation} {o : OpOutcome} {s : State} (h : NothingPending s f) :
    completeInFlight f op o s =
      let c : Completed := { op := op, outcome := o, completed := s.partTime }
      let s1 := s.onFeeder f fun x => { x with inFlight := none }
      let s2 :=
        if o = .failed then
          setSystemClaim f .breaker true (broadcast (.breakerFail f op.id op.kind op.requesters (s.feeder f).position) s1)
        else s1
      (seqCompletion f c (sendOpDone f c none (s2.onFeeder f fun x => { x with lastOp := some c })), huntNotices f c none) := by
  have := anyFeeder
  have k := nothingPending_keeps f
  have ended : NothingPending (s.onFeeder f fun x => { x with inFlight := none }) f := h.onFeeder _ rfl
  unfold completeInFlight
  dsimp only
  by_cases ho : o = .failed
  · have placed := k.setSystemClaim f .breaker true _ (by decide)
      (k.broadcast (.breakerFail f op.id op.kind op.requesters (s.feeder f).position) _ ended)
    rw [if_pos ho, if_pos ho, placeSystemClaim, judged_nothing placed, reportCompletion_spec placed]
  · rw [if_neg ho, if_neg ho, reportCompletion_spec ended]

theorem completeInFlight_notices (f : Feeder) (op : Operation) (o : OpOutcome) (s : State) :
    (completeInFlight f op o s).2 = huntNotices f { op := op, outcome := o, completed := s.partTime } none := rfl

/-- The end of an operation leaves the part around the feeders, the feeder's contacts, and nothing that waits for it. -/
theorem completeInFlight_leaves {f : Feeder} {op : Operation} {o : OpOutcome} {s : State} (h : NothingPending s f) :
    SameShell s (completeInFlight f op o s).1 ∧ Untouched (s.feeder f) ((completeInFlight f op o s).1.feeder f) ∧
      NothingPending (completeInFlight f op o s).1 f := by
  have := everywhere
  refine ⟨(shell_stays s).completeInFlight _ _ _ _ (.refl s), (untouched_stays f _).completeInFlight _ _ _ _ (.refl _), ?_⟩
  have := anyFeeder
  have k := nothingPending_keeps f
  have ended : NothingPending (s.onFeeder f fun x => { x with inFlight := none }) f := h.onFeeder _ rfl
  refine k.reportCompletion _ _ _ _ ?_
  split
  · exact k.placeSystemClaim _ _ _ (by decide) (k.broadcast _ _ ended)
  · exact ended

/-- The hunt's part in a completion leaves the same. -/
theorem deliver_leaves {f : Feeder} {ns : List HuntNotice} {s t : State} (h : SameShell s t) (hu : Untouched (s.feeder f) (t.feeder f))
    (hn : NothingPending t f) :
    SameShell s (deliver none ns t) ∧ Untouched (s.feeder f) ((deliver none ns t).feeder f) ∧ NothingPending (deliver none ns t) f := by
  have := everywhere
  refine ⟨(shell_stays s).deliver _ _ _ h, (untouched_stays f _).deliver _ _ _ hu, ?_⟩
  have := anyFeeder
  exact (nothingPending_keeps f).deliver _ _ _ hn

theorem Untouched.position {x y : FeederState} (h : Untouched x y) : y.position = x.position := by
  unfold FeederState.position FeederState.settled
  rw [h.closedContact, h.openContact]

/-- The report of the end of an operation, of a feeder whose settings wait for nothing (R13, R114 step 5). -/
theorem reportEnd_spec {f : Feeder} {s : State} (h : NothingPending s f) :
    reportEnd f s =
      if s.fitted f = true ∧ (s.feeder f).position = .transit ∧ (s.feeder f).inFlight = none then
        s.onFeeder f fun x => { x with transitTimer := some (s.partTime + 2000) }
      else s := by
  unfold reportEnd
  dsimp only
  by_cases ht : s.fitted f = true ∧ (s.feeder f).position = .transit ∧ (s.feeder f).inFlight = none
  · rw [if_pos ht, if_pos ⟨ht.1, ht.2.2, ht.2.1⟩, judge_nothing (h.onFeeder _ rfl)]
  · rw [if_neg ht, if_neg (fun c => ht ⟨c.1, c.2.2, c.2.1⟩), judge_nothing h]

/-- The end of an operation in its parts, of a feeder whose settings wait for nothing (R113, R114). -/
theorem completeOperation_spec {f : Feeder} {op : Operation} {o : OpOutcome} {s : State} (h : NothingPending s f) :
    completeOperation f op o s =
      let told := huntTold f { op := op, outcome := o, completed := s.partTime } none (completeInFlight f op o s).1
      if s.fitted f = true ∧ (s.feeder f).position = .transit ∧ (told.feeder f).inFlight = none then
        told.onFeeder f fun x => { x with transitTimer := some (s.partTime + 2000) }
      else told := by
  obtain ⟨shell, same, pending⟩ := completeInFlight_leaves (op := op) (o := o) h
  obtain ⟨shell, same, pending⟩ := deliver_leaves (ns := (completeInFlight f op o s).2) shell same pending
  unfold completeOperation
  dsimp only
  rw [reportEnd_spec pending, shell.fitted, same.position, shell.partTime, completeInFlight_notices, deliver_notices]

/-- A deadline of an operation, by its kind (R111, R112). -/
theorem operationDue_spec {f : Feeder} {kind : OpKind} {y : InFlight} {s : State} (hi : (s.feeder f).inFlight = some y)
    (hk : y.op.kind = kind) (wanted : Position) :
    operationDue kind wanted f s =
      if y.deadline ≤ s.partTime then
        completeOperation f y.op (if (s.feeder f).position = wanted then .done else .failed) s
      else s := by
  simp only [operationDue, hi, hk, true_and]

/-! ### What the hunt is told -/

theorem huntTold_none {f : Feeder} {c : Completed} {sup : Option Origin} {s : State} (h : s.hunt = none) : huntTold f c sup s = s := by
  have own : huntSettle none (huntOpDone f c.op.id c.op.kind c.outcome sup s) = s := by
    simp only [huntOpDone, h]
    exact huntRun_wait _ _ _
  unfold huntTold
  dsimp only
  rw [own, ite_self]
  simp only [huntProtectionTrip, h, ite_self]

/-- A protection trip done is a new window of a hunt in IDENTIFY, and a trip in the watch of another feeder's trial (R152, R159). -/
theorem huntProtectionTrip_spec {f : Feeder} {s : State} {h : HuntRun} (hh : s.hunt = some h) :
    huntProtectionTrip f s =
      { s with
        hunt := some
          (if h.state = .identify then
             { h with window := some { length := (s.huntSettings h.level).identifyWindow, counted := 0, sums := .of fun _ => 0 } }
           else if h.state = .trialWatch ∧ h.currentFeeder ≠ some f then { h with tripInWatch := some true }
           else h) } := by
  have same : { s with hunt := some h } = s := by rw [← hh]
  unfold huntProtectionTrip
  rw [hh]
  dsimp only
  split
  · next hs => simp [beginWindow, hh, State.onHunt, huntLevelSettings, hs]
  · next hs =>
    have out : h.state ≠ .identify := by rw [hs]; decide
    by_cases hf : h.currentFeeder = some f
    · rw [if_pos hf, if_neg out, if_neg (fun c => c.2 hf), same]
    · rw [if_neg hf, if_neg out, if_pos ⟨hs, hf⟩]
      simp [State.onHunt, hh]
  · next h1 h2 =>
    rw [if_neg (fun c => h1 c), if_neg (fun c => h2 c.1), same]

end Sys2Proof.Machine

open Sys2Proof Sys2Proof.Machine

/-- Settles O15: the report of a completion, whose judgements have nothing to apply. -/
theorem deadlineEndsAnOperation : Obligations.DeadlineEndsAnOperation := by
  refine ⟨fun f kind y s hr hi hk hc hn => ?_, fun f c sup s => ⟨huntTold_none, fun h hh hr => ?_⟩⟩
  · intro command done c s1 s2 s3 told
    have due : ∀ wanted, (if (s.feeder f).position = wanted then OpOutcome.done else .failed) = c.outcome →
        operationDue kind wanted f s =
          if s.partTime < y.deadline then s
          else if s.fitted f = true ∧ (s.feeder f).position = .transit ∧ (told.feeder f).inFlight = none then
            told.onFeeder f fun x => { x with transitTimer := some (s.partTime + 2000) }
          else told := fun wanted outcome => by
      rw [operationDue_spec hi hk, outcome, completeOperation_spec hn, completeInFlight_spec hn]
      have failed : (if c.outcome = .failed then
          setSystemClaim f .breaker true (broadcast (.breakerFail f y.op.id y.op.kind y.op.requesters (s.feeder f).position) s1)
        else s1) = s2 := by
        rw [hk]
        by_cases hdone : done
        · have e : c.outcome = .done := if_pos hdone
          rw [e]
          exact (if_pos hdone).symm
        · have e : c.outcome = .failed := if_neg hdone
          rw [if_pos e]
          exact (if_neg hdone).symm
      dsimp only
      rw [failed]
      by_cases hd : s.partTime < y.deadline
      · rw [if_pos hd, if_neg (by omega)]
      · rw [if_neg hd, if_pos (by omega)]
    cases kind with
    | trip => exact congrArg Host.Outcome.next ((if_pos hr).trans (due .opened (by simp [c, done])))
    | close => exact congrArg Host.Outcome.next ((if_pos hr).trans (due .closed (by simp [c, done, hc])))
  · unfold huntTold
    dsimp only
    rw [if_neg hr]
    split
    · exact huntProtectionTrip_spec hh
    · rfl
end

