-- ==== Sys2Proof/Proofs/Positions.lean ====
section
/-! PROOFS. A scan of one feeder's contacts: what a change of position and the start-up position hand on (R10 to R14, R111 to R116, R125,
R139, R140). -/
namespace Sys2Proof.Machine

/-! ### Steady inputs -/

/-- A scan of an input that shows the level it reads, with no candidate under way, changes nothing (R10). -/
theorem Steady.scan {x : FilteredInput} {raw : Bool} (h : Steady x raw) : x.scan raw = x := by
  obtain ⟨hl, hc⟩ := h
  cases x
  simp_all [FilteredInput.scan]

theorem Steady.settled {x : FilteredInput} {raw : Bool} (h : Steady x raw) : x.level.isSome = true := by rw [h.1]; rfl

theorem scanFeeder_steady {f : Feeder} {raw : ContactLevels} {s : State} (hc : Steady (s.feeder f).closedContact raw.closedContact)
    (ho : Steady (s.feeder f).openContact raw.openContact) : scanFeeder f raw s = s := by
  have same : (s.onFeeder f fun y =>
      { y with closedContact := y.closedContact.scan raw.closedContact, openContact := y.openContact.scan raw.openContact }) = s := by
    unfold State.onFeeder
    unfold State.feeder at hc ho
    dsimp only
    rw [hc.scan, ho.scan]
    exact congrArg (fun x => { s with feeders := x }) (PerFeeder.set_get _ _)
  have settled : (s.feeder f).settled = true := by rw [FeederState.settled, hc.settled, ho.settled]; rfl
  unfold scanFeeder
  dsimp only
  rw [same, if_pos rfl, if_neg (by rw [settled]; simp)]

/-- With every other input steady, a scan is the scan of one feeder's contacts. -/
theorem scanInputs_one {f : Feeder} {lv : ScanLevels} {s : State}
    (hg : ∀ g, g ≠ f → Steady (s.feeder g).closedContact (lv.contacts.get g).closedContact ∧
      Steady (s.feeder g).openContact (lv.contacts.get g).openContact)
    (hb : Steady s.fireBan lv.fireBan) (hk : Steady s.crewKey lv.crewKey) (hp : Steady s.setProtect lv.setProtect) :
    scanInputs lv s = scanFeeder f (lv.contacts.get f) s := by
  have := everywhere
  have feeders : forFeeders Feeder.all (fun f => scanFeeder f (lv.contacts.get f)) s = scanFeeder f (lv.contacts.get f) s := by
    refine forFeeders_once (P := fun t => t = s) (Q := fun t => t = scanFeeder f (lv.contacts.get f) s)
      (step := fun f => scanFeeder f (lv.contacts.get f)) (fun g t h ht => ?_) (fun t ht => by rw [ht]) (fun g t h ht => ?_)
      Feeder.nodup_all (Feeder.mem_all f) rfl
    · obtain ⟨hc, ho⟩ := hg g h
      subst ht
      exact scanFeeder_steady hc ho
    · obtain ⟨hc, ho⟩ := hg g h
      have same : Untouched (s.feeder g) (t.feeder g) := by rw [ht]; exact scanFeeder_untouched _ (Ne.symm h) (.refl _)
      rw [← same.closedContact] at hc
      rw [← same.openContact] at ho
      exact (scanFeeder_steady hc ho).trans ht
  have shell : SameShell s (scanFeeder f (lv.contacts.get f) s) := (shell_stays s).scanFeeder f _ s ((SameShell.refl s).step _)
  unfold scanInputs
  rw [feeders]
  generalize scanFeeder f (lv.contacts.get f) s = t at shell
  rw [← shell.fireBan] at hb
  rw [← shell.crewKey] at hk
  rw [← shell.setProtect] at hp
  have ban : scanFireBan lv.fireBan t = t := by
    have same : { t with fireBan := t.fireBan.scan lv.fireBan } = t := by rw [hb.scan]
    unfold scanFireBan
    dsimp only
    rw [same, if_pos rfl]
  have key : scanCrewKey lv.crewKey t = t := by
    have same : { t with crewKey := t.crewKey.scan lv.crewKey } = t := by rw [hk.scan]
    unfold scanCrewKey
    dsimp only
    rw [same]
    exact if_neg fun c => absurd (c.1.symm.trans c.2) (by decide)
  rw [ban, key, scanSetProtect, hp.scan]

/-! ### Ends of travel -/

/-- What reaching an end position hands on, of a feeder that was `x` before the scan (R111, R112, R114 to R116). -/
def reachedEnd (f : Feeder) (x : FeederState) (e : LastEnd) (wanted : OpKind) (a : State) : State :=
  let b := a.onFeeder f fun z => { z with lastEnd := e }
  let external (m : Movement) (b : State) : State :=
    broadcast (.breakerExternal f m (x.lastOp.map fun c => c.op.id) (x.lastOp.map fun c => c.outcome)) b
  match x.inFlight with
  | some o =>
    if o.op.kind = wanted then
      let c : Completed := { op := o.op, outcome := .done, completed := a.partTime }
      huntTold f c none
        (seqCompletion f c (sendOpDone f c none (b.onFeeder f fun z => { z with inFlight := none, lastOp := some c })))
    else b
  | none =>
    if e = .opened ∧ x.lastEnd = .closed then seqExternalOpen f (external .opened b)
    else if e = .closed ∧ x.lastEnd = .opened then seqExternalClose f (external .closed b)
    else b

/-- A wanted operation completes DONE at its end position (R111, R112, R114). -/
theorem completeOperation_done {f : Feeder} {op : Operation} {s : State} (h : NothingPending s f)
    (hp : (s.feeder f).position ≠ .transit) :
    completeOperation f op .done s =
      let c : Completed := { op := op, outcome := .done, completed := s.partTime }
      huntTold f c none
        (seqCompletion f c (sendOpDone f c none (s.onFeeder f fun z => { z with inFlight := none, lastOp := some c }))) := by
  rw [completeOperation_spec h, completeInFlight_spec h]
  dsimp only
  rw [if_neg (fun c => hp c.2.1), if_neg (by decide), State.onFeeder_onFeeder]

theorem switchingEnd_spec {f : Feeder} {x : FeederState} {a : State} (closedNow : Bool) (h : NothingPending a f)
    (hp : (a.feeder f).position ≠ .transit) (hi : (a.feeder f).inFlight = x.inFlight) (hl : (a.feeder f).lastEnd = x.lastEnd)
    (ho : (a.feeder f).lastOp = x.lastOp) :
    switchingEnd f closedNow a =
      reachedEnd f x (if closedNow = true then .closed else .opened) (if closedNow = true then .close else .trip) a := by
  have := anyFeeder
  have k := nothingPending_keeps f
  have hb : NothingPending (a.onFeeder f fun y => { y with lastEnd := if closedNow = true then .closed else .opened }) f := h.onFeeder _ rfl
  have said : ∀ m, sayExternal f m (a.onFeeder f fun y => { y with lastEnd := if closedNow = true then .closed else .opened }) =
      broadcast (.breakerExternal f m (x.lastOp.map fun c => c.op.id) (x.lastOp.map fun c => c.outcome))
        (a.onFeeder f fun y => { y with lastEnd := if closedNow = true then .closed else .opened }) := fun m => by
    unfold sayExternal
    rw [State.feeder_onFeeder_self]
    dsimp only
    rw [ho]
  unfold switchingEnd reachedEnd
  dsimp only
  rw [hi, hl]
  cases x.inFlight with
  | some o =>
    dsimp only
    have wanted : (o.op.kind = .trip ∧ closedNow = false ∨ o.op.kind = .close ∧ closedNow = true) ↔
        o.op.kind = (if closedNow = true then .close else .trip) := by cases closedNow <;> simp
    by_cases hw : o.op.kind = (if closedNow = true then .close else .trip)
    · rw [if_pos (wanted.2 hw), if_pos hw, completeOperation_done hb (by rw [State.feeder_onFeeder_self]; exact hp)]
      rfl
    · rw [if_neg (fun c => hw (wanted.1 c)), if_neg hw]
  | none =>
    dsimp only
    rw [said, said, judged_nothing (k.seqExternalOpen _ _ (k.broadcast _ _ hb)),
      judged_nothing (k.seqExternalClose _ _ (k.broadcast _ _ hb))]
    cases closedNow <;> simp

/-! ### A scan of one feeder -/

/-- A feeder after a scan of its contacts, the fault timers of a fitted one restarted at a change of position (R12 to R14). -/
def timersRestarted (s : State) (f : Feeder) (x y : FeederState) : FeederState :=
  if y.position = x.position ∨ s.fitted f = false then y
  else
    { y with
      positionFault := none
      invalidTimer := if y.position = .invalid then some (s.partTime + 20) else none
      transitTimer := if y.position = .transit ∧ x.inFlight = none then some (s.partTime + 2000) else none }

/-- What a scan hands on of a change of position from `x`'s to `y`'s (R11, R111 to R116). -/
def positionHanded (f : Feeder) (x y : FeederState) (a : State) : State :=
  if y.position = x.position then a
  else
    match y.position with
    | .closed => reachedEnd f x .closed .close a
    | .opened => reachedEnd f x .opened .trip a
    | _ => a

theorem timersRestarted_parts (s : State) (f : Feeder) (x : FeederState) (raw : ContactLevels) :
    let z := timersRestarted s f x (scanContacts raw x)
    z.position = (scanContacts raw x).position ∧ z.settled = (scanContacts raw x).settled ∧ z.fire = x.fire ∧
      z.inFlight = x.inFlight ∧ z.lastEnd = x.lastEnd ∧ z.lastOp = x.lastOp := by
  unfold timersRestarted
  dsimp only
  split <;> exact ⟨rfl, rfl, rfl, rfl, rfl, rfl⟩

/-- The scan of a feeder's contacts up to the start-up position, of a feeder whose settings wait for nothing. -/
theorem positionHanded_eq {f : Feeder} {s : State} (raw : ContactLevels) (h : NothingPending s f) :
    (let s1 := s.onFeeder f fun _ => scanContacts raw (s.feeder f)
     if (s1.feeder f).position = (s.feeder f).position then s1 else positionChanged f s1) =
      positionHanded f (s.feeder f) (scanContacts raw (s.feeder f))
        (s.onFeeder f fun _ => timersRestarted s f (s.feeder f) (scanContacts raw (s.feeder f))) := by
  obtain ⟨hp, -, hf, hi, hl, ho⟩ := timersRestarted_parts s f (s.feeder f) raw
  have restarted : (scanContacts raw (s.feeder f)).position ≠ (s.feeder f).position →
      (if (s.onFeeder f fun _ => scanContacts raw (s.feeder f)).fitted f = true then
        (s.onFeeder f fun _ => scanContacts raw (s.feeder f)).onFeeder f
          (restartTimers (s.onFeeder f fun _ => scanContacts raw (s.feeder f)).partTime)
       else s.onFeeder f fun _ => scanContacts raw (s.feeder f)) =
        s.onFeeder f fun _ => timersRestarted s f (s.feeder f) (scanContacts raw (s.feeder f)) := fun hc => by
    rw [State.onFeeder_onFeeder]
    show (if s.fitted f = true then _ else _) = _
    unfold timersRestarted
    by_cases hfit : s.fitted f = true
    · rw [if_pos hfit, if_neg (fun c => c.elim hc (by rw [hfit]; decide))]
      rfl
    · rw [if_neg hfit, if_pos (.inr (by simpa using hfit))]
  have still : (scanContacts raw (s.feeder f)).position = (s.feeder f).position →
      timersRestarted s f (s.feeder f) (scanContacts raw (s.feeder f)) = scanContacts raw (s.feeder f) := fun hc => if_pos (.inl hc)
  generalize timersRestarted s f (s.feeder f) (scanContacts raw (s.feeder f)) = z at *
  have hn : NothingPending (s.onFeeder f fun _ => z) f := h.onFeeder _ hf
  unfold positionHanded
  dsimp only
  rw [State.feeder_onFeeder_self]
  by_cases hc : (scanContacts raw (s.feeder f)).position = (s.feeder f).position
  · rw [if_pos hc, if_pos hc, still hc]
  · rw [if_neg hc, if_neg hc]
    unfold positionChanged
    dsimp only
    rw [restarted hc, State.feeder_onFeeder_self, hp]
    have ends : ∀ closedNow, (scanContacts raw (s.feeder f)).position ≠ .transit →
        switchingEnd f closedNow (s.onFeeder f fun _ => z) =
          reachedEnd f (s.feeder f) (if closedNow = true then .closed else .opened) (if closedNow = true then .close else .trip)
            (s.onFeeder f fun _ => z) := fun closedNow ht =>
      switchingEnd_spec closedNow hn (by rw [State.feeder_onFeeder_self, hp]; exact ht) (by rw [State.feeder_onFeeder_self, hi])
        (by rw [State.feeder_onFeeder_self, hl]) (by rw [State.feeder_onFeeder_self, ho])
    cases hpos : (scanContacts raw (s.feeder f)).position with
    | closed => exact ends true (by rw [hpos]; decide)
    | opened => exact ends false (by rw [hpos]; decide)
    | transit => rfl
    | invalid => rfl

theorem reachedEnd_nothingPending {f : Feeder} {a : State} (x : FeederState) (e : LastEnd) (wanted : OpKind) (h : NothingPending a f) :
    NothingPending (reachedEnd f x e wanted a) f := by
  have := anyFeeder
  have k := nothingPending_keeps f
  have hb : NothingPending (a.onFeeder f fun z => { z with lastEnd := e }) f := h.onFeeder _ rfl
  unfold reachedEnd
  dsimp only
  split
  · split
    · rw [← deliver_notices]
      exact k.deliver _ _ _ (k.seqCompletion _ _ _ (k.sendOpDone _ _ _ _ (hb.onFeeder _ rfl)))
    · exact hb
  · split_ifs
    · exact k.seqExternalOpen _ _ (k.broadcast _ _ hb)
    · exact k.seqExternalClose _ _ (k.broadcast _ _ hb)
    · exact hb

/-- The start-up position of a feeder gives a sequencer in STARTING its first state (R125). -/
theorem seqStartPosition_spec {f : Feeder} {s : State} (h : (s.feeder f).ar.state = .starting) :
    seqStartPosition f s =
      if (s.feeder f).position = .closed then
        broadcast (.arState f .starting .ready 0 none none .startPosition)
          (s.onFeeder f fun z => { z with ar := ArRecord.bare .ready s.partTime })
      else
        broadcast (.arState f .starting .lockout 0 none none .startPosition)
          (broadcast (.lockout f .startPosition 0 {})
            (s.onFeeder f fun z => { z with ar := { ArRecord.bare .lockout s.partTime with cause := some .startPosition } })) := by
  unfold seqStartPosition firstRecord
  rw [if_pos h]
  by_cases hp : (s.feeder f).position = .closed
  · rw [if_pos hp, if_pos hp]
    unfold arMove
    dsimp only
    rw [h, if_neg (fun c => nomatch c), if_neg (fun c => nomatch c)]
    rfl
  · rw [if_neg hp, if_neg hp]
    unfold arMove
    dsimp only
    rw [h, if_neg (fun c => nomatch c)]
    exact congrArg _ (if_pos rfl)

/-- The scan of one feeder's contacts, of a feeder whose settings wait for nothing. -/
theorem scanFeeder_spec {f : Feeder} {s : State} (raw : ContactLevels) (h : NothingPending s f) :
    let y := scanContacts raw (s.feeder f)
    let handed := positionHanded f (s.feeder f) y (s.onFeeder f fun _ => timersRestarted s f (s.feeder f) y)
    scanFeeder f raw s =
      if (s.feeder f).settled = false ∧ y.settled = true ∧ (handed.feeder f).ar.state = .starting then
        if y.position = .closed then
          broadcast (.arState f .starting .ready 0 none none .startPosition)
            (handed.onFeeder f fun z => { z with ar := ArRecord.bare .ready s.partTime })
        else
          broadcast (.arState f .starting .lockout 0 none none .startPosition)
            (broadcast (.lockout f .startPosition 0 {})
              (handed.onFeeder f fun z => { z with ar := { ArRecord.bare .lockout s.partTime with cause := some .startPosition } }))
      else handed := by
  intro y handed
  have := everywhere
  have moved := positionHanded_eq raw h
  have kept : SameShell s handed ∧ Untouched y (handed.feeder f) := by
    show SameShell s (positionHanded _ _ _ _) ∧ Untouched y ((positionHanded _ _ _ _).feeder f)
    rw [← moved]
    dsimp only
    have shell : SameShell s (s.onFeeder f fun _ => y) := (SameShell.refl s).step _
    have same : Untouched y ((s.onFeeder f fun _ => y).feeder f) := by rw [State.feeder_onFeeder_self]; exact .refl _
    split
    · exact ⟨shell, same⟩
    · exact ⟨(shell_stays s).positionChanged f _ shell, (untouched_stays f y).positionChanged f _ same⟩
  have pending : NothingPending handed f := by
    have hn : NothingPending (s.onFeeder f fun _ => timersRestarted s f (s.feeder f) y) f :=
      h.onFeeder _ (timersRestarted_parts s f (s.feeder f) raw).2.2.1
    show NothingPending (positionHanded _ _ _ _) f
    unfold positionHanded
    split
    · exact hn
    · split
      · exact reachedEnd_nothingPending _ _ _ hn
      · exact reachedEnd_nothingPending _ _ _ hn
      · exact hn
  obtain ⟨shell, same⟩ := kept
  have start : ∀ t, (let s1 := s.onFeeder f fun _ => scanContacts raw (s.feeder f)
      if (s1.feeder f).position = (s.feeder f).position then s1 else positionChanged f s1) = t →
      scanFeeder f raw s =
        if (s.feeder f).settled = false ∧ (t.feeder f).settled = true then judged f (seqStartPosition f) t else t :=
    fun t ht => by subst ht; rfl
  have settled : (handed.feeder f).settled = y.settled := by
    unfold FeederState.settled
    rw [same.closedContact, same.openContact]
  have := anyFeeder
  rw [start handed moved, settled, judged_nothing ((nothingPending_keeps f).seqStartPosition f handed pending), ← shell.partTime, ← same.position]
  by_cases hs : (handed.feeder f).ar.state = .starting
  · rw [seqStartPosition_spec hs]
    simp only [hs, and_true]
  · have idle : seqStartPosition f handed = handed := if_neg hs
    rw [idle, ite_self, if_neg (fun c => hs c.2.2)]

/-! ### External movement -/

/-- What a move leaves of the sequencer's record is the record it is given. -/
theorem arMove_record (f : Feeder) (new : ArRecord) (c : ArCause) (d : LockoutDetail) (s : State) :
    ((arMove f new c d s).feeder f).ar = new := by
  unfold arMove
  dsimp only
  split
  · rw [State.feeder_onFeeder_self]
  · split <;> simp only [feeder_broadcast, State.feeder_onFeeder_self]

end Sys2Proof.Machine

open Sys2Proof Sys2Proof.Machine

/-- Settles O12: with the other inputs steady a scan is one feeder's, whose judgements have nothing to apply. -/
theorem positionChangeIsHandedOn : Obligations.PositionChangeIsHandedOn := by
  refine ⟨fun f lv s hr hn hg hb hk hp => ?_, fun f s => ?_⟩
  · intro x y a external reached handed
    have run : exec (.inputScan lv) s = .next (scanFeeder f (lv.contacts.get f) s) := by
      show Host.Outcome.next (whileRunning (scanInputs lv) s) = _
      rw [whileRunning, if_pos hr, scanInputs_one hg hb hk hp]
    rw [run, scanFeeder_spec _ hn]
    rfl
  · intro r locked exhausted
    have hr : (s.feeder f).ar = r := rfl
    clear_value r
    constructor
    · cases hs : r.state <;> simp [seqExternalOpen, hr, hs, toLockout, arMove_record, ArRecord.enter, locked]
    · cases hs : r.state <;>
        simp [seqExternalClose, hr, hs, toLockout, toReclaim, arMove_record, ArRecord.enter, ArRecord.bare, locked, exhausted]
end

