-- ==== Sys2Proof/Proofs/Commissioning.lean ====
section
/-! PROOFS. A commissioning commit: what each block makes of the feeder, in the order in which they act (R7, R14, R43, R82, R101, R121,
R126). -/
namespace Sys2Proof.Machine

/-! ### The commit -/

/-- The new record is held, the buffer is COMMITTING and the write is queued (R58, R59). -/
def commissioningHeld (p : Port) (f : Feeder) (c : Commissioning) (s : State) : State :=
  { s with
    store :=
      { s.store with
        commissioning := s.store.commissioning.set f { s.store.commissioning.get f with held := c }
        edit := .committing p (.commissioning f) (.commissioning c)
        queue := s.store.queue ++ [{ port := p, record := .commissioning f }] } }

/-- The state on which the blocks act. -/
def committedBase (p : Port) (f : Feeder) (c : Commissioning) (s : State) : State :=
  commissioningHeld p f c (receive p (listens p s))

/-- A port that may edit passes the store's protect check, which reads the mode and the input (R54). -/
theorem editPermitted_of_mayEdit {s t : State} {p : Port} (h : mayEdit s p) (hm : t.store.protectMode = s.store.protectMode)
    (hi : t.setProtect = s.setProtect) : editPermitted t p = true := by
  rcases h with rfl | ⟨rfl, h | ⟨h, hp⟩⟩
  · rfl
  · simp [editPermitted, hm, h]
  · unfold setProtectActive at hp
    simp [editPermitted, hm, h, setProtectActive, hi, hp]

theorem outOfService_congr {s t : State} {f : Feeder} (hf : t.feeder f = s.feeder f) (hc : t.store.commissioning = s.store.commissioning) :
    outOfService t f = outOfService s f := by
  simp only [outOfService, State.fitted, State.commissioning, hf, hc]

theorem commitEditBody_commissioning {p : Port} {f : Feeder} {c : Commissioning} {d : Nat} {s : State}
    (he : s.store.edit = .editing p (.commissioning f) (.commissioning c) d) (hz : s.store.frozen = false)
    (hm : editPermitted s p = true) (ho : outOfService s f = true) :
    commitEditBody p s = (commissionFeeder f (commissioningHeld p f c s), .withheld) := by
  have own : ownOpenEdit s p = some (.commissioning f, .commissioning c, d) := by simp only [ownOpenEdit, he, if_true]
  have held : queueWrite p (.commissioning f) ((setHeld (.commissioning f) (.commissioning c) s).onStore fun st =>
      { st with edit := .committing p (.commissioning f) (.commissioning c) }) = commissioningHeld p f c s := rfl
  have service : commitInService s (.commissioning f) = false := by simp only [commitInService, ho, Bool.not_true]
  unfold commitEditBody
  rw [own]
  dsimp only
  rw [held, hz, hm, service]
  simp only [RecordContent.consistent, handOnCommit, Bool.false_eq_true, Bool.true_eq_false, if_false]

theorem exec_commitEdit_commissioning {p : Port} {f : Feeder} {c : Commissioning} {d : Nat} {s : State}
    (ht : Takes .commitEdit p 0#8 [] s) (he : s.store.edit = .editing p (.commissioning f) (.commissioning c) d)
    (hz : s.store.frozen = false) (hm : mayEdit s p) (ho : outOfService s f = true) :
    exec (.commitEdit p 0#8 []) s =
      .next ((commissionFeeder f (committedBase p f c s)).onPort p fun u => { u with state := .executing 0x2A 0 }) := by
  have taken := Takes.plain ((takes_listens .commitEdit p p 0#8 [] s).2 ht) (.inl rfl) (takeEdit p (commitEditBody p))
  dsimp only at taken
  have renewed : (renewEdit p (receive p (listens p s))).store.edit =
      .editing p (.commissioning f) (.commissioning c) (s.partTime + editLease) := by
    show s.store.edit.renewed p (s.partTime + editLease) = _
    rw [he]
    exact if_pos rfl
  have base : commissioningHeld p f c (renewEdit p (receive p (listens p s))) = committedBase p f c s := rfl
  have out : outOfService (renewEdit p (receive p (listens p s))) f = true := by
    rw [outOfService_congr (s := s) (t := renewEdit p (receive p (listens p s))) (f := f) rfl rfl]
    exact ho
  have body := commitEditBody_commissioning (s := renewEdit p (receive p (listens p s))) renewed hz
    (editPermitted_of_mayEdit hm rfl rfl) out
  rw [base] at body
  have run : exec (.commitEdit p 0#8 []) s = .next (takeRequest .commitEdit p 0#8 [] (takeEdit p (commitEditBody p)) s) := rfl
  rw [run, taken, takeEdit, body]
  generalize commissionFeeder f (committedBase p f c s) = u
  rfl

/-- What the blocks find of the state before the commit. -/
structure CommittedOnto (p : Port) (f : Feeder) (c : Commissioning) (s b : State) : Prop where
  held : b.commissioning f = c
  others : ∀ g, g ≠ f → b.commissioning g = s.commissioning g
  edit : b.store.edit = .committing p (.commissioning f) (.commissioning c)
  queue : b.store.queue = s.store.queue ++ [{ port := p, record := .commissioning f }]
  effective : ∀ l, b.effectiveFor f l = s.effectiveFor f l
  feeders : b.feeders = s.feeders
  districts : b.districts = s.districts
  pool : b.pool = s.pool
  hunt : b.hunt = s.hunt
  detector : b.detector = s.detector
  partTime : b.partTime = s.partTime
  crewKey : b.crewKey = s.crewKey
  queues : b.queues = s.queues

/-- The effective settings of a level depend on the stored groups and the user curves (R79). -/
theorem effectiveFor_congr {s t : State} {f : Feeder} {l : Level} (hg : t.store.groups = s.store.groups)
    (h1 : t.store.curveU1 = s.store.curveU1) (h2 : t.store.curveU2 = s.store.curveU2) : t.effectiveFor f l = s.effectiveFor f l := by
  simp only [State.effectiveFor, State.group, State.breakpoints, State.userCurve, hg, h1, h2]

/-- Taking the request changes the ports, the crew write and what the part sends besides. -/
theorem committedBase_shape (p : Port) (f : Feeder) (c : Commissioning) (s : State) :
    ∃ ports crewWrite sent, committedBase p f c s =
      commissioningHeld p f c { s with ports := ports, crewWrite := crewWrite, sent := sent } := ⟨_, _, _, rfl⟩

theorem committedBase_onto (p : Port) (f : Feeder) (c : Commissioning) (s : State) : CommittedOnto p f c s (committedBase p f c s) := by
  obtain ⟨ports, crewWrite, sent, shape⟩ := committedBase_shape p f c s
  rw [shape]
  exact
    { held := congrArg Cell.held (PerFeeder.get_set_self _ _ _)
      others := fun g hg => congrArg Cell.held (PerFeeder.get_set_of_ne _ hg _)
      edit := rfl
      queue := rfl
      effective := fun l => effectiveFor_congr rfl rfl rfl
      feeders := rfl
      districts := rfl
      pool := rfl
      hunt := rfl
      detector := rfl
      partTime := rfl
      crewKey := rfl
      queues := rfl }

/-! ### The blocks -/

/-- A state on the way through the blocks: of the feeder `f` all but its sequencer's record is as given, and so are the hunt and the pool;
unless the sequencer was in DEAD_TIME, its record stands and the entries sent are the ones given. -/
def Commissioned (b : State) (f : Feeder) (y : FeederState) (h : Option HuntRun) (pool : List PortClaim) (evs : List Event)
    (u : State) : Prop :=
  ∃ a q, u = { b with feeders := b.feeders.set f { y with ar := a }, hunt := h, pool := pool, queues := q } ∧
    ((b.feeder f).ar.state ≠ .deadTime → a = (b.feeder f).ar ∧ q = said evs b)

section
variable {b u : State} {f : Feeder} {y : FeederState} {h : Option HuntRun} {pool : List PortClaim} {evs : List Event}

theorem Commissioned.start (b : State) (f : Feeder) : Commissioned b f (b.feeder f) b.hunt b.pool [] b := by
  refine ⟨(b.feeder f).ar, b.queues, ?_, fun _ => ⟨rfl, rfl⟩⟩
  exact (congrArg (fun x => { b with feeders := x }) (PerFeeder.set_get b.feeders f)).symm

theorem Commissioned.feeder (c : Commissioned b f y h pool evs u) : ∃ a, u.feeder f = { y with ar := a } := by
  obtain ⟨a, q, rfl, -⟩ := c
  exact ⟨a, PerFeeder.get_set_self _ _ _⟩

theorem Commissioned.onFeeder (c : Commissioned b f y h pool evs u) (k : FeederState → FeederState)
    (hk : ∀ z a, k { z with ar := a } = { k z with ar := a }) : Commissioned b f (k y) h pool evs (u.onFeeder f k) := by
  obtain ⟨a, q, rfl, hq⟩ := c
  refine ⟨a, q, ?_, hq⟩
  rw [← hk]
  simp only [State.onFeeder, PerFeeder.get_set_self, PerFeeder.set_set]

theorem Commissioned.broadcast (c : Commissioned b f y h pool evs u) (ev : Event) :
    Commissioned b f y h pool (evs ++ [ev]) (Machine.broadcast ev u) := by
  obtain ⟨a, q, rfl, hq⟩ := c
  refine ⟨a, _, broadcast_form _ _, fun hd => ⟨(hq hd).1, ?_⟩⟩
  have e := broadcast_after ev evs (s := b)
    (t := { b with feeders := b.feeders.set f { y with ar := a }, hunt := h, pool := pool, queues := q }) rfl rfl (hq hd).2
  rw [broadcast_form] at e
  exact congrArg State.queues e

/-- A move of the sequencer's record that happens in DEAD_TIME alone. -/
theorem Commissioned.arMove (c : Commissioned b f y h pool evs u) (hd : (u.feeder f).ar.state = .deadTime) (new : ArRecord)
    (cause : ArCause) (d : LockoutDetail) : Commissioned b f y h pool evs (Machine.arMove f new cause d u) := by
  obtain ⟨a, q, rfl, hq⟩ := c
  have ha : a.state = .deadTime := by rwa [State.feeder, PerFeeder.get_set_self] at hd
  have form : ∀ v, ∃ q', Machine.arMove f new cause d v = { v.onFeeder f fun x => { x with ar := new } with queues := q' } := fun v => by
    unfold Machine.arMove
    dsimp only
    split
    · exact ⟨_, rfl⟩
    · split
      · exact ⟨_, by rw [broadcast_form, broadcast_form]⟩
      · exact ⟨_, by rw [broadcast_form]⟩
  obtain ⟨q', e⟩ := form { b with feeders := b.feeders.set f { y with ar := a }, hunt := h, pool := pool, queues := q }
  refine ⟨new, q', ?_, fun hn => absurd ((hq hn).1 ▸ ha) hn⟩
  rw [e]
  simp only [State.onFeeder, PerFeeder.get_set_self, PerFeeder.set_set]

/-- The entries of a system claim that is set present or absent (R95, R100). -/
def claimChanged (f : Feeder) (n : SystemClaim) (was on : Bool) : List Event :=
  if was = on then [] else if on = true then [.claimPlaced f (.system n)] else [.claimReleased f (.system n) .cleared]

theorem SystemClaims.put_has (c : SystemClaims) (n : SystemClaim) : c.put n (c.has n) = c := by
  cases n <;> rfl

theorem Commissioned.setSystemClaim (c : Commissioned b f y h pool evs u) (n : SystemClaim) (on : Bool) :
    Commissioned b f { y with claims := y.claims.put n on } h pool (evs ++ claimChanged f n (y.claims.has n) on)
      (Machine.setSystemClaim f n on u) := by
  obtain ⟨a, ha⟩ := c.feeder
  have has : (u.feeder f).claims.has n = y.claims.has n := by rw [ha]
  unfold Machine.setSystemClaim claimChanged
  dsimp only
  rw [has]
  by_cases hon : y.claims.has n = on
  · rw [if_pos hon, if_pos hon, ← hon, SystemClaims.put_has, List.append_nil]
    exact c
  · rw [if_neg hon, if_neg hon]
    have put := c.onFeeder (fun x => { x with claims := x.claims.put n on }) (fun _ _ => rfl)
    cases on with
    | false => exact put.broadcast _
    | true =>
      have said := put.broadcast (.claimPlaced f (.system n))
      rw [if_pos rfl, if_pos rfl, claimEntered, seqClaimEntry]
      split
      · next hd => exact said.arMove hd _ _ _
      · exact said

theorem Commissioned.seqReload (c : Commissioned b f y h pool evs u) : Commissioned b f y h pool evs (Machine.seqReload f u) := by
  unfold Machine.seqReload
  dsimp only
  split
  · next hd => exact c.arMove hd.1 _ _ _
  · exact c

/-- A hunt below a level is raised to it (R148). -/
def raisedTo (l : Level) (h : HuntRun) : HuntRun := if h.level.number < l.number then { h with level := l } else h

/-- The entries of a hunt level's raise (R148, R195). -/
def raiseSaid (b : State) (l : Level) (h : Option HuntRun) : List Event :=
  match h with
  | some r => if r.level.number < l.number then [.huntState b.detector.state b.detector.state r.state r.state l { level := some l }] else []
  | none => []

theorem Commissioned.raiseHuntLevel (c : Commissioned b f y h pool evs u) {l : Level} (hl : detectorLevel u = l) :
    Commissioned b f y (h.map (raisedTo l)) pool (evs ++ raiseSaid b l h) (Machine.raiseHuntLevel u) := by
  obtain ⟨a, q, rfl, hq⟩ := c
  rw [raiseHuntLevel_spec, hl]
  refine ⟨a, _, rfl, fun hd => ⟨(hq hd).1, ?_⟩⟩
  rw [← said_append evs (raiseSaid b l h) (s := b)
    (t := { b with feeders := b.feeders.set f { y with ar := a }, hunt := h, pool := pool, queues := q }) rfl rfl (hq hd).2]
  cases h <;> rfl

theorem Commissioned.clearNoReclose (c : Commissioned b f y h pool evs u) :
    Commissioned b f y h (pool.filter fun k => !(decide (k.feeder = f) && decide (k.kind = .noReclose)))
      (evs ++ (pool.filter fun k => decide (k.feeder = f) && decide (k.kind = .noReclose)).map fun k => .claimReleased f k.info .cleared)
      (Machine.clearNoReclose f u) := by
  have walk : ∀ (l : List PortClaim) {evs : List Event} {pool : List PortClaim} {u : State}, Commissioned b f y h pool evs u →
      Commissioned b f y h pool (evs ++ l.map fun k => .claimReleased f k.info .cleared)
        (l.foldl (fun acc k => claimLeft f k.info .cleared acc) u) := by
    intro l
    induction l with
    | nil => intro evs pool u hu; simpa using hu
    | cons k l ih =>
      intro evs pool u hu
      have step := ih (hu.broadcast (.claimReleased f k.info .cleared))
      rw [List.append_assoc] at step
      exact step
  obtain ⟨a, q, rfl, hq⟩ := c
  exact walk _ ⟨a, q, rfl, hq⟩

/-- A state on the way has the base's time, store, districts and detector. -/
theorem Commissioned.rest (c : Commissioned b f y h pool evs u) :
    u.partTime = b.partTime ∧ u.store = b.store ∧ u.districts = b.districts ∧ ∀ g, g ≠ f → u.feeder g = b.feeder g := by
  obtain ⟨a, q, rfl, -⟩ := c
  exact ⟨rfl, rfl, rfl, fun g hg => PerFeeder.get_set_of_ne _ hg _⟩

theorem Commissioned.fitted (c : Commissioned b f y h pool evs u) (g : Feeder) : u.fitted g = b.fitted g := by
  simp only [State.fitted, State.commissioning, c.rest.2.1]

/-! ### A judgement on the way -/

/-- A walk over feeders that takes levels to levels not below those of another walk ends not below it. -/
theorem foldl_number_le {p q : Level → Feeder → Level} (step : ∀ a b g, a.number ≤ b.number → (p a g).number ≤ (q b g).number) :
    ∀ (l : List Feeder) (a b : Level), a.number ≤ b.number → (l.foldl p a).number ≤ (l.foldl q b).number
  | [], _, _, h => h
  | g :: l, a, b, h => foldl_number_le step l _ _ (step a b g h)

/-- The detector level does not fall when no applied level of a fitted feeder does (R145). -/
theorem detectorLevel_le {s t : State} (hc : t.fittedFeeders = s.fittedFeeders)
    (hf : ∀ g x, (s.feeder g).fire = some x → ∃ z, (t.feeder g).fire = some z ∧ x.applied.number ≤ z.applied.number) :
    (detectorLevel s).number ≤ (detectorLevel t).number := by
  unfold detectorLevel
  rw [hc]
  refine foldl_number_le (fun a b g hab => ?_) _ _ _ le_rfl
  cases hg : (s.feeder g).fire with
  | none =>
    cases (t.feeder g).fire with
    | none => exact hab
    | some z => exact hab.trans (by rw [Level.higher_number]; exact le_max_left _ _)
  | some x =>
    obtain ⟨z, hz, hxz⟩ := hf g x hg
    rw [hz]
    dsimp only
    rw [Level.higher_number, Level.higher_number]
    exact max_le_max hab hxz

/-- A feeder after a reload: its fire state, its FIRE claim, its elements and their report alone have changed. -/
def Reloaded (y z : FeederState) : Prop :=
  z = { y with
    fire := z.fire, claims := { y.claims with fire := z.claims.fire }, highSet := z.highSet, earthIdmt := z.earthIdmt, sef := z.sef
    pickedUp := z.pickedUp }

/-- The detector level once the feeder has taken its district's target (R82, R145). -/
def commissionedLevel (b : State) (f : Feeder) : Level := detectorLevel (loadEffective f (targetLevel b f) b)

/-- The shape of a reload: the feeder, the hunt's level and the queues (R77, R79). -/
theorem reloaded_shape {f : Feeder} {x : FeederFire} {s : State} (hx : (s.feeder f).fire = some x) (l : Level) (cause : ApplyCause) :
    ∃ z q, Machine.reloaded f l cause s =
        { s with
          feeders := s.feeders.set f z
          hunt := s.hunt.map (raisedTo (detectorLevel { s with feeders := s.feeders.set f z })), queues := q } ∧
      Reloaded { s.feeder f with ar := z.ar } z ∧ ∃ e, z.fire = some { applied := l, settingsPending := false, effective := e } := by
  unfold Machine.reloaded
  rw [hx]
  exact ⟨_, _, rfl, rfl, _, rfl⟩

/-- A reload on the way of a level not above the target's. -/
theorem Commissioned.reloaded (c : Commissioned b f y h pool evs u) (hd : (b.feeder f).ar.state = .deadTime) {x : FeederFire}
    (hx : y.fire = some x) {l : Level} (hl : l.number ≤ (targetLevel b f).number) (cause : ApplyCause) :
    ∃ z L evs', Commissioned b f z (h.map (raisedTo L)) pool evs' (Machine.reloaded f l cause u) ∧ Reloaded y z ∧
      L.number ≤ (commissionedLevel b f).number := by
  obtain ⟨a, q, rfl, -⟩ := c
  obtain ⟨z, q', form, same, e, fire⟩ := reloaded_shape
    (s := { b with feeders := b.feeders.set f { y with ar := a }, hunt := h, pool := pool, queues := q })
    (by rw [State.feeder, PerFeeder.get_set_self]; exact hx) l cause
  rw [State.feeder, PerFeeder.get_set_self] at same
  rw [form, PerFeeder.set_set]
  refine ⟨{ z with ar := y.ar }, _, [], ⟨z.ar, q', rfl, fun hn => absurd hd hn⟩, ?_, ?_⟩
  · unfold Reloaded at same ⊢
    rw [same]
  refine detectorLevel_le rfl fun g w hw => ?_
  by_cases hg : g = f
  · subst hg
    have hw' : z.fire = some w := by simpa only [State.feeder, PerFeeder.get_set_self] using hw
    rw [fire] at hw'
    cases hw'
    exact ⟨_, by rw [loadEffective, State.feeder_onFeeder_self], hl⟩
  · refine ⟨w, ?_, le_rfl⟩
    rw [loadEffective, State.feeder_onFeeder_of_ne _ hg]
    simpa only [State.feeder, PerFeeder.get_set_of_ne _ hg] using hw

theorem raisedTo_l0 (h : Option HuntRun) : h.map (raisedTo .l0) = h := by
  cases h <;> rfl

/-- A raise to a level is all that an earlier raise to a level not above it leaves (R148). -/
theorem raisedTo_raisedTo {k l : Level} (hk : k.number ≤ l.number) (h : Option HuntRun) :
    (h.map (raisedTo k)).map (raisedTo l) = h.map (raisedTo l) := by
  cases h with
  | none => rfl
  | some r =>
    have level : ∀ {m n : Level}, m.number = n.number → m = n := fun {m n} e => by cases m <;> cases n <;> first | rfl | cases e
    refine congrArg some ?_
    by_cases hr : r.level.number < k.number
    · have low : raisedTo k r = { r with level := k } := if_pos hr
      have high : raisedTo l r = { r with level := l } := if_pos (hr.trans_le hk)
      rw [low, high]
      by_cases hkl : k.number < l.number
      · exact if_pos hkl
      · refine (if_neg hkl).trans ?_
        rw [level (by omega : k.number = l.number)]
    · have low : raisedTo k r = r := if_neg hr
      rw [low]

theorem Reloaded.refl (y : FeederState) : Reloaded y y := rfl

/-- A judgement on the way, of a sequencer that was in DEAD_TIME. -/
theorem Commissioned.judge (c : Commissioned b f y h pool evs u) (hd : (b.feeder f).ar.state = .deadTime) :
    ∃ z L evs', Commissioned b f z (h.map (raisedTo L)) pool evs' (Machine.judge f u) ∧ Reloaded y z ∧
      L.number ≤ (commissionedLevel b f).number := by
  have still : ∃ z L evs', Commissioned b f z (h.map (raisedTo L)) pool evs' u ∧ Reloaded y z ∧ L.number ≤ (commissionedLevel b f).number :=
    ⟨y, .l0, evs, by rw [raisedTo_l0]; exact c, .refl y, Nat.zero_le _⟩
  have target : targetLevel u f = targetLevel b f := by
    simp only [targetLevel, State.commissioning, c.rest.2.1, c.rest.2.2.1]
  obtain ⟨a, ha⟩ := c.feeder
  cases hx : y.fire with
  | none =>
    have fire : (u.feeder f).fire = none := by rw [ha]; exact hx
    rw [judge_nothing ⟨by simp [loweringPending, fire], by simp [settingsPending, fire]⟩]
    exact still
  | some x =>
    have fire : (u.feeder f).fire = some x := by rw [ha]; exact hx
    rw [judge_spec fire, target]
    split
    · exact c.reloaded hd hx le_rfl _
    · next hlow =>
      split
      · next hq => exact c.reloaded hd hx (Nat.not_lt.1 fun hlt => hlow ⟨hq.1, hlt⟩) _
      · exact still

/-! ### Block by block -/

/-- What the intake makes of a feeder (R7). -/
def intaken (fitted : Bool) (x : FeederState) : FeederState :=
  { x with meas := .awaiting, invalidCount := 0, recoveryCount := 0, claims := x.claims.put .measure fitted }

/-- The intake, whose claim ends a dead time, which is judged. -/
theorem commissionIntake_spec (b : State) (f : Feeder) :
    ∃ z h evs, Commissioned b f z h b.pool evs (commissionIntake f b) ∧ Reloaded (intaken (b.fitted f) (b.feeder f)) z ∧
      h.map (raisedTo (commissionedLevel b f)) = b.hunt.map (raisedTo (commissionedLevel b f)) ∧ (b.fitted f = false → h = b.hunt) ∧
      ((b.feeder f).ar.state ≠ .deadTime → z = intaken (b.fitted f) (b.feeder f) ∧ h = b.hunt ∧
        evs = claimChanged f .measure ((b.feeder f).claims.has .measure) (b.fitted f)) := by
  have counted := (Commissioned.start b f).onFeeder (fun x => { x with meas := .awaiting, invalidCount := 0, recoveryCount := 0 })
    (fun _ _ => rfl)
  have claimed := counted.setSystemClaim .measure (b.fitted f)
  have done : ∃ z h evs, Commissioned b f z h b.pool evs
      (setSystemClaim f .measure (b.fitted f) (b.onFeeder f fun x => { x with meas := .awaiting, invalidCount := 0, recoveryCount := 0 })) ∧
      Reloaded (intaken (b.fitted f) (b.feeder f)) z ∧
      h.map (raisedTo (commissionedLevel b f)) = b.hunt.map (raisedTo (commissionedLevel b f)) ∧ (b.fitted f = false → h = b.hunt) ∧
      ((b.feeder f).ar.state ≠ .deadTime → z = intaken (b.fitted f) (b.feeder f) ∧ h = b.hunt ∧
        evs = claimChanged f .measure ((b.feeder f).claims.has .measure) (b.fitted f)) :=
    ⟨_, _, _, claimed, .refl _, rfl, fun _ => rfl, fun _ => ⟨rfl, rfl, rfl⟩⟩
  unfold commissionIntake
  dsimp only
  rw [counted.fitted f]
  cases hf : b.fitted f with
  | false =>
    rw [hf] at done
    exact done
  | true =>
    rw [hf] at claimed done
    rw [if_pos rfl]
    unfold placeSystemClaim judged
    dsimp only
    split
    · exact done
    · next moved =>
      by_cases hd : (b.feeder f).ar.state = .deadTime
      · obtain ⟨z, L, evs', hz, same, hL⟩ := claimed.judge hd
        exact ⟨z, _, evs', hz, same, raisedTo_raisedTo hL _, (fun c => nomatch c), fun c => absurd hd c⟩
      · refine absurd ?_ moved
        obtain ⟨a, q, hu, ha⟩ := claimed
        rw [hu]
        simp only [State.feeder, State.onFeeder, PerFeeder.get_set_self, (ha hd).1]

/-- What the input filter makes of a feeder (R14). -/
def filtered (fitted : Bool) (now : Nat) (x : FeederState) : FeederState :=
  if fitted = true then restartTimers now x else { x with invalidTimer := none, transitTimer := none, positionFault := none }

theorem Commissioned.filter (c : Commissioned b f y h pool evs u) :
    Commissioned b f (filtered (b.fitted f) b.partTime y) h pool evs (commissionFilter f u) := by
  unfold commissionFilter filtered
  rw [c.fitted, c.rest.1]
  split
  · exact c.onFeeder _ (fun _ _ => rfl)
  · exact c.onFeeder (fun x => { x with invalidTimer := none, transitTimer := none, positionFault := none }) (fun _ _ => rfl)

/-- What the elements make of a feeder (R43). -/
def elementsAtRest (x : FeederState) : FeederState :=
  { x with phaseIdmt := .rest, highSet := .rest, earthIdmt := .rest, sef := .rest, tripRecord := none, pickedUp := false }

theorem Commissioned.elements (c : Commissioned b f y h pool evs u) :
    Commissioned b f (elementsAtRest y) h pool evs (commissionElements f u) := c.onFeeder _ (fun _ _ => rfl)

/-- The fire state of a fitted feeder that has just been commissioned (R82). -/
def commissionedFire (b : State) (f : Feeder) : FeederFire :=
  { applied := targetLevel b f, settingsPending := false, effective := b.effectiveFor f (targetLevel b f) }

/-- A fitted feeder as the fire level unit leaves it, its elements being at rest (R82). -/
def fired (b : State) (f : Feeder) (x : FeederState) : FeederState :=
  { elementsAtRest x with
    fire := some (commissionedFire b f)
    claims := x.claims.put .fire (atFireBlock (targetLevel b f) (b.commissioning f).fireBlock) }

/-- Elements at rest stay so at new settings, and report nothing (R36, R42). -/
theorem elementsReload_atRest (old new : Group) (x : FeederState) (h1 : x.phaseIdmt = .rest := by rfl) (h2 : x.highSet = .rest := by rfl)
    (h3 : x.earthIdmt = .rest := by rfl) (h4 : x.sef = .rest := by rfl) (h5 : x.pickedUp = false := by rfl) :
    elementsReload old new x = x := by
  have rest : ∀ was now, Element.rest.afterReload was now = .rest := fun was now => by simp [Element.afterReload]
  simp only [elementsReload, h1, h2, h3, h4, rest]
  have quiet : FeederState.anyPickedUp { x with phaseIdmt := .rest, highSet := .rest, earthIdmt := .rest, sef := .rest } = false := rfl
  rw [quiet, ← h1, ← h5]
  cases x
  simp_all

theorem onFeeder_same {f : Feeder} {k : FeederState → FeederState} {s : State} (h : k (s.feeder f) = s.feeder f) : s.onFeeder f k = s := by
  unfold State.onFeeder
  unfold State.feeder at h
  rw [h]
  exact congrArg (fun x => { s with feeders := x }) (PerFeeder.set_get _ _)

/-- The fire level unit, of a fitted feeder whose elements are at rest (R82). -/
theorem Commissioned.fire (c : Commissioned b f (elementsAtRest y) h pool evs u) (hf : b.fitted f = true) :
    Commissioned b f (fired b f y) (h.map (raisedTo (commissionedLevel b f))) pool
      (evs ++ [.settingsApplied f (targetLevel b f) .commission] ++
        claimChanged f .fire (y.claims.has .fire) (atFireBlock (targetLevel b f) (b.commissioning f).fireBlock) ++
        raiseSaid b (commissionedLevel b f) h)
      (commissionFire f u) := by
  obtain ⟨-, store, districts, -⟩ := c.rest
  have target : targetLevel u f = targetLevel b f := by simp only [targetLevel, State.commissioning, store, districts]
  have load : loadEffective f (targetLevel u f) u = u.onFeeder f fun x => { x with fire := some (commissionedFire b f) } := by
    have effective : u.effectiveFor f (targetLevel b f) = b.effectiveFor f (targetLevel b f) := by
      simp only [State.effectiveFor, State.group, State.breakpoints, State.userCurve, store]
    rw [target, loadEffective, effective]
    rfl
  have said := (c.onFeeder (fun x => { x with fire := some (commissionedFire b f) }) (fun _ _ => rfl)).broadcast
    (.settingsApplied f (targetLevel b f) .commission)
  unfold commissionFire
  rw [if_pos ((c.fitted f).trans hf)]
  dsimp only
  rw [load, target]
  generalize Machine.broadcast (.settingsApplied f (targetLevel b f) .commission)
    (u.onFeeder f fun x => { x with fire := some (commissionedFire b f) }) = v at said
  have claim : setFireClaim f v = Machine.setSystemClaim f .fire (atFireBlock (targetLevel b f) (b.commissioning f).fireBlock) v := by
    obtain ⟨a, ha⟩ := said.feeder
    simp only [setFireClaim, ha, State.commissioning, said.rest.2.1]
    rfl
  have claimed := said.setSystemClaim .fire (atFireBlock (targetLevel b f) (b.commissioning f).fireBlock)
  rw [claim]
  generalize Machine.setSystemClaim f .fire (atFireBlock (targetLevel b f) (b.commissioning f).fireBlock) v = w at claimed
  obtain ⟨a, ha⟩ := claimed.feeder
  have handed : handSettings f (u.group f (targetLevel b f)) w = Machine.raiseHuntLevel (Machine.seqReload f w) := by
    unfold handSettings
    rw [onFeeder_same]
    rw [ha]
    exact elementsReload_atRest _ _ _
  have level : detectorLevel (Machine.seqReload f w) = commissionedLevel b f := by
    have after := claimed.seqReload
    refine detectorLevel_congr (fun g => ?_) (congrArg Store.commissioning after.rest.2.1)
    by_cases hg : g = f
    · subst hg
      obtain ⟨a, ha⟩ := after.feeder
      rw [ha, loadEffective, State.feeder_onFeeder_self]
      rfl
    · rw [after.rest.2.2.2 g hg, loadEffective, State.feeder_onFeeder_of_ne _ hg]
  rw [handed]
  exact claimed.seqReload.raiseHuntLevel level

/-- The fire level unit, of an unfitted feeder (R82). -/
theorem Commissioned.noFire (c : Commissioned b f y h pool evs u) (hf : b.fitted f = false) :
    Commissioned b f { y with fire := none, claims := y.claims.put .fire false } h pool
      (evs ++ claimChanged f .fire (y.claims.has .fire) false) (commissionFire f u) := by
  unfold commissionFire
  rw [if_neg (by rw [c.fitted f, hf]; decide)]
  exact (c.onFeeder (fun x => { x with fire := none }) (fun _ _ => rfl)).setSystemClaim .fire false

/-- The claims that a commissioning commit leaves of those that stand (R101). -/
def claimsCleared (fitted : Bool) (c : SystemClaims) : SystemClaims :=
  { c with hunt := false, breaker := false, store := fitted && c.store }

/-- The claim table (R101). -/
theorem Commissioned.claims (c : Commissioned b f y h pool evs u) :
    Commissioned b f { y with claims := claimsCleared (b.fitted f) y.claims } h
      (pool.filter fun k => !(decide (k.feeder = f) && decide (k.kind = .noReclose)))
      (evs ++ ((pool.filter fun k => decide (k.feeder = f) && decide (k.kind = .noReclose)).map fun k => .claimReleased f k.info .cleared) ++
        claimChanged f .hunt (y.claims.has .hunt) false ++ claimChanged f .breaker (y.claims.has .breaker) false ++
        claimChanged f .store (y.claims.has .store) (b.fitted f && y.claims.store))
      (commissionClaims f u) := by
  have cleared := (c.clearNoReclose.setSystemClaim .hunt false).setSystemClaim .breaker false
  have fitted := cleared.fitted f
  unfold commissionClaims removeSystemClaim
  dsimp only
  cases hf : b.fitted f with
  | true =>
    have none : claimChanged f .store (y.claims.has .store) (true && y.claims.store) = [] := if_pos rfl
    rw [if_pos (fitted.trans hf), none, List.append_nil]
    exact cleared
  | false =>
    rw [if_neg (by rw [fitted, hf]; decide)]
    exact cleared.setSystemClaim .store false

/-- The entry of a port's lock that is cleared (R121). -/
def lockCleared (f : Feeder) (l : Lock) : List Event :=
  match l with
  | .port q _ => [.lockChange f (.port q) .nobody .cleared]
  | _ => []

/-- The lock that a commissioning commit leaves (R121). -/
def lockLeft (l : Lock) : Lock :=
  match l with
  | .port _ _ => .free
  | k => k

/-- The switching unit (R121). -/
theorem Commissioned.switching (c : Commissioned b f y h pool evs u) :
    Commissioned b f { y with inFlight := none, lastOp := none, lastEnd := .unknown, lock := lockLeft y.lock } h pool
      (evs ++ lockCleared f y.lock) (commissionSwitching f u) := by
  have released := c.onFeeder (fun x => { x with inFlight := none, lastOp := none, lastEnd := .unknown }) (fun _ _ => rfl)
  obtain ⟨a, ha⟩ := released.feeder
  unfold commissionSwitching
  dsimp only
  rw [ha]
  by_cases hp : y.lock.heldByPort = true
  · obtain ⟨q, d, hl⟩ : ∃ q d, y.lock = .port q d := by
      cases hl : y.lock with
      | port q d => exact ⟨q, d, rfl⟩
      | free => rw [hl] at hp; cases hp
      | hunt => rw [hl] at hp; cases hp
    have freed := (released.onFeeder (fun x => { x with lock := .free }) (fun _ _ => rfl)).broadcast
      (.lockChange f (.port q) .nobody .cleared)
    have change : changeLock f .free .cleared (u.onFeeder f fun x => { x with inFlight := none, lastOp := none, lastEnd := .unknown }) =
        Machine.broadcast (.lockChange f (.port q) .nobody .cleared)
          ((u.onFeeder f fun x => { x with inFlight := none, lastOp := none, lastEnd := .unknown }).onFeeder f fun x =>
            { x with lock := .free }) := by
      unfold changeLock
      rw [ha]
      dsimp only
      rw [hl]
      rfl
    rw [if_pos hp, change, hl]
    exact freed
  · have stays : lockLeft y.lock = y.lock ∧ lockCleared f y.lock = [] := by
      cases hl : y.lock with
      | port q d => rw [hl] at hp; exact absurd rfl hp
      | free => exact ⟨rfl, rfl⟩
      | hunt => exact ⟨rfl, rfl⟩
    rw [if_neg hp, stays.1, stays.2, List.append_nil]
    exact released

/-- The record of a sequencer that is set as at start-up (R126). -/
def commissionedRecord (fitted : Bool) (now : Nat) (x : FeederState) : ArRecord :=
  if fitted = false then ArRecord.bare .outOfService now
  else if x.settled = true then firstRecord x.position now
  else ArRecord.bare .starting now

/-- The entries of a sequencer that is set as at start-up (R126, R141). -/
def commissionedSaid (f : Feeder) (old new : ArState) : List Event :=
  if old = new then []
  else (if new = .lockout then [.lockout f .startPosition 0 {}] else []) ++ [.arState f old new 0 none none .commission]

theorem commissionedRecord_cases (fitted : Bool) (now : Nat) (x : FeederState) :
    commissionedRecord fitted now x = { ArRecord.bare .lockout now with cause := some .startPosition } ∨
      ∃ st, st ≠ .lockout ∧ commissionedRecord fitted now x = ArRecord.bare st now := by
  unfold commissionedRecord firstRecord
  split
  · exact .inr ⟨_, by decide, rfl⟩
  · split
    · split
      · exact .inr ⟨_, by decide, rfl⟩
      · exact .inl rfl
    · exact .inr ⟨_, by decide, rfl⟩

/-- The entries of a move to a record of a start-up. -/
theorem arMove_commission {f : Feeder} {new : ArRecord} {now : Nat} (s : State)
    (hn : new = { ArRecord.bare .lockout now with cause := some .startPosition } ∨ ∃ st, st ≠ .lockout ∧ new = ArRecord.bare st now) :
    arMove f new .commission {} s =
      (commissionedSaid f (s.feeder f).ar.state new.state).foldl (fun t e => Machine.broadcast e t)
        (s.onFeeder f fun x => { x with ar := new }) := by
  unfold arMove commissionedSaid
  dsimp only
  by_cases same : (s.feeder f).ar.state = new.state
  · rw [if_pos same, if_pos same]
    rfl
  · rw [if_neg same, if_neg same]
    rcases hn with hn | ⟨st, hst, hn⟩
    · have lockout : new.state = .lockout := by rw [hn]; rfl
      rw [if_pos lockout, if_pos lockout, hn]
      rfl
    · have other : new.state ≠ .lockout := by rw [hn]; exact hst
      rw [if_neg other, if_neg other, hn]
      rfl

/-- The sequencer, at which the commit's way ends (R126). -/
theorem Commissioned.sequencer (c : Commissioned b f y h pool evs u) (hn : NothingPending u f) :
    ∃ q, judged f (seqCommission f) u =
        { b with
          feeders := b.feeders.set f { y with ar := commissionedRecord (b.fitted f) b.partTime y }
          hunt := h, pool := pool, queues := q } ∧
      ((b.feeder f).ar.state ≠ .deadTime →
        q = said (evs ++ commissionedSaid f (b.feeder f).ar.state (commissionedRecord (b.fitted f) b.partTime y).state) b) := by
  have := anyFeeder
  rw [judged_nothing ((nothingPending_keeps f).seqCommission f u hn)]
  obtain ⟨a, ha⟩ := c.feeder
  have record : seqCommission f u = Machine.arMove f (commissionedRecord (b.fitted f) b.partTime y) .commission {} u := by
    unfold seqCommission
    dsimp only
    rw [ha, c.fitted f, c.rest.1]
    rfl
  rw [record, arMove_commission u (commissionedRecord_cases _ _ _), foldl_broadcast]
  generalize commissionedRecord (b.fitted f) b.partTime y = new
  obtain ⟨a, q, rfl, hq⟩ := c
  have at_feeder : ({ b with feeders := b.feeders.set f { y with ar := a }, hunt := h, pool := pool, queues := q } : State).onFeeder f
      (fun x => { x with ar := new }) =
      { b with feeders := b.feeders.set f { y with ar := new }, hunt := h, pool := pool, queues := q } := by
    simp only [State.onFeeder, PerFeeder.get_set_self, PerFeeder.set_set]
  have stood : ({ b with feeders := b.feeders.set f { y with ar := a }, hunt := h, pool := pool, queues := q } : State).feeder f =
      { y with ar := a } := PerFeeder.get_set_self _ _ _
  rw [at_feeder, stood]
  refine ⟨_, rfl, fun hd => ?_⟩
  have ended := said_append evs (commissionedSaid f (b.feeder f).ar.state new.state) (s := b)
    (t := { b with feeders := b.feeders.set f { y with ar := new }, hunt := h, pool := pool, queues := q }) rfl rfl (hq hd).2
  rw [← ended, (hq hd).1]

theorem Commissioned.nothingPending (c : Commissioned b f y h pool evs u) (hy : y.fire = none ∨ y.fire = some (commissionedFire b f)) :
    NothingPending u f := by
  have target : targetLevel u f = targetLevel b f := by
    simp only [targetLevel, State.commissioning, c.rest.2.1, c.rest.2.2.1]
  obtain ⟨a, ha⟩ := c.feeder
  rcases hy with hy | hy
  · have fire : (u.feeder f).fire = none := by rw [ha]; exact hy
    exact ⟨by simp [loweringPending, fire], by simp [settingsPending, fire]⟩
  · have fire : (u.feeder f).fire = some (commissionedFire b f) := by rw [ha]; exact hy
    exact ⟨by simp [loweringPending, fire, target, commissionedFire], by simp [settingsPending, fire, commissionedFire]⟩

end

/-! ### All blocks -/

/-- The feeder that a commissioning commit leaves (R7, R14, R43, R82, R101, R121, R126). -/
def commissionedFeeder (b : State) (f : Feeder) : FeederState :=
  let x := b.feeder f
  let fitted := b.fitted f
  { x with
    meas := .awaiting, invalidCount := 0, recoveryCount := 0, positionFault := none
    invalidTimer := if fitted = true ∧ x.position = .invalid then some (b.partTime + 20) else none
    transitTimer := if fitted = true ∧ x.position = .transit ∧ x.inFlight = none then some (b.partTime + 2000) else none
    phaseIdmt := .rest, highSet := .rest, earthIdmt := .rest, sef := .rest, tripRecord := none, pickedUp := false
    fire := if fitted = true then some (commissionedFire b f) else none
    claims :=
      { fire := fitted && atFireBlock (targetLevel b f) (b.commissioning f).fireBlock, hunt := false, measure := fitted, breaker := false
        store := fitted && x.claims.store }
    inFlight := none, lastOp := none, lastEnd := .unknown, lock := lockLeft x.lock, ar := commissionedRecord fitted b.partTime x }

/-- The entries of a commissioning commit on a sequencer that is not in DEAD_TIME (R126). -/
def commissionedEntries (b : State) (f : Feeder) : List Event :=
  let x := b.feeder f
  let fitted := b.fitted f
  let changed (n : SystemClaim) : List Event := claimChanged f n (x.claims.has n) ((commissionedFeeder b f).claims.has n)
  changed .measure ++ (if fitted = true then [.settingsApplied f (targetLevel b f) .commission] else []) ++ changed .fire ++
    (if fitted = true then raiseSaid b (commissionedLevel b f) b.hunt else []) ++
    ((b.pool.filter fun k => decide (k.feeder = f) && decide (k.kind = .noReclose)).map fun k => .claimReleased f k.info .cleared) ++
    changed .hunt ++ changed .breaker ++ changed .store ++ lockCleared f x.lock ++
    commissionedSaid f x.ar.state (commissionedRecord fitted b.partTime x).state

/-- What a commissioning commit makes of the part (R126). -/
theorem commissionFeeder_spec (b : State) (f : Feeder) :
    ∃ q, commissionFeeder f b =
        { b with
          feeders := b.feeders.set f (commissionedFeeder b f)
          hunt := if b.fitted f = true then b.hunt.map (raisedTo (commissionedLevel b f)) else b.hunt
          pool := b.pool.filter fun k => !(decide (k.feeder = f) && decide (k.kind = .noReclose)), queues := q } ∧
      ((b.feeder f).ar.state ≠ .deadTime → q = said (commissionedEntries b f) b) := by
  obtain ⟨z, h, evs, intake, same, raised, hunt, entries⟩ := commissionIntake_spec b f
  unfold commissionFeeder
  cases hf : b.fitted f with
  | true =>
    have way := ((intake.filter.elements.fire hf).claims).switching
    obtain ⟨q, end_, said⟩ := way.sequencer (way.nothingPending (.inr rfl))
    rw [hf] at same entries
    refine ⟨q, end_.trans ?_, fun hd => (said hd).trans ?_⟩
    · rw [raised, if_pos rfl, hf]
      congr 2
      rw [show z = _ from same]
      simp only [commissionedFeeder, hf, true_and, Bool.true_and, if_true]
      rfl
    · obtain ⟨rfl, rfl, rfl⟩ := entries hd
      rw [hf]
      simp only [commissionedEntries, hf, commissionedFeeder, Bool.true_and, if_true]
      rfl
  | false =>
    have way := ((intake.filter.elements.noFire hf).claims).switching
    obtain ⟨q, end_, said⟩ := way.sequencer (way.nothingPending (.inl rfl))
    rw [hf] at same entries
    obtain rfl := hunt hf
    refine ⟨q, end_.trans ?_, fun hd => (said hd).trans ?_⟩
    · rw [if_neg (by decide), hf]
      congr 2
      rw [show z = _ from same]
      simp only [commissionedFeeder, hf, Bool.false_eq_true, false_and, Bool.false_and, if_false]
      rfl
    · obtain ⟨rfl, -, rfl⟩ := entries hd
      rw [hf]
      simp only [commissionedEntries, hf, commissionedFeeder, Bool.false_and, Bool.false_eq_true, if_false, List.append_nil]
      rfl

end Sys2Proof.Machine

open Sys2Proof Sys2Proof.Machine

/-- Settles O40: the commit's way through the blocks, one after the other. -/
theorem commissioningStartsTheFeeder : Obligations.CommissioningStartsTheFeeder := by
  intro p f c d s ht he hz hm ho
  have run := exec_commitEdit_commissioning ht he hz hm ho
  have based := committedBase_onto p f c s
  generalize committedBase p f c s = b at run based
  obtain ⟨q, form, entries⟩ := commissionFeeder_spec b f
  rw [form] at run
  have fitted : b.fitted f = c.fitted := congrArg Commissioning.fitted based.held
  have target : targetLevel b f = (s.districts.get c.district).target := by rw [targetLevel, based.held, based.districts]
  have at_feeder : ∀ g, b.feeder g = s.feeder g := fun g => by rw [State.feeder, based.feeders]; rfl
  have fire : commissionedFire b f = { applied := targetLevel b f, settingsPending := false, effective := s.effectiveFor f (targetLevel b f) } := by
    rw [commissionedFire, based.effective]
  refine ⟨_, run, based.held, based.edit, based.queue, ?_, ?_, fun g hg => ⟨?_, based.others g hg⟩, ?_⟩
  · exact congrArg PortUnit.state (PerPort.get_set_self _ _ _)
  · rw [← based.pool]; rfl
  · exact (PerFeeder.get_set_of_ne _ hg _).trans (at_feeder g)
  intro x y level
  have hy : y = commissionedFeeder b f := PerFeeder.get_set_self _ _ _
  have hx : b.feeder f = x := at_feeder f
  clear_value x y
  have ar : y.ar = commissionedRecord c.fitted s.partTime x := by rw [hy, ← fitted, ← based.partTime, ← hx]; rfl
  have claims : y.claims =
      { fire := c.fitted && atFireBlock level c.fireBlock, hunt := false, measure := c.fitted, breaker := false
        store := c.fitted && x.claims.store } := by
    rw [hy]
    simp only [commissionedFeeder, fitted, target, based.held, hx]
    rfl
  refine ⟨?_, ?_, ?_, ?_, ?_, ?_, claims, ?_, ?_, ?_⟩
  · rw [hy]; exact ⟨rfl, rfl, rfl⟩
  · rw [hy, ← hx]; exact ⟨rfl, rfl, rfl⟩
  · rw [hy, ← fitted, ← based.partTime, ← hx]; rfl
  · rw [hy, ← fitted, ← based.partTime, ← hx]; rfl
  · rw [hy]; exact ⟨rfl, rfl, rfl, rfl, rfl, rfl⟩
  · rw [hy]
    simp only [commissionedFeeder, fitted, fire, target]
    rfl
  · rw [hy, ← hx]
    refine ⟨rfl, rfl, rfl, ?_⟩
    show lockLeft (b.feeder f).lock = _
    cases (b.feeder f).lock <;> rfl
  · rw [ar]
    unfold commissionedRecord FeederState.settled
    simp only [Bool.and_eq_true]
    rfl
  · intro huntLevel rises changed
    have hl : c.fitted = true → huntLevel = commissionedLevel b f := fun hc => by
      refine detectorLevel_congr (fun g => ?_) ?_
      case refine_2 => rfl
      by_cases hg : g = f
      · subst hg
        refine Eq.trans ?_ (congrArg FeederState.fire (State.feeder_onFeeder_self _ _ _)).symm
        refine (congrArg FeederState.fire (PerFeeder.get_set_self _ _ _)).trans ?_
        exact if_pos (fitted.trans hc)
      · refine Eq.trans ?_ (congrArg FeederState.fire (State.feeder_onFeeder_of_ne _ hg _)).symm
        exact congrArg FeederState.fire (PerFeeder.get_set_of_ne _ hg _)
    clear_value huntLevel
    have unraised : ¬ c.fitted = true → ∀ h, ¬ rises h := fun hc h hr => hc hr.1
    refine ⟨?_, fun hd => ?_⟩
    · show (if b.fitted f = true then b.hunt.map (raisedTo (commissionedLevel b f)) else b.hunt) = _
      rw [fitted, based.hunt]
      by_cases hc : c.fitted = true
      · rw [if_pos hc, ← hl hc]
        simp only [rises, hc, true_and]
        rfl
      · rw [if_neg hc]
        simp only [unraised hc, if_false]
        exact Option.map_id'.symm
    · have raise : (if b.fitted f = true then raiseSaid b (commissionedLevel b f) b.hunt else []) =
          (match s.hunt with
          | some h =>
            if rises h then
              [.huntState s.detector.state s.detector.state h.state h.state huntLevel { level := some huntLevel }]
            else []
          | none => []) := by
        rw [fitted, based.hunt]
        by_cases hc : c.fitted = true
        · rw [if_pos hc, ← hl hc]
          cases s.hunt with
          | none => rfl
          | some h => simp only [raiseSaid, based.detector, rises, hc, true_and]
        · rw [if_neg hc]
          simp only [unraised hc, if_false]
          cases s.hunt <;> rfl
      show q = _
      rw [entries (by rw [hx]; exact hd), said_congr (s := s) _ based.crewKey based.partTime based.queues]
      refine congrArg (said · s) ?_
      unfold commissionedEntries
      dsimp only
      rw [raise, ← hy, hx, fitted, target, based.pool, based.partTime, ← ar]
      rfl
end

