-- ==== Sys2Proof/Proofs/TrialStart.lean ====
section
/-! PROOFS. A hunt that starts at trial entry (R149, R156, R157): the first candidate's trip, the end with no candidate, and what the
hunt leaves on its way to either. -/
namespace Sys2Proof.Machine

/-! ### The first candidate -/

theorem TriedBefore.asymm {s : State} {f g : Feeder} (h : TriedBefore s f g) (k : TriedBefore s g f) : False := by
  unfold TriedBefore at h k
  omega

/-- The feeder that stands first heads the list (R156). -/
theorem TrialList.first {s : State} {barred : Option Feeder} {cs : List Candidate} {g : Feeder} (h : TrialList s barred cs)
    (hg : FirstCandidate s barred g) : ∃ rest, cs = { feeder := g, outcome := .notTried } :: rest := by
  obtain ⟨c, hc, rfl⟩ := (h.members g).2 hg.1
  cases cs with
  | nil => cases hc
  | cons a rest =>
    have head : a.feeder = c.feeder := by
      by_contra apart
      have behind : c ∈ rest := (List.mem_cons.1 hc).resolve_left fun e => apart (e ▸ rfl)
      have may : MayBeTried s barred a.feeder := (h.members a.feeder).1 ⟨a, List.mem_cons_self, rfl⟩
      exact (hg.2 a.feeder may apart).asymm (List.rel_of_pairwise_cons h.ordered behind)
    have untried := h.untried a List.mem_cons_self
    refine ⟨rest, congrArg (· :: rest) ?_⟩
    rw [← head, ← untried]

/-- With no feeder that meets the conditions the list is empty (R156). -/
theorem TrialList.empty {s : State} {barred : Option Feeder} {cs : List Candidate} (h : TrialList s barred cs)
    (none : ∀ g, ¬ MayBeTried s barred g) : cs = [] := by
  cases cs with
  | nil => rfl
  | cons c rest => exact absurd ((h.members c.feeder).1 ⟨c, List.mem_cons_self, rfl⟩) (none _)

/-! ### Trial entry and the turns after it -/

/-- A hunt that has identified no feeder and holds no candidate, with nothing pending. -/
structure Unburdened (h : HuntRun) : Prop where
  current : h.current = none
  identified : h.identified = none
  suspend : h.pendingSuspend = false
  result : h.pendingResult = none

/-- The hunt's record once its trial has begun (R156). -/
def triedRecord (h : HuntRun) (cs : List Candidate) : HuntRun :=
  { stepEnded h with candidates := some cs, resume := none, state := .trialOpen }

theorem Unburdened.tried {h : HuntRun} (free : Unburdened h) (cs : List Candidate) : Unburdened (triedRecord h cs) :=
  ⟨free.current, free.identified, free.suspend, free.result⟩

/-- Trial entry of such a hunt builds the candidate list when trial enable reads yes (R156). -/
theorem trialEntry_enabled {s : State} {h : HuntRun} (hh : s.hunt = some h) (free : Unburdened h)
    (ht : (s.huntSettings h.level).trialEnable = true) (sums : Option (Nat × Nat × Option Feeder)) (cause : Option HuntCause) :
    trialEntry sums cause s =
      ({ s with
          hunt := some (triedRecord h (candidateList s h))
          queues :=
            said (huntMoved s h.state .trialOpen { sums := sums, cause := cause, candidates := some (candidateList s h) }) s },
       .boundary) := by
  have enabled : ¬ (huntLevelSettings s h).trialEnable = false := by
    show ¬ (s.huntSettings h.level).trialEnable = false
    rw [ht]
    decide
  simp only [trialEntry, hh, free.result, free.suspend, enabled, Option.isSome_none, Bool.false_eq_true, if_false]
  rw [endStep_spec hh]
  refine congrArg (·, HuntGo.boundary) ?_
  rw [setHuntState_spec (h := { stepEnded h with candidates := some (candidateList s h), resume := none }) rfl]
  simp only [State.onHunt, Option.map_some, State.mk.injEq, true_and, and_true]
  exact ⟨rfl, said_congr _ rfl rfl rfl⟩

/-- A candidate's turn takes it as the current candidate, which changes no hunt state at trial entry (R157). -/
theorem candidate_taken {s : State} {h : HuntRun} (hh : s.hunt = some h) (hs : h.state = .trialOpen) (i : Nat) :
    setHuntState .trialOpen {} (s.onHunt fun r => { r with current := some i, resume := none }) =
      { s with hunt := some { h with current := some i, resume := none } } := by
  have taken : (s.onHunt fun r => { r with current := some i, resume := none }) =
      { s with hunt := some { h with current := some i, resume := none } } := by rw [State.onHunt, hh]; rfl
  have still : huntMoved s h.state .trialOpen {} = [] := if_pos hs
  rw [taken, setHuntState_spec rfl]
  show { s with hunt := _, queues := said (huntMoved s h.state .trialOpen {}) _ } = _
  rw [still, said_nil]
  show { s with hunt := some { h with current := some i, resume := none, state := .trialOpen } } = _
  rw [← hs]

/-- A candidate whose lock no port holds: the hunt holds it when the trip is requested (R118, R157). -/
def heldCandidate (s : State) (h : HuntRun) (i : Nat) (g : Feeder) : State :=
  { s with
    hunt := some { h with current := some i, resume := none, locked := some g }
    feeders := s.feeders.set g { s.feeder g with lock := .hunt }
    queues := said (lockTaken s g) s }

/-- What the switching unit's answer to a candidate's trip leads to (R157). -/
def tripAnswered (i : Nat) (g : Feeder) (r : State × SwitchAnswer × List HuntNotice) : State × HuntGo :=
  match r.2.1 with
  | .admitted id => (r.1.onHunt fun x => { x with op := some { id := id, kind := .trip, feeder := g } }, .wait)
  | .joined id => (r.1.onHunt fun x => { x with op := some { id := id, kind := .trip, feeder := g } }, .wait)
  | .already _ => (huntDropLock g (concludeCandidate i .skippedOpen r.1), .boundary)
  | .refused _ => (huntDropLock g (concludeCandidate i .skippedLocked r.1), .boundary)

/-- The trip of a candidate whose lock no port holds (R157). -/
theorem tripCandidate_held {s : State} {h : HuntRun} {g : Feeder} (hh : s.hunt = some h) (hs : h.state = .trialOpen)
    (hl : (s.feeder g).lock.heldByPort = false) (i : Nat) :
    tripCandidate i g s = tripAnswered i g (requestTrip g .hunt none (heldCandidate s h i g)) := by
  have lock : huntTakeLock g { s with hunt := some { h with current := some i, resume := none } } = some (heldCandidate s h i g) := by
    have entries : said (lockTaken { s with hunt := some { h with current := some i, resume := none } } g)
        { s with hunt := some { h with current := some i, resume := none } } = said (lockTaken s g) s := said_congr _ rfl rfl rfl
    rw [huntTakeLock_spec (by exact hl), entries]
    rfl
  unfold tripCandidate
  rw [candidate_taken hh hs]
  dsimp only
  rw [lock]
  rfl

/-- A candidate's trip that the switching unit admits (R106, R157). -/
theorem candidateTurn_trips {s : State} {h : HuntRun} {g : Feeder} (hh : s.hunt = some h) (hs : h.state = .trialOpen)
    (may : HuntMayTrip s g) (free : RestoreFree s g) (i : Nat) :
    candidateTurn i g s =
      ({ s with
          hunt := some { h with current := some i, resume := none, locked := some g, op := some (huntOp s .trip g) }
          feeders := s.feeders.set g (huntTripping s g)
          opCounter := nextOpId s.opCounter, queues := said (lockTaken s g) s }, .wait) := by
  have turn : candidateTurn i g s = tripCandidate i g s := by
    simp only [candidateTurn, may.lock, may.fitted, may.closed, (restoreBlocked_iff s g).2 free, Bool.false_eq_true, Bool.true_eq_false,
      if_false, ne_eq, not_true_eq_false, or_self]
  have held : (heldCandidate s h i g).feeder g = { s.feeder g with lock := .hunt } := PerFeeder.get_set_self _ _ _
  have feeders : (heldCandidate s h i g).feeders.set g (huntTripping s g) = s.feeders.set g (huntTripping s g) :=
    PerFeeder.set_set _ _ _ _
  have trip : requestTrip g .hunt none (heldCandidate s h i g) =
      ({ heldCandidate s h i g with feeders := s.feeders.set g (huntTripping s g), opCounter := nextOpId s.opCounter },
        .admitted s.opCounter, []) := by
    rw [requestTrip_hunt (by rw [held]; exact may.closed) (by rw [held]; exact may.idle), held, ← feeders]
    rfl
  rw [turn, tripCandidate_held hh hs may.lock, trip]
  rfl

/-! ### The boundary and the end -/

theorem nextCandidate_first {s : State} {h : HuntRun} {g : Feeder} {rest : List Candidate} (hh : s.hunt = some h)
    (free : Unburdened h) (ht : (s.huntSettings h.level).trialEnable = true)
    (hc : h.candidates = some ({ feeder := g, outcome := .notTried } :: rest)) : nextCandidate s = candidateTurn 0 g s := by
  have first : nextUntried h = some 0 :=
    nextUntried_first (c := { feeder := g, outcome := .notTried }) (by rw [hc]; rfl) rfl fun j _ hj => absurd hj (Nat.not_lt_zero j)
  have candidate : h.candidateAt 0 = some { feeder := g, outcome := .notTried } := by rw [HuntRun.candidateAt, hc]; rfl
  have enabled : ¬ (huntLevelSettings s h).trialEnable = false := by
    show ¬ (s.huntSettings h.level).trialEnable = false
    rw [ht]
    decide
  simp only [nextCandidate, hh, free.result, free.suspend, first, candidate, if_neg enabled, Option.isSome_none, Bool.false_eq_true,
    if_false]

/-- A hunt that has nothing left to try ends NOT_FOUND (R157). -/
theorem setPending_notFound {s : State} {h : HuntRun} (hh : s.hunt = some h) :
    setPending .notFound s = { s with hunt := some (resulting h .notFound) } := by
  rw [setPending, State.onHunt, hh]
  rfl

theorem nextCandidate_none {s : State} {h : HuntRun} (hh : s.hunt = some h) (free : Unburdened h) (hc : nextUntried h = none) :
    nextCandidate s = ({ s with hunt := some (resulting h .notFound) }, .finish) := by
  rw [← setPending_notFound hh]
  simp only [nextCandidate, hh, free.result, hc, Option.isSome_none, Bool.false_eq_true, if_false]

/-- A hunt that has found nothing and has nothing to restore is over (R164, R171). -/
theorem finishHunt_notFound {s : State} {h : HuntRun} (vn : Option Nat) (hh : s.hunt = some h)
    (hr : h.pendingResult = some .notFound) (hj : h.current = none) (hi : h.identified = none) :
    ∃ t, finishHunt vn s = (t, .wait) ∧ HuntOver s t h .notFound ∧ t.store = s.store := by
  have start : finishHunt vn s = becomeIdle vn h .notFound s := by
    simp only [finishHunt, hh, hr, candidateToRestore, hj, identifiedToRestore, hi]
    rfl
  have found : huntReport s h .notFound = endedHunt s h .notFound := by simp only [huntReport, foundFeeder, hr, endedHunt]
  refine ⟨detectorUnresolved vn (broadcast (.huntResult (huntReport s h .notFound))
    (sayHunt h.state .idle {} { s with hunt := none, lastHunt := some (huntReport s h .notFound) })), start, ?_⟩
  rw [found]
  unfold detectorUnresolved sayHunt
  simp only [broadcast_form]
  by_cases hq : s.detector.state = .quiet
  · rw [if_pos hq]
    exact ⟨⟨rfl, rfl, (if_pos hq).symm, rfl⟩, rfl⟩
  · rw [if_neg hq]
    exact ⟨⟨rfl, rfl, (if_neg hq).symm, rfl⟩, rfl⟩

/-! ### A trial from its entry -/

theorem huntRun_trialEntry (vn : Option Nat) (n : Nat) (sums : Option (Nat × Nat × Option Feeder)) (cause : Option HuntCause) (s : State) :
    huntRun vn (n + 1) (s, .trialEntry sums cause) = huntRun vn n (trialEntry sums cause s) := rfl

/-- A hunt that starts at trial entry with a first candidate that may be tripped (R156, R157). -/
theorem trial_begins {u : State} {h : HuntRun} {g : Feeder} (hh : u.hunt = some h) (free : Unburdened h)
    (ht : (u.huntSettings h.level).trialEnable = true) (first : FirstCandidate u none g) (may : HuntMayTrip u g) (restore : RestoreFree u g)
    (vn : Option Nat) (cause : Option HuntCause) :
    TrialBegun u (huntSettle vn (u, .trialEntry none cause)) h none g ∧
      (huntSettle vn (u, .trialEntry none cause)).detector = u.detector := by
  have list : TrialList u none (candidateList u h) := by
    have trial := candidateList_trial u h
    rwa [show barredFeeder h = none by rw [barredFeeder, free.identified]] at trial
  obtain ⟨rest, hcs⟩ := list.first first
  have start := trialEntry_enabled hh free ht none cause
  generalize candidateList u h = cs at list hcs start
  generalize said _ u = q at start
  have tried : nextCandidate ({ u with hunt := some (triedRecord h cs), queues := q } : State) =
      candidateTurn 0 g { u with hunt := some (triedRecord h cs), queues := q } :=
    nextCandidate_first (h := triedRecord h cs) rfl (free.tried cs) ht (congrArg some hcs)
  have trips := candidateTurn_trips (s := { u with hunt := some (triedRecord h cs), queues := q }) (h := triedRecord h cs) rfl rfl ⟨may.fitted, may.lock, may.closed, may.idle⟩ restore 0
  have settled : huntSettle vn (u, .trialEntry none cause) = huntRun vn 39 (trialEntry none cause u) := huntRun_trialEntry _ _ _ _ _
  rw [settled, start, huntRun_boundary, tried, trips, huntRun_wait]
  exact ⟨⟨⟨cs, list, rfl⟩, PerFeeder.get_set_self _ _ _, rfl⟩, rfl⟩

/-- A hunt that starts at trial entry with no candidate is over at once (R156, R157, R164). -/
theorem trial_over {u : State} {h : HuntRun} (hh : u.hunt = some h) (free : Unburdened h)
    (ht : (u.huntSettings h.level).trialEnable = true) (nobody : ∀ g, ¬ MayBeTried u none g) (vn : Option Nat) (cause : Option HuntCause) :
    HuntOver u (huntSettle vn (u, .trialEntry none cause)) { h with candidates := some [] } .notFound := by
  have list : TrialList u none (candidateList u h) := by
    have trial := candidateList_trial u h
    rwa [show barredFeeder h = none by rw [barredFeeder, free.identified]] at trial
  have start := trialEntry_enabled hh free ht none cause
  rw [list.empty nobody] at start
  generalize said _ u = q at start
  have none_left := nextCandidate_none (s := { u with hunt := some (triedRecord h []), queues := q }) (h := triedRecord h []) rfl
    (free.tried []) rfl
  obtain ⟨t, finished, ended, -⟩ := finishHunt_notFound (s := { u with hunt := some (resulting (triedRecord h []) .notFound), queues := q })
    vn rfl rfl free.current free.identified
  have settled : huntSettle vn (u, .trialEntry none cause) = huntRun vn 39 (trialEntry none cause u) := huntRun_trialEntry _ _ _ _ _
  rw [settled, start, huntRun_boundary, none_left, huntRun_finish, finished, huntRun_wait]
  exact ⟨ended.hunt, ended.report, ended.detector, ended.feeders⟩

/-! ### What a trial leaves on its way -/

/-- The levels of the feeders and what is stored stay (R73, R148). -/
structure SameLevels (b t : State) : Prop where
  fire : ∀ f, (t.feeder f).fire = (b.feeder f).fire
  store : t.store = b.store

theorem SameLevels.detectorLevel {b t : State} (h : SameLevels b t) : Machine.detectorLevel t = Machine.detectorLevel b :=
  detectorLevel_congr h.fire (congrArg Store.commissioning h.store)

/-- A change of one feeder that leaves its fire state. -/
theorem SameLevels.ofFeeder {b s t : State} {f : Feeder} {y : FeederState} (h : SameLevels b s) (hf : t.feeders = s.feeders.set f y)
    (hy : y.fire = (s.feeder f).fire) (hs : t.store = s.store) : SameLevels b t := by
  refine ⟨fun g => ?_, hs.trans h.store⟩
  rw [State.feeder, hf]
  by_cases hg : g = f
  · subst hg
    rw [PerFeeder.get_set_self, hy, h.fire]
  · rw [PerFeeder.get_set_of_ne _ hg]
    exact h.fire g

/-- A hunt that runs from its trial entry leaves the levels, and the detector until it is over. -/
inductive TrialAt (b t : State) : HuntGo → Prop
  | begins (h : HuntRun) (cause : Option HuntCause) : SameLevels b t → t.detector = b.detector → t.hunt = some h → Unburdened h →
      (t.huntSettings h.level).trialEnable = true → TrialAt b t (.trialEntry none cause)
  | turn (h : HuntRun) : SameLevels b t → t.detector = b.detector → t.hunt = some h → Unburdened h → h.state = .trialOpen →
      TrialAt b t .boundary
  | ends (h : HuntRun) : SameLevels b t → t.detector = b.detector → t.hunt = some h → h.current = none → h.identified = none →
      h.pendingResult = some .notFound → TrialAt b t .finish
  | waits : SameLevels b t → (t.detector = b.detector ∨ t.detector = { b.detector with state := .unresolved }) → TrialAt b t .wait

/-- A candidate concluded without a trip (R157). -/
theorem concludeCandidate_spec {s : State} {h : HuntRun} (hh : s.hunt = some h) (i : Nat) (o : CandidateOutcome) :
    concludeCandidate i o s = { s with hunt := some (concluded h i o) } := by
  simp only [concludeCandidate, setCandidate, State.onHunt, hh]
  rfl

/-- A candidate's trip waits for its completion (R157). -/
theorem tripCandidate_waits {b s : State} {h : HuntRun} {g : Feeder} (levels : SameLevels b s) (hd : s.detector = b.detector)
    (hh : s.hunt = some h) (hs : h.state = .trialOpen) (hl : (s.feeder g).lock.heldByPort = false) (hp : (s.feeder g).position = .closed)
    (i : Nat) : ∃ t, tripCandidate i g s = (t, .wait) ∧ SameLevels b t ∧ t.detector = b.detector := by
  rw [tripCandidate_held hh hs hl]
  have held : (heldCandidate s h i g).feeder g = { s.feeder g with lock := .hunt } := PerFeeder.get_set_self _ _ _
  have start : SameLevels b (heldCandidate s h i g) := levels.ofFeeder rfl rfl rfl
  have hd' : (heldCandidate s h i g).detector = b.detector := hd
  have hp' : ((heldCandidate s h i g).feeder g).position = .closed := by rw [held]; exact hp
  generalize heldCandidate s h i g = v at start hd' hp'
  cases hi : (v.feeder g).inFlight with
  | none =>
    rw [requestTrip_hunt hp' hi]
    exact ⟨_, rfl, start.ofFeeder rfl rfl rfl, hd'⟩
  | some o =>
    cases hk : o.op.kind with
    | trip =>
      rw [requestTrip_joins hi hk]
      exact ⟨_, rfl, start.ofFeeder rfl rfl rfl, hd'⟩
    | close =>
      have superseded : requestTrip g .hunt none v =
          ((supersede g o.op .hunt none v).1, .admitted v.opCounter, (supersede g o.op .hunt none v).2) := by
        simp only [requestTrip, hi, hk]
        rfl
      rw [superseded, supersede_spec g o.op _ _ _ hk]
      exact ⟨_, rfl, start.ofFeeder rfl rfl rfl, hd'⟩

/-- A candidate's turn leads to the next one or waits for a trip (R157). -/
theorem TrialAt.candidateTurn {b s : State} {h : HuntRun} (levels : SameLevels b s) (hd : s.detector = b.detector) (hh : s.hunt = some h)
    (free : Unburdened h) (hs : h.state = .trialOpen) (i : Nat) (g : Feeder) :
    TrialAt b (Machine.candidateTurn i g s).1 (Machine.candidateTurn i g s).2 := by
  have skipped : ∀ o, TrialAt b (concludeCandidate i o s) .boundary := fun o => by
    rw [concludeCandidate_spec hh]
    exact .turn _ ⟨levels.fire, levels.store⟩ hd rfl ⟨rfl, free.identified, free.suspend, free.result⟩ hs
  unfold Machine.candidateTurn
  dsimp only
  split
  · exact skipped _
  · next hl =>
    split
    · exact skipped _
    · next hp =>
      split
      · exact skipped _
      · obtain ⟨t, trip, same, still⟩ := tripCandidate_waits levels hd hh hs (by simpa using hl)
          (not_not.1 fun c => hp (.inr c)) i
        rw [trip]
        exact .waits same (.inl still)

/-- One step of a hunt from its trial entry. -/
theorem TrialAt.step {b t : State} {g : HuntGo} (c : TrialAt b t g) (vn : Option Nat) :
    TrialAt b (huntStep vn g t).1 (huntStep vn g t).2 := by
  cases c with
  | begins h cause levels hd hh free ht =>
    rw [huntStep, trialEntry_enabled hh free ht]
    exact .turn _ ⟨levels.fire, levels.store⟩ hd rfl (free.tried _) rfl
  | turn h levels hd hh free hs =>
    rw [huntStep]
    have finished : TrialAt b (setPending .notFound t) .finish := by
      rw [setPending_notFound hh]
      exact .ends _ ⟨levels.fire, levels.store⟩ hd rfl free.current free.identified rfl
    simp only [nextCandidate, hh, free.result, free.suspend, Option.isSome_none, Bool.false_eq_true, if_false]
    cases nextUntried h with
    | none => exact finished
    | some i =>
      dsimp only
      split
      · exact finished
      · cases h.candidateAt i with
        | none => exact .waits levels (.inl hd)
        | some c => exact .candidateTurn levels hd hh free hs i c.feeder
  | ends h levels hd hh hj hi hr =>
    obtain ⟨u, finished, ended, store⟩ := finishHunt_notFound vn hh hr hj hi
    rw [huntStep, finished]
    refine .waits ⟨fun f => ?_, store.trans levels.store⟩ ?_
    · rw [State.feeder, ended.feeders]
      exact levels.fire f
    · rw [ended.detector, hd]
      split
      · exact .inl rfl
      · exact .inr rfl
  | waits levels hd => exact .waits levels hd

theorem TrialAt.detector {b t : State} {g : HuntGo} (c : TrialAt b t g) :
    SameLevels b t ∧ (t.detector = b.detector ∨ t.detector = { b.detector with state := .unresolved }) := by
  cases c with
  | begins h cause levels hd => exact ⟨levels, .inl hd⟩
  | turn h levels hd => exact ⟨levels, .inl hd⟩
  | ends h levels hd => exact ⟨levels, .inl hd⟩
  | waits levels hd => exact ⟨levels, hd⟩

/-- A hunt from its trial entry leaves the levels, and the detector as it was or UNRESOLVED (R164). -/
theorem TrialAt.run {b : State} (vn : Option Nat) : ∀ (n : Nat) {t : State} {g : HuntGo}, TrialAt b t g →
    SameLevels b (huntRun vn n (t, g)) ∧
      ((huntRun vn n (t, g)).detector = b.detector ∨ (huntRun vn n (t, g)).detector = { b.detector with state := .unresolved })
  | 0, _, _, c => c.detector
  | n + 1, t, g, c => by
    rw [huntRun]
    split
    · exact c.detector
    · exact TrialAt.run vn n (c.step vn)

end Sys2Proof.Machine
end

