-- ==== Sys2Proof/Proofs/Detector.lean ====
section
/-! PROOFS. The displacement detector at a frame, and the hunt that it starts (R145 to R147, R149). -/
namespace Sys2Proof.Machine

/-! ### The detector's table -/

/-- The table of the detector (R145, R146). -/
theorem detectorMove_spec (set : HuntSettings) (vn interval : Nat) (x : Detector) :
    detectorMove set vn interval x =
      if set.vnPickup ≤ vn then
        (if x.state = .quiet ∨ x.state = .timing then
          { state := if set.detectTime * 1000 ≤ x.amount + interval then .detected else .timing, amount := x.amount + interval }
         else x)
      else if vn < set.vnPickup - set.hysteresis then { state := .quiet, amount := 0 }
      else x := by
  unfold detectorMove
  dsimp only
  split
  · cases x.state <;> rfl
  · rfl

/-- The detector after a frame with a valid bus record (R145). -/
def detectorNext (vn interval : Nat) (s : State) : Detector := detectorMove (s.huntSettings (detectorLevel s)) vn interval s.detector

/-- The state with the detector moved and its HUNT_STATE sent (R147). -/
def detectorTold (vn interval : Nat) (s : State) : State :=
  let moved := detectorNext vn interval s
  { s with
    detector := moved
    queues := said [.huntState s.detector.state moved.state (huntState s) (huntState s) (detectorLevel s) { vn := some vn }] s }

/-- A frame with a valid bus record at the detector (R146, R147). -/
theorem detectorFrame_valid (vn interval : Nat) (s : State) :
    detectorFrame vn true interval s =
      let moved := detectorNext vn interval s
      let told := detectorTold vn interval s
      if moved.state = .detected ∧ s.detector.state ≠ .detected then
        if s.hunt.isNone ∧ huntEnabled s = true then huntSettle (some vn) (startHunt .detected told) else told
      else if moved.state = .quiet ∧ s.detector.state ≠ .quiet then
        huntSettle (some vn) (huntDropout (if s.detector.state = .timing then { s with detector := moved } else told))
      else { s with detector := moved } := by
  have told : broadcast (.huntState s.detector.state (detectorNext vn interval s).state (huntState s) (huntState s) (detectorLevel s)
      { vn := some vn }) { s with detector := detectorNext vn interval s } = detectorTold vn interval s := by
    rw [broadcast_said]
    exact congrArg (fun q => ({ s with detector := detectorNext vn interval s, queues := q } : State)) (said_congr _ rfl rfl rfl)
  unfold detectorFrame
  rw [if_neg (by decide)]
  dsimp only
  rw [← told]
  rfl

theorem huntSettle_wait (vn : Option Nat) (s : State) : huntSettle vn (s, .wait) = s := huntRun_wait vn _ s

/-- With no hunt a dropout tells nobody (R147). -/
theorem huntDropout_none {s : State} (h : s.hunt = none) : huntDropout s = (s, .wait) := by
  unfold huntDropout
  rw [h]

/-- At no entry to DETECTED, and with no hunt that a dropout reaches, the detector moves and a dropout of a displacement is told (R147). -/
theorem detectorFrame_still {vn interval : Nat} {s : State}
    (he : ¬ ((detectorNext vn interval s).state = .detected ∧ s.detector.state ≠ .detected))
    (h : s.hunt = none ∨ (detectorNext vn interval s).state ≠ .quiet ∨ s.detector.state = .quiet) :
    detectorFrame vn true interval s =
      if (detectorNext vn interval s).state = .quiet ∧ (s.detector.state = .detected ∨ s.detector.state = .unresolved) then
        detectorTold vn interval s
      else { s with detector := detectorNext vn interval s } := by
  rw [detectorFrame_valid]
  dsimp only
  rw [if_neg he]
  by_cases hq : (detectorNext vn interval s).state = .quiet ∧ s.detector.state ≠ .quiet
  · have idle : s.hunt = none := h.resolve_right fun c => c.elim (absurd hq.1) hq.2
    rw [if_pos hq, huntDropout_none (by split <;> exact idle), huntSettle_wait]
    cases hs : s.detector.state with
    | quiet => exact absurd hs hq.2
    | timing => rw [if_pos rfl, if_neg (by simp)]
    | detected => rw [if_neg (by decide), if_pos ⟨hq.1, .inl rfl⟩]
    | unresolved => rw [if_neg (by decide), if_pos ⟨hq.1, .inr rfl⟩]
  · rw [if_neg hq, if_neg]
    rintro ⟨quiet, hs⟩
    exact hq ⟨quiet, by rcases hs with hs | hs <;> rw [hs] <;> decide⟩

/-- An entry to DETECTED that starts no hunt is told (R147, R149). -/
theorem detectorFrame_told {vn interval : Nat} {s : State}
    (he : (detectorNext vn interval s).state = .detected ∧ s.detector.state ≠ .detected)
    (h : s.hunt ≠ none ∨ huntEnabled s = false) : detectorFrame vn true interval s = detectorTold vn interval s := by
  rw [detectorFrame_valid]
  dsimp only
  rw [if_pos he, if_neg]
  rintro ⟨idle, enabled⟩
  rcases h with h | h
  · exact h (Option.isNone_iff_eq_none.1 idle)
  · rw [h] at enabled
    exact absurd enabled (by decide)

/-- With no hunt, an entry to DETECTED starts one when identify or trial enable reads yes (R149). -/
theorem detectorFrame_starts {vn interval : Nat} {s : State}
    (he : (detectorNext vn interval s).state = .detected ∧ s.detector.state ≠ .detected) (hh : s.hunt = none)
    (h : huntEnabled s = true) :
    detectorFrame vn true interval s = huntSettle (some vn) (startHunt .detected (detectorTold vn interval s)) := by
  rw [detectorFrame_valid]
  dsimp only
  rw [if_pos he, if_pos ⟨by rw [hh]; rfl, h⟩]

/-! ### The start of a hunt -/

/-- A hunt that starts in IDENTIFY: its window is open and it says so (R149, R150). -/
theorem startHunt_identify {s : State} {cause : HuntCause} (hi : (s.huntSettings (detectorLevel s)).identifyEnable = true) :
    startHunt cause s =
      ({ s with
          hunt := some
            { newHunt cause s with
              state := .identify
              window := some { length := (s.huntSettings (detectorLevel s)).identifyWindow, counted := 0, sums := .of fun _ => 0 } }
          queues := said [.huntState s.detector.state s.detector.state .idle .identify (detectorLevel s) { cause := some cause }] s },
        .wait) := by
  generalize hw : (some { length := (s.huntSettings (detectorLevel s)).identifyWindow, counted := 0, sums := .of fun _ => 0 } :
    Option Window) = w
  have begun : beginWindow { s with hunt := some (newHunt cause s) } = { s with hunt := some { newHunt cause s with window := w } } := by
    rw [← hw]
    rfl
  unfold startHunt
  dsimp only
  rw [if_pos hi, begun, setHuntState_spec rfl]
  refine congrArg (fun q => (({ s with
    hunt := some { newHunt cause s with state := .identify, window := w }, queues := q } : State), HuntGo.wait)) ?_
  exact said_congr _ rfl rfl rfl

/-- A hunt that starts at trial entry (R149). -/
theorem startHunt_trial {s : State} {cause : HuntCause} (hi : (s.huntSettings (detectorLevel s)).identifyEnable = false) :
    startHunt cause s = ({ s with hunt := some (newHunt cause s) }, .trialEntry none (some cause)) := by
  unfold startHunt
  dsimp only
  rw [hi]
  rfl

theorem newHunt_unburdened (cause : HuntCause) (s : State) : Unburdened (newHunt cause s) := ⟨rfl, rfl, rfl, rfl⟩

/-- The state once a hunt has started in IDENTIFY at the detector's entry to DETECTED (R147, R149). -/
def identifying (vn interval : Nat) (s : State) : State :=
  let set := s.huntSettings (detectorLevel s)
  let moved := detectorNext vn interval s
  { s with
    detector := moved
    hunt := some
      { newHunt .detected s with
        state := .identify, window := some { length := set.identifyWindow, counted := 0, sums := .of fun _ => 0 } }
    queues :=
      said
        [.huntState s.detector.state moved.state (huntState s) (huntState s) (detectorLevel s) { vn := some vn },
          .huntState .detected .detected .idle .identify (detectorLevel s) { cause := some .detected }] s }

theorem detectorFrame_identifies {vn interval : Nat} {s : State}
    (he : (detectorNext vn interval s).state = .detected ∧ s.detector.state ≠ .detected) (hh : s.hunt = none)
    (hi : (s.huntSettings (detectorLevel s)).identifyEnable = true) :
    detectorFrame vn true interval s = identifying vn interval s := by
  have enabled : huntEnabled s = true := by
    unfold huntEnabled
    dsimp only
    rw [hi]
    rfl
  have start := startHunt_identify (s := detectorTold vn interval s) (cause := .detected) hi
  rw [detectorFrame_starts he hh enabled, start, huntSettle_wait]
  have detected : (detectorTold vn interval s).detector.state = .detected := he.1
  rw [detected]
  refine congrArg (fun q => ({ identifying vn interval s with queues := q } : State)) ?_
  exact said_append [_] [_] rfl rfl rfl

/-- The state at the trial entry of a hunt that the detector's entry to DETECTED starts (R147, R149). -/
def trialing (vn interval : Nat) (s : State) : State := { detectorTold vn interval s with hunt := some (newHunt .detected s) }

theorem detectorFrame_tries {vn interval : Nat} {s : State}
    (he : (detectorNext vn interval s).state = .detected ∧ s.detector.state ≠ .detected) (hh : s.hunt = none)
    (hi : (s.huntSettings (detectorLevel s)).identifyEnable = false) (ht : (s.huntSettings (detectorLevel s)).trialEnable = true) :
    detectorFrame vn true interval s = huntSettle (some vn) (trialing vn interval s, .trialEntry none (some .detected)) := by
  have enabled : huntEnabled s = true := by
    unfold huntEnabled
    dsimp only
    rw [ht, Bool.or_true]
  rw [detectorFrame_starts he hh enabled, startHunt_trial (s := detectorTold vn interval s) hi]
  rfl

/-- What the detector and the start of a hunt leave, with no hunt before (R145 to R147, R149). -/
structure DetectorMoved (vn interval : Nat) (s t : State) : Prop where
  levels : SameLevels s t
  still : ¬ ((detectorNext vn interval s).state = .detected ∧ s.detector.state ≠ .detected) → t.detector = detectorNext vn interval s
  entered : (detectorNext vn interval s).state = .detected ∧ s.detector.state ≠ .detected →
    t.detector = detectorNext vn interval s ∨ t.detector = { detectorNext vn interval s with state := .unresolved }
  identify : (detectorNext vn interval s).state = .detected ∧ s.detector.state ≠ .detected →
    (s.huntSettings (detectorLevel s)).identifyEnable = true →
    t.detector = detectorNext vn interval s ∧ t.hunt = (identifying vn interval s).hunt
  rest : ¬ ((detectorNext vn interval s).state = .detected ∧ s.detector.state ≠ .detected) ∨
    ((s.huntSettings (detectorLevel s)).identifyEnable = false ∧ (s.huntSettings (detectorLevel s)).trialEnable = false) → t.hunt = none

/-- A state that differs in the detector, the hunt and the queues alone has the same levels. -/
theorem SameLevels.detectorTold (vn interval : Nat) (s : State) : SameLevels s (Machine.detectorTold vn interval s) := ⟨fun _ => rfl, rfl⟩

theorem detectorFrame_moved {s : State} (vn interval : Nat) (hh : s.hunt = none) :
    DetectorMoved vn interval s (detectorFrame vn true interval s) := by
  by_cases he : (detectorNext vn interval s).state = .detected ∧ s.detector.state ≠ .detected
  · cases hi : (s.huntSettings (detectorLevel s)).identifyEnable with
    | true =>
      rw [detectorFrame_identifies he hh hi]
      exact ⟨⟨fun _ => rfl, rfl⟩, fun _ => rfl, fun _ => .inl rfl, fun _ _ => ⟨rfl, rfl⟩,
        fun c => c.elim (absurd he) fun c => absurd (hi.symm.trans c.1) (by decide)⟩
    | false =>
      have unidentified : ∀ {P : Prop}, (s.huntSettings (detectorLevel s)).identifyEnable = true → P :=
        fun c => absurd (hi.symm.trans c) (by decide)
      cases ht : (s.huntSettings (detectorLevel s)).trialEnable with
      | true =>
        rw [detectorFrame_tries he hh hi ht]
        have start : TrialAt (detectorTold vn interval s) (trialing vn interval s) (.trialEntry none (some .detected)) :=
          .begins (newHunt .detected s) _ ⟨fun _ => rfl, rfl⟩ rfl rfl (newHunt_unburdened _ _) ht
        obtain ⟨levels, detector⟩ := start.run (some vn) huntFuel
        exact ⟨⟨levels.fire, levels.store⟩, fun c => absurd he c, fun _ => detector, fun _ => unidentified,
          fun c => c.elim (absurd he) fun c => absurd (ht.symm.trans c.2) (by decide)⟩
      | false =>
        have disabled : huntEnabled s = false := by
          unfold huntEnabled
          dsimp only
          rw [hi, ht]
          rfl
        rw [detectorFrame_told he (.inr disabled)]
        exact ⟨.detectorTold _ _ _, fun _ => rfl, fun _ => .inl rfl, fun _ => unidentified, fun _ => hh⟩
  · rw [detectorFrame_still he (.inl hh)]
    split
    · exact ⟨.detectorTold _ _ _, fun _ => rfl, fun c => absurd c he, fun c => absurd c he, fun _ => hh⟩
    · exact ⟨⟨fun _ => rfl, rfl⟩, fun _ => rfl, fun c => absurd c he, fun c => absurd c he, fun _ => hh⟩

end Sys2Proof.Machine
end

