-- ==== Sys2Proof/Proofs/AcceptedFrame.lean ====
section
/-! PROOFS. An accepted frame on its way to the detector, and what it leaves (R1 to R9, R145 to R149). -/
namespace Sys2Proof.Machine

/-! ### With no hunt, the intake and the elements leave the hunt unit -/

/-- No hunt runs, and the detector stands so. -/
structure HuntIdle (d : Detector) (s : State) : Prop where
  hunt : s.hunt = none
  detector : s.detector = d

section Idle
variable {d : Detector} {s : State}

theorem HuntIdle.broadcast (h : HuntIdle d s) (ev : Event) : HuntIdle d (Machine.broadcast ev s) :=
  ⟨by rw [broadcast_hunt, h.hunt], by rw [broadcast_detector, h.detector]⟩

theorem HuntIdle.onFeeder (h : HuntIdle d s) (f : Feeder) (g : FeederState → FeederState) : HuntIdle d (s.onFeeder f g) :=
  ⟨h.hunt, h.detector⟩

theorem HuntIdle.judge (h : HuntIdle d s) (f : Feeder) : HuntIdle d (Machine.judge f s) := by
  cases hx : (s.feeder f).fire with
  | none =>
    rw [judge_nothing ⟨by simp only [loweringPending, hx], by simp only [settingsPending, hx]⟩]
    exact h
  | some x =>
    have applied : ∀ l c, HuntIdle d (reloaded f l c s) := fun l c => by
      unfold reloaded
      rw [hx]
      exact ⟨by show s.hunt.map _ = none; rw [h.hunt]; rfl, h.detector⟩
    rw [judge_spec hx]
    split
    · exact applied _ _
    · split
      · exact applied _ _
      · exact h

theorem HuntIdle.claimEntered (h : HuntIdle d s) (f : Feeder) (c : ClaimInfo) : HuntIdle d (Machine.claimEntered f c s) := by
  by_cases hd : (s.feeder f).ar.state = .deadTime
  · rw [claimEntered_deadTime hd]
    exact (((h.onFeeder f _).broadcast _).broadcast _).broadcast _
  · rw [claimEntered_other hd]
    exact h.broadcast _

theorem HuntIdle.setSystemClaim (h : HuntIdle d s) (f : Feeder) (n : SystemClaim) (on : Bool) :
    HuntIdle d (Machine.setSystemClaim f n on s) := by
  unfold Machine.setSystemClaim
  dsimp only
  split
  · exact h
  · split
    · exact (h.onFeeder f _).claimEntered _ _
    · exact (h.onFeeder f _).broadcast _

theorem HuntIdle.placeSystemClaim (h : HuntIdle d s) (f : Feeder) (n : SystemClaim) : HuntIdle d (Machine.placeSystemClaim f n s) := by
  unfold Machine.placeSystemClaim judged
  dsimp only
  split
  · exact h.setSystemClaim _ _ _
  · exact (h.setSystemClaim _ _ _).judge _

theorem HuntIdle.measRecord (h : HuntIdle d s) (f : Feeder) (v : Bool) : HuntIdle d (Machine.measRecord f v s) := by
  have moved := h.onFeeder f (measMove v)
  unfold Machine.measRecord
  dsimp only
  split
  · exact (moved.broadcast _).placeSystemClaim _ _
  · split
    · exact (moved.broadcast _).setSystemClaim _ _ _
    · exact moved

/-- A trip for the elements (R106 to R108). -/
theorem HuntIdle.requestTrip (h : HuntIdle d s) (f : Feeder) (permit : Option Bool) :
    HuntIdle d (Machine.requestTrip f .protection permit s).1 := by
  cases hi : (s.feeder f).inFlight with
  | none =>
    by_cases hp : (s.feeder f).position = .opened
    · rw [requestTrip_protection_already hi hp]
      exact ⟨h.hunt, h.detector⟩
    · have admitted : (Machine.requestTrip f .protection permit s).1 = admitOp f .trip .protection permit s := by
        simp only [Machine.requestTrip, hi, hp, if_false]
      rw [admitted]
      exact ⟨h.hunt, h.detector⟩
  | some o =>
    cases hk : o.op.kind with
    | trip =>
      rw [requestTrip_joins hi hk]
      exact ⟨h.hunt, h.detector⟩
    | close =>
      have superseded : (Machine.requestTrip f .protection permit s).1 = (supersede f o.op .protection permit s).1 := by
        simp only [Machine.requestTrip, hi, hk]
        rfl
      rw [superseded, supersede_spec f o.op _ _ _ hk]
      exact ⟨h.hunt, h.detector⟩

/-- With no hunt the notices of a completion tell nobody (R114). -/
theorem deliver_none (vn : Option Nat) (h : s.hunt = none) : ∀ ns, deliver vn ns s = s := by
  intro ns
  refine foldl_keeps (fun t => t = s) _ (fun t n ht => ?_) ns s rfl
  subst ht
  cases n with
  | opDone f id kind outcome sup =>
    show huntSettle vn (huntOpDone f id kind outcome sup t) = t
    rw [show huntOpDone f id kind outcome sup t = (t, .wait) by rw [huntOpDone, h]]
    exact huntSettle_wait vn t
  | protectionTripDone f =>
    show huntProtectionTrip f t = t
    rw [huntProtectionTrip, h]

theorem HuntIdle.protectionTrip (h : HuntIdle d s) (vn : Option Nat) (f : Feeder) (permit : Bool) :
    HuntIdle d (Machine.protectionTrip vn f permit s) := by
  have tripped := h.requestTrip f (some permit)
  unfold Machine.protectionTrip
  dsimp only
  rw [deliver_none vn tripped.hunt]
  exact tripped

theorem HuntIdle.raiseTrip (h : HuntIdle d s) (vn : Option Nat) (f : Feeder) (r : FeederRecord) (fire : FeederFire)
    (els : List ElementName) : HuntIdle d (Machine.raiseTrip vn f r fire els s) := by
  unfold Machine.raiseTrip
  dsimp only
  split
  · exact h
  · exact ((h.onFeeder f _).broadcast _).protectionTrip vn f _

theorem HuntIdle.reachElements (h : HuntIdle d s) (vn : Option Nat) (f : Feeder) (n : Nat) (r : FeederRecord) :
    HuntIdle d (Machine.reachElements vn f n r s) := by
  unfold Machine.reachElements
  dsimp only
  split
  · exact h
  · split
    · exact h
    · exact (((h.onFeeder f _).raiseTrip _ _ _ _ _).onFeeder f _).judge f

/-- With no hunt a frame reaches the hunt unit with none, and with the detector as it was. -/
theorem reachedBy_idle (fr : MeasFrame) (h : s.hunt = none) : HuntIdle s.detector (reachedBy fr s) := by
  have start : HuntIdle s.detector (linkedBy fr s) := ⟨h, rfl⟩
  have measured := forFeeders_keeps (HuntIdle s.detector) (fun f => Machine.measRecord f (fr.records.get f).valid)
    (fun f t ht => ht.measRecord f _) s.fittedFeeders _ start
  exact forFeeders_keeps (HuntIdle s.detector) (fun f => Machine.reachElements fr.usedVn f fr.interval (fr.records.get f))
    (fun f t ht => ht.reachElements _ f _ _) s.fittedFeeders (measuredBy fr s) ⟨measured.hunt, measured.detector⟩

end Idle

/-! ### The part around the hunt unit after a frame -/

/-- What the frame leaves of the link and the bus record, and of the part time and the store. -/
theorem acceptFrame_shell (fr : MeasFrame) (s : State) :
    SameShell { linkedBy fr s with bus := { vn := fr.vn, valid := fr.busValid } } (acceptFrame fr s) := by
  have := everywhere
  have k := shell_stays { linkedBy fr s with bus := { vn := fr.vn, valid := fr.busValid } }
  have reached : SameShell { linkedBy fr s with bus := { vn := fr.vn, valid := fr.busValid } } (reachedBy fr s) :=
    forFeeders_keeps _ (fun f => reachElements fr.usedVn f fr.interval (fr.records.get f)) (fun f t ht => k.reachElements _ f _ _ t ht)
      s.fittedFeeders _ (measuredBy_shell fr s)
  rw [acceptFrame_eq]
  exact k.huntFrame fr _ reached

/-- LINK_RESTORED stands ahead of every other entry (R9). -/
theorem acceptFrame_queues (fr : MeasFrame) (s : State) (p : Port) :
    (linkedBy fr s).queues.get p <+: (acceptFrame fr s).queues.get p := by
  have := anyFeeder
  have k := queues_grow (linkedBy fr s).queues
  have measured := forFeeders_keeps (fun t => ∀ p, (linkedBy fr s).queues.get p <+: t.queues.get p)
    (fun f => measRecord f (fr.records.get f).valid) (fun f t ht => k.measRecord f _ t ht) s.fittedFeeders (linkedBy fr s)
    (fun _ => List.prefix_rfl)
  have reached := forFeeders_keeps (fun t => ∀ p, (linkedBy fr s).queues.get p <+: t.queues.get p)
    (fun f => reachElements fr.usedVn f fr.interval (fr.records.get f)) (fun f t ht => k.reachElements _ f _ _ t ht) s.fittedFeeders
    (measuredBy fr s) measured
  rw [acceptFrame_eq]
  exact k.huntFrame fr _ reached p

/-- A frame is counted only when a hunt is in IDENTIFY before the detector moves and after (R150). -/
theorem huntFrame_uncounted {fr : MeasFrame} {s : State}
    (h : huntState s ≠ .identify ∨ huntState (detectorFrame fr.vn fr.busValid fr.interval s) ≠ .identify) :
    huntFrame fr s = detectorFrame fr.vn fr.busValid fr.interval s := by
  unfold huntFrame
  refine if_neg fun open_ => ?_
  simp only [Bool.and_eq_true, windowOpen, decide_eq_true_eq] at open_
  exact h.elim (absurd open_.1) (absurd open_.2)

theorem huntFrame_idle {fr : MeasFrame} {s : State} (h : s.hunt = none) :
    huntFrame fr s = detectorFrame fr.vn fr.busValid fr.interval s := by
  refine huntFrame_uncounted (.inl ?_)
  rw [huntState, h]
  decide

/-! ### A frame that makes no feeder VALID -/

/-- A feeder whose record is counted towards its return, or sets that count back (R4). -/
def recounted (v : Bool) (x : FeederState) : FeederState := { x with recoveryCount := if v = true then x.recoveryCount + 1 else 0 }

/-- A record of a feeder that is AWAITING or LOST and does not return at it moves the count alone (R4). -/
theorem measRecord_recounted {f : Feeder} {s : State} (hm : (s.feeder f).meas = .awaiting ∨ (s.feeder f).meas = .lost)
    (hr : (s.feeder f).recoveryCount < 4) (v : Bool) : measRecord f v s = s.onFeeder f (recounted v) := by
  have moved : measMove v (s.feeder f) = recounted v (s.feeder f) := by
    have short : ¬ (s.feeder f).recoveryCount + 1 = 5 := by omega
    rcases hm with hm | hm <;> cases v <;> simp [measMove, recounted, hm, short]
  have same : s.onFeeder f (measMove v) = s.onFeeder f (recounted v) :=
    congrArg (fun x => { s with feeders := s.feeders.set f x }) moved
  have meas : ((s.onFeeder f (recounted v)).feeder f).meas = (s.feeder f).meas := by rw [State.feeder_onFeeder_self]; rfl
  unfold measRecord
  dsimp only
  rw [same, meas]
  rw [if_neg (fun c => c.2 c.1), if_neg]
  rintro ⟨valid, -⟩
  rcases hm with hm | hm <;> rw [hm] at valid <;> cases valid

/-- Records of feeders none of which returns at its own (R3, R4). -/
theorem forFeeders_recounted (v : Feeder → Bool) : ∀ {fs : List Feeder} {s : State}, fs.Nodup →
    (∀ f ∈ fs, ((s.feeder f).meas = .awaiting ∨ (s.feeder f).meas = .lost) ∧ (s.feeder f).recoveryCount < 4) →
    forFeeders fs (fun f => measRecord f (v f)) s = forFeeders fs (fun f a => a.onFeeder f (recounted (v f))) s
  | [], _, _, _ => rfl
  | f :: fs, s, hn, h => by
    obtain ⟨own, rest⟩ := List.nodup_cons.1 hn
    show forFeeders fs (fun f => measRecord f (v f)) (measRecord f (v f) s) = _
    rw [measRecord_recounted (h f List.mem_cons_self).1 (h f List.mem_cons_self).2]
    refine (forFeeders_recounted v rest fun g hg => ?_).trans rfl
    have apart : g ≠ f := fun e => own (by rw [← e]; exact hg)
    rw [State.feeder_onFeeder_of_ne _ apart]
    exact h g (List.mem_cons_of_mem _ hg)

/-- Steps that change nothing, one after the other. -/
theorem forFeeders_stays {step : Feeder → State → State} {s : State} : ∀ {fs : List Feeder}, (∀ f ∈ fs, step f s = s) →
    forFeeders fs step s = s
  | [], _ => rfl
  | f :: fs, h => by
    show forFeeders fs step (step f s) = s
    rw [h f List.mem_cons_self]
    exact forFeeders_stays fun g hg => h g (List.mem_cons_of_mem _ hg)

/-- A frame that makes no feeder VALID reaches the hunt unit with the counts moved alone (R3, R4, R5). -/
theorem reachedBy_recounted {fr : MeasFrame} {s : State}
    (hm : ∀ f, s.fitted f = true → (s.feeder f).meas = .awaiting ∨ (s.feeder f).meas = .lost)
    (hr : ∀ f, s.fitted f = true → (s.feeder f).recoveryCount < 4) :
    reachedBy fr s =
      { linkedBy fr s with
        bus := { vn := fr.vn, valid := fr.busValid }
        feeders := .of fun f => if s.fitted f = true then recounted (fr.records.get f).valid (s.feeder f) else s.feeder f } := by
  have measured : measuredBy fr s =
      { linkedBy fr s with
        bus := { vn := fr.vn, valid := fr.busValid }
        feeders := .of fun f => if s.fitted f = true then recounted (fr.records.get f).valid (s.feeder f) else s.feeder f } := by
    have walked := (forFeeders_recounted (s := linkedBy fr s) (fun f => (fr.records.get f).valid) s.nodup_fittedFeeders
      (fun f hf => ⟨hm f ((s.mem_fittedFeeders f).1 hf), hr f ((s.mem_fittedFeeders f).1 hf)⟩)).trans
      (forFeeders_onFeeder (fun f => recounted (fr.records.get f).valid) s.nodup_fittedFeeders _)
    simp only [s.mem_fittedFeeders] at walked
    unfold measuredBy
    rw [walked]
    rfl
  have held : ∀ f ∈ s.fittedFeeders, ((measuredBy fr s).feeder f).meas ≠ .valid := fun f hf c => by
    have fitted := (s.mem_fittedFeeders f).1 hf
    rw [measured, State.feeder, PerFeeder.get_of, if_pos fitted] at c
    rcases hm f fitted with e | e <;> exact absurd (e.symm.trans c) (by decide)
  unfold reachedBy
  rw [forFeeders_stays fun f hf => reachElements_held (held f hf)]
  exact measured

end Sys2Proof.Machine
end

