-- ==== Sys2Proof/Proofs/FrameTaken.lean ====
section
/-! PROOFS. A unit of the link is discarded, or accepted and handed on to the detector and the hunt (R1 to R9, R145 to R149). -/
namespace Sys2Proof.Machine

/-- The queues that the link leaves, ahead of what the blocks send (R9). -/
theorem linkedBy_restored {fr : MeasFrame} {s : State} (h : s.link ≠ .up) :
    (linkedBy fr s).queues = said [.linkRestored fr.sequence] s := by
  show said (if s.link = .up then [] else [.linkRestored fr.sequence]) s = _
  rw [if_neg h]

/-- With no hunt, an invalid bus record ends the frame at the elements (R145). -/
theorem acceptFrame_busInvalid {fr : MeasFrame} {s : State} (hh : s.hunt = none) (hb : fr.busValid = false) :
    acceptFrame fr s = reachedBy fr s := by
  rw [acceptFrame_eq, huntFrame_idle (reachedBy_idle fr hh).hunt, hb]
  rfl

/-- With no hunt, a valid one moves the detector (R145). -/
theorem acceptFrame_busValid {fr : MeasFrame} {s : State} (hh : s.hunt = none) (hb : fr.busValid = true) :
    DetectorMoved fr.vn fr.interval (reachedBy fr s) (acceptFrame fr s) := by
  have idle := (reachedBy_idle fr hh).hunt
  rw [acceptFrame_eq, huntFrame_idle idle, hb]
  exact detectorFrame_moved fr.vn fr.interval idle

theorem reachedBy_shell (fr : MeasFrame) (s : State) :
    SameShell { linkedBy fr s with bus := { vn := fr.vn, valid := fr.busValid } } (reachedBy fr s) := by
  have := everywhere
  exact forFeeders_keeps _ (fun f => reachElements fr.usedVn f fr.interval (fr.records.get f))
    (fun f t ht => (shell_stays _).reachElements _ f _ _ t ht) s.fittedFeeders _ (measuredBy_shell fr s)

/-- The detector's move at a frame, by the settings of the detector level as it then stands (R145). -/
def frameMoved (fr : MeasFrame) (s : State) : Detector :=
  detectorMove (s.huntSettings (detectorLevel (acceptFrame fr s))) fr.vn fr.interval s.detector

/-- With no hunt, what a frame with a valid bus record leaves of the detector and the hunt (R145 to R149). -/
theorem acceptFrame_detector {fr : MeasFrame} {s : State} (hh : s.hunt = none) (hb : fr.busValid = true) :
    let t := acceptFrame fr s
    let set := s.huntSettings (detectorLevel t)
    let entered := (frameMoved fr s).state = .detected ∧ s.detector.state ≠ .detected
    (if entered then t.detector = frameMoved fr s ∨ t.detector = { frameMoved fr s with state := .unresolved }
      else t.detector = frameMoved fr s) ∧
    (entered → set.identifyEnable = true →
      t.detector = frameMoved fr s ∧
      t.hunt = some
        { newHunt .detected t with
          state := .identify, window := some { length := set.identifyWindow, counted := 0, sums := .of fun _ => 0 } }) ∧
    (¬ entered ∨ (set.identifyEnable = false ∧ set.trialEnable = false) → t.hunt = none) := by
  intro t set entered
  have moved := acceptFrame_busValid hh hb
  have shell := reachedBy_shell fr s
  have settings : (reachedBy fr s).huntSettings (detectorLevel (reachedBy fr s)) = set := by
    rw [shell.huntSettings, ← moved.levels.detectorLevel]
    rfl
  have next : detectorNext fr.vn fr.interval (reachedBy fr s) = frameMoved fr s := by
    rw [detectorNext, settings, (reachedBy_idle fr hh).detector]
    rfl
  have started : newHunt .detected t = newHunt .detected (reachedBy fr s) := by
    rw [newHunt, newHunt, moved.levels.detectorLevel, shell.partTime, (acceptFrame_shell fr s).partTime]
  have still := moved.still
  have enters := moved.entered
  have identify := moved.identify
  have rest := moved.rest
  rw [next, (reachedBy_idle fr hh).detector] at still enters identify rest
  rw [settings] at identify rest
  refine ⟨?_, fun he hi => ?_, rest⟩
  · split
    · next he => exact enters he
    · next he => exact still he
  · obtain ⟨detector, hunt⟩ := identify he hi
    refine ⟨detector, hunt.trans ?_⟩
    rw [started, ← settings]
    rfl

end Sys2Proof.Machine

open Sys2Proof Sys2Proof.Machine

/-- Settles O7: the frame's way in four parts, the detector by its table, and the trial that a hunt may start with. -/
theorem frameIsDiscardedOrAccepted : Obligations.FrameIsDiscardedOrAccepted := by
  refine ⟨fun bs s => ⟨exec_measurementFrame_discarded, fun ha => ?_⟩, fun fr s => ?_, fun vn interval s => ?_⟩
  · intro fr fitted linked measured
    have shell := acceptFrame_shell (frameAt bs) s
    refine ⟨_, ha.exec, ?_, shell.link, shell.lastSequence, shell.lastFrameTime, shell.linkDeadline, shell.bus, shell.partTime,
      fun hh => ?_, fun hl p => ?_, fun hm hr => ?_⟩
    · rw [acceptFrame_eq]
      refine congrArg (huntFrame (frameAt bs)) ?_
      unfold reachedBy measuredBy
      simp only [frameAt_record]
      rfl
    · intro set x gathered moved entered
      cases hb : (bs.getD 6 0#8).getLsbD 0 with
      | false =>
        have same : moved = x := if_pos hb
        have out : ¬ entered := fun c => c.2 (same ▸ c.1)
        rw [if_neg out, same, acceptFrame_busInvalid hh hb]
        have idle := reachedBy_idle (frameAt bs) hh
        exact ⟨idle.detector, fun c => absurd c out, fun _ => idle.hunt⟩
      | true =>
        have same : moved = frameMoved (frameAt bs) s := by
          rw [frameMoved, detectorMove_spec]
          refine Eq.trans (if_neg ?_) rfl
          rw [hb]
          decide
        have detector := acceptFrame_detector (fr := frameAt bs) hh hb
        rw [← same] at detector
        exact detector
    · have ahead := acceptFrame_queues (frameAt bs) s p
      rw [linkedBy_restored hl] at ahead
      exact ahead
    · rw [acceptFrame_eq, reachedBy_recounted hm hr]
      simp only [frameAt_record]
      rfl
  · exact huntFrame_uncounted
  · intro set x gathered moved told go entered dropped u
    have same : detectorNext vn interval s = moved := detectorMove_spec _ _ _ _
    have told_eq : detectorTold vn interval s = u := by
      unfold detectorTold
      rw [same]
    have enters : (detectorNext vn interval s).state = .detected ∧ s.detector.state ≠ .detected ↔ entered := by rw [same]
    have tries : entered → s.hunt = none → set.identifyEnable = false → set.trialEnable = true →
        go = huntSettle (some vn) ({ u with hunt := some (newHunt .detected s) }, .trialEntry none (some .detected)) :=
      fun he hh hi ht => by
        refine (detectorFrame_tries (enters.2 he) hh hi ht).trans ?_
        rw [trialing, told_eq]
    refine ⟨rfl, fun he hs => ?_, fun he hs => ?_, fun he hh hi => ?_, fun he hh hi ht => ⟨fun g first may free => ?_, fun nobody => ?_⟩⟩
    · refine (detectorFrame_still (mt enters.1 he) (by rw [same]; exact hs)).trans ?_
      rw [same, told_eq]
    · have disabled : set.identifyEnable = false ∧ set.trialEnable = false → huntEnabled s = false := fun ⟨hi, ht⟩ => by
        show (set.identifyEnable || set.trialEnable) = false
        rw [hi, ht]
        rfl
      exact (detectorFrame_told (enters.2 he) (hs.imp_right disabled)).trans told_eq
    · refine (detectorFrame_identifies (enters.2 he) hh hi).trans ?_
      unfold identifying
      rw [same]
    · obtain ⟨begun, detector⟩ := trial_begins (u := { u with hunt := some (newHunt .detected s) }) (h := newHunt .detected s) rfl
        (newHunt_unburdened _ _) ht first ⟨may.fitted, may.lock, may.closed, may.idle⟩ free (some vn) (some .detected)
      have := anyFeeder
      obtain ⟨cs, list, hunt⟩ := begun.hunt
      rw [tries he hh hi ht]
      exact ⟨⟨⟨cs, ⟨list.members, list.untried, list.ordered⟩, hunt⟩, begun.feeder, begun.opId⟩, detector, (queues_grow u.queues).huntSettle _ _ fun _ => List.prefix_rfl⟩
    · have finished := trial_over (u := { u with hunt := some (newHunt .detected s) }) (h := newHunt .detected s) rfl
        (newHunt_unburdened _ _) ht nobody (some vn) (some .detected)
      rw [tries he hh hi ht]
      exact ⟨finished.hunt, finished.report, finished.detector, finished.feeders⟩
end

