-- ==== Sys2Proof/Proofs/TargetsFollowed.lean ====
section
/-! PROOFS. A feeder follows its district's target, whatever changed a source of it (R68 to R81). -/
namespace Sys2Proof.Machine

/-! ### What a move leaves of its feeder -/

/-- A new target moves a feeder: it stands above the level applied, or has fallen while the feeder is quiescent (R74, R75). -/
def TargetMoves (f : Feeder) (x : FeederFire) (s : State) (old new : Level) : Prop :=
  x.applied.number < new.number ∨ (new.number < old.number ∧ quiescent s f = true)

/-- An element at a change of settings: kept while it is enabled before and after (R36). -/
def elementKept (was now : Bool) (e : Element) : Element := if was = true ∧ now = true then e else { state := .normal, amount := 0 }

/-- A sequencer's record in LOCKOUT with a cause, its shots used kept (R123). -/
def lockedRecord (cause : ArCause) (r : ArRecord) (s : State) : ArRecord :=
  { ArRecord.bare .lockout s.partTime with shotsUsed := r.shotsUsed, cause := some cause }

/-- The feeder after a move to a level: its fire state, its FIRE claim, its elements, and a dead time that the move ends (R36, R74, R79, R80,
R129, R130). -/
def MovedTo (f : Feeder) (x : FeederFire) (s : State) (new : Level) (z : FeederState) : Prop :=
  z.fire = some { applied := new, settingsPending := false, effective := s.effectiveFor f new } ∧
    z.claims = { (s.feeder f).claims with fire := atFireBlock new (s.commissioning f).fireBlock } ∧
    (let g := x.effective.group
     let k := (s.effectiveFor f new).group
     let y := s.feeder f
     let reduced : Bool := y.ar.currentShot.any fun n => decide (k.shots < n)
     z.phaseIdmt = y.phaseIdmt ∧ z.highSet = elementKept g.highSetEnable k.highSetEnable y.highSet ∧
     z.earthIdmt = elementKept g.earthEnable k.earthEnable y.earthIdmt ∧ z.sef = elementKept g.sefEnable k.sefEnable y.sef ∧
     z.ar =
       if y.ar.state ≠ .deadTime then y.ar
       else if y.claims.fire = false ∧ atFireBlock new (s.commissioning f).fireBlock = true then lockedRecord .claim y.ar s
       else if reduced = true then lockedRecord .shotsReduced y.ar s
       else y.ar)

/-- The feeder after its district's target went from one level to another: moved to the new one, or as it was (R74, R75). -/
def Follows (f : Feeder) (x : FeederFire) (s : State) (old new : Level) (z : FeederState) : Prop :=
  (TargetMoves f x s old new → MovedTo f x s new z) ∧ (¬ TargetMoves f x s old new → z = s.feeder f)

/-- A reload is a move. -/
theorem reloaded_movedTo {f : Feeder} {x : FeederFire} {s : State} (hx : (s.feeder f).fire = some x) (new : Level) (cause : ApplyCause) :
    MovedTo f x s new ((reloaded f new cause s).feeder f) := by
  unfold reloaded
  rw [hx]
  simp only [MovedTo, State.feeder, PerFeeder.get_set_self, elementKept, lockedRecord, true_and]
  by_cases hd : (s.feeders.get f).ar.state = .deadTime
  · simp only [hd, decide_true, Bool.true_and, Bool.and_eq_true, Bool.not_eq_true', ne_eq, not_true_eq_false, if_false]
    rfl
  · simp only [hd, decide_false, Bool.false_and, Bool.false_eq_true, ne_eq, not_false_eq_true, if_true, if_false]

/-- A reload changes no other feeder. -/
theorem reloaded_other {f g : Feeder} (h : g ≠ f) (l : Level) (c : ApplyCause) (s : State) :
    (reloaded f l c s).feeder g = s.feeder g := by
  unfold reloaded
  split
  · rfl
  · exact PerFeeder.get_set_of_ne _ h _

theorem reloaded_partTime (f : Feeder) (l : Level) (c : ApplyCause) (s : State) : (reloaded f l c s).partTime = s.partTime := by
  unfold reloaded
  split <;> rfl

/-! ### A feeder that its district's turn has not reached -/

/-- What the fire level unit reads of one feeder stands as in another state, but for its target. -/
structure FireAlike (f : Feeder) (s a : State) : Prop where
  feeder : a.feeder f = s.feeder f
  partTime : a.partTime = s.partTime
  commissioning : a.commissioning f = s.commissioning f
  effective : ∀ l, a.effectiveFor f l = s.effectiveFor f l

/-- So does the target of the feeder's district. -/
structure TargetAwaited (f : Feeder) (s a : State) : Prop extends FireAlike f s a where
  target : (a.districts.get (s.commissioning f).district).target = (s.districts.get (s.commissioning f).district).target

section
variable {f : Feeder} {x : FeederFire} {s a : State}

theorem FireAlike.quiescent (h : FireAlike f s a) : Machine.quiescent a f = Machine.quiescent s f := by
  simp only [Machine.quiescent, State.fitted, h.feeder, h.commissioning]

theorem FireAlike.fitted (h : FireAlike f s a) : a.fitted f = s.fitted f := congrArg Commissioning.fitted h.commissioning

/-- A feeder stands alike through a change that leaves it, the part time and the store. -/
theorem FireAlike.through {b : State} (h : FireAlike f s a) (hf : b.feeder f = a.feeder f) (hp : b.partTime = a.partTime)
    (hs : b.store = a.store) : FireAlike f s b where
  feeder := hf.trans h.feeder
  partTime := hp.trans h.partTime
  commissioning := by rw [← h.commissioning]; simp only [State.commissioning, hs]
  effective := fun l => (effectiveFor_congr (by rw [hs]) (by rw [hs]) (by rw [hs])).trans (h.effective l)

/-- A move from a state in which the feeder stands alike. -/
theorem MovedTo.alike (h : FireAlike f s a) {new : Level} {z : FeederState} (m : MovedTo f x a new z) : MovedTo f x s new z := by
  unfold MovedTo lockedRecord at *
  rw [h.feeder, h.partTime, h.commissioning, h.effective] at m
  exact m

end

/-! ### One feeder acts on a target -/

/-- A feeder that acts on a target reloads or does nothing (R74, R75). -/
theorem followed_cases (old new : Level) (f : Feeder) (s : State) :
    followed old new f s = s ∨ ∃ l c, followed old new f s = reloaded f l c s := by
  unfold followed
  split
  · exact .inl rfl
  · split
    · exact .inr ⟨_, _, rfl⟩
    · split
      · exact .inr ⟨_, _, rfl⟩
      · exact .inl rfl

theorem followed_other {f g : Feeder} (h : g ≠ f) (old new : Level) (s : State) : (followed old new f s).feeder g = s.feeder g := by
  obtain e | ⟨l, c, e⟩ := followed_cases old new f s <;> rw [e]
  exact reloaded_other h l c s

theorem followed_partTime (old new : Level) (f : Feeder) (s : State) : (followed old new f s).partTime = s.partTime := by
  obtain e | ⟨l, c, e⟩ := followed_cases old new f s <;> rw [e]
  exact reloaded_partTime f l c s

/-- Another feeder of the district acts on the target, and the feeder stands alike. -/
theorem FireAlike.followedOther {f g : Feeder} {s a : State} (h : FireAlike f s a) (hg : f ≠ g) (old new : Level) :
    FireAlike f s (followed old new g a) :=
  h.through (followed_other hg _ _ a) (followed_partTime _ _ _ a) (followed_store _ _ _ a)

/-- A feeder whose level is at or above the old target follows the new one at its turn (R74, R75). -/
theorem FireAlike.followed {f : Feeder} {x : FeederFire} {s a : State} (h : FireAlike f s a) (hx : (s.feeder f).fire = some x)
    {old : Level} (sound : old.number ≤ x.applied.number) (new : Level) :
    Follows f x s old new ((Machine.followed old new f a).feeder f) := by
  have fire : (a.feeder f).fire = some x := h.feeder ▸ hx
  have moved := fun cause => (reloaded_movedTo fire new cause).alike h
  have form : Machine.followed old new f a =
      if x.applied.number < new.number then reloaded f new .raise a
      else if new.number < x.applied.number ∧ new.number < old.number ∧ Machine.quiescent s f = true then reloaded f new .lower a
      else a := by
    rw [← h.quiescent]
    unfold Machine.followed
    rw [fire]
  rw [form]
  by_cases rises : x.applied.number < new.number
  · rw [if_pos rises]
    exact ⟨fun _ => moved _, fun still => absurd (.inl rises) still⟩
  · rw [if_neg rises]
    by_cases falls : new.number < old.number ∧ Machine.quiescent s f = true
    · rw [if_pos ⟨by omega, falls⟩]
      exact ⟨fun _ => moved _, fun still => absurd (.inr falls) still⟩
    · rw [if_neg fun c => falls c.2]
      exact ⟨fun moves => absurd moves (not_or.2 ⟨rises, falls⟩), fun _ => h.feeder⟩

/-- A target that stays moves no feeder whose level is at or above it. -/
theorem follows_still {f : Feeder} {x : FeederFire} {s : State} {target : Level} (sound : target.number ≤ x.applied.number) :
    Follows f x s target target (s.feeder f) :=
  ⟨fun moves => absurd moves (by rintro (c | c) <;> omega), fun _ => rfl⟩

/-! ### A district's turn -/

theorem targetTaken_districts (d : District) (s : State) :
    (targetTaken d s).districts = s.districts.set d { s.districts.get d with target := computedTarget s d } := by
  rw [← recomputeTarget_spec, recomputeTarget_districts]

/-- A district with its new target and its FIRE_TARGET sent, before its feeders act (R68). -/
def targetSet (d : District) (s : State) : State :=
  let x := s.districts.get d
  { s with
    districts := s.districts.set d { x with target := computedTarget s d }
    queues := said [.fireTarget d x.target (computedTarget s d) x.network x.panel (s.ban d) (s.floor d) (fireBanActive s)] s }

/-- A target that changes is set, and the fitted feeders of the district act on it in feeder order (R68). -/
theorem targetTaken_changed {d : District} {s : State} (h : computedTarget s d ≠ (s.districts.get d).target) :
    targetTaken d s =
      forFeeders (districtFeeders s d) (followed (s.districts.get d).target (computedTarget s d)) (targetSet d s) := by
  have feeders : districtFeeders s d = Feeder.all.filter fun f => s.fitted f && decide ((s.commissioning f).district = d) := by
    simp only [districtFeeders, State.fittedFeeders, List.filter_filter, Bool.and_comm]
  rw [feeders]
  exact if_neg h

theorem targetTaken_unchanged {d : District} {s : State} (h : computedTarget s d = (s.districts.get d).target) : targetTaken d s = s :=
  if_pos h

theorem mem_districtFeeders (s : State) (d : District) (f : Feeder) :
    f ∈ districtFeeders s d ↔ s.fitted f = true ∧ (s.commissioning f).district = d := by
  simp [districtFeeders, State.mem_fittedFeeders]

theorem nodup_districtFeeders (s : State) (d : District) : (districtFeeders s d).Nodup := s.nodup_fittedFeeders.filter _

/-- The turn of another district leaves a feeder. -/
theorem targetTaken_elsewhere {d : District} {f : Feeder} {s : State} (h : (s.commissioning f).district ≠ d) :
    (targetTaken d s).feeder f = s.feeder f := by
  by_cases hc : computedTarget s d = (s.districts.get d).target
  · rw [targetTaken_unchanged hc]
  · rw [targetTaken_changed hc]
    exact forFeeders_others (P := fun t => t.feeder f = s.feeder f) (fun g t hg ht => (followed_other (Ne.symm hg) _ _ t).trans ht)
      (fun hm => h ((mem_districtFeeders s d f).1 hm).2) rfl

theorem targetTaken_shell (d : District) (s : State) : SameShell s (targetTaken d s) := recomputeTarget_spec d s ▸ recomputeTarget_shell d s

/-- A feeder as it stands follows the target that its district has. -/
def FollowsTarget (f : Feeder) (x : FeederFire) (s t : State) : Prop :=
  Follows f x s (s.districts.get (s.commissioning f).district).target (t.districts.get (s.commissioning f).district).target (t.feeder f)

section
variable {f : Feeder} {x : FeederFire} {s a : State}

/-- A fitted feeder's level is at or above its target (R73). -/
theorem FeederLevelsSound.fire (h : FeederLevelsSound s f) (hx : (s.feeder f).fire = some x) :
    s.fitted f = true ∧ (targetLevel s f).number ≤ x.applied.number := by
  unfold FeederLevelsSound at h
  rwa [hx] at h

/-- A feeder is awaited through the turn of another district. -/
theorem TargetAwaited.elsewhere (h : TargetAwaited f s a) {d : District} (hd : d ≠ (s.commissioning f).district) :
    TargetAwaited f s (targetTaken d a) where
  toFireAlike := h.toFireAlike.through (targetTaken_elsewhere (h.commissioning ▸ Ne.symm hd)) (targetTaken_shell d a).partTime
    (targetTaken_shell d a).store
  target := by
    rw [targetTaken_districts, PerDistrict.get_set_of_ne _ (Ne.symm hd)]
    exact h.target

/-- A feeder whose target is not recomputed follows it. -/
theorem TargetAwaited.still (h : TargetAwaited f s a) (hx : (s.feeder f).fire = some x) (sound : FeederLevelsSound s f) :
    FollowsTarget f x s a := by
  unfold FollowsTarget
  rw [h.target, h.feeder]
  exact follows_still (sound.fire hx).2

/-- A feeder follows its target at the turn of its district (R68, R74, R75). -/
theorem TargetAwaited.taken (h : TargetAwaited f s a) (hx : (s.feeder f).fire = some x) (sound : FeederLevelsSound s f) :
    FollowsTarget f x s (targetTaken (s.commissioning f).district a) := by
  obtain ⟨fitted, level⟩ := sound.fire hx
  by_cases hc : computedTarget a (s.commissioning f).district = (a.districts.get (s.commissioning f).district).target
  · rw [targetTaken_unchanged hc]
    exact h.still hx sound
  · have member : f ∈ districtFeeders a (s.commissioning f).district :=
      (mem_districtFeeders _ _ _).2 ⟨h.fitted.trans fitted, congrArg Commissioning.district h.commissioning⟩
    unfold FollowsTarget
    rw [targetTaken_districts, PerDistrict.get_set_self, targetTaken_changed hc, h.target]
    exact forFeeders_once (P := FireAlike f s) (Q := fun t => Follows f x s _ _ (t.feeder f))
      (fun g t hg ht => ht.followedOther (Ne.symm hg) _ _) (fun t ht => ht.followed hx level _)
      (fun g t hg ht => by rwa [followed_other (Ne.symm hg)]) (nodup_districtFeeders _ _) member
      (h.toFireAlike.through rfl rfl rfl)

/-- A feeder that has followed its target stands through the turn of another district. -/
theorem FollowsTarget.elsewhere (h : FollowsTarget f x s a) (hc : a.store = s.store) {d : District}
    (hd : d ≠ (s.commissioning f).district) : FollowsTarget f x s (targetTaken d a) := by
  have district : (a.commissioning f).district ≠ d := by
    simp only [State.commissioning, hc]
    exact Ne.symm hd
  unfold FollowsTarget
  rw [targetTaken_districts, PerDistrict.get_set_of_ne _ (Ne.symm hd), targetTaken_elsewhere district]
  exact h

/-- At a change of FIRE_BAN a feeder follows its target at the turn of its district, whichever of the three it is (R72). -/
theorem TargetAwaited.takenInTurn (h : TargetAwaited f s a) (hc : a.store = s.store) (hx : (s.feeder f).fire = some x)
    (sound : FeederLevelsSound s f) : FollowsTarget f x s (targetTaken .d3 (targetTaken .d2 (targetTaken .d1 a))) := by
  have store := fun d {t : State} (ht : t.store = s.store) => (targetTaken_shell d t).store.trans ht
  cases hd : (s.commissioning f).district with
  | d1 =>
    have taken := h.taken hx sound
    rw [hd] at taken
    exact (taken.elsewhere (store _ hc) (by rw [hd]; decide)).elsewhere (store _ (store _ hc)) (by rw [hd]; decide)
  | d2 =>
    have taken := (h.elsewhere (d := .d1) (by rw [hd]; decide)).taken hx sound
    rw [hd] at taken
    exact taken.elsewhere (store _ (store _ hc)) (by rw [hd]; decide)
  | d3 =>
    have taken := ((h.elsewhere (d := .d1) (by rw [hd]; decide)).elsewhere (d := .d2) (by rw [hd]; decide)).taken hx sound
    rwa [hd] at taken

/-- What follows a target depends on the feeder and the districts alone. -/
theorem FollowsTarget.congr {t : State} (h : FollowsTarget f x s a) (hf : t.feeder f = a.feeder f) (hd : t.districts = a.districts) :
    FollowsTarget f x s t := by
  unfold FollowsTarget
  rw [hf, hd]
  exact h

end

/-! ### A scan that moves no contact -/

/-- A scan in which every contact is steady is one of FIRE_BAN, CREW_KEY and SET_PROTECT. -/
theorem scanInputs_steadyContacts {lv : ScanLevels} {s : State}
    (steady : ∀ g, Steady (s.feeder g).closedContact (lv.contacts.get g).closedContact ∧
      Steady (s.feeder g).openContact (lv.contacts.get g).openContact) :
    scanInputs lv s = scanSetProtect lv.setProtect (scanCrewKey lv.crewKey (scanFireBan lv.fireBan s)) := by
  unfold scanInputs
  rw [forFeeders_stays fun f _ => scanFeeder_steady (steady f).1 (steady f).2]

/-- FIRE_BAN moves, and the districts take their targets in turn when the level read changes (R72). -/
theorem scanFireBan_taken (raw : Bool) (s : State) :
    scanFireBan raw s =
      let now : State := { s with fireBan := s.fireBan.scan raw }
      if fireBanActive now = fireBanActive s then now else targetTaken .d3 (targetTaken .d2 (targetTaken .d1 now)) := by
  unfold scanFireBan
  simp only [District.all, List.foldl_cons, List.foldl_nil, recomputeTarget_spec]

theorem scanCrewKey_steady {raw : Bool} {s : State} (h : Steady s.crewKey raw) : scanCrewKey raw s = s := by
  have same : { s with crewKey := s.crewKey.scan raw } = s := by rw [h.scan]
  unfold scanCrewKey
  dsimp only
  rw [same]
  exact if_neg fun c => absurd (c.1.symm.trans c.2) (by decide)

theorem scanSetProtect_steady {raw : Bool} {s : State} (h : Steady s.setProtect raw) : scanSetProtect raw s = s := by
  rw [scanSetProtect, h.scan]

theorem scanFireBan_shell (raw : Bool) (s : State) : SameShell { s with fireBan := s.fireBan.scan raw } (scanFireBan raw s) :=
  (scanFireBan_spec raw s).1

/-- A scan with every contact steady leaves each feeder to follow its target (R72). -/
theorem scan_followsTarget {f : Feeder} {x : FeederFire} {s : State} (hx : (s.feeder f).fire = some x) (sound : FeederLevelsSound s f)
    (raw : Bool) : FollowsTarget f x s (scanFireBan raw s) := by
  have awaited : TargetAwaited f s { s with fireBan := s.fireBan.scan raw } := ⟨⟨rfl, rfl, rfl, fun _ => rfl⟩, rfl⟩
  rw [scanFireBan_taken]
  dsimp only
  split
  · exact awaited.still hx sound
  · exact awaited.takenInTurn rfl hx sound

/-! ### The requests that set a source of a target -/

theorem namedLevel_byte (l : Level) : namedLevel [BitVec.ofNat 8 l.number] = some l := by cases l <;> rfl

theorem answer_feeders (q : Request) (p : Port) (target : Nat) (r : State × Reply) : (answer q p target r).feeders = r.1.feeders := by
  unfold answer
  split <;> rfl

theorem answer_districts (q : Request) (p : Port) (target : Nat) (r : State × Reply) : (answer q p target r).districts = r.1.districts := by
  unfold answer
  split <;> rfl

/-- A district request that is taken: its owner acts on the district that it names, and is answered. -/
theorem Takes.onDistrict {q : Request} {p : Port} {d : District} {payload : List Byte} {s : State} (h : Takes q p d.byte payload s)
    (hk : q.targetKind = .district) (body : District → State → State × Reply) :
    takeRequest q p d.byte payload (onDistrictTarget d.byte body) s = answer q p d.number (body d (receive p (listens p s))) := by
  rw [((takes_listens q p p d.byte payload s).2 h).plain (.inr hk)]
  rw [onDistrictTarget, District.ofNumber_byte, District.byte_toNat]

/-- A feeder follows its target through a district request that leaves it so (R69 to R71). -/
theorem FollowsTarget.answered {f : Feeder} {x : FeederFire} {s : State} {r : State × Reply} (h : FollowsTarget f x s r.1)
    (q : Request) (p : Port) (target : Nat) : FollowsTarget f x s (answer q p target r) :=
  h.congr (congrArg (PerFeeder.get · f) (answer_feeders q p target r)) (answer_districts q p target r)

section
variable {f : Feeder} {x : FeederFire} {s a : State} {p : Port} {l : Level}

/-- A feeder is awaited while a request is received. -/
theorem targetAwaited_receive (f : Feeder) (p : Port) (s : State) : TargetAwaited f s (receive p (listens p s)) :=
  ⟨⟨rfl, rfl, rfl, fun _ => effectiveFor_congr rfl rfl rfl⟩, rfl⟩

/-- A feeder is awaited through a change of the store that leaves the commissioning records, the groups and the curves. -/
theorem TargetAwaited.onStore (h : TargetAwaited f s a) (g : Store → Store)
    (hc : (g a.store).commissioning = a.store.commissioning := by rfl) (hg : (g a.store).groups = a.store.groups := by rfl)
    (h1 : (g a.store).curveU1 = a.store.curveU1 := by rfl) (h2 : (g a.store).curveU2 = a.store.curveU2 := by rfl) :
    TargetAwaited f s (a.onStore g) where
  feeder := h.feeder
  partTime := h.partTime
  commissioning := (congrArg (fun c => (PerFeeder.get c f).held) hc).trans h.commissioning
  effective := fun l => (effectiveFor_congr hg h1 h2).trans (h.effective l)
  target := h.target

/-- A feeder is awaited through a change of a district's requests. -/
theorem TargetAwaited.onDistrict (h : TargetAwaited f s a) (d : District) (g : DistrictState → DistrictState)
    (hg : ∀ y, (g y).target = y.target) : TargetAwaited f s (a.onDistrict d g) where
  toFireAlike := h.toFireAlike.through rfl rfl rfl
  target := by
    refine Eq.trans ?_ h.target
    by_cases hd : (s.commissioning f).district = d
    · rw [← hd, State.onDistrict_districts, PerDistrict.get_set_self, hg]
    · rw [State.onDistrict_districts, PerDistrict.get_set_of_ne _ hd]

theorem TargetAwaited.queueWrite (h : TargetAwaited f s a) (p : Port) (r : RecordName) : TargetAwaited f s (Machine.queueWrite p r a) :=
  h.onStore _

/-- A request of a port is recomputed into the target (R69). -/
theorem setFireRequest_follows (ht : Takes .setFireRequest p (s.commissioning f).district.byte [BitVec.ofNat 8 l.number] s)
    (hx : (s.feeder f).fire = some x) (sound : FeederLevelsSound s f) :
    ∃ t, exec (.setFireRequest p (s.commissioning f).district.byte [BitVec.ofNat 8 l.number]) s = .next t ∧ FollowsTarget f x s t := by
  refine ⟨_, congrArg Host.Outcome.next (ht.onDistrict rfl (setFireRequestBody p _)), FollowsTarget.answered ?_ _ _ _⟩
  simp only [setFireRequestBody, namedLevel_byte, recomputeTarget_spec]
  exact ((targetAwaited_receive f p s).onDistrict _ _ fun y => by cases p <;> rfl).taken hx sound

/-- A season floor is held, its write queued, and the target recomputed (R70). -/
theorem setFloor_follows (ht : Takes .setFloor p (s.commissioning f).district.byte [BitVec.ofNat 8 l.number] s)
    (hx : (s.feeder f).fire = some x) (sound : FeederLevelsSound s f) :
    ∃ t, exec (.setFloor p (s.commissioning f).district.byte [BitVec.ofNat 8 l.number]) s = .next t ∧ FollowsTarget f x s t := by
  refine ⟨_, congrArg Host.Outcome.next (ht.onDistrict rfl (setFloorBody p _)), FollowsTarget.answered ?_ _ _ _⟩
  simp only [setFloorBody, namedLevel_byte, recomputeTarget_spec]
  have held : TargetAwaited f s (setHeld (.seasonFloor (s.commissioning f).district) (.level l) (receive p (listens p s))) :=
    (targetAwaited_receive f p s).onStore _
  exact (held.queueWrite _ _).taken hx sound

/-- A ban level is held and its write queued; while it does not count no target is recomputed (R71). -/
theorem setBanLevel_follows (ht : Takes .setBanLevel p (s.commissioning f).district.byte [BitVec.ofNat 8 l.number] s)
    (hx : (s.feeder f).fire = some x) (sound : FeederLevelsSound s f) :
    ∃ t, exec (.setBanLevel p (s.commissioning f).district.byte [BitVec.ofNat 8 l.number]) s = .next t ∧ FollowsTarget f x s t := by
  refine ⟨_, congrArg Host.Outcome.next (ht.onDistrict rfl (setBanLevelBody p _)), FollowsTarget.answered ?_ _ _ _⟩
  simp only [setBanLevelBody, namedLevel_byte, recomputeTarget_spec]
  have held : TargetAwaited f s (setHeld (.banLevel (s.commissioning f).district) (.level l) (receive p (listens p s))) :=
    (targetAwaited_receive f p s).onStore _
  split
  · exact (held.queueWrite _ _).taken hx sound
  · exact (held.queueWrite _ _).still hx sound

/-- A scan with every contact steady, by what it does to FIRE_BAN; CREW_KEY and SET_PROTECT reach no feeder (R72). -/
theorem inputScan_follows {lv : ScanLevels} (hr : s.phase = .running)
    (steady : ∀ g, Steady (s.feeder g).closedContact (lv.contacts.get g).closedContact ∧
      Steady (s.feeder g).openContact (lv.contacts.get g).openContact)
    (hx : (s.feeder f).fire = some x) (sound : FeederLevelsSound s f) :
    ∃ t, exec (.inputScan lv) s = .next t ∧ FollowsTarget f x s t := by
  have run : exec (.inputScan lv) s = .next (scanInputs lv s) := congrArg Host.Outcome.next (if_pos hr)
  refine ⟨_, run, ?_⟩
  rw [scanInputs_steadyContacts steady, scanCrewKey_form]
  exact (scan_followsTarget hx sound lv.fireBan).congr rfl rfl

end

end Sys2Proof.Machine

open Sys2Proof Sys2Proof.Machine

/-- Settles O37: the feeder is awaited until its district's turn, and moves there or stands; every other turn leaves it. -/
theorem feedersFollowTheirTarget : Obligations.FeedersFollowTheirTarget := by
  refine ⟨fun i f x s t command hx sound run => ?_, fun lv s hr steady hk hp => ?_, fun f old x s hx => handSettings_spec hx old⟩
  · have answered : ∃ u, exec i s = .next u ∧ FollowsTarget f x s u := by
      rcases command with ⟨p, l, ⟨rfl, taken⟩ | ⟨rfl, taken⟩ | ⟨rfl, taken⟩⟩ | ⟨lv, rfl, hr, steady⟩
      · exact setFireRequest_follows taken hx sound
      · exact setFloor_follows taken hx sound
      · exact setBanLevel_follows taken hx sound
      · exact inputScan_follows hr steady hx sound
    obtain ⟨u, ran, follows⟩ := answered
    cases ran.symm.trans run
    exact follows
  · have shell := scanFireBan_shell lv.fireBan s
    refine ⟨s.fireBan.scan lv.fireBan, scanned_scan _ _, ?_⟩
    have run : exec (.inputScan lv) s = .next (scanInputs lv s) := congrArg Host.Outcome.next (if_pos hr)
    rw [run, scanInputs_steadyContacts steady, scanCrewKey_steady (by rwa [shell.crewKey]), scanSetProtect_steady (by rwa [shell.setProtect])]
    exact congrArg Host.Outcome.next (scanFireBan_taken lv.fireBan s)
end

