-- ==== Sys2Proof/Proofs/ElementTrips.lean ====
section
/-! PROOFS. Elements that enter OPERATED: the trip record, TRIP, and the trip that is asked for (R37 to R42, R106 to R108, R114). -/
namespace Sys2Proof.Machine

/-! ### The elements' request -/

/-- A trip of the elements that finds nothing in flight and the breaker not OPEN is admitted (R104 to R106). -/
theorem requestTrip_protection_admitted {f : Feeder} {s : State} (hi : (s.feeder f).inFlight = none)
    (hp : (s.feeder f).position ≠ .opened) (permit : Option Bool) :
    requestTrip f .protection permit s =
      ({ s with
          opCounter := nextOpId s.opCounter
          feeders := s.feeders.set f
            { s.feeder f with
              inFlight := some
                { op := newOperation s .trip .protection permit, deadline := s.partTime + (s.commissioning f).tripConfirm }
              transitTimer := none } }, .admitted s.opCounter, []) := by
  simp only [requestTrip, hi, hp, if_false]
  rfl

/-- A trip of the elements supersedes a close in flight (R108). -/
theorem requestTrip_protection_supersedes {f : Feeder} {s : State} {o : InFlight} (ho : (s.feeder f).inFlight = some o)
    (hk : o.op.kind = .close) (permit : Option Bool) :
    requestTrip f .protection permit s =
      ((supersede f o.op .protection permit s).1, .admitted s.opCounter, (supersede f o.op .protection permit s).2) := by
  simp only [requestTrip, ho, hk, reduceCtorEq, if_false]

/-- A trip of the elements tells the hunt of nothing but a close of its own. -/
theorem requestTrip_protection_tells_nobody {f : Feeder} {s : State} (permit : Option Bool)
    (h : ∀ o, (s.feeder f).inFlight = some o → o.op.kind = .close → .hunt ∉ o.op.requesters) :
    (requestTrip f .protection permit s).2.2 = [] := by
  cases hi : (s.feeder f).inFlight with
  | none =>
    by_cases hp : (s.feeder f).position = .opened
    · rw [requestTrip_protection_already hi hp]
    · rw [requestTrip_protection_admitted hi hp]
  | some o =>
    cases hk : o.op.kind with
    | trip => rw [requestTrip_joins hi hk]
    | close => rw [requestTrip_protection_supersedes hi hk, supersede_spec f o.op _ _ _ hk, if_neg (h o hi hk)]

/-- So the trip is the request, when no close of the hunt's own is in flight (R38). -/
theorem protectionTrip_eq {f : Feeder} {s : State} (vn : Option Nat) (permit : Bool)
    (h : ∀ o, (s.feeder f).inFlight = some o → o.op.kind = .close → .hunt ∉ o.op.requesters) :
    protectionTrip vn f permit s = (requestTrip f .protection (some permit) s).1 := by
  unfold protectionTrip
  dsimp only
  rw [requestTrip_protection_tells_nobody _ h]
  rfl

/-- The permit of a trip that the elements join (R41, R107). -/
theorem joinPermit_asked (held : Option Bool) (permitted : Bool) :
    joinPermit held (some permitted) =
      match held with
      | none => some permitted
      | some p => some (p && permitted) := by
  cases held <;> rfl

/-! ### A record at which elements enter OPERATED -/

/-- The trip record of the elements that have entered OPERATED (R37, R40). -/
def elementsRecord (s : State) (f : Feeder) (fire : FeederFire) (r : FeederRecord) (entered : List ElementName) : TripRecord :=
  { elements := entered, ia := r.ia, ib := r.ib, ic := r.ic, residual := r.residual, level := fire.applied
    shot := (s.feeder f).ar.shotsUsed, permitted := entered.all fire.effective.group.permit, time := s.partTime }

/-- An evaluated record takes the feeder's elements to `y`, some of them into OPERATED, and this is their trip record. -/
structure Operates (f : Feeder) (interval : Nat) (r : FeederRecord) (fire : FeederFire) (s : State) (y : FeederState)
    (record : TripRecord) : Prop where
  valid : (s.feeder f).meas = .valid
  fitted : (s.feeder f).fire = some fire
  moved : y = moveElements fire.effective interval r (s.feeder f)
  entered : enteredOperated (s.feeder f) y ≠ []
  written : record = elementsRecord s f fire r (enteredOperated (s.feeder f) y)

/-- The state on which the trip is asked for: the elements have moved, the record is written and TRIP is sent (R37, R38). -/
def tripRaised (f : Feeder) (y : FeederState) (record : TripRecord) (s : State) : State :=
  { s with feeders := s.feeders.set f { y with tripRecord := some record }, queues := said [.trip f record] s }

theorem tripRaised_feeder (f : Feeder) (y : FeederState) (record : TripRecord) (s : State) :
    (tripRaised f y record s).feeder f = { y with tripRecord := some record } := PerFeeder.get_set_self _ _ _

/-- What the trip then makes of the feeder takes the place of it. -/
theorem tripRaised_set (f : Feeder) (y z : FeederState) (record : TripRecord) (s : State) :
    (tripRaised f y record s).feeders.set f z = s.feeders.set f z := PerFeeder.set_set _ _ _ _

/-- The trip that is asked for leaves the elements as they moved, and the trip record (R37, R38). -/
theorem tripRaised_acted (vn : Option Nat) (f : Feeder) (y : FeederState) (record : TripRecord) (s : State) :
    Acted { y with tripRecord := some record } ((protectionTrip vn f record.permitted (tripRaised f y record s)).feeder f) := by
  have acted := protectionTrip_acted vn f record.permitted (tripRaised f y record s)
  rwa [tripRaised_feeder] at acted

section
variable {vn : Option Nat} {f : Feeder} {interval : Nat} {r : FeederRecord} {fire : FeederFire} {s : State} {y : FeederState}
  {record : TripRecord}

theorem Operates.inFlight (h : Operates f interval r fire s y record) :
    ((tripRaised f y record s).feeder f).inFlight = (s.feeder f).inFlight := by
  rw [tripRaised_feeder, h.moved]
  rfl

theorem Operates.position (h : Operates f interval r fire s y record) :
    ((tripRaised f y record s).feeder f).position = (s.feeder f).position := by
  rw [tripRaised_feeder, h.moved]
  rfl

/-- Some element is picked up when the feeder reports. -/
theorem Operates.picked (h : Operates f interval r fire s y record) (vn : Option Nat) :
    ((protectionTrip vn f record.permitted (tripRaised f y record s)).feeder f).anyPickedUp = true := by
  obtain ⟨n, hn⟩ := List.exists_mem_of_ne_nil _ h.entered
  rw [anyPickedUp_eq, (tripRaised_acted vn f y record s).elements.somePickedUp]
  exact somePickedUp_of_operated (n := n) ((mem_enteredOperated _ _ n).1 hn).2

/-- The elements' trip is raised on the state with TRIP sent (R37, R38). -/
theorem Operates.raiseTrip (h : Operates f interval r fire s y record) :
    raiseTrip vn f r fire (enteredOperated (s.feeder f) y) (s.onFeeder f fun _ => y) =
      protectionTrip vn f record.permitted (tripRaised f y record s) := by
  have written : newTripRecord (s.onFeeder f fun _ => y) ((s.onFeeder f fun _ => y).feeder f) fire r
      (enteredOperated (s.feeder f) y) = record := by
    rw [State.feeder_onFeeder_self, h.written, h.moved]
    rfl
  have sent : broadcast (.trip f record) ((s.onFeeder f fun _ => y).onFeeder f fun x => { x with tripRecord := some record }) =
      tripRaised f y record s := by
    rw [State.onFeeder_onFeeder, broadcast_onFeeder, broadcast_said]
    rfl
  unfold Machine.raiseTrip
  dsimp only
  rw [if_neg (by rw [List.isEmpty_iff]; exact h.entered), written, sent]

/-- The report that follows the trip changes nothing else, for a feeder with an element picked up is not quiescent (R42, R76). -/
theorem Operates.reachElements (h : Operates f interval r fire s y record) :
    reachElements vn f interval r s =
      (protectionTrip vn f record.permitted (tripRaised f y record s)).onFeeder f fun x => { x with pickedUp := true } := by
  have picked := h.picked vn
  rw [reachElements_valid h.valid h.fitted]
  dsimp only
  rw [← h.moved, h.raiseTrip]
  generalize protectionTrip vn f record.permitted (tripRaised f y record s) = u at picked
  rw [reportElements, judge_pickedUp (by rw [State.feeder_onFeeder_self]; exact picked)]
  unfold State.feeder at picked
  simp only [State.onFeeder, picked]

theorem Operates.feeder (h : Operates f interval r fire s y record) :
    (Machine.reachElements vn f interval r s).feeder f =
      { (protectionTrip vn f record.permitted (tripRaised f y record s)).feeder f with pickedUp := true } := by
  rw [h.reachElements, State.feeder_onFeeder_self]

/-- TRIP stands ahead of every entry of the request (R38). -/
theorem Operates.queues (h : Operates f interval r fire s y record) (p : Port) :
    (said [.trip f record] s).get p <+: (Machine.reachElements vn f interval r s).queues.get p := by
  have := anyFeeder
  rw [h.reachElements]
  exact (queues_grow (said [.trip f record] s)).protectionTrip vn f record.permitted (tripRaised f y record s)
    (fun _ => List.prefix_rfl) p

/-! ### What the switching unit answers -/

/-- What a trip that tells the hunt nothing makes of the feeder, of the op id counter and of the queues is all that the record leaves besides
the report (R42, R104). -/
theorem Operates.asks (h : Operates f interval r fire s y record)
    (apart : ∀ o, (s.feeder f).inFlight = some o → o.op.kind = .close → .hunt ∉ o.op.requesters)
    {z : FeederState} {ops : Nat} {q : PerPort (List EventEntry)}
    (asked : (requestTrip f .protection (some record.permitted) (tripRaised f y record s)).1 =
      { s with feeders := s.feeders.set f z, opCounter := ops, queues := q }) :
    Machine.reachElements vn f interval r s =
      { s with feeders := s.feeders.set f { z with pickedUp := true }, opCounter := ops, queues := q } := by
  rw [h.reachElements, protectionTrip_eq vn record.permitted (by rw [h.inFlight]; exact apart), asked]
  simp only [State.onFeeder, PerFeeder.set_set, PerFeeder.get_set_self]

/-- With nothing in flight and the breaker not OPEN the trip is in flight (R104 to R106). -/
theorem Operates.admitted (h : Operates f interval r fire s y record) (hi : (s.feeder f).inFlight = none)
    (hp : (s.feeder f).position ≠ .opened) :
    Machine.reachElements vn f interval r s =
      { s with
        feeders := s.feeders.set f
          { y with
            tripRecord := some record, pickedUp := true, transitTimer := none
            inFlight := some
              { op := newOperation s .trip .protection (some record.permitted), deadline := s.partTime + (s.commissioning f).tripConfirm } }
        opCounter := nextOpId s.opCounter, queues := said [.trip f record] s } := by
  have asked := congrArg Prod.fst
    (requestTrip_protection_admitted (h.inFlight.trans hi) (h.position ▸ hp) (some record.permitted))
  rw [tripRaised_set, tripRaised_feeder] at asked
  exact h.asks (fun o ho => absurd (hi.symm.trans ho) (by simp)) asked

/-- With the breaker OPEN the trip is the last operation, ALREADY (R106, R114). -/
theorem Operates.already (h : Operates f interval r fire s y record) (hi : (s.feeder f).inFlight = none)
    (hp : (s.feeder f).position = .opened) :
    Machine.reachElements vn f interval r s =
      { s with
        feeders := s.feeders.set f
          { y with
            tripRecord := some record, pickedUp := true
            lastOp := some
              { op := newOperation s .trip .protection (some record.permitted), outcome := .already, completed := s.partTime } }
        opCounter := nextOpId s.opCounter, queues := said [.trip f record] s } := by
  have asked := congrArg Prod.fst
    (requestTrip_protection_already (h.inFlight.trans hi) (h.position.trans hp) (some record.permitted))
  rw [tripRaised_set, tripRaised_feeder] at asked
  exact h.asks (fun o ho => absurd (hi.symm.trans ho) (by simp)) asked

/-- The trip in flight after the elements have joined it (R41, R107). -/
def joinedTrip (permitted : Bool) (o : InFlight) : InFlight :=
  { o with
    op :=
      { o.op with
        requesters := if .protection ∈ o.op.requesters then o.op.requesters else o.op.requesters ++ [.protection]
        permit := match o.op.permit with
          | none => some permitted
          | some held => some (held && permitted) } }

theorem requestTrip_protection_joins {o : InFlight} (ho : (s.feeder f).inFlight = some o) (hk : o.op.kind = .trip) (permitted : Bool) :
    requestTrip f .protection (some permitted) s =
      ({ s with feeders := s.feeders.set f { s.feeder f with inFlight := some (joinedTrip permitted o) } }, .joined o.op.id, []) := by
  rw [requestTrip_joins ho hk, joinPermit_asked]
  rfl

/-- A trip in flight is joined (R41, R107). -/
theorem Operates.joined (h : Operates f interval r fire s y record) {o : InFlight} (ho : (s.feeder f).inFlight = some o)
    (hk : o.op.kind = .trip) :
    Machine.reachElements vn f interval r s =
      { s with
        feeders := s.feeders.set f
          { y with tripRecord := some record, pickedUp := true, inFlight := some (joinedTrip record.permitted o) }
        queues := said [.trip f record] s } := by
  have asked := congrArg Prod.fst (requestTrip_protection_joins (h.inFlight.trans ho) hk record.permitted)
  rw [tripRaised_set, tripRaised_feeder] at asked
  refine h.asks (fun o' ho' hc => absurd (hk.symm.trans ?_) (by decide : OpKind.trip ≠ .close)) asked
  rwa [Option.some.inj (ho.symm.trans ho')]

/-- A sequencer that loses its close to the trip holds no op id in CLOSING (R132). -/
def withoutCloseOp (op : Operation) (a : ArRecord) : ArRecord :=
  if op.origin = .reclose ∧ a.state = .closing ∧ a.closeOp = some op.id then { a with closeOp := none } else a

theorem withoutCloseOp_eq (op : Operation) (a : ArRecord) :
    withoutCloseOp op a =
      if op.origin = .reclose then (if a.state = .closing ∧ a.closeOp = some op.id then { a with closeOp := none } else a) else a := by
  unfold withoutCloseOp
  by_cases h : op.origin = .reclose
  · simp only [h, true_and, if_true]
  · simp only [h, false_and, if_false]

/-- A close in flight is superseded (R108, R114). -/
theorem Operates.superseded (h : Operates f interval r fire s y record) {o : InFlight} (ho : (s.feeder f).inFlight = some o)
    (hk : o.op.kind = .close) (apart : .hunt ∉ o.op.requesters) :
    Machine.reachElements vn f interval r s =
      { s with
        feeders := s.feeders.set f
          { y with
            tripRecord := some record, pickedUp := true, transitTimer := none
            inFlight := some
              { op := newOperation s .trip .protection (some record.permitted), deadline := s.partTime + (s.commissioning f).tripConfirm }
            lastOp := some { op := o.op, outcome := .superseded, completed := s.partTime }
            ar := withoutCloseOp o.op y.ar }
        opCounter := nextOpId s.opCounter
        queues :=
          (sendOpDone f { op := o.op, outcome := .superseded, completed := s.partTime } (some (s.opCounter, .protection))
            (broadcast (.trip f record) s)).queues } := by
  have told : (sendOpDone f { op := o.op, outcome := .superseded, completed := s.partTime } (some (s.opCounter, .protection))
      (tripRaised f y record s)).queues =
      (sendOpDone f { op := o.op, outcome := .superseded, completed := s.partTime } (some (s.opCounter, .protection))
        (broadcast (.trip f record) s)).queues := by
    rw [broadcast_said]
    exact sendOpDone_congr _ _ _ rfl rfl rfl
  rw [← told]
  have asked := congrArg Prod.fst (requestTrip_protection_supersedes (h.inFlight.trans ho) hk (some record.permitted))
  rw [supersede_spec f o.op _ _ _ hk] at asked
  dsimp only at asked
  rw [tripRaised_set, tripRaised_feeder] at asked
  refine h.asks (fun o' ho' _ => ?_) asked
  rwa [← Option.some.inj (ho.symm.trans ho')]

end

/-- What a change of one feeder, the op id counter and the queues leaves. -/
theorem left_of_change {s t : State} {f : Feeder} {z : FeederState} {ops : Nat} {q : PerPort (List EventEntry)}
    (h : t = { s with feeders := s.feeders.set f z, opCounter := ops, queues := q }) :
    OnlyFeeder s t f z ∧ t.opCounter = ops ∧ t.queues = q := by
  subst h
  exact ⟨⟨PerFeeder.get_set_self _ _ _, fun g hg => PerFeeder.get_set_of_ne _ hg _⟩, rfl, rfl⟩

end Sys2Proof.Machine

open Sys2Proof Sys2Proof.Machine

/-- Settles O52: the trip is raised on the moved feeder, and what it leaves is read off what the switching unit answers in each state of the
operation in flight. -/
theorem operatedElementsTrip : Obligations.OperatedElementsTrip := by
  refine ⟨fun vn f interval r fire s hm hf => ?_, fun f permitted o s ho => ⟨fun hk => ?_, fun hk => ?_⟩⟩
  · intro y entered permitted t record hn
    have same : entered = enteredOperated (s.feeder f) y := by simp only [entered, enteredOperated, Bool.decide_and]
    have h : Operates f interval r fire s y record := ⟨hm, hf, rfl, same ▸ hn, by rw [← same]; rfl⟩
    have feeder : t.feeder f = _ := h.feeder
    have acted := tripRaised_acted vn f y record s
    refine ⟨h.queues, feeder ▸ acted.tripRecord, feeder ▸ acted.elements, by rw [feeder], fun apart => ?_⟩
    cases hi : (s.feeder f).inFlight with
    | none =>
      by_cases hp : (s.feeder f).position = .opened
      · obtain ⟨⟨own, others⟩, ops, queues⟩ := left_of_change (show t = _ from h.already hi hp)
        exact ⟨fun _ => queues, others, fun _ c => absurd hp c,
          fun _ _ => ⟨by rw [own]; exact hi, by rw [own]; rfl, ops⟩, nofun, nofun⟩
      · obtain ⟨⟨own, others⟩, ops, queues⟩ := left_of_change (show t = _ from h.admitted hi hp)
        exact ⟨fun _ => queues, others,
          fun _ _ => ⟨by rw [own]; rfl, by rw [own]; rfl, ops⟩, fun _ c => absurd c hp, nofun, nofun⟩
    | some o =>
      cases hk : o.op.kind with
      | trip =>
        obtain ⟨⟨own, others⟩, ops, queues⟩ := left_of_change (show t = _ from h.joined hi hk)
        refine ⟨fun _ => queues, others, nofun, nofun, fun o' ho' _ => ?_, fun o' ho' c => ?_⟩
        · cases ho'
          exact ⟨by rw [own]; rfl, by rw [own]; rfl, ops⟩
        · cases ho'
          exact absurd (hk.symm.trans c) (by decide)
      | close =>
        obtain ⟨⟨own, others⟩, ops, queues⟩ := left_of_change (show t = _ from h.superseded hi hk (apart o hi hk))
        refine ⟨fun c => absurd (hk.symm.trans (c o rfl)) (by decide), others, nofun, nofun, fun o' ho' c => ?_, fun o' ho' _ => ?_⟩
        · cases ho'
          exact absurd (hk.symm.trans c) (by decide)
        · cases ho'
          refine ⟨by rw [own]; rfl, by rw [own], ops, queues, ?_⟩
          rw [own]
          exact withoutCloseOp_eq o.op _
  · exact requestTrip_protection_joins ho hk permitted
  · dsimp only
    rw [requestTrip_protection_supersedes ho hk, supersede_spec f o.op _ _ _ hk]
    exact ⟨congrArg FeederState.inFlight (PerFeeder.get_set_self _ _ _), congrArg FeederState.lastOp (PerFeeder.get_set_self _ _ _), rfl⟩
end

