-- ==== Sys2Proof/Proofs/Bounds.lean ====
section
/-! PROOFS. What every step keeps: from the elementary updates of the commands and the values of a start-up to a step, and with it the
bounds of the queues, the pool, the op id and the store (R62, R86, R103, R105, R197). -/
namespace Sys2Proof.Machine

/-! ### Start-ups and steps -/

/-- A start-up keeps a property that its values have and that entries keep. -/
theorem startUp_keeps {P : State → Prop} (offers : ∀ s p ev, P s → P (offer p ev s))
    (values : ∀ cause straps s, P (startValues cause straps s)) (cause : StartCause) (straps : BitVec 2) (s : State) :
    P (startUp cause straps s) := by
  have said : ∀ ev t, P t → P (broadcast ev t) := fun ev t h => offers _ _ _ (offers _ _ _ (offers _ _ _ h))
  exact foldl_keeps P _ (fun t r h => said _ t h) _ _ (said _ _ (values cause straps s))

/-- What a start-up, or the part without power or held by RESET, makes of the state has a property that the start-up values have in every
phase; a RESTART that is refused keeps it as any request does. -/
theorem exec_startUp_keeps {P : State → Prop} (offers : ∀ s p ev, P s → P (offer p ev s))
    (values : ∀ cause straps s, P (startValues cause straps s)) (phase : ∀ s x, P s → P { s with phase := x })
    (request : ∀ q p target payload body s, (∀ u, P u → P (body u).1) → P s → P (takeRequest q p target payload body s))
    {i : Instr} (hi : isStartUp i = true) {s t : State} (run : exec i s = .next t) (h : P s) : P t := by
  have := everywhere
  cases i with
  | powerOn straps => exact next_keeps P run (startUp_keeps offers values _ _ s)
  | powerLoss => exact next_keeps P run (phase _ _ (values _ _ s))
  | resetAsserted => exact next_keeps P run (ite_keeps P h (phase _ _ (values _ _ s)))
  | resetReleased straps => exact next_keeps P run (ite_keeps P (startUp_keeps offers values _ _ s) h)
  | restart p target payload => exact next_keeps P run (request _ _ _ _ _ s (fun u _ => startUp_keeps offers values _ _ u) h)
  | _ => cases hi

/-- A step keeps what every command keeps, of the waiting commands and the part time apart (log 2). -/
theorem step_keeps {P : State → Prop} (pending : ∀ s q, P s → P { s with pending := q })
    (time : ∀ s n, P s → P { s with partTime := n }) (command : ∀ i s t, exec i s = .next t → P s → P t)
    {s t : State} (run : step s = .next t) (h : P s) : P t := by
  have := everywhere
  unfold step at run
  split at run
  · refine next_keeps P run ?_
    unfold tick
    split
    · exact pending _ _ (time _ _ h)
    · exact h
  · exact command _ _ _ run (pending _ _ h)

/-! ### The bounds -/

/-- The queues, the pool, the op id counter and the store stand within their bounds (R62, R86, R105, R197). -/
def Bounded (s : State) : Prop := QueuesBounded s ∧ PoolSound s ∧ OpIdSound s ∧ StoreFits s.store

theorem Bounded.queues {s : State} (h : Bounded s) {q : PerPort (List EventEntry)} (hq : ∀ p, (q.get p).length ≤ 32) :
    Bounded { s with queues := q } := ⟨hq, h.2⟩

theorem Bounded.withQueue {s : State} (h : Bounded s) (p : Port) {q : List EventEntry} (hq : q.length ≤ 32) : Bounded (s.withQueue p q) := by
  refine h.queues fun r => ?_
  rw [PerPort.get_set]
  split
  · exact hq
  · exact h.1 r

theorem Bounded.offer {s : State} (h : Bounded s) (p : Port) (ev : Event) : Bounded (offer p ev s) := by
  obtain e | e := offer_eq p ev s <;> rw [e]
  · exact h
  · exact h.withQueue p (queueOffered_length _ _ (h.1 p))

theorem Bounded.opId {s : State} (h : Bounded s) : Bounded (advanceOpId s) := by
  obtain ⟨queues, pool, ⟨low, high⟩, store⟩ := h
  refine ⟨queues, pool, ?_, store⟩
  show 1 ≤ nextOpId s.opCounter ∧ nextOpId s.opCounter ≤ 65535
  unfold nextOpId
  split <;> omega

/-- Every elementary update of every command keeps the bounds. -/
theorem bounded_keeps (i : Instr) : PartKeeps i Bounded where
  still := fun _ _ _ _ _ h => h
  claim := fun _ _ _ _ _ _ h => h
  level := fun _ _ _ _ h => h
  reload := fun _ _ _ _ _ h => h
  offer := fun _ p ev h => h.offer p ev
  hunt := fun _ _ h => h
  quiet := fun _ _ _ _ _ h => h
  endOp := fun _ _ _ h => h
  trip := fun _ _ _ _ _ _ h => h
  close := fun _ _ _ _ _ _ _ h => h
  join := fun _ _ _ _ _ _ _ _ h => h
  opId := fun _ h => h.opId
  detector := fun _ _ h => h
  lastHunt := fun _ _ h => h
  load := fun _ _ _ h => h
  pend := fun _ _ h => h
  unfit := fun _ _ h => h
  clearStore := fun _ _ _ h => h
  district := fun _ _ _ h => h
  port := fun _ _ _ h => h
  store := fun _ _ change ⟨queues, pool, opId, store⟩ => ⟨queues, pool, opId, change.fits store⟩
  pool := fun _ _ change ⟨queues, ⟨size, distinct⟩, rest⟩ => ⟨queues, ⟨change.size size, change.distinct distinct⟩, rest⟩
  link := fun _ _ _ _ _ _ h => h
  contacts := fun _ _ _ _ _ h => h
  meas := fun _ _ _ _ _ _ h => h
  inputs := fun _ _ _ _ _ h => h
  drop := fun s p n h => h.withQueue p (by rw [List.length_drop]; exact (Nat.sub_le _ _).trans (h.1 p))
  sent := fun _ _ h => h
  crewWrite := fun _ _ h => h
  free := fun _ _ h => h

/-! ### The bounds at start-up -/

/-- Sound entries of which no two are alike are restored as claims of which no two share an identity (R86, R94, R103). -/
theorem distinct_restored : ∀ {cs : List PersistedClaim}, cs.all PersistedClaim.sound = true → noneAlike cs = true →
    Distinct (cs.map PersistedClaim.restored)
  | [], _, _ => .nil
  | x :: rest, sound, unlike => by
    rw [List.all_cons, Bool.and_eq_true] at sound
    rw [noneAlike, Bool.and_eq_true, List.all_eq_true] at unlike
    refine .cons (fun c hc same => ?_) (distinct_restored sound.2 unlike.2)
    obtain ⟨y, hy, rfl⟩ := List.mem_map.1 hc
    obtain ⟨feeder, -, holder, tag⟩ := same
    change y.feeder = x.feeder at feeder
    change y.holder = x.holder at holder
    change x.holder = .crew → y.tag.getD 0 = x.tag.getD 0 at tag
    have tags : x.tag = y.tag := by
      have hx := sound.1
      have hy := List.all_eq_true.1 sound.2 y hy
      unfold PersistedClaim.sound at hx hy
      rw [holder] at hy
      cases hh : x.holder <;> cases ht : x.tag <;> cases hu : y.tag <;> simp_all
    have alike : x.alike y = true := by simp [PersistedClaim.alike, feeder, holder, tags]
    simpa [alike] using unlike.1 y hy

/-- The pool that a start-up restores is within its bounds (R86, R94, R103). -/
theorem poolSound_restored (st : Store) : (restoredPool st).length ≤ 32 ∧ Distinct (restoredPool st) := by
  unfold restoredPool
  rw [List.length_map]
  cases hw : st.claimsWritten with
  | torn => exact ⟨Nat.zero_le _, .nil⟩
  | intact cs =>
    unfold Written.passing
    by_cases hs : claimsSound cs = true
    · dsimp only
      rw [if_pos hs]
      simp only [claimsSound, Bool.and_eq_true, decide_eq_true_eq] at hs
      obtain ⟨⟨size, sound⟩, unlike⟩ := hs
      exact ⟨size, distinct_restored sound unlike⟩
    · dsimp only
      rw [if_neg hs]
      exact ⟨Nat.zero_le _, .nil⟩

/-- The start-up values stand within the bounds (R16, R66, R103, R105, R200). -/
theorem bounded_startValues (cause : StartCause) (straps : BitVec 2) (s : State) : Bounded (startValues cause straps s) :=
  ⟨fun p => by cases p <;> exact Nat.zero_le _, poolSound_restored s.store.loaded, ⟨Nat.le_refl 1, show 1 ≤ 65535 by decide⟩, trivial, fun _ hw => nomatch hw⟩

end Sys2Proof.Machine

open Sys2Proof Sys2Proof.Machine

/-- Settles O54: each command by its elementary updates, each start-up by its values. -/
theorem stepKeepsTheBounds : Obligations.StepKeepsTheBounds := by
  intro s t h run
  have := everywhere
  refine step_keeps (P := Bounded) (fun _ _ h => h) (fun _ _ h => h) (fun i s t run h => ?_) run h
  cases hi : isStartUp i with
  | false => exact exec_keeps (bounded_keeps i) hi run h
  | true =>
    exact exec_startUp_keeps (fun _ p ev h => h.offer p ev) bounded_startValues (fun _ _ h => h)
      (fun q p target payload body s hb h => (bounded_keeps i).takeRequest q p target payload body hb s h) hi run h

end

