-- ==== Sys2Proof/Proofs/Freeze.lean ====
section
/-! PROOFS. While the settings are frozen only a start-up ends it, and no setting changes (R61). -/
namespace Sys2Proof.Machine

/-- The settings are frozen and the held ones are those of a given store. -/
def FrozenAs (st : Store) (s : State) : Prop := s.store.frozen = true ∧ heldSettings s.store = heldSettings st

/-- Every elementary update of every command leaves frozen settings as they are. -/
theorem frozenAs_keeps (st : Store) (i : Instr) : PartKeeps i (FrozenAs st) where
  still := fun _ _ _ _ _ h => h
  claim := fun _ _ _ _ _ _ h => h
  level := fun _ _ _ _ h => h
  reload := fun _ _ _ _ _ h => h
  offer := fun s p ev h => by unfold FrozenAs; rw [offer_store]; exact h
  hunt := fun _ _ h => h
  quiet := fun _ _ _ _ _ h => h
  endOp := fun _ _ _ h => h
  trip := fun _ _ _ _ _ _ h => h
  close := fun _ _ _ _ _ _ _ h => h
  join := fun _ _ _ _ _ _ _ _ h => h
  opId := fun _ h => h
  detector := fun _ _ h => h
  lastHunt := fun _ _ h => h
  load := fun _ _ _ h => h
  pend := fun _ _ h => h
  unfit := fun _ _ h => h
  clearStore := fun _ _ _ h => h
  district := fun _ _ _ h => h
  port := fun _ _ _ h => h
  store := fun _ _ change h => ⟨change.frozen h.1, (change.settings h.1).trans h.2⟩
  pool := fun _ _ _ h => h
  link := fun _ _ _ _ _ _ h => h
  contacts := fun _ _ _ _ _ h => h
  meas := fun _ _ _ _ _ _ h => h
  inputs := fun _ _ _ _ _ h => h
  drop := fun _ _ _ h => h
  sent := fun _ _ h => h
  crewWrite := fun _ _ h => h
  free := fun _ _ h => h

end Sys2Proof.Machine

open Sys2Proof Sys2Proof.Machine

/-- Settles O57: the changes of the store that a command makes leave frozen settings as they are. -/
theorem freezeHoldsTheSettings : Obligations.FreezeHoldsTheSettings :=
  fun i s _ frozen hi run => exec_keeps (frozenAs_keeps s.store i) hi run ⟨frozen, rfl⟩

end

