-- ==== Sys2Proof/Proofs/StoreWrites.lean ====
section
/-! PROOFS. The store's writes (R52, R62, R63, R66, R93): what a change of one record's cell leaves, and a write from its beginning to its
completion. -/
namespace Sys2Proof.Machine

/-! ### One record's cell -/

/-- What the store holds of one record: its cell, and of the persisted claim record the written copy and the mark (section 3.1). -/
inductive AnyCell where
  | group (c : Cell Group)
  | commissioning (c : Cell Commissioning)
  | hunt (c : Cell HuntSettings)
  | curve (c : Cell UserCurve)
  | level (c : Cell Level)
  | protectMode (c : Cell ProtectMode)
  | claims (written : Written (List PersistedClaim)) (defaulted : Bool)

def cellOf (st : Store) : RecordName → AnyCell
  | .group f l => .group ((st.groups.get f).get l)
  | .commissioning f => .commissioning (st.commissioning.get f)
  | .hunt l => .hunt (st.hunts.get l)
  | .userCurve .u1 => .curve st.curveU1
  | .userCurve .u2 => .curve st.curveU2
  | .seasonFloor d => .level (st.floors.get d)
  | .banLevel d => .level (st.bans.get d)
  | .protectMode => .protectMode st.protectMode
  | .claims => .claims st.claimsWritten st.claimsDefaulted

/-- A record's written copy and mark are those of its cell. -/
theorem written_of_cellOf {a b : Store} {k : RecordName} (h : cellOf b k = cellOf a k) :
    sameWritten a b k ∧ defaultedMark b k = defaultedMark a k := by
  cases k with
  | userCurve u =>
    cases u <;> exact ⟨congrArg Cell.written (AnyCell.curve.inj h), congrArg Cell.defaulted (AnyCell.curve.inj h)⟩
  | claims => exact AnyCell.claims.inj h
  | group f l => exact ⟨congrArg Cell.written (AnyCell.group.inj h), congrArg Cell.defaulted (AnyCell.group.inj h)⟩
  | commissioning f =>
    exact ⟨congrArg Cell.written (AnyCell.commissioning.inj h), congrArg Cell.defaulted (AnyCell.commissioning.inj h)⟩
  | hunt l => exact ⟨congrArg Cell.written (AnyCell.hunt.inj h), congrArg Cell.defaulted (AnyCell.hunt.inj h)⟩
  | protectMode => exact ⟨congrArg Cell.written (AnyCell.protectMode.inj h), congrArg Cell.defaulted (AnyCell.protectMode.inj h)⟩
  | seasonFloor d => exact ⟨congrArg Cell.written (AnyCell.level.inj h), congrArg Cell.defaulted (AnyCell.level.inj h)⟩
  | banLevel d => exact ⟨congrArg Cell.written (AnyCell.level.inj h), congrArg Cell.defaulted (AnyCell.level.inj h)⟩

/-- A written copy that stays as it is holds what it held. -/
theorem writtenIs.stays {a b : Store} {k : RecordName} {c : RecordContent} (h : writtenIs a k c) (same : sameWritten a b k) :
    writtenIs b k c := by
  unfold writtenIs at h
  split at h
  case h_10 => exact h.elim
  all_goals exact Eq.trans same h

/-- What is held of a record is held in its cell. -/
theorem held_of_cellOf {s t : State} {k : RecordName} (hk : k ≠ .claims) (h : cellOf t.store k = cellOf s.store k) :
    heldContent t k = heldContent s k := by
  cases k with
  | group f l => exact congrArg (fun c => RecordContent.group (Cell.held c)) (AnyCell.group.inj h)
  | commissioning f => exact congrArg (fun c => RecordContent.commissioning (Cell.held c)) (AnyCell.commissioning.inj h)
  | hunt l => exact congrArg (fun c => RecordContent.hunt (Cell.held c)) (AnyCell.hunt.inj h)
  | userCurve u => cases u <;> exact congrArg (fun c => RecordContent.userCurve (Cell.held c)) (AnyCell.curve.inj h)
  | seasonFloor d => exact congrArg (fun c => RecordContent.level (Cell.held c)) (AnyCell.level.inj h)
  | banLevel d => exact congrArg (fun c => RecordContent.level (Cell.held c)) (AnyCell.level.inj h)
  | protectMode => exact congrArg (fun c => RecordContent.protectMode (Cell.held c)) (AnyCell.protectMode.inj h)
  | claims => exact absurd rfl hk

/-- A change of one record's cell leaves every other record's. -/
theorem cellOf_onCell_of_ne {r k : RecordName} (h : k ≠ r) (c : RecordContent) (g : (α : Type) → α → Cell α → Cell α) (st : Store) :
    cellOf (st.onCell r c g) k = cellOf st k := by
  unfold Store.onCell
  split
  case h_1 f l x =>
    cases k with
    | group f' l' =>
      by_cases hf : f' = f
      · subst hf
        exact congrArg AnyCell.group ((congrArg (PerLevel.get · l') (PerFeeder.get_set_self _ _ _)).trans
          (PerLevel.get_set_of_ne _ (fun e => h (by rw [e])) _))
      · exact congrArg (fun c => AnyCell.group (PerLevel.get c l')) (PerFeeder.get_set_of_ne _ hf _)
    | userCurve u => cases u <;> rfl
    | _ => rfl
  case h_2 f x =>
    cases k with
    | commissioning f' => exact congrArg AnyCell.commissioning (PerFeeder.get_set_of_ne _ (fun e => h (by rw [e])) _)
    | userCurve u => cases u <;> rfl
    | _ => rfl
  case h_3 l x =>
    cases k with
    | hunt l' => exact congrArg AnyCell.hunt (PerLevel.get_set_of_ne _ (fun e => h (by rw [e])) _)
    | userCurve u => cases u <;> rfl
    | _ => rfl
  case h_4 x =>
    cases k with
    | userCurve u =>
      cases u with
      | u1 => exact absurd rfl h
      | u2 => rfl
    | _ => rfl
  case h_5 x =>
    cases k with
    | userCurve u =>
      cases u with
      | u1 => rfl
      | u2 => exact absurd rfl h
    | _ => rfl
  case h_6 d x =>
    cases k with
    | seasonFloor d' => exact congrArg AnyCell.level (PerDistrict.get_set_of_ne _ (fun e => h (by rw [e])) _)
    | userCurve u => cases u <;> rfl
    | _ => rfl
  case h_7 d x =>
    cases k with
    | banLevel d' => exact congrArg AnyCell.level (PerDistrict.get_set_of_ne _ (fun e => h (by rw [e])) _)
    | userCurve u => cases u <;> rfl
    | _ => rfl
  case h_8 x =>
    cases k with
    | protectMode => exact absurd rfl h
    | userCurve u => cases u <;> rfl
    | _ => rfl
  case h_9 => rfl

/-- A change of a record's cell that leaves the held content in it leaves what is held of every record. -/
theorem heldContent_onCell {g : (α : Type) → α → Cell α → Cell α} (hg : ∀ α x cell, (g α x cell).held = cell.held) (r : RecordName)
    (c : RecordContent) (s : State) {k : RecordName} (hk : k ≠ .claims) :
    heldContent (s.onStore (Store.onCell r c g)) k = heldContent s k := by
  by_cases h : k = r
  · subst h
    cases k with
    | claims => exact absurd rfl hk
    | userCurve u => cases u <;> cases c <;> simp [heldContent, State.userCurve, Store.onCell, hg]
    | _ =>
      cases c <;>
        simp [heldContent, State.group, State.commissioning, State.huntSettings, State.floor, State.ban, Store.onCell, hg]
  · exact held_of_cellOf hk (cellOf_onCell_of_ne h c g s.store)

/-! ### Beginning -/

/-- A write begins with the oldest entry's held content, or the HOLD_OPEN claims, when none is in flight (R52, R62, R93). -/
theorem beginWrite_spec {s : State} {e : WriteEntry} {rest : List WriteEntry} (hw : s.store.writing = none) (hq : s.store.queue = e :: rest) :
    beginWrite s =
      { s with
        store := { s.store with writing := some { content := heldContent s e.record, began := s.partTime } }
        pool := if e.record = .claims then markClaims s.pool else s.pool } := by
  unfold beginWrite
  rw [hw, hq]
  dsimp only
  split <;> rfl

/-- No write begins with the queue empty or another in flight (R62). -/
theorem beginWrite_none {s : State} (h : s.store.queue = [] ∨ s.store.writing.isSome = true) : beginWrite s = s := by
  unfold beginWrite
  split
  · next hw hq =>
    rw [hw, hq] at h
    exact h.elim (fun c => nomatch c) (fun c => nomatch c)
  · rfl

/-! ### Completion -/

/-- The store after its write in flight completes (R63). -/
def storeWritten (w : StoreWrite) (e : WriteEntry) (rest : List WriteEntry) (st : Store) : Store :=
  { (st.completed e.record w.content) with writing := none, queue := rest, edit := freeCommitted e st.edit }

/-- A completed write changes the store, the marks of the claims it took, and the port of the request that queued it (R63, R93). -/
theorem completeWrite_spec {s : State} {w : StoreWrite} {e : WriteEntry} {rest : List WriteEntry} (hw : s.store.writing = some w)
    (hq : s.store.queue = e :: rest) :
    completeWrite s =
      answerWritten e.port
        { s with
          store := storeWritten w e rest s.store
          pool := if e.record = .claims then persistClaims s.pool else s.pool } := by
  unfold completeWrite
  rw [hw, hq]
  dsimp only
  split <;> rfl

/-- The answer to a written record reaches the port of its request alone, which answers OK while it is EXECUTING (R177). -/
theorem answerWritten_ports (p : Port) (s : State) :
    ∃ ports, answerWritten p s = { s with ports := ports } ∧ (∀ q, q ≠ p → ports.get q = s.ports.get q) ∧
      ∀ code target, (s.ports.get p).state = .executing code target → ports.get p = PortUnit.respond .ok [] (s.ports.get p) := by
  unfold answerWritten
  split
  · exact ⟨_, rfl, fun q hq => PerPort.get_set_of_ne _ hq _, fun _ _ _ => PerPort.get_set_self _ _ _⟩
  · next idle => exact ⟨s.ports, rfl, fun _ _ => rfl, fun code target h => absurd h (idle code target)⟩

/-- A completed write writes the content to its record's copy and clears the mark (R63, R66). -/
theorem completed_own {r : RecordName} {c : RecordContent} (h : contentFits r c = true) (st : Store) :
    writtenIs (st.completed r c) r c ∧ defaultedMark (st.completed r c) r = false := by
  unfold contentFits at h
  split at h
  case h_4 u x => cases u <;> exact ⟨rfl, rfl⟩
  case h_9 => cases h
  all_goals simp [Store.completed, Store.onCell, writtenIs, defaultedMark]

/-- A completed write is a change of its record's cell, or of the claim record. -/
theorem completed_eq {r : RecordName} (h : r ≠ .claims) (c : RecordContent) (st : Store) :
    st.completed r c = st.onCell r c fun _ x cell => { cell with written := .intact x, defaulted := false } := by
  unfold Store.completed
  split
  · exact absurd rfl h
  · rfl

/-- A completed write leaves every other record's cell (R63). -/
theorem cellOf_completed_of_ne {r k : RecordName} (h : k ≠ r) (c : RecordContent) (st : Store) :
    cellOf (st.completed r c) k = cellOf st k := by
  by_cases hr : r = .claims
  · subst hr
    cases k with
    | claims => exact absurd rfl h
    | userCurve u => cases u <;> cases c <;> rfl
    | _ => cases c <;> rfl
  · rw [completed_eq hr]
    exact cellOf_onCell_of_ne h c _ st

/-- A completed write leaves what is held (R63). -/
theorem heldContent_completed (r : RecordName) (c : RecordContent) (s : State) {k : RecordName} (hk : k ≠ .claims) :
    heldContent (s.onStore (Store.completed r c)) k = heldContent s k := by
  by_cases h : k = r
  · subst h
    rw [State.onStore, completed_eq hk]
    exact heldContent_onCell (g := fun _ x cell => { cell with written := .intact x, defaulted := false }) (fun _ _ _ => rfl) k c s hk
  · exact held_of_cellOf hk (cellOf_completed_of_ne h c s.store)

end Sys2Proof.Machine

open Sys2Proof Sys2Proof.Machine

/-- Settles O20: the one record's cell that a completed write changes, and what the answer changes besides. -/
theorem storeWritesBeginAndComplete : Obligations.StoreWritesBeginAndComplete := by
  refine ⟨fun s running => ⟨fun h => ?_, fun e rest hw hq => ?_⟩, fun w e rest s running hw hq fits => ?_⟩
  · exact congrArg Host.Outcome.next ((if_pos running).trans (beginWrite_none h))
  · exact congrArg Host.Outcome.next ((if_pos running).trans (beginWrite_spec hw hq))
  obtain ⟨ports, form, others, own⟩ := answerWritten_ports e.port
    { s with store := storeWritten w e rest s.store, pool := if e.record = .claims then persistClaims s.pool else s.pool }
  have run : exec .storeWriteComplete s = .next (completeWrite s) := congrArg Host.Outcome.next (if_pos running)
  rw [run, completeWrite_spec hw hq, form]
  obtain ⟨written, unmarked⟩ := completed_own fits s.store
  have other := fun r (hr : r ≠ e.record) => written_of_cellOf (cellOf_completed_of_ne hr w.content s.store)
  have store : ∀ k, cellOf (storeWritten w e rest s.store) k = cellOf (s.store.completed e.record w.content) k := fun k => rfl
  refine ⟨_, rfl, ?_, ?_, fun r hr => ⟨?_, ?_⟩, fun r hr => ?_, rfl, rfl, fun c edit => ?_, rfl, own, others, fun _ => rfl⟩
  · exact written.stays (written_of_cellOf (store e.record)).1
  · exact (written_of_cellOf (store e.record)).2.trans unmarked
  · exact (other r hr).1.trans (written_of_cellOf (store r)).1
  · exact (written_of_cellOf (store r)).2.trans (other r hr).2
  · exact (held_of_cellOf hr (store r)).trans (heldContent_completed e.record w.content s hr)
  · show freeCommitted e s.store.edit = .free
    rw [edit]
    exact if_pos ⟨rfl, rfl⟩
end

