-- ==== Sys2Proof/Proofs/Levelled.lean ====
section
/-! PROOFS. The levels of the feeders and the targets of the districts (R68, R73): what they are read of, and what the engine, a target that
is taken, a commit and a start-up make of them. -/
namespace Sys2Proof.Machine

/-! ### What the levels are read of -/

/-- A district's target is the highest of its sources (R68). -/
def Targeted (s : State) (d : District) : Prop := (s.districts.get d).target = computedTarget s d

/-- A target that is the highest of its sources is at or above the season floor (R68). -/
theorem Targeted.floor {s : State} {d : District} (h : Targeted s d) : (s.floor d).number ≤ (s.districts.get d).target.number := by
  rw [show (s.districts.get d).target = _ from h, computedTarget_number, highestSource]
  omega

theorem levelsSound_iff (s : State) : LevelsSound s ↔ (∀ f, FeederLevelsSound s f) ∧ ∀ d, Targeted s d :=
  ⟨fun h => ⟨h.1, fun d => (h.2 d).1⟩, fun h => ⟨h.1, fun d => ⟨h.2 d, (h.2 d).floor⟩⟩⟩

/-- The applied level of a feeder, none for one without a fire state. -/
def appliedOf (x : FeederState) : Option Level := x.fire.map (·.applied)

/-- A feeder's levels are its applied level, whether it is fitted, and its target. -/
theorem feederLevelsSound_iff (s : State) (f : Feeder) :
    FeederLevelsSound s f ↔
      s.fitted f = (appliedOf (s.feeder f)).isSome ∧ ∀ l, appliedOf (s.feeder f) = some l → (targetLevel s f).number ≤ l.number := by
  unfold FeederLevelsSound appliedOf
  cases (s.feeder f).fire <;> simp

theorem FeederLevelsSound.congr {s t : State} {f : Feeder} (h : FeederLevelsSound s f)
    (feeder : appliedOf (t.feeder f) = appliedOf (s.feeder f)) (record : t.commissioning f = s.commissioning f)
    (target : (t.districts.get (s.commissioning f).district).target = (s.districts.get (s.commissioning f).district).target) :
    FeederLevelsSound t f := by
  rw [feederLevelsSound_iff] at h ⊢
  rw [State.fitted, targetLevel, feeder, record, target]
  exact h

theorem Targeted.congr {s t : State} {d : District} (h : Targeted s d) (district : t.districts.get d = s.districts.get d)
    (floor : t.floor d = s.floor d) (ban : t.ban d = s.ban d) (input : t.fireBan = s.fireBan) : Targeted t d := by
  unfold Targeted computedTarget fireBanActive at *
  rw [district, floor, ban, input]
  exact h

/-- The levels and targets stand as R68 and R73 give, and the edit buffer names no record that OPEN_EDIT bars (R53). -/
def Levelled (s : State) : Prop := LevelsSound s ∧ EditEditable s.store.edit

/-- The levels stand through a change that leaves the applied levels, the districts, FIRE_BAN and the records that they are read of. -/
theorem Levelled.congr {s t : State} (h : Levelled s) (feeders : ∀ f, appliedOf (t.feeder f) = appliedOf (s.feeder f))
    (districts : t.districts = s.districts) (input : t.fireBan = s.fireBan) (records : ∀ f, t.commissioning f = s.commissioning f)
    (floors : ∀ d, t.floor d = s.floor d) (bans : ∀ d, t.ban d = s.ban d) (edit : EditEditable t.store.edit) : Levelled t := by
  obtain ⟨sound, -⟩ := h
  rw [levelsSound_iff] at sound
  refine ⟨(levelsSound_iff t).2 ⟨fun f => ?_, fun d => ?_⟩, edit⟩
  · exact (sound.1 f).congr (feeders f) (records f) (by rw [districts])
  · exact (sound.2 d).congr (by rw [districts]) (floors d) (bans d) input

/-- What the levels are read of. -/
def levelSources (s : State) : PerFeeder FeederState × PerDistrict DistrictState × FilteredInput × Store :=
  (s.feeders, s.districts, s.fireBan, s.store)

/-- The levels stand through a change of nothing that they are read of. -/
theorem Levelled.same {s t : State} (h : Levelled s) (sources : levelSources t = levelSources s) : Levelled t := by
  simp only [levelSources, Prod.mk.injEq] at sources
  obtain ⟨feeders, districts, input, store⟩ := sources
  refine h.congr (fun f => ?_) districts input (fun f => ?_) (fun d => ?_) (fun d => ?_) (store ▸ h.2)
  · rw [State.feeder, feeders]; rfl
  · rw [State.commissioning, store]; rfl
  · rw [State.floor, store]; rfl
  · rw [State.ban, store]; rfl

/-- The levels stand through a change of one feeder that leaves its applied level. -/
theorem Levelled.onFeeder {s : State} (h : Levelled s) (f : Feeder) (g : FeederState → FeederState)
    (applied : appliedOf (g (s.feeder f)) = appliedOf (s.feeder f)) : Levelled (s.onFeeder f g) := by
  refine h.congr (fun k => ?_) rfl rfl (fun _ => rfl) (fun _ => rfl) (fun _ => rfl) h.2
  by_cases hk : k = f
  · subst hk; rw [State.feeder_onFeeder_self]; exact applied
  · rw [State.feeder_onFeeder_of_ne _ hk]

/-- The levels stand through a reload of a fitted feeder at a level not below its target (R79). -/
theorem Levelled.load {s : State} (h : Levelled s) {f : Feeder} {l : Level} (fitted : (s.feeder f).fire.isSome = true)
    (level : (targetLevel s f).number ≤ l.number) : Levelled (loadEffective f l s) := by
  obtain ⟨sound, edit⟩ := h
  rw [levelsSound_iff] at sound
  refine ⟨(levelsSound_iff _).2 ⟨fun k => ?_, fun d => (sound.2 d).congr rfl rfl rfl rfl⟩, edit⟩
  by_cases hk : k = f
  · subst hk
    have own := (feederLevelsSound_iff s k).1 (sound.1 k)
    have applied : appliedOf ((loadEffective k l s).feeder k) = some l := by
      rw [loadEffective, State.feeder_onFeeder_self]
      rfl
    refine (feederLevelsSound_iff _ k).2 ⟨?_, fun m hm => ?_⟩
    · rw [applied]
      refine own.1.trans ?_
      rw [appliedOf, Option.isSome_map, fitted]
      rfl
    · cases applied.symm.trans hm
      exact level
  · refine (sound.1 k).congr ?_ rfl rfl
    rw [loadEffective, State.feeder_onFeeder_of_ne _ hk]

theorem Levelled.offer {s : State} (h : Levelled s) (p : Port) (ev : Event) : Levelled (offer p ev s) :=
  h.same (by simp [levelSources])

/-- What the elements, the switching units, the hunt and the judgement do leaves the levels sound: a judgement reloads at the target, or at
the level applied (R77). -/
theorem levelled_engine : EngineKeeps Everywhere Levelled where
  still := fun _ _ _ g hg h => h.onFeeder _ g (by unfold Still at hg; rw [hg]; rfl)
  claim := fun _ _ _ _ _ _ h => h.onFeeder _ _ rfl
  level := fun _ _ _ hx h => h.load hx (Nat.le_refl _)
  reload := fun s f _ x hx h => h.load (by rw [hx]; rfl) ((h.1.1 f).fire hx).2
  offer := fun _ p ev h => h.offer p ev
  hunt := fun s _ h => h.same rfl
  quiet := fun _ _ _ g hg h => h.onFeeder _ g (congrArg (Option.map _) hg.fire)
  endOp := fun _ _ _ h => h.onFeeder _ _ rfl
  trip := fun _ _ _ _ _ _ h => h.onFeeder _ _ rfl
  close := fun _ _ _ _ _ _ _ h => h.onFeeder _ _ rfl
  join := fun _ _ _ _ _ _ _ _ h => h.onFeeder _ _ rfl
  opId := fun s h => h.same rfl
  detector := fun s _ h => h.same rfl
  lastHunt := fun s _ h => h.same rfl

/-! ### A target that is taken -/

/-- A district whose target is recomputed has the highest of its sources (R68). -/
theorem targeted_targetTaken (d : District) (s : State) : Targeted (targetTaken d s) d := by
  have shell := targetTaken_shell d s
  have district := congrArg (PerDistrict.get · d) (targetTaken_districts d s)
  rw [PerDistrict.get_set_self] at district
  rw [Targeted, computedTarget_congr (s := s) (by rw [district]) (by rw [district]) shell.store shell.fireBan, district]

/-- A target that is the highest of its sources stays so through the turn of any district. -/
theorem Targeted.targetTaken {s : State} {e : District} (h : Targeted s e) (d : District) : Targeted (targetTaken d s) e := by
  by_cases he : e = d
  · subst he; exact targeted_targetTaken _ s
  · have shell := targetTaken_shell d s
    refine h.congr ?_ ?_ ?_ shell.fireBan
    · rw [targetTaken_districts, PerDistrict.get_set_of_ne _ he]
    · rw [State.floor, shell.store]; rfl
    · rw [State.ban, shell.store]; rfl

/-- The turn of a district leaves an unfitted feeder. -/
theorem targetTaken_unfitted {s : State} {f : Feeder} (h : s.fitted f = false) (d : District) :
    (targetTaken d s).feeder f = s.feeder f := by
  by_cases hc : computedTarget s d = (s.districts.get d).target
  · rw [targetTaken_unchanged hc]
  · rw [targetTaken_changed hc]
    exact forFeeders_others (P := fun t => t.feeder f = s.feeder f) (fun g t hg ht => (followed_other (Ne.symm hg) _ _ t).trans ht)
      (fun hm => Bool.false_ne_true (h.symm.trans ((mem_districtFeeders s d f).1 hm).1)) rfl

/-- A feeder that follows its target stands at or above it (R73 to R75). -/
theorem FollowsTarget.sound {f : Feeder} {x : FeederFire} {s t : State} (h : FollowsTarget f x s t) (fitted : s.fitted f = true)
    (fire : (s.feeder f).fire = some x) (record : t.commissioning f = s.commissioning f) : FeederLevelsSound t f := by
  rw [feederLevelsSound_iff, State.fitted, targetLevel, record]
  by_cases moves : TargetMoves f x s (s.districts.get (s.commissioning f).district).target (t.districts.get (s.commissioning f).district).target
  · have moved := (h.1 moves).1
    rw [appliedOf, moved]
    refine ⟨fitted, fun l hl => ?_⟩
    cases hl
    exact Nat.le_refl _
  · rw [appliedOf, h.2 moves, fire]
    refine ⟨fitted, fun l hl => ?_⟩
    cases hl
    exact Nat.le_of_not_lt fun c => moves (.inl c)

/-- The turn of a district leaves every feeder at or above its target (R73 to R75). -/
theorem FeederLevelsSound.targetTaken {s : State} {f : Feeder} (h : FeederLevelsSound s f) (d : District) :
    FeederLevelsSound (targetTaken d s) f := by
  have record : (Machine.targetTaken d s).commissioning f = s.commissioning f := (targetTaken_shell d s).commissioning f
  have target : ∀ e, e ≠ d → ((Machine.targetTaken d s).districts.get e).target = (s.districts.get e).target := fun e he => by
    rw [targetTaken_districts, PerDistrict.get_set_of_ne _ he]
  cases hx : (s.feeder f).fire with
  | none =>
    have unfitted : s.fitted f = false := by unfold FeederLevelsSound at h; rwa [hx] at h
    have stays := targetTaken_unfitted unfitted d
    unfold FeederLevelsSound
    rw [stays, hx]
    exact (targetTaken_shell d s).fitted f |>.trans unfitted
  | some x =>
    by_cases hd : (s.commissioning f).district = d
    · subst hd
      have awaited : TargetAwaited f s s := ⟨⟨rfl, rfl, rfl, fun _ => rfl⟩, rfl⟩
      exact (awaited.taken hx h).sound (h.fire hx).1 hx record
    · exact h.congr (congrArg appliedOf (targetTaken_elsewhere hd)) record (target _ hd)

/-- With every other district's target the highest of its sources, the turn of a district levels the part (R68). -/
theorem levelled_recomputeTarget {d : District} {s : State} (feeders : ∀ f, FeederLevelsSound s f) (others : ∀ e, e ≠ d → Targeted s e)
    (edit : EditEditable s.store.edit) : Levelled (recomputeTarget d s) := by
  rw [recomputeTarget_spec]
  refine ⟨(levelsSound_iff _).2 ⟨fun f => (feeders f).targetTaken d, fun e => ?_⟩, (targetTaken_shell d s).store ▸ edit⟩
  by_cases he : e = d
  · subst he; exact targeted_targetTaken e s
  · exact (others e he).targetTaken d

/-- A change of the level that FIRE_BAN reads at recomputes every target (R72). -/
theorem Levelled.scanFireBan {s : State} (h : Levelled s) (raw : Bool) : Levelled (scanFireBan raw s) := by
  obtain ⟨sound, edit⟩ := h
  rw [levelsSound_iff] at sound
  let now : State := { s with fireBan := s.fireBan.scan raw }
  have feeders : ∀ f, FeederLevelsSound now f := fun f => (sound.1 f).congr rfl rfl rfl
  rw [scanFireBan_taken]
  dsimp only
  split
  · next same =>
    refine ⟨(levelsSound_iff _).2 ⟨feeders, fun d => ?_⟩, edit⟩
    have target := sound.2 d
    unfold Targeted computedTarget at target ⊢
    rw [same]
    exact target
  · have shell := ((targetTaken_shell .d1 now).trans (targetTaken_shell .d2 _)).trans (targetTaken_shell .d3 _)
    refine ⟨(levelsSound_iff _).2 ⟨fun f => (((feeders f).targetTaken _).targetTaken _).targetTaken _, fun d => ?_⟩, ?_⟩
    rotate_left
    · show EditEditable (targetTaken .d3 (targetTaken .d2 (targetTaken .d1 now))).store.edit
      rw [shell.store]
      exact edit
    cases d with
    | d1 => exact ((targeted_targetTaken .d1 now).targetTaken _).targetTaken _
    | d2 => exact (targeted_targetTaken .d2 _).targetTaken _
    | d3 => exact targeted_targetTaken .d3 _

/-! ### A start-up -/

/-- The levels and targets of a start-up: FIRE_BAN reads active until it settles, no district has a request, and every fitted feeder is at
its target (R15, R17, R84). -/
theorem levelled_startValues (cause : StartCause) (straps : BitVec 2) (s : State) : Levelled (startValues cause straps s) := by
  refine ⟨(levelsSound_iff _).2 ⟨fun f => ?_, fun d => ?_⟩, trivial⟩
  · have started := (feederStarted (t := startValues cause straps s) (f := f) (PerFeeder.get_of _ f)).fire
    rw [feederLevelsSound_iff, appliedOf, started]
    by_cases fitted : (startValues cause straps s).fitted f = true
    · rw [if_pos fitted]
      refine ⟨fitted, fun l hl => ?_⟩
      cases hl
      exact Nat.le_refl _
    · rw [if_neg fitted]
      exact ⟨Bool.eq_false_iff.2 fitted, fun l hl => nomatch hl⟩
  · have district : (startValues cause straps s).districts.get d = startDistrict s.store.loaded d := PerDistrict.get_of _ d
    have lowest : ∀ l : Level, (Level.l0.higher .l0).higher l = l := fun l => by cases l <;> rfl
    rw [Targeted, computedTarget, district]
    refine Eq.trans ?_ (if_pos rfl).symm
    dsimp only [startDistrict]
    rw [lowest]
    rfl

end Sys2Proof.Machine
end

