-- ==== Sys2Proof/Proofs/LevelledCommands.lean ====
section
/-! PROOFS. Every command keeps the levels (R68, R73): those that reach no source of them through the engine, a source that changes with
its target, and a commit by the record that it holds. -/
namespace Sys2Proof.Machine

/-! ### Commits -/

/-- The levels stand through a change of the store that leaves the records that they are read of. -/
theorem Levelled.onStore {s : State} (h : Levelled s) (g : Store → Store) (edit : EditEditable (g s.store).edit)
    (records : (g s.store).commissioning = s.store.commissioning) (floors : (g s.store).floors = s.store.floors)
    (bans : (g s.store).bans = s.store.bans) : Levelled (s.onStore g) :=
  h.congr (fun _ => rfl) rfl rfl (fun f => congrArg (fun c => (PerFeeder.get c f).held) records)
    (fun d => congrArg (fun c => (PerDistrict.get c d).held) floors) (fun d => congrArg (fun c => (PerDistrict.get c d).held) bans) edit

/-- The levels stand whatever the edit buffer, the freeze and the writes become. -/
theorem Levelled.aside {s : State} (h : Levelled s) {edit : EditBuffer} (editable : EditEditable edit) (frozen : Bool)
    (queue : List WriteEntry) (writing : Option StoreWrite) :
    Levelled (s.onStore fun st => { st with edit := edit, frozen := frozen, queue := queue, writing := writing }) :=
  h.onStore _ editable rfl rfl rfl

theorem Levelled.queueWrite {s : State} (h : Levelled s) (p : Port) (r : RecordName) : Levelled (queueWrite p r s) := h.aside h.2 _ _ _

/-- A feeder whose settings become pending keeps its applied level, and the judgement its own (R77, R78). -/
theorem Levelled.setSettingsPending {s : State} (h : Levelled s) (f : Feeder) : Levelled (setSettingsPending f s) := by
  have := everywhere
  refine levelled_engine.judge _ _ (h.onFeeder f _ ?_)
  cases hx : (s.feeder f).fire <;> simp [appliedOf, hx]

/-- A commissioning commit sets the feeder at its target, fitted or not (R82). -/
theorem levelled_commissionFeeder {b : State} {f : Feeder} (others : ∀ g, g ≠ f → FeederLevelsSound b g) (targets : ∀ d, Targeted b d)
    (edit : EditEditable b.store.edit) : Levelled (commissionFeeder f b) := by
  obtain ⟨q, form, -⟩ := commissionFeeder_spec b f
  rw [form]
  refine ⟨(levelsSound_iff _).2 ⟨fun k => ?_, fun d => (targets d).congr rfl rfl rfl rfl⟩, edit⟩
  by_cases hk : k = f
  · subst hk
    unfold FeederLevelsSound State.feeder
    dsimp only
    rw [PerFeeder.get_set_self]
    by_cases fitted : b.fitted k = true
    · rw [show (commissionedFeeder b k).fire = some (commissionedFire b k) from if_pos fitted]
      exact ⟨fitted, Nat.le_refl _⟩
    · rw [show (commissionedFeeder b k).fire = none from if_neg fitted]
      exact Bool.eq_false_iff.2 fitted
  · refine (others k hk).congr ?_ rfl rfl
    exact congrArg appliedOf (PerFeeder.get_set_of_ne _ hk _)

/-- What is held of a record that the edit buffer may name is no floor and no ban level, and of the commissioning records its own. -/
theorem onCell_editable {r : RecordName} (h : r.editable = true) (c : RecordContent) (g : (α : Type) → α → Cell α → Cell α) (st : Store) :
    (st.onCell r c g).floors = st.floors ∧ (st.onCell r c g).bans = st.bans ∧
      ∀ f, r ≠ .commissioning f → (st.onCell r c g).commissioning.get f = st.commissioning.get f := by
  cases r with
  | commissioning k =>
    cases c with
    | commissioning x => exact ⟨rfl, rfl, fun f hf => PerFeeder.get_set_of_ne _ (fun e => hf (by rw [e])) _⟩
    | _ => exact ⟨rfl, rfl, fun _ _ => rfl⟩
  | group f l => cases c <;> exact ⟨rfl, rfl, fun _ _ => rfl⟩
  | hunt l => cases c <;> exact ⟨rfl, rfl, fun _ _ => rfl⟩
  | userCurve u => cases u <;> cases c <;> exact ⟨rfl, rfl, fun _ _ => rfl⟩
  | _ => cases h

/-- The state that a commit hands on: the content is held, the buffer is COMMITTING and the write is queued (R58). -/
def committedTo (p : Port) (r : RecordName) (c : RecordContent) (s : State) : State :=
  Machine.queueWrite p r ((setHeld r c s).onStore fun st => { st with edit := .committing p r c })

/-- What the levels are read of, in the state that a commit hands on: of the records that OPEN_EDIT admits a commissioning record alone
is among it (R53). -/
structure CommittedLevels (r : RecordName) (s b : State) : Prop where
  feeders : b.feeders = s.feeders
  districts : b.districts = s.districts
  fireBan : b.fireBan = s.fireBan
  records : ∀ f, r ≠ .commissioning f → b.commissioning f = s.commissioning f
  floors : ∀ d, b.floor d = s.floor d
  bans : ∀ d, b.ban d = s.ban d
  edit : EditEditable b.store.edit

theorem committedTo_levels {r : RecordName} (he : r.editable = true) (p : Port) (c : RecordContent) (s : State) :
    CommittedLevels r s (committedTo p r c s) := by
  obtain ⟨floors, bans, records⟩ := onCell_editable he c (fun _ x cell => { cell with held := x }) s.store
  exact ⟨rfl, rfl, rfl, fun f hf => congrArg Cell.held (records f hf), fun d => congrArg (fun x => (PerDistrict.get x d).held) floors,
    fun d => congrArg (fun x => (PerDistrict.get x d).held) bans, he⟩

theorem CommittedLevels.levelled {r : RecordName} {s b : State} (k : CommittedLevels r s b) (h : Levelled s)
    (hr : ∀ f, r ≠ .commissioning f) : Levelled b :=
  h.congr (fun f => congrArg (fun x => appliedOf (PerFeeder.get x f)) k.feeders) k.districts k.fireBan (fun f => k.records f (hr f))
    k.floors k.bans k.edit

/-- A commit that is taken keeps the levels: it loads what a feeder applies, or sets the feeder afresh (R59, R82). -/
theorem CommittedLevels.handOn {r : RecordName} (he : r.editable = true) {s b : State} (k : CommittedLevels r s b) (h : Levelled s) :
    Levelled (handOnCommit r b) := by
  cases r with
  | group f l =>
    have base := k.levelled h fun _ => nofun
    unfold handOnCommit
    dsimp only
    split
    · split
      · exact base.setSettingsPending f
      · exact base
    · exact base
  | commissioning f =>
    have sound := (levelsSound_iff s).1 h.1
    exact levelled_commissionFeeder
      (fun g hg => (sound.1 g).congr (congrArg (fun x => appliedOf (PerFeeder.get x g)) k.feeders)
        (k.records g fun e => hg (RecordName.commissioning.inj e).symm) (by rw [k.districts]))
      (fun d => (sound.2 d).congr (congrArg (fun x => PerDistrict.get x d) k.districts) (k.floors d) (k.bans d) k.fireBan) k.edit
  | hunt l => exact k.levelled h fun _ => nofun
  | userCurve u =>
    exact forFeeders_keeps Levelled _ (fun f t ht => ht.setSettingsPending f) _ _ (k.levelled h fun _ => nofun)
  | _ => cases he

/-! ### Sources of a target -/

/-- A district's request, floor or ban level changes and its target is recomputed. -/
theorem Levelled.sourceTaken {s a : State} (h : Levelled s) {d : District} (feeders : a.feeders = s.feeders)
    (records : ∀ f, a.commissioning f = s.commissioning f) (target : ∀ e, (a.districts.get e).target = (s.districts.get e).target)
    (districts : ∀ e, e ≠ d → a.districts.get e = s.districts.get e) (floors : ∀ e, e ≠ d → a.floor e = s.floor e)
    (bans : ∀ e, e ≠ d → a.ban e = s.ban e) (input : a.fireBan = s.fireBan) (edit : a.store.edit = s.store.edit) :
    Levelled (recomputeTarget d a) := by
  have sound := (levelsSound_iff s).1 h.1
  exact levelled_recomputeTarget
    (fun f => (sound.1 f).congr (congrArg (fun x => appliedOf (PerFeeder.get x f)) feeders) (records f) (target _))
    (fun e he => (sound.2 e).congr (districts e he) (floors e he) (bans e he) input) (edit ▸ h.2)

theorem Levelled.setFireRequestBody {s : State} (h : Levelled s) (p : Port) (payload : List Byte) (d : District) :
    Levelled (setFireRequestBody p payload d s).1 := by
  unfold Machine.setFireRequestBody
  split
  · exact h
  · refine h.sourceTaken rfl (fun _ => rfl) (fun e => ?_) (fun e he => PerDistrict.get_set_of_ne _ he _) (fun _ _ => rfl) (fun _ _ => rfl) rfl rfl
    rw [State.onDistrict_districts, PerDistrict.get_set]
    split
    · next he => subst he; cases p <;> rfl
    · rfl

theorem Levelled.setFloorBody {s : State} (h : Levelled s) (p : Port) (payload : List Byte) (d : District) :
    Levelled (setFloorBody p payload d s).1 := by
  unfold Machine.setFloorBody
  split
  · exact h
  · exact h.sourceTaken rfl (fun _ => rfl) (fun _ => rfl) (fun _ _ => rfl) (fun e he => congrArg Cell.held (PerDistrict.get_set_of_ne _ he _))
      (fun _ _ => rfl) rfl rfl

/-- A ban level is a source while FIRE_BAN reads active alone (R68, R71). -/
theorem Levelled.setBanLevelBody {s : State} (h : Levelled s) (p : Port) (payload : List Byte) (d : District) :
    Levelled (setBanLevelBody p payload d s).1 := by
  unfold Machine.setBanLevelBody
  split
  · exact h
  · next l _ =>
    dsimp only
    split
    · exact h.sourceTaken rfl (fun _ => rfl) (fun _ => rfl) (fun _ _ => rfl) (fun _ _ => rfl)
        (fun e he => congrArg Cell.held (PerDistrict.get_set_of_ne _ he _)) rfl rfl
    · next inactive =>
      have sound := (levelsSound_iff s).1 h.1
      have unread : fireBanActive s = false := Bool.eq_false_iff.2 inactive
      refine ⟨(levelsSound_iff _).2 ⟨fun f => (sound.1 f).congr rfl rfl rfl, fun e => ?_⟩, h.2⟩
      have target := sound.2 e
      rw [Targeted, computedTarget, unread] at target
      rw [Targeted, computedTarget, Bool.eq_false_iff.2 inactive]
      exact target

/-! ### Ports -/

section Everywhere

set_option linter.unusedSectionVars false

variable [∀ f, Fact (Everywhere f)] {s : State}

theorem Levelled.onPort (h : Levelled s) (p : Port) (g : PortUnit → PortUnit) : Levelled (s.onPort p g) := h.same rfl

theorem Levelled.listens (h : Levelled s) (p : Port) : Levelled (listens p s) := h.same rfl

/-- A transfer keeps the levels if what the port unit makes of it does. -/
theorem Levelled.transfer (h : Levelled s) (p : Port) {act : State → State} (acts : ∀ t, Levelled t → Levelled (act t)) :
    Levelled (transfer p act s) := by
  unfold Machine.transfer
  split
  · exact h
  · exact h.same rfl
  · exact acts _ (h.listens p)

theorem Levelled.frameArrives (h : Levelled s) (p : Port) {check : State → State} (checks : ∀ t, Levelled t → Levelled (check t)) :
    Levelled (frameArrives p check s) := by
  unfold Machine.frameArrives
  refine ite_keeps Levelled h ?_
  split
  · exact checks _ (h.onPort p _)
  · exact checks _ (h.onPort p _)
  · exact h.onPort p _
  · exact h.onPort p _

/-- A request keeps the levels if its owner's action does. -/
theorem Levelled.takeRequest (h : Levelled s) (q : Request) (p : Port) (target : Byte) (payload : List Byte)
    {body : State → State × Reply} (acts : ∀ t, Levelled t → Levelled (body t).1) : Levelled (takeRequest q p target payload body s) := by
  refine h.transfer p fun t ht => ht.frameArrives p fun u hu => ?_
  unfold checkRequest
  split
  · exact hu.onPort p _
  · have renewed : Levelled (renewNamed q p target.toNat u) := by
      unfold renewNamed
      split
      · exact levelled_engine.renewLock _ _ _ hu
      · exact hu
    have acted := acts _ renewed
    unfold answer
    split
    · exact acted.onPort p _
    · exact acted.onPort p _
    · exact acted

/-! ### The other requests -/

theorem EditEditable.renewed {b : EditBuffer} (h : EditEditable b) (p : Port) (n : Nat) : EditEditable (b.renewed p n) := by
  cases b with
  | free => trivial
  | editing q r c l =>
    unfold EditBuffer.renewed
    dsimp only
    split <;> exact h
  | committing q r c => exact h

theorem EditEditable.of_own {p : Port} {r : RecordName} {c : RecordContent} {l : Nat} (h : EditEditable s.store.edit)
    (own : ownOpenEdit s p = some (r, c, l)) : r.editable = true := by
  unfold ownOpenEdit at own
  split at own
  · next edit =>
    split at own
    · simp only [Option.some.injEq, Prod.mk.injEq] at own
      obtain ⟨rfl, rfl, rfl⟩ := own
      rw [edit] at h
      exact h
    · cases own
  · cases own

theorem Levelled.takeEdit (h : Levelled s) (p : Port) {body : State → State × Reply} (acts : ∀ t, Levelled t → Levelled (body t).1) :
    Levelled (takeEdit p body s).1 := acts _ (h.aside (h.2.renewed p _) _ _ _)

theorem Levelled.openEditBody (h : Levelled s) (p : Port) (payload : List Byte) : Levelled (openEditBody p payload s).1 := by
  unfold Machine.openEditBody
  split
  · exact h
  · next r _ =>
    split
    · exact h
    · next he =>
      split
      · exact h
      · split_ifs
        · exact h
        · exact h
        · exact h.onStore _ (Bool.eq_true_of_not_eq_false he) rfl rfl rfl

theorem Levelled.setFieldBody (h : Levelled s) (p : Port) (payload : List Byte) : Levelled (setFieldBody p payload s).1 := by
  unfold Machine.setFieldBody
  split
  · exact h
  · next own =>
    split
    · exact h
    · split
      · exact h
      · exact h.onStore _ (h.2.of_own own) rfl rfl rfl

theorem Levelled.discardEditBody (h : Levelled s) (p : Port) : Levelled (discardEditBody p s).1 := by
  unfold Machine.discardEditBody
  split
  · exact h
  · exact h.aside (edit := .free) trivial _ _ _

theorem Levelled.commitEditBody (h : Levelled s) (p : Port) : Levelled (commitEditBody p s).1 := by
  unfold Machine.commitEditBody
  split
  · exact h
  · next own =>
    split_ifs
    · exact h
    · exact h
    · exact h
    · exact h
    · exact (committedTo_levels (h.2.of_own own) p _ s).handOn (h.2.of_own own) h

theorem Levelled.setProtectModeBody (h : Levelled s) (p : Port) (payload : List Byte) : Levelled (setProtectModeBody p payload s).1 := by
  unfold Machine.setProtectModeBody
  split
  · exact h
  · split
    · exact h
    · exact Levelled.queueWrite (h.onStore _ h.2 rfl rfl rfl) p _

theorem Levelled.readRecordBody (h : Levelled s) (payload : List Byte) : Levelled (readRecordBody payload s).1 := by
  unfold Machine.readRecordBody
  split
  · exact h
  · split
    · split
      · exact h
      · exact h.same rfl
    · exact h

theorem Levelled.readEventsBody (h : Levelled s) (p : Port) (payload : List Byte) : Levelled (readEventsBody p payload s).1 := by
  unfold Machine.readEventsBody
  dsimp only
  split
  · exact h
  · exact h.same rfl

theorem Levelled.tripBody (h : Levelled s) (p : Port) (f : Feeder) : Levelled (tripBody p f s).1 := by
  unfold Machine.tripBody
  dsimp only
  split
  · exact h
  · exact levelled_engine.deliver _ _ _ (levelled_engine.requestTrip _ _ _ _ h)

theorem Levelled.closeBody (h : Levelled s) (p : Port) (f : Feeder) : Levelled (closeBody p f s).1 := by
  unfold Machine.closeBody
  dsimp only
  split
  · exact h
  · exact levelled_engine.deliver _ _ _ (levelled_engine.requestPortClose _ _ _ h)

theorem Levelled.takeLockBody (h : Levelled s) (p : Port) (f : Feeder) : Levelled (takeLockBody p f s).1 := by
  unfold Machine.takeLockBody
  dsimp only
  split
  · exact h
  · split
    · exact levelled_engine.renewLock _ _ _ h
    · exact levelled_engine.changeLock _ _ _ _ h

theorem Levelled.dropLockBody (h : Levelled s) (p : Port) (f : Feeder) : Levelled (dropLockBody p f s).1 := by
  unfold Machine.dropLockBody
  dsimp only
  split
  · exact levelled_engine.changeLock _ _ _ _ h
  · exact h

/-! ### Claims -/

theorem Levelled.pool (h : Levelled s) (c : List PortClaim) : Levelled { s with pool := c } := h.same rfl

theorem Levelled.claimDone (h : Levelled s) (p : Port) (kind : ClaimKind) : Levelled (claimDone p kind s).1 := by
  unfold Machine.claimDone
  split
  · exact h
  · exact h.queueWrite _ _

theorem Levelled.removeClaim (h : Levelled s) (f : Feeder) (kind : ClaimKind) (p : Port) (tag : Nat) (c : ReleaseCause) :
    Levelled (removeClaim f kind p tag c s) := by
  unfold Machine.removeClaim
  split
  · exact levelled_engine.claimLeft _ _ _ _ (h.pool _)
  · exact h

theorem Levelled.addClaim (h : Levelled s) (c : PortClaim) : Levelled (Machine.addClaim c s) :=
  levelled_engine.claimEntered c.feeder c.info { s with pool := s.pool ++ [c] } (h.pool _)

theorem Levelled.placeClaimBody (h : Levelled s) (p : Port) (payload : List Byte) (f : Feeder) :
    Levelled (placeClaimBody p payload f s).1 := by
  unfold Machine.placeClaimBody
  split
  · exact h
  · split_ifs
    · exact (h.pool _).claimDone _ _
    · exact h
    · exact Levelled.claimDone (levelled_engine.judged f (Machine.addClaim _) s (h.addClaim _)) _ _

theorem Levelled.releaseClaimBody (h : Levelled s) (p : Port) (payload : List Byte) (f : Feeder) :
    Levelled (releaseClaimBody p payload f s).1 := by
  unfold Machine.releaseClaimBody
  dsimp only
  split
  · exact h
  · split
    · exact h
    · split
      · exact h
      · exact (h.removeClaim _ _ _ _ _).claimDone _ _

theorem Levelled.forceReleaseBody (h : Levelled s) (p : Port) (payload : List Byte) (f : Feeder) :
    Levelled (forceReleaseBody p payload f s).1 := by
  unfold Machine.forceReleaseBody
  dsimp only
  split
  · split
    · exact h
    · split
      · exact h
      · split
        · exact h
        · exact (h.removeClaim _ _ _ _ _).claimDone _ _
  · exact h

/-- A system claim of any kind is removed: the applied levels do not turn on it. -/
theorem Levelled.clearClaim (h : Levelled s) (n : SystemClaim) (b : Bool) (f : Feeder) : Levelled (clearClaim n b f s).1 := by
  unfold Machine.clearClaim
  split
  · exact levelled_engine.setClaimOf _ _ _ _ h (h.onFeeder f _ rfl)
  · exact h

/-! ### The hunt's requests and deadlines -/

theorem Levelled.startHuntBody (h : Levelled s) : Levelled (startHuntBody s).1 := by
  unfold Machine.startHuntBody
  split
  · exact h
  · split
    · exact h
    · exact levelled_engine.huntSettle _ _ (levelled_engine.startHunt _ _ h)

theorem Levelled.suspendHuntBody (h : Levelled s) : Levelled (suspendHuntBody s).1 := by
  unfold Machine.suspendHuntBody
  split
  · exact h
  · split_ifs
    · exact h
    · exact h
    · exact levelled_engine.suspendHunt _ _ h
    · exact levelled_engine.onHunt _ _ h

theorem Levelled.resumeFrom (h : Levelled s) (r : HuntRun) : Levelled (resumeFrom r s).1 := by
  have h1 := levelled_engine.onHunt (fun r => { r with resume := none }) s h
  unfold Machine.resumeFrom
  dsimp only
  split
  · split
    · exact levelled_engine.setHuntState _ _ _ (levelled_engine.beginWindow _ h1)
    · exact h1
  · exact h1
  · exact h1
  · exact h1

theorem Levelled.resumeHuntBody (h : Levelled s) : Levelled (resumeHuntBody s).1 := by
  unfold Machine.resumeHuntBody
  split
  · exact h
  · split_ifs
    · exact levelled_engine.huntSettle _ _ (h.resumeFrom _)
    · exact levelled_engine.onHunt _ _ h
    · exact h

theorem Levelled.abortHuntBody (h : Levelled s) : Levelled (abortHuntBody s).1 := by
  unfold Machine.abortHuntBody
  split
  · exact h
  · split
    · exact h
    · exact levelled_engine.huntSettle _ _ (levelled_engine.abortHunt _ _ h)

theorem Levelled.confirmDue (h : Levelled s) : Levelled (confirmDue s) := by
  unfold Machine.confirmDue
  split
  · exact h
  · exact ite_keeps Levelled (levelled_engine.huntSettle _ _ (levelled_engine.confirmExpired _ _ h)) h

theorem Levelled.trialWatchDue (h : Levelled s) : Levelled (trialWatchDue s) := by
  unfold Machine.trialWatchDue
  split
  · exact h
  · split
    · exact h
    · exact ite_keeps Levelled (levelled_engine.huntSettle _ _ (levelled_engine.restoreFeeder _ _ h)) h

/-! ### Frames, scans and the other deadlines -/

/-- The link's and the bus's part of the state. -/
theorem Levelled.link (h : Levelled s) (l : LinkState) (n t d : Option Nat) (b : BusRecord) :
    Levelled { s with link := l, lastSequence := n, lastFrameTime := t, linkDeadline := d, bus := b } :=
  h.same rfl

theorem Levelled.deliverUnit (h : Levelled s) (bs : List Byte) : Levelled (deliverUnit bs s) := by
  unfold Machine.deliverUnit
  split
  · exact h
  · next fr _ =>
    split
    · exact h
    · have linked := h.link .up (some fr.sequence) (some s.partTime) (some (s.partTime + 100)) s.bus
      refine levelled_engine.acceptFrame fr s (fun t f m a b ht => ht.onFeeder f (setMeas m a b) rfl) ?_ fun t ht =>
        ht.link t.link t.lastSequence t.lastFrameTime t.linkDeadline _
      unfold acceptOnLink
      dsimp only
      split
      · exact linked
      · exact levelled_engine.broadcast _ _ linked

theorem Levelled.linkLoss (h : Levelled s) : Levelled (linkLoss s) := by
  have lost := forFeeders_keeps Levelled
    (fun f a => a.onFeeder f fun x => { x with meas := .lost, invalidCount := 3, recoveryCount := 0 })
    (fun f t ht => ht.onFeeder f _ rfl) s.fittedFeeders _ (h.link .lost none s.lastFrameTime none { s.bus with valid := false })
  have told := forFeeders_keeps Levelled (feederLinkLoss s.feeders) (fun f t ht => by
    unfold feederLinkLoss
    dsimp only
    split
    · exact levelled_engine.placeSystemClaim _ _ _ (by decide) ht
    · exact levelled_engine.placeSystemClaim _ _ _ (by decide) (levelled_engine.broadcast _ _ ht)) s.fittedFeeders _ lost
  exact levelled_engine.huntSettle _ _ (levelled_engine.abortHunt _ _ (levelled_engine.broadcast _ _ told))

theorem Levelled.scanInputs (h : Levelled s) (lv : ScanLevels) : Levelled (scanInputs lv s) := by
  have contacts := forFeeders_keeps Levelled (fun f => scanFeeder f (lv.contacts.get f))
    (fun f t ht => levelled_engine.scanFeeder f _ t (ht.onFeeder f (scanContacts _) rfl)) Feeder.all s h
  have banned := contacts.scanFireBan lv.fireBan
  unfold Machine.scanInputs scanSetProtect
  rw [scanCrewKey_form]
  exact banned.same rfl

theorem Levelled.endDeadTime (h : Levelled s) (f : Feeder) : Levelled (endDeadTime f s) := by
  unfold Machine.endDeadTime
  split
  · have asked := levelled_engine.requestReclose f _ (levelled_engine.judged f _ _ (levelled_engine.seqToClosing f s h))
    unfold recloseAnswer
    split
    · exact Levelled.onFeeder asked f _ rfl
    · exact levelled_engine.judged _ _ _ (levelled_engine.toLockout _ _ _ _ asked)
    · exact asked
    · exact asked
  · exact levelled_engine.judged _ _ _ (levelled_engine.toLockout _ _ _ _ h)

theorem Levelled.operationDue (h : Levelled s) (kind : OpKind) (w : Position) (f : Feeder) : Levelled (operationDue kind w f s) := by
  unfold Machine.operationDue
  dsimp only
  split
  · exact h
  · exact ite_keeps Levelled (levelled_engine.completeOperation _ _ _ _ h) h

theorem Levelled.expireEdit (h : Levelled s) : Levelled (expireEdit s) := by
  unfold Machine.expireEdit
  split
  · exact ite_keeps Levelled ((h.aside (edit := .free) trivial _ _ _).offer _ _) h
  · exact h

theorem Levelled.lockLeaseDue (h : Levelled s) (f : Feeder) : Levelled (lockLeaseDue f s) := by
  unfold Machine.lockLeaseDue
  split
  · exact ite_keeps Levelled (levelled_engine.changeLock _ _ _ _ h) h
  · exact h

theorem Levelled.claimDue (h : Levelled s) (f : Feeder) (p : Port) (tag : Nat) : Levelled (claimDue f p tag s) := by
  unfold Machine.claimDue
  split
  · exact ite_keeps Levelled (h.removeClaim _ _ _ _ _) h
  · exact h

theorem Levelled.beginWrite (h : Levelled s) : Levelled (beginWrite s) := by
  unfold Machine.beginWrite
  split
  · have begun := fun w => h.aside h.2 s.store.frozen s.store.queue w
    dsimp only
    split
    · exact (begun _).pool _
    · exact begun _
  · exact h

theorem EditEditable.freed {b : EditBuffer} (h : EditEditable b) (e : WriteEntry) : EditEditable (freeCommitted e b) := by
  unfold freeCommitted
  split
  · split
    · trivial
    · exact h
  · exact h

/-- A write that completes changes written copies, marks and the buffer, and no record that is held (R63). -/
theorem Levelled.storeWritten (h : Levelled s) (w : StoreWrite) (e : WriteEntry) (rest : List WriteEntry) :
    Levelled (s.onStore (storeWritten w e rest)) := by
  have held := fun k (hk : k ≠ RecordName.claims) => heldContent_completed e.record w.content s hk
  exact h.congr (fun _ => rfl) rfl rfl (fun f => RecordContent.commissioning.inj (held (.commissioning f) nofun))
    (fun d => RecordContent.level.inj (held (.seasonFloor d) nofun)) (fun d => RecordContent.level.inj (held (.banLevel d) nofun))
    (h.2.freed e)

theorem Levelled.completeWrite (h : Levelled s) : Levelled (completeWrite s) := by
  cases hw : s.store.writing with
  | none => rw [show Machine.completeWrite s = s by unfold Machine.completeWrite; rw [hw]]; exact h
  | some w =>
    cases hq : s.store.queue with
    | nil => rw [show Machine.completeWrite s = s by unfold Machine.completeWrite; rw [hw, hq]]; exact h
    | cons e rest =>
      rw [completeWrite_spec hw hq]
      obtain ⟨ports, form, -⟩ := answerWritten_ports e.port
        { s with store := Machine.storeWritten w e rest s.store, pool := if e.record = .claims then persistClaims s.pool else s.pool }
      rw [form]
      exact (h.storeWritten w e rest).same rfl

/-! ### Transfers -/

theorem Levelled.fetchAt (h : Levelled s) (p : Port) (n : Nat) : Levelled (fetchAt p n s) := by
  have sent : ∀ d, Levelled (sends p d s) := fun _ => h.same rfl
  unfold Machine.fetchAt
  split
  · exact h
  · exact sent _
  · split
    · exact sent _
    · exact sent _
    · exact sent _
    · exact ite_keeps Levelled (Levelled.onPort (sent _) p _) (sent _)

theorem Levelled.frameEndsEarly (h : Levelled s) (p : Port) : Levelled (frameEndsEarly p s) := by
  unfold Machine.frameEndsEarly
  refine ite_keeps Levelled h ?_
  split <;> exact h.onPort p _

theorem Levelled.frameCollides (h : Levelled s) (p : Port) : Levelled (frameCollides p s) := by
  unfold Machine.frameCollides
  refine ite_keeps Levelled h ?_
  split
  · exact h
  · exact h
  · exact h.onPort p _
  · exact h.onPort p _

theorem Levelled.crewWrite (h : Levelled s) (w : Option CrewWrite) : Levelled { s with crewWrite := w } := h.same rfl

theorem Levelled.frameBegins (h : Levelled s) (p : Port) : Levelled (frameBegins p s) := by
  have watched : ∀ b t, Levelled t → Levelled (watchStall p b t) := fun b t ht => ite_keeps Levelled (ht.crewWrite _) ht
  unfold Machine.frameBegins
  split
  · exact watched _ _ (h.onPort p _)
  · exact watched _ _ h
  · exact h
  · exact watched _ _ h

theorem Levelled.stallDue (h : Levelled s) : Levelled (stallDue s) := by
  unfold Machine.stallDue
  split
  · exact h
  · exact ite_keeps Levelled (ite_keeps Levelled ((h.crewWrite none).onPort .crew _) ((h.crewWrite none).onPort .crew _)) h

theorem Levelled.crewStalls (h : Levelled s) (x : StallPoint) : Levelled (crewStalls x s) := by
  cases x with
  | underWay => exact ite_keeps Levelled h.stallDue h
  | writeAfterAddress => exact h.transfer _ fun _ ht => ht.frameEndsEarly _
  | writeAfterByte => exact h.transfer _ fun _ ht => ht.frameEndsEarly _
  | read => exact h

/-! ### Every command -/

theorem Levelled.whileRunning (h : Levelled s) {act : State → State} (acts : ∀ t, Levelled t → Levelled (act t)) :
    Levelled (whileRunning act s) := whileRunning_keeps Levelled act acts s h

/-- A request of a feeder keeps the levels if its owner's action on the feeder does. -/
theorem Levelled.takeFeederRequest (h : Levelled s) (q : Request) (p : Port) (target : Byte) (payload : List Byte)
    {body : Feeder → State → State × Reply} (acts : ∀ f t, Levelled t → Levelled (body f t).1) :
    Levelled (Machine.takeRequest q p target payload (onFeederTarget target body) s) :=
  h.takeRequest q p target payload fun t ht => onFeederTarget_keeps Levelled _ _ (fun f u _ hu => acts f u hu) t ht

/-- So does a request of a district. -/
theorem Levelled.takeDistrictRequest (h : Levelled s) (q : Request) (p : Port) (target : Byte) (payload : List Byte)
    {body : District → State → State × Reply} (acts : ∀ d t, Levelled t → Levelled (body d t).1) :
    Levelled (Machine.takeRequest q p target payload (onDistrictTarget target body) s) :=
  h.takeRequest q p target payload fun t ht => onDistrictTarget_keeps Levelled _ _ (fun d u hu => acts d u hu) t ht

/-- An edit request keeps the levels if the store's action after the renewal does. -/
theorem Levelled.takeEditRequest (h : Levelled s) (q : Request) (p : Port) (target : Byte) (payload : List Byte)
    {body : State → State × Reply} (acts : ∀ t, Levelled t → Levelled (body t).1) :
    Levelled (Machine.takeRequest q p target payload (Machine.takeEdit p body) s) :=
  h.takeRequest q p target payload fun _ ht => ht.takeEdit p acts

/-- Every command but a start-up keeps the levels. -/
theorem levelled_exec {i : Instr} (hi : isStartUp i = false) {t : State} (run : exec i s = .next t) (h : Levelled s) : Levelled t := by
  cases i with
  | powerOn _ => cases hi
  | powerLoss => cases hi
  | resetAsserted => cases hi
  | resetReleased _ => cases hi
  | restart _ _ _ => cases hi
  | measurementFrame bs => exact next_keeps _ run (h.whileRunning fun _ ht => ht.deliverUnit bs)
  | linkLossDeadline => exact next_keeps _ run (h.whileRunning fun _ ht => ite_keeps _ ht.linkLoss ht)
  | inputScan lv => exact next_keeps _ run (h.whileRunning fun _ ht => ht.scanInputs lv)
  | invalidTimerExpiry f => exact next_keeps _ run (h.whileRunning fun _ ht => ite_keeps _ (levelled_engine.declareFault f _ _ ht) ht)
  | transitTimerExpiry f => exact next_keeps _ run (h.whileRunning fun _ ht => ite_keeps _ (levelled_engine.declareFault f _ _ ht) ht)
  | tripDeadline f => exact next_keeps _ run (h.whileRunning fun _ ht => ht.operationDue _ _ f)
  | closeDeadline f => exact next_keeps _ run (h.whileRunning fun _ ht => ht.operationDue _ _ f)
  | deadTimeExpiry f => exact next_keeps _ run (h.whileRunning fun _ ht => ite_keeps _ (ht.endDeadTime f) ht)
  | reclaimExpiry f =>
    exact next_keeps _ run (h.whileRunning fun _ ht => ite_keeps _ (levelled_engine.judged f _ _ (levelled_engine.seqReclaimExpiry f _ ht)) ht)
  | confirmExpiry => exact next_keeps _ run (h.whileRunning fun _ ht => ht.confirmDue)
  | trialWatchExpiry => exact next_keeps _ run (h.whileRunning fun _ ht => ht.trialWatchDue)
  | editLeaseExpiry => exact next_keeps _ run (h.whileRunning fun _ ht => ht.expireEdit)
  | lockLeaseExpiry f => exact next_keeps _ run (h.whileRunning fun _ ht => ht.lockLeaseDue f)
  | claimExpiry f p tag => exact next_keeps _ run (h.whileRunning fun _ ht => ht.claimDue f p tag)
  | storeWriteBegins => exact next_keeps _ run (h.whileRunning fun _ ht => ht.beginWrite)
  | storeWriteComplete => exact next_keeps _ run (h.whileRunning fun _ ht => ht.completeWrite)
  | loweringApplied f => exact next_keeps _ run (h.whileRunning fun _ ht => levelled_engine.judge _ f ht)
  | fetch p n => exact next_keeps _ run (h.fetchAt p n)
  | badTransferType p _ => exact next_keeps _ run (h.transfer _ fun _ ht => ite_keeps _ ht (ht.onPort _ _))
  | frameEndedEarly p => exact next_keeps _ run (h.transfer p fun _ ht => ht.frameEndsEarly p)
  | collidedFrame p => exact next_keeps _ run (h.transfer p fun _ ht => ht.frameCollides p)
  | crewStall x => exact next_keeps _ run (h.crewStalls x)
  | badFrame p => exact next_keeps _ run (h.transfer p fun _ ht => ht.frameArrives p fun _ hu => hu.onPort p _)
  | unknownRequest p => exact next_keeps _ run (h.transfer p fun _ ht => ht.frameArrives p fun _ hu => hu.onPort p _)
  | requestFrameBegins p => exact next_keeps _ run (h.transfer p fun _ ht => ht.frameBegins p)
  | identify _ _ _ => exact next_keeps _ run (h.takeRequest _ _ _ _ fun _ ht => ht)
  | readPart _ _ _ => exact next_keeps _ run (h.takeRequest _ _ _ _ fun _ ht => ht)
  | readFeeder _ _ _ => exact next_keeps _ run (h.takeFeederRequest _ _ _ _ fun _ _ ht => ht)
  | readClaims _ _ _ => exact next_keeps _ run (h.takeRequest _ _ _ _ fun _ ht => ht)
  | readEvents p _ bs => exact next_keeps _ run (h.takeRequest _ _ _ _ fun _ ht => ht.readEventsBody p bs)
  | readFire _ _ _ => exact next_keeps _ run (h.takeRequest _ _ _ _ fun _ ht => ht)
  | readEffective _ _ _ => exact next_keeps _ run (h.takeFeederRequest _ _ _ _ fun f t ht => readEffectiveBody_keeps f t ht)
  | readRecord _ _ bs => exact next_keeps _ run (h.takeRequest _ _ _ _ fun _ ht => ht.readRecordBody bs)
  | readStore _ _ _ => exact next_keeps _ run (h.takeRequest _ _ _ _ fun _ ht => ht)
  | readEdit _ _ _ => exact next_keeps _ run (h.takeEditRequest _ _ _ _ fun _ ht => ht)
  | readHunt _ _ _ => exact next_keeps _ run (h.takeRequest _ _ _ _ fun _ ht => ht)
  | trip p _ _ => exact next_keeps _ run (h.takeFeederRequest _ _ _ _ fun f _ ht => ht.tripBody p f)
  | close p _ _ => exact next_keeps _ run (h.takeFeederRequest _ _ _ _ fun f _ ht => ht.closeBody p f)
  | takeLock p _ _ => exact next_keeps _ run (h.takeFeederRequest _ _ _ _ fun f _ ht => ht.takeLockBody p f)
  | dropLock p _ _ => exact next_keeps _ run (h.takeFeederRequest _ _ _ _ fun f _ ht => ht.dropLockBody p f)
  | placeClaim p _ bs => exact next_keeps _ run (h.takeFeederRequest _ _ _ _ fun f _ ht => ht.placeClaimBody p bs f)
  | releaseClaim p _ bs => exact next_keeps _ run (h.takeFeederRequest _ _ _ _ fun f _ ht => ht.releaseClaimBody p bs f)
  | forceRelease p _ bs => exact next_keeps _ run (h.takeFeederRequest _ _ _ _ fun f _ ht => ht.forceReleaseBody p bs f)
  | clearBreakerFail _ _ _ => exact next_keeps _ run (h.takeFeederRequest _ _ _ _ fun f _ ht => ht.clearClaim _ _ f)
  | clearHuntClaim _ _ _ => exact next_keeps _ run (h.takeFeederRequest _ _ _ _ fun f _ ht => ht.clearClaim _ _ f)
  | clearStoreHold _ _ _ => exact next_keeps _ run (h.takeFeederRequest _ _ _ _ fun f _ ht => ht.clearClaim _ _ f)
  | setFireRequest p _ bs => exact next_keeps _ run (h.takeDistrictRequest _ _ _ _ fun d _ ht => ht.setFireRequestBody p bs d)
  | setFloor p _ bs => exact next_keeps _ run (h.takeDistrictRequest _ _ _ _ fun d _ ht => ht.setFloorBody p bs d)
  | setBanLevel p _ bs => exact next_keeps _ run (h.takeDistrictRequest _ _ _ _ fun d _ ht => ht.setBanLevelBody p bs d)
  | openEdit p _ bs => exact next_keeps _ run (h.takeEditRequest _ _ _ _ fun _ ht => ht.openEditBody p bs)
  | setField p _ bs => exact next_keeps _ run (h.takeEditRequest _ _ _ _ fun _ ht => ht.setFieldBody p bs)
  | commitEdit p _ _ => exact next_keeps _ run (h.takeEditRequest _ _ _ _ fun _ ht => ht.commitEditBody p)
  | discardEdit p _ _ => exact next_keeps _ run (h.takeEditRequest _ _ _ _ fun _ ht => ht.discardEditBody p)
  | setProtectMode p _ bs => exact next_keeps _ run (h.takeRequest _ _ _ _ fun _ ht => ht.setProtectModeBody p bs)
  | freezeSettings _ _ _ => exact next_keeps _ run (h.takeRequest _ _ _ _ fun _ ht => ht.aside ht.2 _ _ _)
  | startHunt _ _ _ => exact next_keeps _ run (h.takeRequest _ _ _ _ fun _ ht => ht.startHuntBody)
  | suspendHunt _ _ _ => exact next_keeps _ run (h.takeRequest _ _ _ _ fun _ ht => ht.suspendHuntBody)
  | resumeHunt _ _ _ => exact next_keeps _ run (h.takeRequest _ _ _ _ fun _ ht => ht.resumeHuntBody)
  | abortHunt _ _ _ => exact next_keeps _ run (h.takeRequest _ _ _ _ fun _ ht => ht.abortHuntBody)

end Everywhere

end Sys2Proof.Machine

open Sys2Proof Sys2Proof.Machine

/-- Settles O55: each command through the engine, its target or its commit, each start-up by its values. -/
theorem stepKeepsTheLevels : Obligations.StepKeepsTheLevels := by
  intro s t levels edit run
  have := everywhere
  refine step_keeps (P := Levelled) (fun _ _ h => h.same rfl) (fun _ _ h => h.same rfl)
    (fun i u v run h => ?_) run ⟨levels, edit⟩
  cases hi : isStartUp i with
  | false => exact levelled_exec hi run h
  | true =>
    exact exec_startUp_keeps (fun _ p ev h => h.offer p ev) levelled_startValues (fun _ _ h => h.same rfl)
      (fun q p target payload _ _ acts h => h.takeRequest q p target payload acts) hi run h
end

