-- ==== Sys2Proof/Proofs/EditRequests.lean ====
section
/-! PROOFS. The edit buffer's requests, the freeze and the protect mode (R51 to R56, R61). -/
namespace Sys2Proof.Machine

/-! ### Requests without a target -/

/-- A taken request without a target whose owner changes nothing but its port's view is answered as on the state before. -/
theorem answer_made {q : Request} {p : Port} {n : Nat} {st : Status} {payload : List Byte} {s : State} :
    answer q p n (s, .made st payload) = respond p st payload s := rfl

/-- The owner's withheld answer leaves the port EXECUTING, whatever the port unit held (R177). -/
theorem withheld_receive (q : Request) (p : Port) (n : Nat) (s : State) : withheld q p n (receive p s) = withheld q p n s := by
  simp only [withheld, receive, State.onPort_onPort]

/-! ### The freeze and the protect mode -/

theorem protectMode_ofCode_none {n : Nat} : ProtectMode.ofCode n = none ↔ 3 ≤ n := by
  rcases n with _ | _ | _ | n <;> simp [ProtectMode.ofCode]

theorem numberAt_byte (n : Byte) : numberAt [n] 0 1 = n.toNat := by simp [numberAt, readNumber]

theorem setProtectModeBody_range {p : Port} {n : Byte} {s : State} (h : 3 ≤ n.toNat) :
    setProtectModeBody p [n] s = (s, .plain .range) := by
  simp only [setProtectModeBody, numberAt_byte, protectMode_ofCode_none.2 h]

theorem setProtectModeBody_frozen {p : Port} {n : Byte} {s : State} (h : n.toNat < 3) (frozen : s.store.frozen = true) :
    setProtectModeBody p [n] s = (s, .plain .frozen) := by
  cases hm : ProtectMode.ofCode n.toNat with
  | none => exact absurd (protectMode_ofCode_none.1 hm) (by omega)
  | some m => simp only [setProtectModeBody, numberAt_byte, hm, frozen, if_true]

theorem setProtectModeBody_taken {p : Port} {n : Byte} {m : ProtectMode} {s : State} (h : ProtectMode.ofCode n.toNat = some m)
    (frozen : s.store.frozen = false) :
    setProtectModeBody p [n] s = (queueWrite p .protectMode (setHeld .protectMode (.protectMode m) s), .withheld) := by
  simp only [setProtectModeBody, numberAt_byte, h, frozen, Bool.false_eq_true, if_false]

/-! ### The edit buffer -/

/-- A lease is renewed for the owner of an OPEN buffer alone (R56). -/
theorem EditBuffer.renewed_of_not_own {b : EditBuffer} {p : Port} (h : ∀ r c d, b ≠ .editing p r c d) (lease : Nat) :
    b.renewed p lease = b := by
  cases b with
  | editing q r c d =>
    refine if_neg fun own => h r c d ?_
    rw [own]
  | _ => rfl

theorem EditBuffer.owner_renewed (b : EditBuffer) (p : Port) (lease : Nat) : (b.renewed p lease).owner = b.owner := by
  cases b with
  | editing q r c d => exact (apply_ite EditBuffer.owner _ _ _).trans (ite_self _)
  | _ => rfl

theorem editing_of_not_own {p : Port} {s : State} (h : ∀ r c d, s.store.edit ≠ .editing p r c d) : editing p s = receive p s := by
  have same := EditBuffer.renewed_of_not_own h (s.partTime + editLease)
  show (receive p s).onStore (fun st => { st with edit := s.store.edit.renewed p (s.partTime + editLease) }) = receive p s
  rw [same]
  rfl

theorem editing_of_own {p : Port} {r : RecordName} {c : RecordContent} {d : Nat} {s : State} (h : s.store.edit = .editing p r c d) :
    editing p s = receive p (s.onStore fun st => { st with edit := .editing p r c (s.partTime + 120000) }) := by
  have renewed : s.store.edit.renewed p (s.partTime + editLease) = .editing p r c (s.partTime + 120000) := by
    rw [h]
    exact if_pos rfl
  show receive p (s.onStore fun st => { st with edit := s.store.edit.renewed p (s.partTime + editLease) }) = _
  rw [renewed]

/-- The protect check passes exactly the ports that R54 lets edit. -/
theorem editPermitted_iff (s : State) (p : Port) : editPermitted s p = true ↔ mayEdit s p := by
  refine ⟨fun h => ?_, fun h => editPermitted_of_mayEdit h rfl rfl⟩
  cases p with
  | network => exact .inl rfl
  | crew => cases h
  | panel =>
    refine .inr ⟨rfl, ?_⟩
    cases mode : s.store.protectMode.held with
    | open_ => exact .inl rfl
    | pin => exact .inr ⟨rfl, by simpa [editPermitted, mode] using h⟩
    | networkOnly => simp [editPermitted, mode] at h

theorem ownOpenEdit_none {p : Port} {s : State} (h : ∀ r c d, s.store.edit ≠ .editing p r c d) : ownOpenEdit s p = none := by
  unfold ownOpenEdit
  split
  next q r c d edit =>
    refine if_neg fun own => h r c d ?_
    rw [edit, own]
  next => rfl

theorem ownOpenEdit_own {p : Port} {r : RecordName} {c : RecordContent} {d : Nat} {s : State} (h : s.store.edit = .editing p r c d) :
    ownOpenEdit s p = some (r, c, d) := by
  simp only [ownOpenEdit, h, if_true]

/-! ### OPEN_EDIT -/

theorem openEditBody_range {p : Port} {payload : List Byte} {s : State}
    (h : ∀ r, namedRecord payload = some r → r.editable = false) : openEditBody p payload s = (s, .plain .range) := by
  unfold openEditBody
  split
  next => rfl
  next r named => exact if_pos (h r named)

theorem openEditBody_held {p q : Port} {payload : List Byte} {r : RecordName} {s : State} (named : namedRecord payload = some r)
    (editable : r.editable = true) (owner : s.store.edit.owner = some q) (other : q ≠ p) :
    openEditBody p payload s = (s, .heldBy (.port q)) := by
  have held : editHeldFrom s p = some q := by simp [editHeldFrom, owner, other]
  simp only [openEditBody, named, editable, held, Bool.true_eq_false, if_false]

theorem openEditBody_admitted {p : Port} {payload : List Byte} {r : RecordName} {s : State} (named : namedRecord payload = some r)
    (editable : r.editable = true) (owner : s.store.edit.owner = none ∨ s.store.edit.owner = some p) :
    openEditBody p payload s =
      (if s.store.frozen = true then (s, .plain .frozen)
       else if mayEdit s p then
         (s.onStore fun st => { st with edit := .editing p r (heldContent s r) (s.partTime + 120000) }, .ok)
       else (s, .plain .isProtected)) := by
  have held : editHeldFrom s p = none := by rcases owner with h | h <;> simp [editHeldFrom, h]
  by_cases may : mayEdit s p
  · simp only [openEditBody, named, editable, held, (editPermitted_iff s p).2 may, if_pos may, Bool.true_eq_false, if_false, editLease]
  · simp only [openEditBody, named, editable, held, Bool.eq_false_iff.2 fun h => may ((editPermitted_iff s p).1 h), if_neg may,
      Bool.true_eq_false, if_false, if_true]

theorem heldContent_editing (p : Port) (s : State) (r : RecordName) : heldContent (editing p s) r = heldContent s r := by
  cases r <;> rfl

/-- A buffer that is opened is the one just opened: nothing of the renewal before stays. -/
theorem respond_opened (p : Port) (st : Status) (payload : List Byte) (s : State) (b : EditBuffer) :
    respond p st payload ((editing p s).onStore fun x => { x with edit := b }) =
      respond p st payload (s.onStore fun x => { x with edit := b }) :=
  respond_receive p st payload (s.onStore fun x => { x with edit := b })


end Sys2Proof.Machine

open Sys2Proof Sys2Proof.Machine

/-- Settles O41: each request by its body, the mode named by its code. -/
theorem freezeAndProtectMode : Obligations.FreezeAndProtectMode := by
  intro p n s₀ s
  refine ⟨fun taken => ?_, fun taken => ?_⟩
  · refine congrArg Host.Outcome.next ((taken.plain (.inl rfl) freezeBody).trans ?_)
    exact respond_receive p .ok [] (s.onStore fun st => { st with frozen := true })
  · have run : exec (.setProtectMode p 0#8 [n]) s₀ =
        .next (answer .setProtectMode p 0 (setProtectModeBody p [n] (receive p s))) :=
      congrArg Host.Outcome.next (taken.plain (.inl rfl) (setProtectModeBody p [n]))
    rw [run]
    refine ⟨fun large => ?_, fun small frozen => ?_, fun m code thawed => ?_⟩
    · rw [setProtectModeBody_range (s := receive p s) large]
      exact congrArg Host.Outcome.next (respond_receive p .range [] s)
    · rw [setProtectModeBody_frozen (s := receive p s) small frozen]
      exact congrArg Host.Outcome.next (respond_receive p .frozen [] s)
    · have named : ProtectMode.ofCode n.toNat = some m := by
        cases m <;> simp only at code <;> rw [code] <;> rfl
      rw [setProtectModeBody_taken (s := receive p s) named thawed]
      exact congrArg Host.Outcome.next (withheld_receive .setProtectMode p 0 (s.onStore fun st =>
        { st with
          protectMode := { st.protectMode with held := m }
          queue := st.queue ++ [{ port := p, record := .protectMode }] }))

/-- Settles O38: each request by its body on the buffer with the lease renewed. -/
theorem ownerOpensFillsOrDiscardsTheEdit : Obligations.OwnerOpensFillsOrDiscardsTheEdit := by
  refine ⟨?_, ?_⟩
  · intro p payload s₀ s taken
    have run : exec (.openEdit p 0#8 payload) s₀ = .next (answer .openEdit p 0 (openEditBody p payload (editing p s))) :=
      congrArg Host.Outcome.next (taken.plain (.inl rfl) (takeEdit p (openEditBody p payload)))
    have owner : (editing p s).store.edit.owner = s.store.edit.owner := EditBuffer.owner_renewed _ _ _
    rw [run]
    refine ⟨fun barred => ?_, fun r named editable => ⟨fun q held other => ?_, fun free => ?_⟩⟩
    · rw [openEditBody_range barred]
      rfl
    · rw [openEditBody_held named editable (owner.trans held) other]
      rfl
    · rw [openEditBody_admitted named editable (owner.symm ▸ free), heldContent_editing]
      change _ = Host.Outcome.next (if (editing p s).store.frozen = true then _ else if mayEdit (editing p s) p then _ else _)
      split_ifs
      · rfl
      · exact congrArg Host.Outcome.next (respond_opened p .ok [] s _)
      · rfl
  · intro p payload s₀ s
    refine ⟨fun stranger => ⟨fun taken => ?_, fun taken => ?_⟩, ?_⟩
    · refine congrArg Host.Outcome.next ((taken.plain (.inl rfl) (takeEdit p (setFieldBody p payload))).trans ?_)
      change answer .setField p 0 (setFieldBody p payload (editing p s)) = _
      rw [editing_of_not_own stranger, setFieldBody, ownOpenEdit_none (s := receive p s) stranger]
      exact respond_receive p .noEdit [] s
    · refine congrArg Host.Outcome.next ((taken.plain (.inl rfl) (takeEdit p (discardEditBody p))).trans ?_)
      change answer .discardEdit p 0 (discardEditBody p (editing p s)) = _
      rw [editing_of_not_own stranger, discardEditBody, ownOpenEdit_none (s := receive p s) stranger]
      exact respond_receive p .noEdit [] s
    · intro r c d own holding
      refine ⟨fun taken => ?_, fun taken => ?_⟩
      · refine congrArg Host.Outcome.next ((taken.plain (.inl rfl) (takeEdit p (setFieldBody p payload))).trans ?_)
        change answer .setField p 0 (setFieldBody p payload (editing p s)) = _
        rw [editing_of_own own, setFieldBody,
          ownOpenEdit_own (s := receive p (s.onStore fun st => { st with edit := .editing p r c (s.partTime + 120000) })) rfl]
        dsimp only
        cases c.setField (numberAt payload 0 1) (numberAt payload 1 4) with
        | none => exact respond_receive p .range [] (holding c)
        | some x =>
          change answer .setField p 0 (if s.store.frozen = true then _ else _) = if s.store.frozen = true then _ else _
          split_ifs
          · exact respond_receive p .frozen [] (holding c)
          · exact respond_receive p .ok [] (holding x)
      · refine congrArg Host.Outcome.next ((taken.plain (.inl rfl) (takeEdit p (discardEditBody p))).trans ?_)
        change answer .discardEdit p 0 (discardEditBody p (editing p s)) = _
        rw [editing_of_own own, discardEditBody,
          ownOpenEdit_own (s := receive p (s.onStore fun st => { st with edit := .editing p r c (s.partTime + 120000) })) rfl]
        exact respond_receive p .ok [] (s.onStore fun st => { st with edit := .free })
end

