-- ==== Sys2Proof/Proofs/PartReads.lean ====
section
/-! PROOFS. What the reads of the part, the store and the hunt show (R56, R67, R172, R187, R188, R192). -/
namespace Sys2Proof.Machine

/-! ### Requests that only read -/

/-- A read is answered with its fields as they stand while its port is RECEIVING. -/
theorem answerRead_taken {q : Request} {p : Port} {payload : List Byte} {s₀ : State} (taken : Takes q p 0#8 payload (listens p s₀))
    (plain : q.targetKind = .noTarget ∨ q.targetKind = .district) (fields : State → List Byte) :
    takeRequest q p 0#8 payload (answerRead fields) s₀ = respond p .ok (fields (receive p (listens p s₀))) (listens p s₀) :=
  (taken.plain plain (answerRead fields)).trans (respond_receive p .ok _ (listens p s₀))

/-! ### Lists of fields -/

theorem beOpt_map {α β : Type} (enc : β → List Byte) (g : α → β) (x : Option α) :
    beOpt enc (x.map g) = beOpt (fun a => enc (g a)) x := by cases x <;> rfl

/-- The units of the three ports while one of them is RECEIVING (R187). -/
theorem portUnits_receive (p : Port) (s : State) :
    (receive p s).ports.toList.flatMap PortUnit.bytes =
      [Port.network, .panel, .crew].flatMap fun q =>
        be1 (if q = p then 1 else (s.ports.get q).state.code) ++ beFlag (s.ports.get q).collided ++
          beFlag (s.ports.get q).incomplete := by
  cases p <;> rfl

/-- Only the first entry of the write queue can have begun (R62, R67). -/
theorem waitingEntries (begun : Bool) (rest : List WriteEntry) (k : Nat) :
    (rest.zipIdx (k + 1)).flatMap (fun e => writeEntryBytes e.1 (decide (e.2 = 0) && begun)) =
      rest.flatMap fun x => writeEntryBytes x false := by
  induction rest generalizing k with
  | nil => rfl
  | cons e rest ih => simp [ih]

theorem writeQueueBytes_eq (st : Store) :
    writeQueueBytes st =
      be1 st.queue.length ++ st.queue.zipIdx.flatMap fun e => writeEntryBytes e.1 (decide (e.2 = 0) && st.writing.isSome) := by
  unfold writeQueueBytes
  cases st.queue with
  | nil => rfl
  | cons e rest => simp [← waitingEntries st.writing.isSome rest 0]

theorem EditBuffer.bytes_eq (b : EditBuffer) :
    b.bytes =
      match b with
      | .free => [0#8, 0#8, 0#8, 0#8]
      | .editing o r _ lease => be1 1 ++ be1 (portCode o) ++ be1 1 ++ r.bytes ++ be1 1 ++ be6 lease
      | .committing o r _ => be1 2 ++ be1 (portCode o) ++ be1 1 ++ r.bytes ++ be1 0 := by
  cases b with
  | free => rfl
  | editing o r c lease => simp [EditBuffer.bytes, EditBuffer.code, EditBuffer.holder, EditBuffer.owner, EditBuffer.record?,
      EditBuffer.lease?, Holder.code, beOpt]
  | committing o r c => simp [EditBuffer.bytes, EditBuffer.code, EditBuffer.holder, EditBuffer.owner, EditBuffer.record?,
      EditBuffer.lease?, Holder.code, beOpt]

theorem huntFields_receive (p : Port) (s : State) : huntFields (receive p s) = huntFields s := rfl

theorem huntState_code (s : State) : (huntState s).code = match s.hunt with | none => 0 | some x => x.state.code := by
  unfold huntState
  cases s.hunt <;> rfl

/-! ### Records and the edit buffer -/

/-- A record's bytes name it (R192). -/
theorem namedRecord_bytes (r : RecordName) : namedRecord r.bytes = some r := by
  cases r with
  | group f l => cases f <;> cases l <;> rfl
  | commissioning f => cases f <;> rfl
  | hunt l => cases l <;> rfl
  | userCurve u => cases u <;> rfl
  | seasonFloor d => cases d <;> rfl
  | banLevel d => cases d <;> rfl
  | protectMode => rfl
  | claims => rfl

theorem readRecordBody_unnamed {payload : List Byte} (h : namedRecord payload = none) (s : State) :
    readRecordBody payload s = (s, .plain .range) := by
  simp only [readRecordBody, h]

theorem readRecordBody_held {r : RecordName} (h : r ≠ .claims) (s : State) :
    readRecordBody r.bytes s =
      (s, .made .ok ((heldContent s r).bytes ++ beFlag (defaultedMark s.store r) ++ beFlag (writePending s r))) := by
  simp only [readRecordBody, namedRecord_bytes, if_neg h, recordFlags, List.append_assoc]

theorem readRecordBody_claims {cs : List PersistedClaim} {s : State} (h : s.store.claimsWritten = .intact cs) :
    readRecordBody (RecordName.bytes .claims) s =
      (s, .made .ok (beList PersistedClaim.bytes cs ++ beFlag s.store.claimsDefaulted ++ beFlag (writePending s .claims))) := by
  simp only [readRecordBody, namedRecord_bytes, if_true, h, recordFlags, defaultedMark, List.append_assoc]

theorem readRecordBody_torn {s : State} (h : s.store.claimsWritten = .torn) :
    readRecordBody (RecordName.bytes .claims) s =
      ({ s with freeIndex := s.freeIndex + 1 },
        .made .ok
          (beList PersistedClaim.bytes ((Config.tornClaims s.freeIndex).take 32) ++ beFlag s.store.claimsDefaulted ++
            beFlag (writePending s .claims))) := by
  simp only [readRecordBody, namedRecord_bytes, if_true, h, recordFlags, defaultedMark, List.append_assoc]

theorem heldContent_receive (p : Port) (s : State) (r : RecordName) : heldContent (receive p s) r = heldContent s r := by
  cases r <;> rfl

theorem editFields_own {p : Port} {r : RecordName} {c : RecordContent} {d : Nat} {s : State} (h : s.store.edit = .editing p r c d) :
    editFields s = be1 1 ++ be1 (portCode p) ++ be1 1 ++ r.bytes ++ be1 1 ++ be6 d ++ be1 1 ++ c.bytes := by
  simp only [editFields, h, EditBuffer.bytes_eq, EditBuffer.content?, beOpt, List.append_assoc]

end Sys2Proof.Machine

open Sys2Proof Sys2Proof.Machine

/-- Settles O26: the fields of each read, the ports' and the write queue's by their lists. -/
theorem partReadsShowTheState : Obligations.PartReadsShowTheState := by
  intro p s₀ s level station portState feeder sums identified candidates
  refine ⟨fun taken => ?_, fun taken => ?_, fun taken => ?_, ?_, rfl, rfl, rfl, rfl, rfl, rfl, rfl, rfl⟩
  · exact congrArg Host.Outcome.next (answerRead_taken taken (.inl rfl) fun t => identifyFields t p)
  · refine congrArg Host.Outcome.next ((answerRead_taken taken (.inl rfl) partFields).trans ?_)
    refine congrArg (respond p .ok · s) ?_
    rw [partFields, portUnits_receive]
    simp only [BusRecord.bytes, List.append_assoc]
    rfl
  · refine congrArg Host.Outcome.next ((answerRead_taken taken (.inl rfl) storeFields).trans ?_)
    refine congrArg (respond p .ok · s) ?_
    rw [storeFields, EditBuffer.bytes_eq, writeQueueBytes_eq, ← List.append_assoc]
    rfl
  · intro taken use h
    refine congrArg Host.Outcome.next ((answerRead_taken taken (.inl rfl) huntFields).trans ?_)
    refine congrArg (respond p .ok · s) ?_
    have sum : sums = sumsBytes := rfl
    have named : identified = Identified.bytes := rfl
    have tried : candidates = beList Candidate.bytes := rfl
    rw [sum, named, tried, huntFields_receive]
    simp only [huntFields, huntRecordBytes, huntState_code, beOpt_map be1, BusRecord.bytes, ← List.append_assoc]
    rfl

/-- Settles O28: the record by its name, the buffer with its lease renewed. -/
theorem recordReadsShowTheContent : Obligations.RecordReadsShowTheContent := by
  intro p s₀ s
  have record : ∀ payload, Takes .readRecord p 0#8 payload s →
      exec (.readRecord p 0#8 payload) s₀ = .next (answer .readRecord p 0 (readRecordBody payload (receive p s))) := fun payload taken =>
    congrArg Host.Outcome.next (taken.plain (.inl rfl) (readRecordBody payload))
  refine ⟨fun r taken => ⟨fun other => ?_, fun cs claims written => ?_, fun claims torn => ?_⟩, fun payload taken unnamed => ?_,
    fun taken => ?_⟩
  · rw [record _ taken, readRecordBody_held other, heldContent_receive]
    exact congrArg Host.Outcome.next (respond_receive p .ok _ s)
  · subst claims
    rw [record _ taken, readRecordBody_claims (s := receive p s) written]
    exact congrArg Host.Outcome.next (respond_receive p .ok _ s)
  · subst claims
    rw [record _ taken, readRecordBody_torn (s := receive p s) torn]
    exact congrArg Host.Outcome.next (respond_receive p .ok _ { s with freeIndex := s.freeIndex + 1 })
  · rw [record _ taken, readRecordBody_unnamed unnamed]
    exact congrArg Host.Outcome.next (respond_receive p .range [] s)
  · have run : exec (.readEdit p 0#8 []) s₀ = .next (respond p .ok (editFields (editing p s)) (editing p s)) :=
      congrArg Host.Outcome.next (taken.plain (.inl rfl) (takeEdit p (answerRead editFields)))
    refine ⟨run, fun r c d own => ?_⟩
    rw [run, editing_of_own own]
    rw [editFields_own (d := s.partTime + 120000)
      (s := receive p (s.onStore fun st => { st with edit := .editing p r c (s.partTime + 120000) })) rfl]
    exact congrArg Host.Outcome.next (respond_receive p .ok _ _)
end

