-- ==== Sys2Proof/Proofs/LeasesAndClaims.lean ====
section
/-! PROOFS. The edit lease, a lock's lease and a NORECLOSE claim at and before their deadlines (R60, R91, R120). -/
namespace Sys2Proof.Machine

/-! ### A claim of a pool without duplicates -/

/-- The claim has the identity of another (R86). -/
def PortClaim.alike (c x : PortClaim) : Bool := x.is c.feeder c.kind c.holder c.tag

theorem PortClaim.alike_iff (c x : PortClaim) :
    c.alike x = true ↔ x.feeder = c.feeder ∧ x.kind = c.kind ∧ x.holder = c.holder ∧ (c.holder = .crew → x.tag = c.tag) :=
  PortClaim.is_iff x c.feeder c.kind c.holder c.tag

theorem PortClaim.alike_self (c : PortClaim) : c.alike c = true := (c.alike_iff c).2 ⟨rfl, rfl, rfl, fun _ => rfl⟩

theorem PortClaim.alike_symm {c x : PortClaim} (h : c.alike x = true) : x.alike c = true := by
  obtain ⟨feeder, kind, holder, tag⟩ := (c.alike_iff x).1 h
  exact (x.alike_iff c).2 ⟨feeder.symm, kind.symm, holder.symm, fun crew => (tag (holder ▸ crew)).symm⟩

theorem distinct_cons {x : PortClaim} {rest : List PortClaim} :
    Distinct (x :: rest) ↔ (∀ c ∈ rest, x.alike c = false) ∧ Distinct rest := by
  simp only [Distinct, List.pairwise_cons, ← PortClaim.alike_iff, Bool.not_eq_true]

/-- A claim of the pool is the one found by its identity, and the one that its removal takes out (R86). -/
theorem find_erase_of_distinct {pool : List PortClaim} (h : Distinct pool) {c : PortClaim} (hc : c ∈ pool) :
    pool.find? c.alike = some c ∧ pool.eraseP c.alike = pool.filter fun x => decide (x ≠ c) := by
  induction pool with
  | nil => cases hc
  | cons x rest ih =>
    obtain ⟨unlike, distinct⟩ := distinct_cons.1 h
    rcases List.mem_cons.1 hc with rfl | hc
    · have others : ∀ y ∈ rest, y ≠ c := by
        rintro y hy rfl
        exact Bool.noConfusion ((unlike y hy).symm.trans y.alike_self)
      have kept : rest.filter (fun y => decide (y ≠ c)) = rest := List.filter_eq_self.2 fun y hy => decide_eq_true (others y hy)
      rw [List.find?_cons_of_pos c.alike_self, List.eraseP_cons_of_pos c.alike_self, List.filter_cons_of_neg (by simp), kept]
      exact ⟨rfl, rfl⟩
    · have other : ¬ c.alike x = true := fun alike => by simpa [PortClaim.alike_symm alike] using unlike c hc
      have ne : x ≠ c := fun e => other (e ▸ c.alike_self)
      obtain ⟨found, erased⟩ := ih distinct hc
      rw [List.find?_cons_of_neg other, List.eraseP_cons_of_neg other, List.filter_cons_of_pos (p := fun y => decide (y ≠ c)) (decide_eq_true ne), found, erased]
      exact ⟨rfl, rfl⟩

/-- The expiry of a NORECLOSE claim of the pool, if it is reached (R91). -/
theorem claimDue_spec {s : State} (sound : PoolSound s) {c : PortClaim} (hc : c ∈ s.pool) (kind : c.kind = .noReclose) :
    claimDue c.feeder c.holder c.tag s =
      if reached s c.expiry = true then
        broadcast (.claimReleased c.feeder c.info .expired) { s with pool := s.pool.filter fun x => decide (x ≠ c) }
      else s := by
  obtain ⟨found, erased⟩ := find_erase_of_distinct sound.2 hc
  have find : findClaim s c.feeder .noReclose c.holder c.tag = some c := by rw [← kind]; exact found
  have erase : s.pool.eraseP (fun x => x.is c.feeder .noReclose c.holder c.tag) = s.pool.filter fun x => decide (x ≠ c) := by
    rw [← kind]; exact erased
  simp only [claimDue, removeClaim, find, claimLeft]
  rw [erase]

end Sys2Proof.Machine

open Sys2Proof Sys2Proof.Machine

/-- Settles O19: each deadline by its record, the claim's by its identity in a pool without duplicates. -/
theorem leasesAndClaimsExpire : Obligations.LeasesAndClaimsExpire := by
  intro s running
  have run : ∀ act : State → State, whileRunning act s = act s := fun act => if_pos running
  refine ⟨fun p r c d edit => ?_, fun f p d lock => ?_, fun c hc kind _ sound => ?_⟩
  · refine congrArg Host.Outcome.next ((run expireEdit).trans ?_)
    simp only [expireEdit, edit]
  · refine congrArg Host.Outcome.next ((run (lockLeaseDue f)).trans ?_)
    simp only [lockLeaseDue, lock, changeLock, Lock.holder]
  · refine congrArg Host.Outcome.next ((run (claimDue c.feeder c.holder c.tag)).trans ?_)
    rw [claimDue_spec sound hc kind, PortClaim.info, kind]
    cases c.expiry with
    | none => rfl
    | some d => simp only [reached, decide_eq_true_eq]
end

