-- ==== Sys2Proof/Proofs/CommitChecks.lean ====
section
/-! PROOFS. COMMIT_EDIT: its checks in order, and what a commit hands to a feeder or, for a user curve, to several in turn (R56 to R59, R77,
R78). -/
namespace Sys2Proof.Machine

/-! ### The checks -/

theorem Store.onCell_edit (r : RecordName) (c : RecordContent) (g : (α : Type) → α → Cell α → Cell α) (st : Store) (b : EditBuffer) :
    Store.onCell r c g { st with edit := b } = { Store.onCell r c g st with edit := b } := by
  unfold Store.onCell
  split <;> rfl

/-- The store with a commit held, its buffer COMMITTING and its write queued (R58). -/
def committedStore (p : Port) (r : RecordName) (c : RecordContent) (st : Store) : Store :=
  let held := Store.onCell r c (fun _ x cell => { cell with held := x }) st
  { held with edit := .committing p r c, queue := held.queue ++ [{ port := p, record := r }] }

theorem committedTo_form (p : Port) (r : RecordName) (c : RecordContent) (s : State) :
    committedTo p r c s = s.onStore (committedStore p r c) := rfl

theorem fire_committedTo (p : Port) (r : RecordName) (c : RecordContent) (s : State) (f : Feeder) :
    ((committedTo p r c s).feeder f).fire = (s.feeder f).fire := by
  rw [committedTo_form]
  rfl

theorem fitted_committedTo (p : Port) (f : Feeder) (l : Level) (g : Group) (s : State) (k : Feeder) :
    (committedTo p (.group f l) (.group g) s).fitted k = s.fitted k := by
  rw [committedTo_form]
  rfl

theorem committedStore_edit (p : Port) (r : RecordName) (c : RecordContent) (st : Store) (b : EditBuffer) :
    committedStore p r c { st with edit := b } = committedStore p r c st := by
  simp only [committedStore, Store.onCell_edit]

/-- What is committed does not show whose lease was renewed before. -/
theorem committedTo_editing (p : Port) (r : RecordName) (c : RecordContent) (s : State) :
    committedTo p r c (editing p s) = receive p (committedTo p r c s) := by
  rw [committedTo_form, committedTo_form]
  exact congrArg (fun st => (receive p s).onStore fun _ => st)
    (committedStore_edit p r c s.store (s.store.edit.renewed p (s.partTime + editLease)))

theorem commitInService_editing (p : Port) (r : RecordName) (s : State) : commitInService (editing p s) r = commitInService s r := by
  cases r <;> rfl

/-- The checks of R57 in order. -/
theorem commitEditBody_own {p : Port} {r : RecordName} {c : RecordContent} {d : Nat} {s : State} (own : s.store.edit = .editing p r c d) :
    commitEditBody p s =
      if s.store.frozen = true then (s, .plain .frozen)
      else if mayEdit s p then
        if c.consistent = false then (s, .plain .inconsistent)
        else if commitInService s r = true then (s, .plain .state)
        else (handOnCommit r (committedTo p r c s), .withheld)
      else (s, .plain .isProtected) := by
  unfold commitEditBody
  rw [ownOpenEdit_own own]
  dsimp only
  by_cases may : mayEdit s p
  · rw [if_pos may, (editPermitted_iff s p).2 may]
    rfl
  · rw [if_neg may, Bool.eq_false_iff.2 fun h => may ((editPermitted_iff s p).1 h)]
    rfl

/-- A commit of the port that owns the OPEN buffer, by the checks in order (R57). -/
theorem exec_commitEdit_own {p : Port} {r : RecordName} {c : RecordContent} {d : Nat} {s₀ : State}
    (taken : Takes .commitEdit p 0#8 [] (listens p s₀)) (own : (listens p s₀).store.edit = .editing p r c d) :
    exec (.commitEdit p 0#8 []) s₀ = .next
      (if (listens p s₀).store.frozen = true then respond p .frozen [] (editing p (listens p s₀))
       else if mayEdit (listens p s₀) p then
         if c.consistent = false then respond p .inconsistent [] (editing p (listens p s₀))
         else if commitInService (listens p s₀) r = true then respond p .state [] (editing p (listens p s₀))
         else withheld .commitEdit p 0 (handOnCommit r (receive p (committedTo p r c (listens p s₀))))
       else respond p .isProtected [] (editing p (listens p s₀))) := by
  generalize hs : listens p s₀ = s at taken own ⊢
  have edit : (editing p s).store.edit = .editing p r c (s.partTime + editLease) := by
    show s.store.edit.renewed p _ = _
    rw [own]
    exact if_pos rfl
  refine congrArg Host.Outcome.next (((hs ▸ taken).plain (.inl rfl) (takeEdit p (commitEditBody p))).trans ?_)
  change answer .commitEdit p 0 (commitEditBody p (editing p (listens p s₀))) = _
  rw [hs, commitEditBody_own edit, commitInService_editing, committedTo_editing]
  change answer .commitEdit p 0 (if s.store.frozen = true then _ else if mayEdit s p then _ else _) = _
  split_ifs <;> rfl

/-! ### What is handed on -/

theorem reloaded_ports (f : Feeder) (l : Level) (c : ApplyCause) (s : State) : (reloaded f l c s).ports = s.ports := by
  unfold reloaded
  split <;> rfl

theorem commitTaken_ports (f : Feeder) (s : State) : (commitTaken f s).ports = s.ports := by
  unfold commitTaken
  split
  · rfl
  · split
    · split <;> exact reloaded_ports ..
    · rfl

theorem commitTaken_waiting {f : Feeder} {s : State} (h : quiescent s f = false) : (commitTaken f s).queues = s.queues := by
  unfold commitTaken
  rw [h]
  split <;> rfl

/-- What a commit makes of a feeder's fire state depends on the feeder, the store and the district targets (R76 to R79). -/
theorem commitTaken_fire_congr {f : Feeder} {x : FeederFire} {s t : State} (hx : (s.feeder f).fire = some x)
    (feeder : t.feeder f = s.feeder f) (store : t.store = s.store) (districts : t.districts = s.districts) :
    ((commitTaken f t).feeder f).fire = ((commitTaken f s).feeder f).fire := by
  have target : targetLevel t f = targetLevel s f := by simp only [targetLevel, State.commissioning, store, districts]
  have lowering : loweringPending t f = loweringPending s f := by simp only [loweringPending, feeder, target]
  have rest : quiescent t f = quiescent s f := by simp only [quiescent, State.fitted, State.commissioning, feeder, store]
  have effective : ∀ l, t.effectiveFor f l = s.effectiveFor f l := fun l =>
    effectiveFor_congr (congrArg Store.groups store) (congrArg Store.curveU1 store) (congrArg Store.curveU2 store)
  have loaded := commitTaken_fire (s := t) (feeder ▸ hx)
  dsimp only at loaded
  rw [loaded, commitTaken_fire hx, rest, lowering, target, effective]

/-- The feeders take a commit in turn (R59; log 45). -/
def commitTakenBy (fs : List Feeder) (s : State) : State := fs.foldl (fun a f => commitTaken f a) s

theorem commitTakenBy_onPort (fs : List Feeder) (p : Port) (g : PortUnit → PortUnit) (s : State) :
    commitTakenBy fs (s.onPort p g) = (commitTakenBy fs s).onPort p g := by
  induction fs generalizing s with
  | nil => rfl
  | cons f fs ih =>
    show commitTakenBy fs (commitTaken f (s.onPort p g)) = _
    rw [commitTaken_onPort, ih]
    rfl

theorem commitTakenBy_store (fs : List Feeder) (s : State) : (commitTakenBy fs s).store = s.store :=
  foldl_keeps (fun t => t.store = s.store) _ (fun t f h => (commitTaken_store f t).trans h) fs s rfl

theorem commitTakenBy_ports (fs : List Feeder) (s : State) : (commitTakenBy fs s).ports = s.ports :=
  foldl_keeps (fun t => t.ports = s.ports) _ (fun t f h => (commitTaken_ports f t).trans h) fs s rfl

theorem commitTakenBy_other {f : Feeder} {fs : List Feeder} (h : f ∉ fs) (s : State) : (commitTakenBy fs s).feeder f = s.feeder f := by
  induction fs generalizing s with
  | nil => rfl
  | cons k fs ih =>
    rw [List.mem_cons, not_or] at h
    obtain ⟨ne, later⟩ := h
    exact (ih later (commitTaken k s)).trans (commitTaken_other ne s)

/-- Each feeder of the turn takes the commit as if it were alone. -/
theorem commitTakenBy_fire {f : Feeder} {x : FeederFire} {fs : List Feeder} (distinct : fs.Nodup) (h : f ∈ fs) {s : State}
    (hx : (s.feeder f).fire = some x) : ((commitTakenBy fs s).feeder f).fire = ((commitTaken f s).feeder f).fire := by
  induction fs generalizing s with
  | nil => cases h
  | cons k fs ih =>
    obtain ⟨later, distinct⟩ := List.nodup_cons.1 distinct
    rcases List.mem_cons.1 h with rfl | h
    · exact congrArg FeederState.fire (commitTakenBy_other later (commitTaken f s))
    · have ne : f ≠ k := fun e => later (e ▸ h)
      have stays := commitTaken_other ne s
      have own : ((commitTaken k s).feeder f).fire = some x := by rw [stays, hx]
      exact (ih distinct h own).trans (commitTaken_fire_congr hx stays (commitTaken_store k s) (commitTaken_districts k s))

/-! ### Groups and user curves -/

theorem withheld_handOn_group {p : Port} {f : Feeder} {l : Level} {s : State}
    (apart : ∀ x, (s.feeder f).fire = some x → x.applied ≠ l) :
    withheld .commitEdit p 0 (handOnCommit (.group f l) (receive p s)) = withheld .commitEdit p 0 s := by
  have idle : handOnCommit (.group f l) (receive p s) = receive p s := by
    unfold handOnCommit
    dsimp only
    split
    next x hx => exact if_neg fun both => apart x hx both.2
    next => rfl
  rw [idle, withheld_receive]

theorem withheld_handOn_applied {p : Port} {f : Feeder} {l : Level} {x : FeederFire} {s : State} (hx : (s.feeder f).fire = some x)
    (applied : x.applied = l) (fitted : s.fitted f = true) :
    withheld .commitEdit p 0 (handOnCommit (.group f l) (receive p s)) = commitTaken f (withheld .commitEdit p 0 s) := by
  rw [handOnCommit_group (s := receive p s) hx applied fitted, ← withheld_receive .commitEdit p 0 s]
  exact (commitTaken_onPort ..).symm

/-- The feeders that a user curve's commit reaches: fitted, their applied group as held naming the curve (R59). -/
def namesCurve (s : State) (u : UserCurveName) (f : Feeder) : Bool := s.fitted f && appliedGroupNames s u f

theorem withheld_handOn_curve (p : Port) (u : UserCurveName) (s : State) :
    withheld .commitEdit p 0 (handOnCommit (.userCurve u) (receive p s)) =
      commitTakenBy (Feeder.all.filter (namesCurve s u)) (withheld .commitEdit p 0 s) := by
  have reached : (receive p s).fittedFeeders.filter (appliedGroupNames (receive p s) u) = Feeder.all.filter (namesCurve s u) := by
    rw [State.fittedFeeders, List.filter_filter]
    exact List.filter_congr fun f _ => Bool.and_comm ..
  have fires : ∀ f ∈ Feeder.all.filter (namesCurve s u), ((receive p s).feeder f).fire ≠ none := fun f hf none => by
    have names := (Bool.and_eq_true _ _ ▸ (List.mem_filter.1 hf).2).2
    unfold appliedGroupNames at names
    rw [show (s.feeder f).fire = Option.none from none] at names
    cases names
  have handed : handOnCommit (.userCurve u) (receive p s) = commitTakenBy (Feeder.all.filter (namesCurve s u)) (receive p s) := by
    rw [handOnCommit, reached]
    exact forFeeders_setSettingsPending _ (List.Nodup.filter _ Feeder.nodup_all) _ fires
  rw [handed, ← withheld_receive .commitEdit p 0 s]
  exact (commitTakenBy_onPort ..).symm

/-- A state in which a commit is held has what the hand-on reads of the state before, but the record itself. -/
structure Committable (s b : State) : Prop where
  feeders : b.feeders = s.feeders
  districts : b.districts = s.districts
  records : b.store.commissioning = s.store.commissioning
  queues : b.queues = s.queues

theorem committable_committedTo {r : RecordName} {c : RecordContent} {s : State} (p : Port)
    (records : (committedStore p r c s.store).commissioning = s.store.commissioning) :
    Committable s (withheld .commitEdit p 0 (committedTo p r c s)) := by
  rw [committedTo_form]
  exact ⟨rfl, rfl, records, rfl⟩

theorem Committable.feeder {s b : State} (k : Committable s b) (f : Feeder) : b.feeder f = s.feeder f :=
  congrArg (fun x => PerFeeder.get x f) k.feeders

theorem Committable.target {s b : State} (k : Committable s b) (f : Feeder) : targetLevel b f = targetLevel s f := by
  simp only [targetLevel, State.commissioning, k.records, k.districts]

theorem Committable.lowering {s b : State} (k : Committable s b) (f : Feeder) : loweringPending b f = loweringPending s f := by
  simp only [loweringPending, k.feeder, k.target]

theorem Committable.quiescent {s b : State} (k : Committable s b) (f : Feeder) : quiescent b f = quiescent s f := by
  simp only [Machine.quiescent, State.fitted, State.commissioning, k.feeder, k.records]

/-- A commit is loaded by a feeder that was quiescent before it, and is pending at any other (R77, R78). -/
theorem Committable.fire {s b : State} (k : Committable s b) {f : Feeder} {x : FeederFire} (hx : (s.feeder f).fire = some x) :
    let level := if loweringPending s f = true then targetLevel s f else x.applied
    ((commitTaken f b).feeder f).fire =
      some
        (if Machine.quiescent s f = true then { applied := level, settingsPending := false, effective := b.effectiveFor f level }
         else { x with settingsPending := true }) := by
  have loaded := commitTaken_fire (s := b) (k.feeder f ▸ hx)
  rw [k.lowering, k.target, k.quiescent] at loaded
  exact loaded

/-- A group that is committed is the one that its feeder then loads, with the curves as they are held (R79). -/
theorem committedTo_effective (p : Port) (f : Feeder) (l : Level) (g : Group) (s : State) :
    (committedTo p (.group f l) (.group g) s).effectiveFor f l =
      { group := g, phaseCurve := s.breakpoints g.phase.curve, earthCurve := s.breakpoints g.earth.curve } := by
  have own : (committedTo p (.group f l) (.group g) s).group f l = g := by
    show (((s.store.groups.set f _).get f).get l).held = g
    rw [PerFeeder.get_set_self, PerLevel.get_set_self]
  have curves : (committedTo p (.group f l) (.group g) s).breakpoints = s.breakpoints := rfl
  rw [State.effectiveFor, own, curves]

theorem committedStore_curve (p : Port) (u : UserCurveName) (c : RecordContent) (st : Store) :
    (committedStore p (.userCurve u) c st).commissioning = st.commissioning ∧
      (committedStore p (.userCurve u) c st).groups = st.groups := by
  cases u <;> cases c <;> exact ⟨rfl, rfl⟩

theorem namesCurve_store {s : State} {st : Store} (records : st.commissioning = s.store.commissioning)
    (groups : st.groups = s.store.groups) (u : UserCurveName) : namesCurve (s.onStore fun _ => st) u = namesCurve s u := by
  cases st
  cases records
  cases groups
  rfl

/-- A curve that is committed changes no group, so no feeder's that names it. -/
theorem namesCurve_committedTo (p : Port) (u : UserCurveName) (c : RecordContent) (s : State) :
    namesCurve (committedTo p (.userCurve u) c s) u = namesCurve s u := by
  obtain ⟨records, groups⟩ := committedStore_curve p u c s.store
  exact namesCurve_store records groups u

theorem namesCurve_eq (s : State) (u : UserCurveName) (f : Feeder) :
    namesCurve s u f =
      match (s.feeder f).fire with
      | none => false
      | some x =>
        s.fitted f &&
          (decide ((s.group f x.applied).phase.curve = match u with | .u1 => .u1 | .u2 => .u2) ||
            decide ((s.group f x.applied).earth.curve = match u with | .u1 => .u1 | .u2 => .u2)) := by
  unfold namesCurve appliedGroupNames
  cases (s.feeder f).fire with
  | none => exact Bool.and_false _
  | some x => rfl

end Sys2Proof.Machine

open Sys2Proof Sys2Proof.Machine

/-- Settles O39: the checks in order, then the hand-on of each kind of record. -/
theorem commitMeetsItsChecks : Obligations.CommitMeetsItsChecks := by
  refine ⟨?_, ?_⟩
  · intro p s₀ s taken stranger
    refine congrArg Host.Outcome.next ((taken.plain (.inl rfl) (takeEdit p (commitEditBody p))).trans ?_)
    change answer .commitEdit p 0 (commitEditBody p (editing p s)) = _
    rw [editing_of_not_own stranger, commitEditBody, ownOpenEdit_none (s := receive p s) stranger]
    exact respond_receive p .noEdit [] s
  · intro p r c d s₀ s taken own b go committed
    have run := exec_commitEdit_own taken own
    have base : committed = withheld .commitEdit p 0 (committedTo p r c s) := rfl
    clear_value committed
    refine ⟨fun frozen => ?_, fun thawed barred => ?_, fun thawed may odd => ?_, fun thawed may good => ?_⟩
    · exact run.trans (congrArg Host.Outcome.next (if_pos frozen))
    · rw [if_neg (Bool.eq_false_iff.1 thawed), if_neg barred] at run
      exact run
    · rw [if_neg (Bool.eq_false_iff.1 thawed), if_pos may, if_pos odd] at run
      exact run
    · rw [if_neg (Bool.eq_false_iff.1 thawed), if_pos may, if_neg (by rw [good]; exact Bool.noConfusion)] at run
      have handed : commitInService s r = false →
          go = .next (withheld .commitEdit p 0 (handOnCommit r (receive p (committedTo p r c s)))) := fun out =>
        run.trans (congrArg Host.Outcome.next (if_neg (Bool.eq_false_iff.1 out)))
      refine ⟨fun f hr inService => ?_, fun l hr => ?_, fun f l hr apart => ?_, fun f l g x hr hc hx applied fitted => ?_, fun u hr => ?_⟩
      · subst hr
        exact run.trans (congrArg Host.Outcome.next (if_pos (congrArg (!·) inService)))
      · subst hr
        exact base ▸ (handed rfl).trans (congrArg Host.Outcome.next (withheld_receive .commitEdit p 0 _))
      · subst hr
        exact base ▸ (handed rfl).trans (congrArg Host.Outcome.next (withheld_handOn_group fun x hx =>
          apart x ((fire_committedTo p (.group f l) c s f).symm.trans hx)))
      · subst hr hc applied
        have k : Committable s committed := base ▸ committable_committedTo p rfl
        intro level
        refine ⟨commitTaken f committed, ?_, rfl, commitTaken_store .., commitTaken_ports .., k.fire hx, fun high => ?_,
          fun waits => ?_, fun h other => (commitTaken_other other committed).trans (k.feeder h)⟩
        · rw [handed rfl, withheld_handOn_applied ((fire_committedTo ..).trans hx) rfl ((fitted_committedTo ..).trans fitted), base]
        · rw [show level = x.applied from if_neg (Bool.eq_false_iff.1 high), base]
          exact committedTo_effective p f x.applied g s
        · exact (commitTaken_waiting ((k.quiescent f).trans waits)).trans k.queues
      · subst hr
        have k : Committable s committed := base ▸ committable_committedTo p (committedStore_curve p u c s.store).1
        intro curve names
        have reached : namesCurve s u = names := funext fun f => namesCurve_eq s u f
        have member : ∀ f, f ∈ Feeder.all.filter names ↔ names f = true := fun f => by
          rw [List.mem_filter, and_iff_right (Feeder.mem_all f)]
        refine ⟨commitTakenBy (Feeder.all.filter names) committed, ?_, rfl, commitTakenBy_store .., commitTakenBy_ports ..,
          fun f x hx => ?_⟩
        · rw [handed rfl, withheld_handOn_curve, namesCurve_committedTo, reached, base]
        · have taken : names f = true →
              ((commitTakenBy (Feeder.all.filter names) committed).feeder f).fire = ((commitTaken f committed).feeder f).fire :=
            fun named => commitTakenBy_fire (List.Nodup.filter _ Feeder.nodup_all) ((member f).2 named) (k.feeder f ▸ hx)
          intro level
          refine ⟨fun out => ?_, fun named waits => ?_, fun named quiet => ?_⟩
          · exact (commitTakenBy_other (fun h => Bool.noConfusion (out.symm.trans ((member f).1 h))) committed).trans (k.feeder f)
          · rw [taken named, k.fire hx, if_neg (Bool.eq_false_iff.1 waits)]
          · rw [taken named, k.fire hx, if_pos quiet]
end

