-- ==== Sys2Proof/Proofs/Judgement.lean ====
section
/-! PROOFS. The judgement of a feeder: what it applies, and what it leaves (R76, R77, R79, R80). -/
namespace Sys2Proof.Machine

section
variable {f : Feeder} {x : FeederFire} {s : State}

/-- What waits for a fitted feeder is a level above its target, or settings (R73, R78). -/
theorem nothingPending_iff (hx : (s.feeder f).fire = some x) :
    NothingPending s f ↔ x.applied.number ≤ (targetLevel s f).number ∧ x.settingsPending = false := by
  simp [NothingPending, loweringPending, settingsPending, hx]

/-- Nothing waits for a feeder without a fire state. -/
theorem nothingPending_unfitted (hx : (s.feeder f).fire = none) : NothingPending s f := by
  simp [NothingPending, loweringPending, settingsPending, hx]

/-- A judgement of a feeder that is not quiescent does nothing (R76). -/
theorem judge_unquiet (h : quiescent s f = false) : judge f s = s := by simp [judge, h]

/-- A judgement of a quiescent feeder for which something waits reloads it at its target, with a lowering when the level falls (R77). -/
theorem judge_applies (hx : (s.feeder f).fire = some x) (quiet : quiescent s f = true) (waits : ¬ NothingPending s f) :
    judge f s =
      if (targetLevel s f).number < x.applied.number then reloaded f (targetLevel s f) .lower s else reloaded f x.applied .commit s := by
  rw [nothingPending_iff hx, not_and_or, Nat.not_le, Bool.not_eq_false] at waits
  rw [judge_spec hx]
  by_cases falls : (targetLevel s f).number < x.applied.number
  · rw [if_pos ⟨quiet, falls⟩, if_pos falls]
  · rw [if_neg fun c => falls c.2, if_neg falls, if_pos ⟨quiet, waits.resolve_left falls⟩]

theorem Level.eq_of_number_eq {l m : Level} (h : l.number = m.number) : l = m := by
  cases l <;> cases m <;> first | rfl | cases h

/-- A judgement that applies what waits is a reload at the feeder's target, of a feeder whose level was not below it (R73, R77). -/
theorem judge_reloads (hx : (s.feeder f).fire = some x) (quiet : quiescent s f = true) (waits : ¬ NothingPending s f)
    (sound : (targetLevel s f).number ≤ x.applied.number) : ∃ cause, judge f s = reloaded f (targetLevel s f) cause s := by
  rw [judge_applies hx quiet waits]
  by_cases falls : (targetLevel s f).number < x.applied.number
  · exact ⟨.lower, if_pos falls⟩
  · rw [if_neg falls, Level.eq_of_number_eq (Nat.le_antisymm sound (Nat.le_of_not_lt falls))]
    exact ⟨.commit, rfl⟩

theorem reloaded_pool (f : Feeder) (l : Level) (c : ApplyCause) (s : State) : (reloaded f l c s).pool = s.pool := by
  unfold reloaded; split <;> rfl

end

end Sys2Proof.Machine

open Sys2Proof Sys2Proof.Machine

/-- Settles O21: a judgement that applies what waits is a reload at the target, and what a reload leaves is known. -/
theorem judgementAppliesWhatIsPending : Obligations.JudgementAppliesWhatIsPending := by
  intro f x s running hx sound
  have run : exec (.loweringApplied f) s = .next (judge f s) := congrArg Host.Outcome.next (if_pos running)
  rw [run]
  refine ⟨fun still => congrArg Host.Outcome.next (still.elim judge_unquiet judge_nothing), fun quiet waits =>
    ⟨judge f s, rfl, judge_applies hx quiet waits, ?_⟩⟩
  obtain ⟨cause, reload⟩ := judge_reloads hx quiet waits sound
  rw [reload]
  exact ⟨reloaded_fire hx _ _, (reloaded_movedTo hx _ _).2.1, reloaded_nothing hx _ rfl, fun g hg => reloaded_other hg _ _ s,
    reloaded_store .., reloaded_pool ..⟩
end

