-- ==== Sys2Proof/Proofs/LevelRequests.lean ====
section
/-! PROOFS. The requests that set a source of a district's target (R68 to R71). -/
namespace Sys2Proof.Machine

/-- Nothing moves but a district and its feeders: the other districts, their feeders, FIRE_BAN and the pool stay. -/
def DistrictAlone (d : District) (s t : State) : Prop :=
  (∀ e, e ≠ d → t.districts.get e = s.districts.get e) ∧
    (∀ f, (s.commissioning f).district ≠ d → t.feeder f = s.feeder f) ∧ t.fireBan = s.fireBan ∧ t.pool = s.pool

section
variable {d : District} {s a : State}

/-- A district's target does not reach beyond its own feeders (R68). -/
theorem DistrictAlone.targetTaken (h : DistrictAlone d s a) (hc : a.store.commissioning = s.store.commissioning := by rfl) :
    DistrictAlone d s (targetTaken d a) := by
  obtain ⟨districts, feeders, fireBan, pool⟩ := h
  refine ⟨fun e he => ?_, fun f hf => ?_, (targetTaken_shell d a).fireBan.trans fireBan, (targetTaken_shell d a).pool.trans pool⟩
  · rw [targetTaken_districts, PerDistrict.get_set_of_ne _ he, districts e he]
  · have same : a.commissioning f = s.commissioning f := congrArg (fun c => (PerFeeder.get c f).held) hc
    rw [targetTaken_elsewhere (by rw [same]; exact hf), feeders f hf]

theorem DistrictAlone.refl (d : District) (s : State) : DistrictAlone d s s := ⟨fun _ _ => rfl, fun _ _ => rfl, rfl, rfl⟩

theorem targetTaken_network (d : District) (s : State) :
    ((targetTaken d s).districts.get d).network = (s.districts.get d).network := by
  rw [targetTaken_districts, PerDistrict.get_set_self]

theorem targetTaken_panel (d : District) (s : State) : ((targetTaken d s).districts.get d).panel = (s.districts.get d).panel := by
  rw [targetTaken_districts, PerDistrict.get_set_self]

/-- The target that a district takes is the highest of its sources (R68). -/
theorem targetTaken_number (d : District) (s : State) :
    ((targetTaken d s).districts.get d).target.number =
      highestSource (s.districts.get d).network (s.districts.get d).panel (s.floor d) (s.ban d) (fireBanActive s) := by
  rw [targetTaken_districts, PerDistrict.get_set_self]
  exact computedTarget_number s d

theorem targetTaken_ports (d : District) (s : State) : (targetTaken d s).ports = s.ports := by
  have shell := targetTaken_shell d s
  unfold SameShell at shell
  rw [shell]

theorem targetTaken_receive (d : District) (p : Port) (s : State) : targetTaken d (receive p s) = receive p (targetTaken d s) :=
  targetTaken_onPort d p _ s

/-! ### A level in a payload -/

/-- A byte above 3 names no level (R69). -/
theorem namedLevel_none {n : Byte} (h : 4 ≤ n.toNat) : namedLevel [n] = none := by
  rw [namedLevel, numberAt_byte]
  obtain ⟨k, hk⟩ := Nat.exists_eq_add_of_le' h
  rw [hk]
  rfl

end

/-! ### The three requests -/

section
variable {q : Request} {p : Port} {d : District} {l : Level} {payload : List Byte} {s : State}

/-- A district request that is taken is answered as its owner leaves it. -/
theorem takeRequest_onDistrict {body : District → State → State × Reply} (s₀ : State)
    (taken : Takes q p d.byte payload (listens p s₀)) (hk : q.targetKind = .district) :
    takeRequest q p d.byte payload (onDistrictTarget d.byte body) s₀ = answer q p d.number (body d (receive p (listens p s₀))) := by
  rw [taken.plain (.inr hk), onDistrictTarget, District.ofNumber_byte, District.byte_toNat]

/-- A district with the request of a port in it; the crew port has none (R69). -/
def requested (p : Port) (d : District) (l : Level) (s : State) : State :=
  { s with
    districts := s.districts.set d
      { s.districts.get d with
        network := if p = .network then l else (s.districts.get d).network
        panel := if p = .panel then l else (s.districts.get d).panel } }

theorem setFireRequestBody_level (p : Port) (d : District) (l : Level) (s : State) :
    setFireRequestBody p [BitVec.ofNat 8 l.number] d s = (targetTaken d (requested p d l s), .ok) := by
  simp only [setFireRequestBody, namedLevel_byte, recomputeTarget_spec]
  cases p <;> rfl

theorem districtAlone_requested (p : Port) (d : District) (l : Level) (s : State) : DistrictAlone d s (requested p d l s) :=
  ⟨fun _ he => PerDistrict.get_set_of_ne _ he _, fun _ _ => rfl, rfl, rfl⟩

/-- A record whose held level is set and whose write is queued (R70, R71). -/
def levelHeld (p : Port) (r : RecordName) (l : Level) (s : State) : State := queueWrite p r (setHeld r (.level l) s)

theorem levelHeld_floor (p : Port) (d : District) (l : Level) (s : State) : (levelHeld p (.seasonFloor d) l s).floor d = l := by
  simp [levelHeld, queueWrite, setHeld, Store.onCell, State.floor]

theorem levelHeld_ban (p : Port) (d : District) (l : Level) (s : State) : (levelHeld p (.banLevel d) l s).ban d = l := by
  simp [levelHeld, queueWrite, setHeld, Store.onCell, State.ban]

/-- Holding a floor leaves the content of every other record. -/
theorem heldContent_levelHeld_floor {d : District} {k : RecordName} (hk : k ≠ .seasonFloor d) (p : Port) (l : Level) (s : State) :
    heldContent (levelHeld p (.seasonFloor d) l s) k = heldContent s k := by
  cases k with
  | seasonFloor e =>
    have he : e ≠ d := fun h => hk (h ▸ rfl)
    simp [levelHeld, queueWrite, setHeld, Store.onCell, heldContent, State.floor, PerDistrict.get_set_of_ne _ he]
  | _ => rfl

/-- Holding a ban level leaves the content of every other record. -/
theorem heldContent_levelHeld_ban {d : District} {k : RecordName} (hk : k ≠ .banLevel d) (p : Port) (l : Level) (s : State) :
    heldContent (levelHeld p (.banLevel d) l s) k = heldContent s k := by
  cases k with
  | banLevel e =>
    have he : e ≠ d := fun h => hk (h ▸ rfl)
    simp [levelHeld, queueWrite, setHeld, Store.onCell, heldContent, State.ban, PerDistrict.get_set_of_ne _ he]
  | _ => rfl

/-- The content of every record is of the store and the pool. -/
theorem heldContent_congr {s t : State} (hs : t.store = s.store) (hp : t.pool = s.pool) (k : RecordName) :
    heldContent t k = heldContent s k := by
  cases k <;> simp only [heldContent, heldClaims, State.group, State.commissioning, State.huntSettings, State.userCurve, State.floor,
    State.ban, hs, hp]

/-- What a request for a stored level leaves: its write queued, its port EXECUTING, and every other record as it was (R70, R71). -/
def LevelQueued (p : Port) (d : District) (r : RecordName) (code : Nat) (s t : State) : Prop :=
  t.store.queue = s.store.queue ++ [{ port := p, record := r }] ∧ (t.ports.get p).state = .executing code d.number ∧
    ∀ k, k ≠ r → heldContent t k = heldContent s k

/-- The target taken, or left, after a level is held does not reach the store (R70, R71). -/
theorem levelQueued_withheld {r : RecordName} {t : State} (hs : t.store = (levelHeld p r l s).store)
    (hp : t.pool = s.pool) (hq : (levelHeld p r l s).store.queue = s.store.queue ++ [{ port := p, record := r }])
    (others : ∀ k, k ≠ r → heldContent (levelHeld p r l s) k = heldContent s k) :
    LevelQueued p d r q.code s (withheld q p d.number t) := by
  refine ⟨(congrArg Store.queue hs).trans hq, ?_, fun k hk => ?_⟩
  · rw [withheld, State.onPort_ports, PerPort.get_set_self]
  · exact (heldContent_congr hs hp k).trans (others k hk)

theorem setFloorBody_level (p : Port) (d : District) (l : Level) (s : State) :
    setFloorBody p [BitVec.ofNat 8 l.number] d s = (targetTaken d (levelHeld p (.seasonFloor d) l s), .withheld) := by
  simp only [setFloorBody, namedLevel_byte, recomputeTarget_spec]
  rfl

theorem setBanLevelBody_level (p : Port) (d : District) (l : Level) (s : State) :
    setBanLevelBody p [BitVec.ofNat 8 l.number] d s =
      (if fireBanActive s = true then targetTaken d (levelHeld p (.banLevel d) l s) else levelHeld p (.banLevel d) l s, .withheld) := by
  simp only [setBanLevelBody, namedLevel_byte, recomputeTarget_spec]
  rfl

/-! ### Their runs -/

theorem setFireRequest_taken {s₀ : State} (taken : Takes .setFireRequest p d.byte [BitVec.ofNat 8 l.number] (listens p s₀)) :
    exec (.setFireRequest p d.byte [BitVec.ofNat 8 l.number]) s₀ =
      .next (respond p .ok [] (targetTaken d (requested p d l (listens p s₀)))) := by
  refine congrArg Host.Outcome.next ((takeRequest_onDistrict s₀ taken rfl).trans ?_)
  rw [setFireRequestBody_level]
  change respond p .ok [] (targetTaken d (receive p (requested p d l (listens p s₀)))) = _
  rw [targetTaken_receive, respond_receive]

theorem setFloor_taken {s₀ : State} (taken : Takes .setFloor p d.byte [BitVec.ofNat 8 l.number] (listens p s₀)) :
    exec (.setFloor p d.byte [BitVec.ofNat 8 l.number]) s₀ =
      .next (withheld .setFloor p d.number (targetTaken d (levelHeld p (.seasonFloor d) l (listens p s₀)))) := by
  refine congrArg Host.Outcome.next ((takeRequest_onDistrict s₀ taken rfl).trans ?_)
  rw [setFloorBody_level]
  change withheld .setFloor p d.number (targetTaken d (receive p (levelHeld p (.seasonFloor d) l (listens p s₀)))) = _
  rw [targetTaken_receive, withheld_receive]

theorem setBanLevel_taken {s₀ : State} (taken : Takes .setBanLevel p d.byte [BitVec.ofNat 8 l.number] (listens p s₀)) :
    exec (.setBanLevel p d.byte [BitVec.ofNat 8 l.number]) s₀ =
      .next (withheld .setBanLevel p d.number
        (if fireBanActive (listens p s₀) = true then targetTaken d (levelHeld p (.banLevel d) l (listens p s₀))
          else levelHeld p (.banLevel d) l (listens p s₀))) := by
  refine congrArg Host.Outcome.next ((takeRequest_onDistrict s₀ taken rfl).trans ?_)
  rw [setBanLevelBody_level]
  change withheld .setBanLevel p d.number
    (if fireBanActive (listens p s₀) = true then targetTaken d (receive p (levelHeld p (.banLevel d) l (listens p s₀)))
      else receive p (levelHeld p (.banLevel d) l (listens p s₀))) = _
  rw [targetTaken_receive]
  split <;> exact withheld_receive .setBanLevel p d.number _

/-- A level request whose owner finds no level is RANGE (R69 to R71). -/
theorem levelRequest_range {s₀ : State} {body : District → State → State × Reply} (taken : Takes q p d.byte payload (listens p s₀))
    (hk : q.targetKind = .district) (refused : ∀ t, body d t = (t, .plain .range)) :
    takeRequest q p d.byte payload (onDistrictTarget d.byte body) s₀ = respond p .range [] (listens p s₀) := by
  rw [takeRequest_onDistrict s₀ taken hk, refused]
  exact respond_receive p .range [] (listens p s₀)

end

end Sys2Proof.Machine

open Sys2Proof Sys2Proof.Machine

/-- Settles O36: each request by its body, the target it hands on by `targetTaken`. -/
theorem districtRequestsSetTheTarget : Obligations.DistrictRequestsSetTheTarget := by
  intro p d l s₀ s x others queued
  refine ⟨fun taken => ?_, fun taken => ?_, fun taken => ?_, fun n hn => ⟨fun taken => ?_, fun taken => ?_, fun taken => ?_⟩⟩
  · have own : (requested p d l s).districts.get d =
        { x with network := if p = .network then l else x.network, panel := if p = .panel then l else x.panel } :=
      PerDistrict.get_set_self _ _ _
    have shell := targetTaken_shell d (requested p d l s)
    refine ⟨_, setFireRequest_taken taken, (targetTaken_network d _).trans (congrArg DistrictState.network own),
      (targetTaken_panel d _).trans (congrArg DistrictState.panel own), ?_, (districtAlone_requested p d l s).targetTaken, shell.store,
      ?_, rfl⟩
    · change ((targetTaken d (requested p d l s)).districts.get d).target.number = highestSource
        ((targetTaken d (requested p d l s)).districts.get d).network ((targetTaken d (requested p d l s)).districts.get d).panel _ _ _
      rw [targetTaken_number, targetTaken_network, targetTaken_panel]
      rfl
    · change PerPort.get ((targetTaken d (requested p d l s)).ports.set p _) p = _
      rw [PerPort.get_set_self, targetTaken_ports]
      rfl
  · let held := levelHeld p (.seasonFloor d) l s
    have shell := targetTaken_shell d held
    refine ⟨_, setFloor_taken taken, ?_, targetTaken_network d held, targetTaken_panel d held, ?_,
      (DistrictAlone.refl d s).targetTaken (a := held),
      levelQueued_withheld shell.store shell.pool rfl fun _ hk => heldContent_levelHeld_floor hk p l s, rfl⟩
    · exact (congrArg (fun st : Store => (st.floors.get d).held) shell.store).trans (levelHeld_floor p d l s)
    · refine (targetTaken_number d held).trans ?_
      rw [levelHeld_floor]
      rfl
  · let held := levelHeld p (.banLevel d) l s
    refine ⟨_, setBanLevel_taken taken, ?_⟩
    by_cases counts : fireBanActive s = true
    · have shell := targetTaken_shell d held
      simp only [s, if_pos counts]
      refine ⟨?_, targetTaken_network d held, targetTaken_panel d held, ?_, (DistrictAlone.refl d s).targetTaken (a := held),
        levelQueued_withheld shell.store shell.pool rfl fun _ hk => heldContent_levelHeld_ban hk p l s, rfl⟩
      · exact (congrArg (fun st : Store => (st.bans.get d).held) shell.store).trans (levelHeld_ban p d l s)
      · refine (targetTaken_number d held).trans ?_
        rw [levelHeld_ban, show fireBanActive held = true from counts]
        rfl
    · simp only [s, if_neg counts]
      exact ⟨levelHeld_ban p d l s, rfl, rfl, rfl, DistrictAlone.refl d s,
        levelQueued_withheld rfl rfl rfl fun _ hk => heldContent_levelHeld_ban hk p l s, rfl⟩
  · exact congrArg Host.Outcome.next (levelRequest_range taken rfl fun t => by simp only [setFireRequestBody, namedLevel_none hn])
  · exact congrArg Host.Outcome.next (levelRequest_range taken rfl fun t => by simp only [setFloorBody, namedLevel_none hn])
  · exact congrArg Host.Outcome.next (levelRequest_range taken rfl fun t => by simp only [setBanLevelBody, namedLevel_none hn])
end

