-- ==== Sys2Proof/Proofs/LevelReads.lean ====
section
/-! PROOFS. What the reads of the feeders, the claims and the fire levels show (R83, R102, R143, R186). -/
namespace Sys2Proof.Machine

/-! ### Queries as the statement writes them -/

/-- A feeder's quiescence, as its condition (R76). -/
theorem quiescent_decide (s : State) (f : Feeder) :
    quiescent s f = decide (s.fitted f = true ∧ (s.feeder f).pickedUp = false ∧
      ((s.feeder f).ar.state = .ready ∨ (s.feeder f).ar.state = .lockout ∨ (s.feeder f).ar.state = .openManual) ∧
      (s.feeder f).inFlight = none ∧ (s.feeder f).lock ≠ .hunt) := by
  have quiet : (s.feeder f).ar.state.quiet = decide ((s.feeder f).ar.state = .ready ∨ (s.feeder f).ar.state = .lockout ∨
      (s.feeder f).ar.state = .openManual) := by cases (s.feeder f).ar.state <;> rfl
  have still : (s.feeder f).inFlight.isNone = decide ((s.feeder f).inFlight = none) := by cases (s.feeder f).inFlight <;> rfl
  have free : (s.feeder f).lock.notHunt = decide ((s.feeder f).lock ≠ .hunt) := by cases (s.feeder f).lock <;> rfl
  simp [quiescent, quiet, still, free, Bool.and_assoc]

/-- A query of a feeder's block set asks its system claims, then its port claims (R85). -/
theorem blockSet_any (s : State) (f : Feeder) (b : ClaimInfo → Bool) :
    (blockSet s f).any b =
      ((SystemClaim.all.any fun n => (s.feeder f).claims.has n && b (.system n)) || (portClaims s f).any fun c => b c.info) := by
  simp [blockSet, List.any_append, List.any_map, List.any_filter, Function.comp_def]

/-- The query "empty" (R99). -/
theorem blockSetEmpty_eq (s : State) (f : Feeder) :
    blockSetEmpty s f = (!(SystemClaim.all.any (s.feeder f).claims.has) && (portClaims s f).isEmpty) := by
  have every : ∀ xs : List ClaimInfo, xs.isEmpty = !xs.any fun _ => true := fun xs => by cases xs <;> rfl
  rw [blockSetEmpty, every, blockSet_any]
  cases portClaims s f <;> simp

/-- A feeder's five system claims and the three queries of its block set (R99). -/
theorem claimStateBytes_eq (s : State) (f : Feeder) :
    claimStateBytes s f =
      let c := (s.feeder f).claims
      let own := s.pool.filter fun c => decide (c.feeder = f)
      beFlag c.fire ++ beFlag c.hunt ++ beFlag c.measure ++ beFlag c.breaker ++ beFlag c.store ++
        beFlag (!(c.fire || c.hunt || c.measure || c.breaker || c.store) && own.isEmpty) ++
        beFlag (c.store || own.any fun k => decide (k.kind = .holdOpen)) ++
        beFlag (c.measure || c.breaker || c.store || !own.isEmpty) := by
  have hold : holdsHoldOpen s f =
      ((s.feeder f).claims.store || (portClaims s f).any fun k => decide (k.kind = .holdOpen)) := by
    rw [holdsHoldOpen, blockSet_any]
    simp [SystemClaim.all, SystemClaims.has, ClaimInfo.kind, SystemClaim.kind, PortClaim.info]
    rfl
  have restore : restoreBlocked s f =
      ((s.feeder f).claims.measure || (s.feeder f).claims.breaker || (s.feeder f).claims.store || !(portClaims s f).isEmpty) := by
    rw [restoreBlocked, blockSet_any]
    cases portClaims s f <;>
      simp [SystemClaim.all, SystemClaims.has, ClaimInfo.blocksRestore, PortClaim.info, Bool.or_assoc]
  simp only [claimStateBytes, hold, restore, blockSetEmpty_eq, SystemClaim.all, List.flatMap_cons, List.flatMap_nil, List.any_cons,
    List.any_nil, SystemClaims.has, Bool.or_false, List.append_nil, List.append_assoc, Bool.or_assoc]
  rfl

/-! ### Fields that a renewed lease leaves -/

theorem namingFeeder_feeder (f : Feeder) (p : Port) (s : State) :
    (namingFeeder f p s).feeder f =
      { s.feeder f with
        lock := match (s.feeder f).lock with
          | .port q d => if q = p then .port p (s.partTime + 300000) else .port q d
          | l => l } := by
  rw [namingFeeder, renewLock_form, State.feeder_onFeeder_self]
  rfl

theorem namingFeeder_store (f : Feeder) (p : Port) (s : State) : (namingFeeder f p s).store = s.store := by
  rw [namingFeeder, renewLock_form]
  rfl

theorem namingFeeder_districts (f : Feeder) (p : Port) (s : State) : (namingFeeder f p s).districts = s.districts := by
  rw [namingFeeder, renewLock_form]
  rfl

theorem commissioning_namingFeeder (f g : Feeder) (p : Port) (s : State) :
    (namingFeeder g p s).commissioning f = s.commissioning f := by
  rw [State.commissioning, namingFeeder_store]
  rfl

theorem targetLevel_namingFeeder (f g : Feeder) (p : Port) (s : State) : targetLevel (namingFeeder g p s) f = targetLevel s f := by
  rw [targetLevel, commissioning_namingFeeder, namingFeeder_districts]
  rfl

/-- A lease that is renewed keeps its holder (R119). -/
theorem quiescent_namingFeeder (f : Feeder) (p : Port) (s : State) : quiescent (namingFeeder f p s) f = quiescent s f := by
  simp only [quiescent, State.fitted, commissioning_namingFeeder, namingFeeder_feeder]
  congr 1
  cases (s.feeder f).lock with
  | port q d => dsimp only; split <;> rfl
  | _ => rfl

theorem fireStateBytes_namingFeeder (f : Feeder) (p : Port) (s : State) :
    fireStateBytes (namingFeeder f p s) f = fireStateBytes s f := by
  simp only [fireStateBytes, loweringPending, targetLevel_namingFeeder, quiescent_namingFeeder, namingFeeder_feeder]

theorem claimStateBytes_namingFeeder (f : Feeder) (p : Port) (s : State) :
    claimStateBytes (namingFeeder f p s) f = claimStateBytes s f := by
  simp only [claimStateBytes_eq, namingFeeder_feeder, namingFeeder_pool]

theorem writePending_namingFeeder (f : Feeder) (p : Port) (s : State) (r : RecordName) :
    writePending (namingFeeder f p s) r = writePending s r := by rw [writePending, namingFeeder_store]; rfl

/-- The lock of the feeder that a request names: its holder, and the lease that the request may just have renewed (R119; log 32). -/
theorem lockBytes_renewed (l : Lock) (p : Port) (d : Nat) :
    (match l with
      | .port q e => if q = p then Lock.port p d else .port q e
      | l => l).bytes =
      be1 l.holder.code ++ beOpt be6 (match l with | .port q e => some (if q = p then d else e) | _ => none) := by
  cases l with
  | port q e =>
    by_cases hq : q = p
    · simp only [hq, if_true]; rfl
    · simp only [hq, if_false]; rfl
  | _ => rfl

/-! ### The fire state -/

/-- A feeder's fire state, each of its fields on the fitted feeder (R83, R186). -/
theorem fireStateBytes_eq (s : State) (f : Feeder) :
    fireStateBytes s f =
      let x := s.feeder f
      let target := targetLevel s f
      be1 target.number ++ beOpt (fun y : FeederFire => be1 y.applied.number) x.fire ++
        beOpt (fun y : FeederFire => beFlag (decide (target.number < y.applied.number))) x.fire ++
        beOpt (fun y : FeederFire => beFlag y.settingsPending) x.fire ++
        beOpt
          (fun _ : FeederFire =>
            beFlag (decide (s.fitted f = true ∧ x.pickedUp = false ∧
              (x.ar.state = .ready ∨ x.ar.state = .lockout ∨ x.ar.state = .openManual) ∧ x.inFlight = none ∧ x.lock ≠ .hunt)))
          x.fire ++
        beOpt (fun _ : FeederFire => beFlag x.claims.fire) x.fire := by
  simp only [fireStateBytes, ← quiescent_decide]
  cases hx : (s.feeder f).fire <;> simp [beOpt, loweringPending, hx]

/-- A request that may name a feeder and names every one renews no lease (R119). -/
theorem renewNamed_every (q : Request) (p : Port) (s : State) : renewNamed q p 0 s = s := by
  have none : q.targetFeeder 0 = none := by cases q <;> rfl
  rw [renewNamed, none]

end Sys2Proof.Machine

open Sys2Proof Sys2Proof.Machine

/-- Settles O27: each read's fields on the state with the lease renewed. -/
theorem feederReadsShowTheState : Obligations.FeederReadsShowTheState := by
  intro p f s₀ s flag level element operation own claimState claim claimRecord fireState pending
  have claimStates : claimState = claimStateBytes s := funext fun g => (claimStateBytes_eq s g).symm
  have fireStates : fireState = fireStateBytes s := funext fun g => (fireStateBytes_eq s g).symm
  refine ⟨fun taken => ?_, fun taken => ?_, fun taken => ?_, fun taken => ?_, fun x hx taken => ?_,
    rfl, rfl, rfl, rfl, rfl, rfl, rfl, rfl, rfl, rfl, rfl⟩
  · refine congrArg Host.Outcome.next ((taken.onFeeder rfl fun f => answerRead fun t => feederFields t f).trans ?_)
    refine congrArg (respond p .ok · (namingFeeder f p s)) ?_
    rw [claimStates, fireStates]
    simp only [feederFields, fireStateBytes_namingFeeder, claimStateBytes_namingFeeder, commissioning_namingFeeder, namingFeeder_feeder,
      lockBytes_renewed, portClaims, namingFeeder_pool, Commissioning.bytes, positionBytes, ArRecord.bytes, shotBytes, ← List.append_assoc]
    rfl
  · refine congrArg Host.Outcome.next ((taken.request _).trans ?_)
    rw [show (0#8 : Byte).toNat = 0 from rfl, renewNamed_every, claimStates]
    refine (respond_receive p .ok _ s).trans (congrArg (respond p .ok · s) ?_)
    exact (List.append_assoc _ _ _).trans rfl
  · refine congrArg Host.Outcome.next ((taken.request _).trans ?_)
    rw [renewNamed_feeder _ p f s (.inr rfl), claimStates]
    refine congrArg (respond p .ok · (namingFeeder f p s)) ?_
    simp only [Feeder.ofNumber_byte, claimsFields, portClaims, namingFeeder_pool, List.flatMap_cons, List.flatMap_nil, List.append_nil,
      claimStateBytes_namingFeeder, writePending_namingFeeder, namingFeeder_store]
    exact (List.append_assoc _ _ _).trans rfl
  · refine congrArg Host.Outcome.next ((taken.plain (.inl rfl) (answerRead fireFields)).trans ?_)
    refine (respond_receive p .ok _ s).trans (congrArg (respond p .ok · s) ?_)
    rw [fireStates]
    rfl
  · refine congrArg Host.Outcome.next ((taken.onFeeder rfl readEffectiveBody).trans ?_)
    rw [readEffectiveBody, namingFeeder_feeder, hx]
    rfl
end

