-- ==== Sys2Proof/Proofs/Poised.lean ====
section
/-! PROOFS. Feeders that wait for nothing while they are quiescent (R76, R77): what that is read of, and how a change of one feeder that is
followed by its judgement keeps it. -/
namespace Sys2Proof.Machine

/-! ### What is read of a feeder -/

/-- The feeder's part in its quiescence (R76). -/
def FeederState.idle (x : FeederState) : Bool := !x.pickedUp && x.ar.state.quiet && x.inFlight.isNone && x.lock.notHunt

theorem quiescent_eq (s : State) (f : Feeder) : quiescent s f = (s.fitted f && (s.feeder f).idle) := by
  simp only [quiescent, FeederState.idle, Bool.and_assoc]

/-- A quiescent feeder waits for nothing (R77). -/
def Served (s : State) (f : Feeder) : Prop := quiescent s f = true → NothingPending s f

/-- A feeder's levels are sound, and its effective settings are the stored ones unless settings are pending (R73, R78). -/
def Loaded (s : State) (f : Feeder) : Prop :=
  FeederLevelsSound s f ∧
    ∀ x, (s.feeder f).fire = some x → x.settingsPending = false → x.effective = s.effectiveFor f x.applied

/-- Every feeder is loaded, and every one that is not owed a judgement is served. -/
def Poised (owed : Feeder → Prop) (s : State) : Prop := (∀ f, Loaded s f) ∧ ∀ f, ¬ owed f → Served s f

/-- No feeder. -/
def nobody (_ : Feeder) : Prop := False

/-- With sound levels, the state R77 describes is the one in which every feeder is loaded and served. -/
theorem quiescentSound_iff {s : State} (levels : ∀ f, FeederLevelsSound s f) : QuiescentSound s ↔ Poised nobody s := by
  have waits : ∀ {f x}, (s.feeder f).fire = some x →
      (NothingPending s f ↔ x.applied = targetLevel s f ∧ x.settingsPending = false) := fun {f x} hx => by
    rw [nothingPending_iff hx, and_congr_left_iff]
    exact fun _ => ⟨fun low => Level.eq_of_number_eq (Nat.le_antisymm low ((levels f).fire hx).2), fun e => e ▸ Nat.le_refl _⟩
  constructor
  · intro h
    refine ⟨fun f => ⟨levels f, fun x hx => (h f x hx).1⟩, fun f _ quiet => ?_⟩
    cases hx : (s.feeder f).fire with
    | none => exact nothingPending_unfitted hx
    | some x => exact (waits hx).2 ((h f x hx).2 quiet)
  · exact fun h f x hx => ⟨(h.1 f).2 x hx, fun quiet => (waits hx).1 (h.2 f not_false quiet)⟩

/-- What is read of the records and targets for one feeder in its fire state stands as in another state. -/
structure SamePlan (s t : State) (f : Feeder) : Prop where
  record : t.commissioning f = s.commissioning f
  target : targetLevel t f = targetLevel s f
  effective : ∀ x, (s.feeder f).fire = some x → t.effectiveFor f x.applied = s.effectiveFor f x.applied

theorem samePlan_of_records {s t : State} (records : t.store.commissioning = s.store.commissioning) (groups : t.store.groups = s.store.groups)
    (u1 : t.store.curveU1 = s.store.curveU1) (u2 : t.store.curveU2 = s.store.curveU2) (districts : t.districts = s.districts) (f : Feeder) :
    SamePlan s t f where
  record := by rw [State.commissioning, records]; rfl
  target := by rw [targetLevel, State.commissioning, records, districts]; rfl
  effective := fun _ _ => effectiveFor_congr groups u1 u2

theorem samePlan_of_store {s t : State} (store : t.store = s.store) (districts : t.districts = s.districts) (f : Feeder) : SamePlan s t f :=
  samePlan_of_records (by rw [store]) (by rw [store]) (by rw [store]) (by rw [store]) districts f

section
variable {s t : State} {f : Feeder} {owed : Feeder → Prop}

theorem Loaded.congr (h : Loaded s f) (plan : SamePlan s t f) (fire : (t.feeder f).fire = (s.feeder f).fire) : Loaded t f := by
  refine ⟨?_, fun x hx kept => ?_⟩
  · have levels := h.1
    unfold FeederLevelsSound State.fitted at *
    rwa [fire, plan.record, plan.target]
  · rw [plan.effective x (fire ▸ hx)]
    exact h.2 x (fire ▸ hx) kept

/-- A change of a feeder that leaves its fire state and makes it no more idle than it was. -/
structure Busier (x y : FeederState) : Prop where
  fire : y.fire = x.fire
  idle : y.idle = true → x.idle = true

theorem Busier.refl (x : FeederState) : Busier x x := ⟨rfl, id⟩

theorem Served.congr (h : Served s f) (plan : SamePlan s t f) (busier : Busier (s.feeder f) (t.feeder f)) : Served t f := by
  intro quiet
  have before : quiescent s f = true := by
    rw [quiescent_eq, Bool.and_eq_true] at quiet ⊢
    exact ⟨(congrArg Commissioning.fitted plan.record).symm.trans quiet.1, busier.idle quiet.2⟩
  obtain ⟨level, settings⟩ := h before
  refine ⟨?_, ?_⟩
  · rw [loweringPending, busier.fire, plan.target]
    exact level
  · rw [settingsPending, busier.fire]
    exact settings

/-- With nothing pending a feeder is served, whatever it does. -/
theorem NothingPending.served (h : NothingPending s f) : Served s f := fun _ => h

/-- With no fire state a feeder is served. -/
theorem served_of_none (h : (s.feeder f).fire = none) : Served s f := (nothingPending_unfitted h).served

theorem Poised.congr (h : Poised owed s) (plan : ∀ f, SamePlan s t f) (busier : ∀ f, Busier (s.feeder f) (t.feeder f)) :
    Poised owed t :=
  ⟨fun f => (h.1 f).congr (plan f) (busier f).fire, fun f hf => (h.2 f hf).congr (plan f) (busier f)⟩

/-- The feeders are poised through a change of anything but the feeders, the store and the districts. -/
theorem Poised.same (h : Poised owed s) (feeders : t.feeders = s.feeders := by rfl) (store : t.store = s.store := by rfl)
    (districts : t.districts = s.districts := by rfl) : Poised owed t :=
  h.congr (samePlan_of_store store districts) fun f => by
    rw [show t.feeder f = s.feeder f from congrArg (PerFeeder.get · f) feeders]
    exact .refl _

theorem Poised.offer (h : Poised owed s) (p : Port) (ev : Event) : Poised owed (Machine.offer p ev s) :=
  h.same (offer_feeders ..) (offer_store ..) (offer_districts ..)

/-- The feeders are poised through a change of one that makes it no more idle. -/
theorem Poised.onFeeder (h : Poised owed s) (f : Feeder) (g : FeederState → FeederState) (busier : Busier (s.feeder f) (g (s.feeder f))) :
    Poised owed (s.onFeeder f g) := by
  refine h.congr (samePlan_of_store rfl rfl) fun k => ?_
  by_cases hk : k = f
  · subst hk; rwa [State.feeder_onFeeder_self]
  · rw [State.feeder_onFeeder_of_ne _ hk]
    exact .refl _

/-! ### A feeder that is owed a judgement -/

/-- These feeders, and this one. -/
def orElse (owed : Feeder → Prop) (f : Feeder) (g : Feeder) : Prop := owed g ∨ g = f

/-- A feeder may be owed a judgement that it needs not. -/
theorem Poised.owing (h : Poised owed s) (f : Feeder) : Poised (orElse owed f) s := ⟨h.1, fun g hg => h.2 g fun k => hg (.inl k)⟩

/-- A feeder that is served is owed nothing. -/
theorem Poised.settled (h : Poised (orElse owed f) s) (served : ¬ owed f → Served s f) : Poised owed s := by
  refine ⟨h.1, fun g hg => ?_⟩
  by_cases e : g = f
  · subst e; exact served hg
  · exact h.2 g (not_or.2 ⟨hg, e⟩)

/-- A feeder that is owed a judgement may do anything that leaves its fire state. -/
theorem Poised.freely (h : Poised (orElse owed f) s) (g : FeederState → FeederState) (fire : (g (s.feeder f)).fire = (s.feeder f).fire) :
    Poised (orElse owed f) (s.onFeeder f g) := by
  have plan := samePlan_of_store (s := s) (t := s.onFeeder f g) rfl rfl
  refine ⟨fun k => (h.1 k).congr (plan k) ?_, fun k hk => (h.2 k hk).congr (plan k) ?_⟩
  · by_cases e : k = f
    · subst e; rw [State.feeder_onFeeder_self, fire]
    · rw [State.feeder_onFeeder_of_ne _ e]
  · rw [State.feeder_onFeeder_of_ne _ fun e => hk (.inr e)]
    exact .refl _

/-- A fitted feeder is loaded by a reload at a level not below its target (R79). -/
theorem loaded_of_fire {l : Level} (fitted : s.fitted f = true) (level : (targetLevel s f).number ≤ l.number)
    (fire : (s.feeder f).fire = some { applied := l, settingsPending := false, effective := s.effectiveFor f l }) : Loaded s f := by
  refine ⟨?_, fun x hx _ => ?_⟩
  · unfold FeederLevelsSound
    rw [fire]
    exact ⟨fitted, level⟩
  · cases fire.symm.trans hx
    rfl

/-- A feeder that is owed a judgement may be reloaded at a level not below its target. -/
theorem Poised.load (h : Poised (orElse owed f) s) {l : Level} {x : FeederFire} (hx : (s.feeder f).fire = some x)
    (level : (targetLevel s f).number ≤ l.number) : Poised (orElse owed f) (loadEffective f l s) := by
  have plan := samePlan_of_store (s := s) (t := loadEffective f l s) rfl rfl
  have other : ∀ k, k ≠ f → (loadEffective f l s).feeder k = s.feeder k := fun k hk => State.feeder_onFeeder_of_ne _ hk _
  refine ⟨fun k => ?_, fun k hk => (h.2 k hk).congr (plan k) (other k (fun e => hk (.inr e)) ▸ .refl _)⟩
  by_cases e : k = f
  · subst e
    exact loaded_of_fire (s := loadEffective k l s) ((h.1 k).1.fire hx).1 level (congrArg FeederState.fire (State.feeder_onFeeder_self ..))
  · exact (h.1 k).congr (plan k) (by rw [other k e])

end

/-- What the engine does at a feeder that is owed a judgement leaves every other as it is. -/
theorem poised_owing (owed : Feeder → Prop) (f : Feeder) : EngineKeeps (fun g => g = f) (Poised (orElse owed f)) where
  still := fun s g own k hk h => by cases own.out; exact h.freely k (by rw [Still] at hk; rw [hk])
  claim := fun s g own n on _ h => by cases own.out; exact h.freely _ rfl
  level := fun s g own fitted h => by
    cases own.out
    obtain ⟨x, hx⟩ := Option.isSome_iff_exists.1 fitted
    exact h.load hx (Nat.le_refl _)
  reload := fun s g own x hx h => by cases own.out; exact h.load hx ((h.1 f).1.fire hx).2
  offer := fun _ p ev h => h.offer p ev
  hunt := fun _ _ h => h.same
  quiet := fun s g own k hk h => by cases own.out; exact h.freely k hk.fire
  endOp := fun s g own h => by cases own.out; exact h.freely _ rfl
  trip := fun s g own _ _ _ h => by cases own.out; exact h.freely _ rfl
  close := fun s g own _ _ _ _ h => by cases own.out; exact h.freely _ rfl
  join := fun s g own _ _ _ _ _ h => by cases own.out; exact h.freely _ rfl
  opId := fun _ h => h.same
  detector := fun _ _ h => h.same
  lastHunt := fun _ _ h => h.same

section
variable {s : State} {f : Feeder} {owed : Feeder → Prop}

/-- The feeder that an argument is about. -/
theorem thisFeeder (f : Feeder) : Fact (f = f) := ⟨rfl⟩

/-- A judgement serves its feeder (R77). -/
theorem served_judge (s : State) (f : Feeder) : Served (judge f s) f := by
  by_cases waits : quiescent s f = true ∧ ¬ NothingPending s f
  · obtain ⟨quiet, waits⟩ := waits
    refine NothingPending.served ?_
    cases hx : (s.feeder f).fire with
    | none => exact absurd (nothingPending_unfitted hx) waits
    | some x =>
      rw [judge_applies hx quiet waits]
      split
      · exact reloaded_nothing hx _ rfl
      · next high =>
        have plan := samePlan_of_store (reloaded_store f x.applied .commit s) (reloaded_districts f x.applied .commit s) f
        refine (nothingPending_iff (reloaded_fire hx _ _)).2 ⟨?_, rfl⟩
        rw [plan.target]
        exact Nat.le_of_not_lt high
  · have still : judge f s = s := by
      by_cases quiet : quiescent s f = true
      · exact judge_nothing (not_not.1 fun w => waits ⟨quiet, w⟩)
      · exact judge_unquiet (Bool.eq_false_iff.2 quiet)
    rw [still]
    exact fun quiet => not_not.1 fun w => waits ⟨quiet, w⟩

/-- The judgement that a feeder is owed poises it. -/
theorem Poised.judge (h : Poised (orElse owed f) s) : Poised owed (Machine.judge f s) :=
  haveI := thisFeeder f
  ((poised_owing owed f).judge s f h).settled fun _ => served_judge s f

theorem Poised.judgeAgain (h : Poised owed s) (f : Feeder) : Poised owed (Machine.judge f s) := (h.owing f).judge

end

end Sys2Proof.Machine
end

