-- ==== Sys2Proof/Proofs/WholeSteps.lean ====
section
/-! PROOFS. What the hunt does to the feeders it does by whole operations of the switching units and the claim table, each with its
judgement: a property that these keep, and that reads nothing of the hunt's own record, is kept by the hunt. -/
namespace Sys2Proof.Machine

/-- The property is kept by entries, by changes of the hunt's record, the detector, the last hunt's report and the op ids, and by the whole
operations through which the hunt reaches a feeder. -/
structure WholeKeeps (P : State → Prop) : Prop extends SwitchKeeps (fun _ => False) P where
  askTrip : ∀ s f o permit, P s → P (requestTrip f o permit s).1
  askClose : ∀ s f, P s → P (requestHuntClose f s).1
  takeLock : ∀ s t f, huntTakeLock f s = some t → P s → P t
  dropLock : ∀ s f, P s → P (huntDropLock f s)
  placeClaim : ∀ s f, P s → P (placeSystemClaim f .hunt s)

variable {P : State → Prop}

/-! ### The hunt's steps -/

theorem WholeKeeps.tripCandidate (k : WholeKeeps P) (i : Nat) (f : Feeder) {s : State} (h : P s) : P (tripCandidate i f s).1 := by
  have entered := k.setHuntState .trialOpen {} _ (k.onHunt (fun r => { r with current := some i, resume := none }) _ h)
  unfold Machine.tripCandidate
  dsimp only
  split
  · exact k.concludeCandidate _ _ _ entered
  · next u locked =>
    have asked := k.askTrip u f .hunt none (k.takeLock _ u f locked entered)
    split
    · exact k.onHunt _ _ asked
    · exact k.onHunt _ _ asked
    · exact k.dropLock _ _ (k.concludeCandidate _ _ _ asked)
    · exact k.dropLock _ _ (k.concludeCandidate _ _ _ asked)

theorem WholeKeeps.nextCandidate (k : WholeKeeps P) {s : State} (h : P s) : P (nextCandidate s).1 := by
  have turn : ∀ i f, P (candidateTurn i f s).1 := fun i f => by
    unfold candidateTurn
    dsimp only
    split_ifs
    · exact k.concludeCandidate _ _ _ h
    · exact k.concludeCandidate _ _ _ h
    · exact k.concludeCandidate _ _ _ h
    · exact k.tripCandidate i f h
  unfold Machine.nextCandidate
  split
  · exact h
  split
  · exact h
  split
  · exact k.onHunt _ _ h
  split_ifs
  · exact k.suspendHunt _ _ h
  · exact k.onHunt _ _ h
  · split
    · exact turn _ _
    · exact h

theorem WholeKeeps.concludeRestore (k : WholeKeeps P) (f : Feeder) (healthy : Bool) {s : State} (h : P s) :
    P (concludeRestore f healthy s).1 := by
  unfold Machine.concludeRestore
  split
  · exact h
  split
  · exact k.dropLock _ _ (k.concludeCandidate _ _ _ h)
  · exact k.dropLock _ _ (k.onHunt _ _ (k.onHunt _ _ h))

theorem WholeKeeps.endStep (k : WholeKeeps P) {s : State} (h : P s) : P (endStep s) := k.onHunt _ _ h

theorem WholeKeeps.restoreFeeder (k : WholeKeeps P) (f : Feeder) {s : State} (h : P s) : P (restoreFeeder f s).1 := by
  have asked := k.askClose _ f (k.setHuntState .trialRestore {} _ (k.endStep h))
  unfold Machine.restoreFeeder
  dsimp only
  split
  · exact k.onHunt _ _ asked
  all_goals exact k.concludeRestore f _ asked

theorem WholeKeeps.restoreIdentified (k : WholeKeeps P) (f : Feeder) {s : State} (h : P s) : P (restoreIdentified f s).1 := by
  have unrestored : ∀ o, P (outcomeWithoutRestore f (setEndRestore o) s).1 := fun o => k.dropLock _ f (k.onHunt _ _ h)
  unfold Machine.restoreIdentified
  dsimp only
  split
  · exact unrestored _
  split
  · exact unrestored _
  · exact unrestored _
  · exact unrestored _
  · split
    · exact unrestored _
    · next u locked => exact k.restoreFeeder f (k.takeLock _ u f locked h)

theorem WholeKeeps.finishHunt (k : WholeKeeps P) (vn : Option Nat) {s : State} (h : P s) : P (finishHunt vn s).1 := by
  unfold Machine.finishHunt
  split
  · exact h
  split
  · exact h
  split
  · exact k.becomeIdle _ _ _ _ h
  split
  · split
    · exact k.restoreFeeder _ h
    · exact k.dropLock _ _ (k.concludeCandidate _ _ _ h)
  · split
    · exact k.restoreIdentified _ h
    · exact k.becomeIdle _ _ _ _ h

/-- Whatever the hunt does at once from a step keeps the property. -/
theorem WholeKeeps.huntSettle (k : WholeKeeps P) (vn : Option Nat) {x : State × HuntGo} (h : P x.1) : P (huntSettle vn x) := by
  have step : ∀ g s, P s → P (huntStep vn g s).1 := fun g s hs => by
    cases g with
    | wait => exact hs
    | trialEntry sums cause => exact k.trialEntry _ _ _ hs
    | boundary => exact k.nextCandidate hs
    | finish => exact k.finishHunt vn hs
  have run : ∀ n (x : State × HuntGo), P x.1 → P (huntRun vn n x) := fun n => by
    induction n with
    | zero => exact fun _ hx => hx
    | succ n ih =>
      rintro ⟨s, g⟩ hs
      unfold huntRun
      split
      · exact hs
      · exact ih _ (step g s hs)
  exact run _ x h

/-! ### What reaches the hunt -/

theorem WholeKeeps.foundOn (k : WholeKeeps P) (f : Feeder) (r : HuntResult) {s : State} (h : P s) : P (foundOn f r s).1 :=
  k.dropLock _ _ (k.placeClaim _ _ (k.onHunt _ _ (k.endStep h)))

theorem WholeKeeps.isolateDone (k : WholeKeeps P) (r : HuntRun) (f : Feeder) (o : OpOutcome) {s : State} (h : P s) :
    P (isolateDone r f o s).1 := by
  have ended := k.onHunt (fun r => { r with op := none }) s h
  have dropped := fun o : IsolateOutcome => k.dropLock _ f (k.onHunt
    (fun r => { r with identified := r.identified.map fun i => { i with isolate := o } }) _ (k.endStep ended))
  unfold Machine.isolateDone
  dsimp only
  by_cases ho : o = .done
  · rw [if_pos ho]
    split_ifs
    · exact k.foundOn _ _ (k.onHunt _ _ ended)
    · exact k.endStep ended
    · exact k.setHuntState _ _ _ (k.onHunt _ _ (k.endStep ended))
  · rw [if_neg ho]
    split
    · exact dropped _
    split
    · exact k.onHunt _ _ (dropped _)
    · exact dropped _

theorem WholeKeeps.trialTripDone (k : WholeKeeps P) (r : HuntRun) (i : Nat) (f : Feeder) (o : OpOutcome) {s : State} (h : P s) :
    P (trialTripDone r i f o s).1 := by
  have ended := k.onHunt (fun r => { r with op := none }) s h
  unfold Machine.trialTripDone
  dsimp only
  split_ifs
  · exact k.restoreFeeder _ ended
  · exact k.setHuntState _ _ _ (k.onHunt _ _ ended)
  · exact k.dropLock _ _ (k.concludeCandidate _ _ _ ended)

theorem WholeKeeps.huntOpDone (k : WholeKeeps P) (f : Feeder) (id : Nat) (kind : OpKind) (o : OpOutcome) (sup : Option Origin) {s : State}
    (h : P s) : P (huntOpDone f id kind o sup s).1 := by
  unfold Machine.huntOpDone
  split
  · exact h
  split
  · exact h
  split
  · split
    · exact k.isolateDone _ _ _ h
    · exact k.trialTripDone _ _ _ _ h
    · exact k.concludeRestore _ _ h
    · exact h
  · exact h

/-- The notices of a completion keep the property (R114). -/
theorem WholeKeeps.deliver (k : WholeKeeps P) (vn : Option Nat) (ns : List HuntNotice) {s : State} (h : P s) : P (deliver vn ns s) := by
  refine foldl_keeps P _ (fun u n hu => ?_) _ _ h
  cases n with
  | opDone f id kind o sup => exact k.huntSettle _ (k.huntOpDone _ _ _ _ _ hu)
  | protectionTripDone f => exact k.huntProtectionTrip _ _ hu

theorem WholeKeeps.huntDropout (k : WholeKeeps P) {s : State} (h : P s) : P (huntDropout s).1 := by
  have ended := fun r => k.onHunt (fun x => { x with pendingResult := some r, pendingSuspend := false }) _ (k.endStep h)
  unfold Machine.huntDropout
  split
  · exact h
  split
  · exact h
  · exact ended _
  · exact k.onHunt _ _ h
  · split
    · exact h
    split
    · exact k.foundOn _ _ (k.onHunt _ _ h)
    · exact k.dropLock _ _ (k.onHunt _ _ (ended _))
  · exact k.setPendingIfNone _ _ h
  · split
    · split_ifs
      · exact k.setHuntState _ _ _ (ended _)
      · exact ended _
      · exact k.foundOn _ _ (k.onHunt _ _ (k.onHunt _ _ h))
    · exact h
  · exact k.setPendingIfNone _ _ h
  · exact k.onHunt _ _ h

theorem WholeKeeps.confirmExpired (k : WholeKeeps P) (r : HuntRun) {s : State} (h : P s) : P (confirmExpired r s).1 := by
  unfold Machine.confirmExpired
  split
  · exact h
  · exact k.dropLock _ _ (k.onHunt _ _ (k.endStep h))

theorem WholeKeeps.enterIsolate (k : WholeKeeps P) (f : Feeder) (w : Nat × Nat × Option Feeder) {s : State} (h : P s) :
    P (enterIsolate f w s).1 := by
  have entered := k.setHuntState .isolate { sums := some w } _ (k.onHunt
    (fun r => { r with identified := some { feeder := f, isolate := .opened, endRestore := none }, dropoutSeen := some false }) _ (k.endStep h))
  have skipped := fun (o : IsolateOutcome) {u : State} (hu : P u) => k.endStep
    (k.onHunt (fun r => { r with identified := r.identified.map fun i => { i with isolate := o } }) u hu)
  unfold Machine.enterIsolate
  dsimp only
  split
  · exact skipped _ entered
  split
  · exact skipped _ entered
  · next u locked =>
    have asked := k.askTrip u f .hunt none (k.takeLock _ u f locked entered)
    split
    · exact k.onHunt _ _ asked
    · exact k.onHunt _ _ asked
    · exact k.dropLock _ _ (skipped _ asked)
    · exact k.dropLock _ _ (skipped _ asked)

theorem WholeKeeps.countFrame (k : WholeKeeps P) (rs : PerFeeder ScoredRecord) {s : State} (h : P s) : P (countFrame rs s).1 := by
  have ended : ∀ r w {u : State}, P u → P (endWindow r w u).1 := fun r w u hu => by
    unfold endWindow
    dsimp only
    split
    · split
      · exact k.enterIsolate _ _ (k.onHunt _ _ hu)
      · exact k.onHunt _ _ hu
    · exact k.onHunt _ _ hu
  unfold Machine.countFrame
  split
  · exact h
  split
  · dsimp only
    split
    · exact ended _ _ (k.onHunt _ _ h)
    · exact k.onHunt _ _ h
  · exact h

theorem WholeKeeps.detectorFrame (k : WholeKeeps P) (vn : Nat) (valid : Bool) (interval : Nat) {s : State} (h : P s) :
    P (detectorFrame vn valid interval s) := by
  have moved := fun d => k.detector s d h
  unfold Machine.detectorFrame
  dsimp only
  split
  · exact h
  split
  · split
    · exact k.huntSettle _ (k.startHunt _ _ (k.broadcast _ _ (moved _)))
    · exact k.broadcast _ _ (moved _)
  split
  · refine k.huntSettle _ (k.huntDropout ?_)
    split
    · exact moved _
    · exact k.broadcast _ _ (moved _)
  · exact moved _

/-- A frame that reaches the hunt unit keeps the property (R145 to R151). -/
theorem WholeKeeps.huntFrame (k : WholeKeeps P) (fr : MeasFrame) {s : State} (h : P s) : P (huntFrame fr s) := by
  unfold Machine.huntFrame
  dsimp only
  split
  · exact k.huntSettle _ (k.countFrame _ (k.detectorFrame _ _ _ h))
  · exact k.detectorFrame _ _ _ h

theorem WholeKeeps.resumeFrom (k : WholeKeeps P) (r : HuntRun) {s : State} (h : P s) : P (resumeFrom r s).1 := by
  have resumed := k.onHunt (fun r => { r with resume := none }) s h
  unfold Machine.resumeFrom
  dsimp only
  split
  · split
    · exact k.setHuntState _ _ _ (k.beginWindow _ resumed)
    · exact resumed
  all_goals exact resumed

end Sys2Proof.Machine
end

