-- ==== Sys2Proof/Proofs/PoisedUnits.lean ====
section
/-! PROOFS. The sequencers, the claim table and the switching units leave the feeders poised: what they do to a feeder they end with its
judgement, or leave it no more idle than it was (R76, R77, R114, R124). -/
namespace Sys2Proof.Machine

/-! ### Moves of a sequencer -/

/-- What a feeder's sequencer and its claims do: they change its sequencer record and its claims alone. -/
structure SeqMove (f : Feeder) (s t : State) : Prop where
  own : t.feeder f = { s.feeder f with ar := (t.feeder f).ar, claims := (t.feeder f).claims }
  others : ∀ g, g ≠ f → t.feeder g = s.feeder g
  store : t.store = s.store
  districts : t.districts = s.districts

section
variable {f : Feeder} {s t u : State}

theorem SeqMove.refl (f : Feeder) (s : State) : SeqMove f s s := ⟨rfl, fun _ _ => rfl, rfl, rfl⟩

theorem SeqMove.trans (h : SeqMove f s t) (k : SeqMove f t u) : SeqMove f s u where
  own := by
    have own := k.own
    rw [h.own] at own
    exact own
  others := fun g hg => (k.others g hg).trans (h.others g hg)
  store := k.store.trans h.store
  districts := k.districts.trans h.districts

theorem seqMove_broadcast (f : Feeder) (ev : Event) (s : State) : SeqMove f s (broadcast ev s) where
  own := by rw [feeder_broadcast]
  others := fun g _ => feeder_broadcast ev s g
  store := broadcast_store ev s
  districts := broadcast_districts ev s

theorem seqMove_onFeeder (f : Feeder) (g : FeederState → FeederState) (s : State)
    (own : g (s.feeder f) = { s.feeder f with ar := (g (s.feeder f)).ar, claims := (g (s.feeder f)).claims } := by rfl) :
    SeqMove f s (s.onFeeder f g) where
  own := by rw [State.feeder_onFeeder_self]; exact own
  others := fun _ hg => State.feeder_onFeeder_of_ne _ hg _
  store := rfl
  districts := rfl

theorem seqMove_arMove (f : Feeder) (new : ArRecord) (c : ArCause) (d : LockoutDetail) (s : State) : SeqMove f s (arMove f new c d s) := by
  have moved := seqMove_onFeeder f (fun x => { x with ar := new }) s
  unfold arMove
  dsimp only
  split
  · exact moved
  · refine SeqMove.trans ?_ (seqMove_broadcast f _ _)
    split
    · exact moved.trans (seqMove_broadcast f _ _)
    · exact moved

theorem seqMove_judgeSequence (f : Feeder) (permit : Option Bool) (s : State) : SeqMove f s (judgeSequence f permit s) := by
  unfold judgeSequence
  dsimp only
  split_ifs <;> exact seqMove_arMove f _ _ _ s

theorem seqMove_seqTripCompletion (f : Feeder) (c : Completed) (s : State) : SeqMove f s (seqTripCompletion f c s) := by
  have protection : ∀ (b : Bool) {t u : State}, SeqMove f s t → SeqMove f s u → SeqMove f s (if b then t else u) := fun b _ _ ht hu => by
    cases b
    · exact hu
    · exact ht
  have still := SeqMove.refl f s
  have lockout : ∀ c d, SeqMove f s (toLockout f c d s) := fun _ _ => seqMove_arMove f _ _ _ s
  have manual : SeqMove f s (toOpenManual f s) := seqMove_arMove f _ _ _ s
  have judged := seqMove_judgeSequence f c.op.permit s
  unfold seqTripCompletion
  dsimp only
  split
  · exact still
  · exact still
  · exact protection _ still manual
  · exact protection _ (lockout _ _) still
  · exact protection _ (lockout _ _) manual
  · exact protection _ judged manual
  · exact protection _ judged manual
  · exact protection _ judged manual
  · exact protection _ still manual
  · exact still
  · exact still
  · exact still
  · exact lockout _ _
  · exact still

theorem seqMove_seqRecloseCompletion (f : Feeder) (c : Completed) (s : State) : SeqMove f s (seqRecloseCompletion f c s) := by
  have own : ∀ {p : Prop} [Decidable p] {t : State}, SeqMove f s t → SeqMove f s (if p then t else s) := fun ht => by
    split
    · exact ht
    · exact SeqMove.refl f s
  unfold seqRecloseCompletion
  dsimp only
  split
  · exact SeqMove.refl f s
  · split
    · exact own (seqMove_arMove f _ _ _ s)
    · exact own (seqMove_arMove f _ _ _ s)
    · exact own (seqMove_arMove f _ _ _ s)
    · exact own (seqMove_onFeeder f _ s)

theorem seqMove_seqCloseCompletion (f : Feeder) (c : Completed) (s : State) : SeqMove f s (seqCloseCompletion f c s) := by
  unfold seqCloseCompletion
  split <;> first | exact SeqMove.refl f s | exact seqMove_arMove f _ _ _ s

theorem seqMove_seqCompletion (f : Feeder) (c : Completed) (s : State) : SeqMove f s (seqCompletion f c s) := by
  unfold seqCompletion
  split
  · exact seqMove_seqTripCompletion f c s
  · split
    · exact seqMove_seqRecloseCompletion f c s
    · exact seqMove_seqCloseCompletion f c s

theorem seqMove_seqExternalOpen (f : Feeder) (s : State) : SeqMove f s (seqExternalOpen f s) := by
  unfold seqExternalOpen
  split <;> first | exact SeqMove.refl f s | exact seqMove_arMove f _ _ _ s

theorem seqMove_seqExternalClose (f : Feeder) (s : State) : SeqMove f s (seqExternalClose f s) := by
  unfold seqExternalClose
  split <;> first | exact SeqMove.refl f s | exact seqMove_arMove f _ _ _ s

theorem seqMove_seqStartPosition (f : Feeder) (s : State) : SeqMove f s (seqStartPosition f s) := by
  unfold seqStartPosition
  split
  · exact seqMove_arMove f _ _ _ s
  · exact SeqMove.refl f s

theorem seqMove_claimEntered (f : Feeder) (c : ClaimInfo) (s : State) : SeqMove f s (claimEntered f c s) := by
  refine (seqMove_broadcast f (.claimPlaced f c) s).trans ?_
  unfold claimEntered seqClaimEntry
  split
  · exact seqMove_arMove f _ _ _ _
  · exact SeqMove.refl f _

theorem seqMove_setSystemClaim (f : Feeder) (n : SystemClaim) (on : Bool) (s : State) : SeqMove f s (setSystemClaim f n on s) := by
  have put := seqMove_onFeeder f (fun x => { x with claims := x.claims.put n on }) s
  unfold setSystemClaim
  dsimp only
  split
  · exact SeqMove.refl f s
  · split
    · exact put.trans (seqMove_claimEntered f _ _)
    · exact put.trans (seqMove_broadcast f _ _)

theorem SeqMove.plan (h : SeqMove f s t) (g : Feeder) : SamePlan s t g := samePlan_of_store h.store h.districts g

theorem SeqMove.fire (h : SeqMove f s t) (g : Feeder) : (t.feeder g).fire = (s.feeder g).fire := by
  by_cases e : g = f
  · subst e; rw [h.own]
  · rw [h.others g e]

/-- A move that leaves the AR state leaves what a feeder's quiescence is read of (R76). -/
theorem SeqMove.busier (h : SeqMove f s t) (still : (t.feeder f).ar.state = (s.feeder f).ar.state) (g : Feeder) :
    Busier (s.feeder g) (t.feeder g) := by
  refine ⟨h.fire g, fun idle => ?_⟩
  by_cases e : g = f
  · subst e
    have same : (t.feeder g).idle = (s.feeder g).idle := by
      unfold FeederState.idle
      rw [still, h.own]
    exact same ▸ idle
  · rwa [h.others g e] at idle

end

section
variable {owed : Feeder → Prop} {f : Feeder} {s t : State}

theorem Poised.moved (h : Poised owed s) (move : SeqMove f s t) : Poised (orElse owed f) t :=
  ⟨fun g => (h.1 g).congr (move.plan g) (move.fire g), fun g hg => (h.2 g fun k => hg (.inl k)).congr (move.plan g) (by
    rw [move.others g fun e => hg (.inr e)]
    exact .refl _)⟩

theorem Poised.still (h : Poised owed s) (move : SeqMove f s t) (same : (t.feeder f).ar.state = (s.feeder f).ar.state) : Poised owed t :=
  h.congr move.plan (move.busier same)

/-- A move of a sequencer is followed by a judgement when the AR state changes (R76, R124). -/
theorem Poised.judged (h : Poised owed s) (act : State → State) (move : SeqMove f s (act s)) : Poised owed (Machine.judged f act s) := by
  unfold Machine.judged
  dsimp only
  split
  · next same => exact h.still move same
  · exact (h.moved move).judge

/-! ### Claims -/

theorem Poised.placeSystemClaim (h : Poised owed s) (f : Feeder) (n : SystemClaim) : Poised owed (Machine.placeSystemClaim f n s) :=
  h.judged _ (seqMove_setSystemClaim f n true s)

/-- A claim that is removed moves no sequencer (R100). -/
theorem Poised.removeSystemClaim (h : Poised owed s) (f : Feeder) (n : SystemClaim) : Poised owed (Machine.removeSystemClaim f n s) := by
  refine h.still (seqMove_setSystemClaim f n false s) ?_
  rw [Machine.removeSystemClaim, setSystemClaim_false, withoutClaim]
  split
  · rw [feeder_broadcast, State.feeder_onFeeder_self]
  · rfl

theorem Poised.broadcast (h : Poised owed s) (ev : Event) : Poised owed (Machine.broadcast ev s) :=
  h.same (broadcast_feeders ..) (broadcast_store ..) (broadcast_districts ..)

/-! ### Locks -/

/-- A lock that changes hands without the hunt's giving it up makes no feeder idle (R118). -/
theorem Poised.changeLock (h : Poised owed s) (f : Feeder) (l : Lock) (c : LockCause)
    (held : l.notHunt = true → (s.feeder f).lock.notHunt = true) : Poised owed (Machine.changeLock f l c s) := by
  refine (h.onFeeder f (fun x => { x with lock := l }) ⟨rfl, fun idle => ?_⟩).broadcast _
  simp only [FeederState.idle, Bool.and_eq_true] at idle ⊢
  exact ⟨idle.1, held idle.2⟩

theorem Poised.renewLock (h : Poised owed s) (f : Feeder) (p : Port) : Poised owed (Machine.renewLock f p s) := by
  unfold Machine.renewLock
  split
  · next port =>
    split
    · refine h.onFeeder f _ ⟨rfl, fun idle => ?_⟩
      simp only [FeederState.idle, Bool.and_eq_true] at idle ⊢
      exact ⟨idle.1, by rw [port]; rfl⟩
    · exact h
  · exact h

theorem Poised.huntTakeLock (h : Poised owed s) (f : Feeder) (taken : Machine.huntTakeLock f s = some t) : Poised owed t := by
  unfold Machine.huntTakeLock at taken
  split at taken
  · cases taken
    exact Poised.judgeAgain ((h.changeLock f .hunt .taken nofun).same) f
  · cases taken
    exact h.same
  · cases taken

/-- The hunt's lock is dropped with a judgement (R76, R118). -/
theorem Poised.huntDropLock (h : Poised owed s) (f : Feeder) : Poised owed (Machine.huntDropLock f s) := by
  unfold Machine.huntDropLock
  split
  · exact Poised.judge (((h.owing f).freely (fun x => { x with lock := .free }) rfl).broadcast _).same
  · exact h

/-! ### Operations -/

/-- A feeder with an operation in flight is not idle (R76). -/
theorem busier_inFlight (x : FeederState) (o : InFlight) (timer : Option Nat) :
    Busier x { x with inFlight := some o, transitTimer := timer } :=
  ⟨rfl, fun idle => by simp [FeederState.idle] at idle⟩

theorem Poised.admitOp (h : Poised owed s) (f : Feeder) (kind : OpKind) (o : Origin) (permit : Option Bool) :
    Poised owed (Machine.admitOp f kind o permit s) :=
  Poised.same (h.onFeeder f
    (fun x => { x with
      inFlight := some { op := newOperation s kind o permit, deadline := s.partTime + confirmTimeOf s f kind }, transitTimer := none })
    (busier_inFlight _ _ none))

theorem Poised.joinTrip (h : Poised owed s) (f : Feeder) (o : Origin) (permit : Option Bool) :
    Poised owed (Machine.joinTrip f o permit s) := by
  refine h.onFeeder f _ ⟨rfl, fun idle => ?_⟩
  simpa [FeederState.idle] using idle

theorem Poised.reportCompletion (h : Poised owed s) (f : Feeder) (c : Completed) (sup : Option (Nat × Origin)) :
    Poised owed (Machine.reportCompletion f c sup s) := by
  refine Poised.judged ?_ _ (seqMove_seqCompletion f c _)
  rw [sendOpDone_form]
  exact Poised.same (h.onFeeder f (fun x => { x with lastOp := some c }) ⟨rfl, id⟩)

theorem Poised.completeAlready (h : Poised owed s) (f : Feeder) (kind : OpKind) (o : Origin) (permit : Option Bool) :
    Poised owed (Machine.completeAlready f kind o permit s).1 := Poised.reportCompletion h.same f _ none

theorem Poised.requestTrip (h : Poised owed s) (f : Feeder) (o : Origin) (permit : Option Bool) :
    Poised owed (Machine.requestTrip f o permit s).1 := by
  unfold Machine.requestTrip
  split
  · split
    · exact h.joinTrip f o permit
    · exact (h.admitOp f .trip o permit).reportCompletion f _ _
  · split
    · exact h.completeAlready f .trip o permit
    · exact h.admitOp f .trip o permit

theorem Poised.requestPortClose (h : Poised owed s) (f : Feeder) (p : Port) : Poised owed (Machine.requestPortClose f p s).1 := by
  unfold Machine.requestPortClose
  dsimp only
  split_ifs
  · exact h
  · exact h
  · exact h
  · exact h.completeAlready f .close _ none
  · exact h
  · exact h
  · exact h.admitOp f .close _ none

theorem Poised.requestBlockClose (h : Poised owed s) (f : Feeder) (o : Origin) (blocked : Bool) :
    Poised owed (Machine.requestBlockClose f o blocked s).1 := by
  unfold Machine.requestBlockClose
  dsimp only
  split_ifs
  · exact h
  · exact h
  · exact h.completeAlready f .close o none
  · exact h
  · exact h
  · exact h.admitOp f .close o none

theorem Poised.requestHuntClose (h : Poised owed s) (f : Feeder) : Poised owed (Machine.requestHuntClose f s).1 := by
  unfold Machine.requestHuntClose
  split
  · exact h
  · exact h.requestBlockClose f .hunt _

/-- The end of an operation is reported to the fire level unit, which judges its feeder (R76, R114 step 5). -/
theorem Poised.reportEnd (h : Poised (orElse owed f) s) : Poised owed (Machine.reportEnd f s) := by
  unfold Machine.reportEnd
  dsimp only
  split
  · exact Poised.judge (h.freely _ rfl)
  · exact h.judge

/-- An operation that is no longer in flight owes its feeder a judgement, until its report. -/
theorem Poised.completeInFlight (h : Poised owed s) (f : Feeder) (op : Operation) (o : OpOutcome) :
    Poised (orElse owed f) (Machine.completeInFlight f op o s).1 := by
  have ended := (h.owing f).freely (fun x => { x with inFlight := none }) rfl
  unfold Machine.completeInFlight
  dsimp only
  refine Poised.reportCompletion ?_ f _ none
  split
  · exact (ended.broadcast _).placeSystemClaim f .breaker
  · exact ended

end

/-- Whatever the hunt does leaves the feeders poised. -/
theorem wholeKeeps_poised (owed : Feeder → Prop) : WholeKeeps (Poised owed) where
  light := fun _ _ own _ _ _ => own.out.elim
  claim := fun _ _ own _ _ _ _ => own.out.elim
  offer := fun _ p ev h => h.offer p ev
  hunt := fun _ _ h => h.same
  judge := fun _ _ own _ => own.out.elim
  calm := fun _ _ own _ _ _ => own.out.elim
  trip := fun _ _ own _ _ _ _ => own.out.elim
  close := fun _ _ own _ _ _ _ _ => own.out.elim
  join := fun _ _ own _ _ _ _ _ _ => own.out.elim
  opId := fun _ h => h.same
  detector := fun _ _ h => h.same
  lastHunt := fun _ _ h => h.same
  askTrip := fun _ f o permit h => h.requestTrip f o permit
  askClose := fun _ f h => h.requestHuntClose f
  takeLock := fun _ _ f taken h => h.huntTakeLock f taken
  dropLock := fun _ f h => h.huntDropLock f
  placeClaim := fun _ f h => h.placeSystemClaim f .hunt

theorem Poised.completeOperation {owed : Feeder → Prop} {s : State} (h : Poised owed s) (f : Feeder) (op : Operation) (o : OpOutcome) :
    Poised owed (Machine.completeOperation f op o s) :=
  Poised.reportEnd ((wholeKeeps_poised (orElse owed f)).deliver none _ (h.completeInFlight f op o))

end Sys2Proof.Machine
end

