-- ==== Sys2Proof/Proofs/PoisedRecords.lean ====
section
/-! PROOFS. Targets, records and commits leave the feeders poised: a feeder follows its target, and one whose settings change is handed them
(R59, R68, R73 to R78, R82). -/
namespace Sys2Proof.Machine

/-! ### Targets -/

section
variable {f : Feeder} {x : FeederFire} {s t : State}

/-- A feeder follows its target through the turn of any district (R68). -/
theorem followsTarget_turn (fire : (s.feeder f).fire = some x) (sound : FeederLevelsSound s f) (d : District) :
    FollowsTarget f x s (targetTaken d s) := by
  have awaited : TargetAwaited f s s := ⟨⟨rfl, rfl, rfl, fun _ => rfl⟩, rfl⟩
  by_cases hd : d = (s.commissioning f).district
  · subst hd; exact awaited.taken fire sound
  · exact (awaited.elsewhere hd).still fire sound

/-- A feeder that follows its target is loaded, and waits for nothing while it is quiescent (R74, R75, R77). -/
theorem FollowsTarget.poised (h : FollowsTarget f x s t) (fire : (s.feeder f).fire = some x) (loaded : Loaded s f) (served : Served s f)
    (store : t.store = s.store) : Loaded t f ∧ Served t f := by
  have record : t.commissioning f = s.commissioning f := by rw [State.commissioning, store]; rfl
  have effective : ∀ l, t.effectiveFor f l = s.effectiveFor f l := fun l => effectiveFor_congr (by rw [store]) (by rw [store]) (by rw [store])
  have target : targetLevel t f = (t.districts.get (s.commissioning f).district).target := by rw [targetLevel, record]
  obtain ⟨fitted, level⟩ := loaded.1.fire fire
  by_cases moves : TargetMoves f x s (s.districts.get (s.commissioning f).district).target (t.districts.get (s.commissioning f).district).target
  · have moved := (h.1 moves).1
    rw [← effective, ← target] at moved
    exact ⟨loaded_of_fire ((congrArg Commissioning.fitted record).trans fitted) (Nat.le_refl _) moved,
      NothingPending.served ((nothingPending_iff moved).2 ⟨Nat.le_refl _, rfl⟩)⟩
  · have stays := h.2 moves
    refine ⟨⟨h.sound fitted fire record, fun y hy kept => ?_⟩, fun quiet => ?_⟩
    · rw [effective]
      rw [stays] at hy
      exact loaded.2 y hy kept
    · have before : quiescent s f = true := by
        rwa [quiescent_eq, stays, State.fitted, record, ← State.fitted, ← quiescent_eq] at quiet
      obtain ⟨low, settled⟩ := (nothingPending_iff fire).1 (served before)
      have rests : ¬ (t.districts.get (s.commissioning f).district).target.number < (targetLevel s f).number :=
        fun falls => moves (.inr ⟨falls, before⟩)
      refine (nothingPending_iff (stays ▸ fire)).2 ⟨?_, settled⟩
      rw [target]
      omega

end

section
variable {s t : State}

/-- The turn of a district leaves the feeders poised (R68, R74, R75, R77). -/
theorem Poised.targetTaken (h : Poised nobody s) (d : District) : Poised nobody (Machine.targetTaken d s) := by
  have each : ∀ f, Loaded (Machine.targetTaken d s) f ∧ Served (Machine.targetTaken d s) f := fun f => by
    cases fire : (s.feeder f).fire with
    | some x =>
      exact (followsTarget_turn fire (h.1 f).1 d).poised fire (h.1 f) (h.2 f not_false) (targetTaken_shell d s).store
    | none =>
      have unfitted : s.fitted f = false := by
        have levels := (h.1 f).1
        unfold FeederLevelsSound at levels
        rwa [fire] at levels
      have absent := (congrArg FeederState.fire (targetTaken_unfitted unfitted d)).trans fire
      exact ⟨⟨(h.1 f).1.targetTaken d, fun x hx => nomatch absent.symm.trans hx⟩, served_of_none absent⟩
  exact ⟨fun f => (each f).1, fun f _ => (each f).2⟩

/-- A source of a target changes and the target is recomputed. -/
theorem Poised.recomputeTarget (h : Poised nobody s) (d : District) : Poised nobody (Machine.recomputeTarget d s) :=
  recomputeTarget_spec d s ▸ h.targetTaken d

/-- A change of the level that FIRE_BAN reads at recomputes every target (R72). -/
theorem Poised.scanFireBan (h : Poised nobody s) (raw : Bool) : Poised nobody (Machine.scanFireBan raw s) := by
  have scanned : Poised nobody { s with fireBan := s.fireBan.scan raw } := h.same
  rw [scanFireBan_taken]
  dsimp only
  split
  · exact scanned
  · exact ((scanned.targetTaken .d1).targetTaken .d2).targetTaken .d3

/-- The feeders are poised through a change of the store that leaves the commissioning records, the groups and the curves. -/
theorem Poised.onStore {owed : Feeder → Prop} (h : Poised owed s) (g : Store → Store)
    (records : (g s.store).commissioning = s.store.commissioning := by rfl) (groups : (g s.store).groups = s.store.groups := by rfl)
    (u1 : (g s.store).curveU1 = s.store.curveU1 := by rfl) (u2 : (g s.store).curveU2 = s.store.curveU2 := by rfl) :
    Poised owed (s.onStore g) :=
  h.congr (samePlan_of_records records groups u1 u2 rfl) fun _ => .refl _

/-- The feeders are poised through a change of a district's requests. -/
theorem Poised.onDistrict {owed : Feeder → Prop} (h : Poised owed s) (d : District) (g : DistrictState → DistrictState)
    (target : ∀ y, (g y).target = y.target) : Poised owed (s.onDistrict d g) := by
  refine h.congr (fun f => ⟨rfl, ?_, fun _ _ => rfl⟩) fun _ => .refl _
  unfold targetLevel
  rw [State.onDistrict_districts, PerDistrict.get_set]
  split
  · next hd => rw [target, ← hd]; rfl
  · rfl

theorem Poised.setFireRequestBody (h : Poised nobody s) (p : Port) (payload : List Byte) (d : District) :
    Poised nobody (Machine.setFireRequestBody p payload d s).1 := by
  unfold Machine.setFireRequestBody
  split
  · exact h
  · exact (h.onDistrict d _ fun y => by cases p <;> rfl).recomputeTarget d

theorem Poised.setFloorBody (h : Poised nobody s) (p : Port) (payload : List Byte) (d : District) :
    Poised nobody (Machine.setFloorBody p payload d s).1 := by
  unfold Machine.setFloorBody
  split
  · exact h
  · next l _ => exact ((h.onStore (Store.onCell (.seasonFloor d) (.level l) _)).onStore _).recomputeTarget d

theorem Poised.setBanLevelBody (h : Poised nobody s) (p : Port) (payload : List Byte) (d : District) :
    Poised nobody (Machine.setBanLevelBody p payload d s).1 := by
  unfold Machine.setBanLevelBody
  split
  · exact h
  · next l _ =>
    have held : Poised nobody (queueWrite p (.banLevel d) (setHeld (.banLevel d) (.level l) s)) :=
      (h.onStore (Store.onCell (.banLevel d) (.level l) _)).onStore _
    dsimp only
    split
    · exact held.recomputeTarget d
    · exact held

end

/-! ### Feeders that a commit is handed to -/

/-- The levels are sound, and every feeder but those whose settings are still to be handed to them is loaded and served. -/
structure Pledged (late : Feeder → Prop) (s : State) : Prop where
  levels : ∀ f, FeederLevelsSound s f
  loaded : ∀ f, ¬ late f → Loaded s f
  served : ∀ f, ¬ late f → Served s f

section
variable {f : Feeder} {late : Feeder → Prop} {s : State}

theorem Pledged.poised (h : Pledged nobody s) : Poised nobody s := ⟨fun f => h.loaded f not_false, h.served⟩

theorem Pledged.mono {more : Feeder → Prop} (h : Pledged late s) (le : ∀ f, late f → more f) : Pledged more s :=
  ⟨h.levels, fun f hf => h.loaded f fun k => hf (le f k), fun f hf => h.served f fun k => hf (le f k)⟩

/-- A judgement leaves its feeder loaded (R77). -/
theorem Loaded.judge (h : Loaded s f) : Loaded (Machine.judge f s) f := by
  by_cases waits : quiescent s f = true ∧ ¬ NothingPending s f
  · obtain ⟨quiet, waits⟩ := waits
    cases hx : (s.feeder f).fire with
    | none => exact absurd (nothingPending_unfitted hx) waits
    | some x =>
      obtain ⟨fitted, level⟩ := h.1.fire hx
      obtain ⟨cause, reload⟩ := judge_reloads hx quiet waits level
      have plan := samePlan_of_store (reloaded_store f (targetLevel s f) cause s) (reloaded_districts f (targetLevel s f) cause s) f
      have fire := reloaded_fire hx (targetLevel s f) cause
      rw [← effectiveFor_congr (t := reloaded f (targetLevel s f) cause s) (by rw [reloaded_store]) (by rw [reloaded_store])
        (by rw [reloaded_store])] at fire
      rw [reload]
      exact loaded_of_fire ((congrArg Commissioning.fitted plan.record).trans fitted) (by rw [plan.target]) fire
  · by_cases quiet : quiescent s f = true
    · rwa [judge_nothing (not_not.1 fun w => waits ⟨quiet, w⟩)]
    · rwa [judge_unquiet (Bool.eq_false_iff.2 quiet)]

/-- A feeder whose settings are handed to it holds them pending, and its judgement applies them (R77, R78). -/
theorem Pledged.setSettingsPending (h : Pledged (orElse late f) s) : Pledged late (Machine.setSettingsPending f s) := by
  let held := s.onFeeder f fun x => { x with fire := x.fire.map fun y => { y with settingsPending := true } }
  have own : (held.feeder f).fire = (s.feeder f).fire.map fun y => { y with settingsPending := true } :=
    congrArg FeederState.fire (State.feeder_onFeeder_self ..)
  have ready : Loaded held f := by
    refine ⟨(h.levels f).congr ?_ rfl rfl, fun x hx kept => ?_⟩
    · rw [appliedOf, own, Option.map_map]
      rfl
    · rw [own, Option.map_eq_some_iff] at hx
      obtain ⟨y, -, rfl⟩ := hx
      cases kept
  have part := judge_part f held
  have plan : ∀ g, SamePlan s (Machine.judge f held) g := samePlan_of_store part.store part.districts
  have other : ∀ g, g ≠ f → (Machine.judge f held).feeder g = s.feeder g := fun g hg =>
    (judge_other hg held).trans (State.feeder_onFeeder_of_ne _ hg _)
  have late' : ∀ g, ¬ late g → g ≠ f → ¬ orElse late f g := fun g hl hg => not_or.2 ⟨hl, hg⟩
  change Pledged late (Machine.judge f held)
  refine ⟨fun g => ?_, fun g hg => ?_, fun g hg => ?_⟩ <;> by_cases e : g = f
  · subst e; exact ready.judge.1
  · exact (h.levels g).congr (congrArg appliedOf (other g e)) (plan g).record (by rw [part.districts]; rfl)
  · subst e; exact ready.judge
  · exact (h.loaded g (late' g hg e)).congr (plan g) (by rw [other g e])
  · subst e; exact served_judge held g
  · exact (h.served g (late' g hg e)).congr (plan g) (by rw [other g e]; exact .refl _)

/-- Feeder by feeder, every one that is late is handed its settings. -/
theorem Pledged.handed : ∀ {fs : List Feeder} {s : State}, Pledged (· ∈ fs) s → Poised nobody (forFeeders fs Machine.setSettingsPending s)
  | [], _, h => (h.mono fun _ hf => nomatch hf).poised
  | g :: gs, _, h => by
    have first : Pledged (orElse (· ∈ gs) g) _ := h.mono fun k hk => (List.mem_cons.1 hk).symm
    exact first.setSettingsPending.handed

end

/-- The fire state of a feeder that is set afresh: at its target with the stored settings, or absent while it is not fitted (R82, R84). -/
def freshFire (s : State) (f : Feeder) : Option FeederFire :=
  if s.fitted f = true then some { applied := targetLevel s f, settingsPending := false, effective := s.effectiveFor f (targetLevel s f) }
  else none

/-- A feeder that is set afresh is loaded and waits for nothing. -/
theorem loaded_and_served_of_fresh {s : State} {f : Feeder} (fire : (s.feeder f).fire = freshFire s f) : Loaded s f ∧ Served s f := by
  by_cases fitted : s.fitted f = true
  · rw [freshFire, if_pos fitted] at fire
    exact ⟨loaded_of_fire fitted (Nat.le_refl _) fire, ((nothingPending_iff fire).2 ⟨Nat.le_refl _, rfl⟩).served⟩
  · rw [freshFire, if_neg fitted] at fire
    refine ⟨⟨?_, fun x hx => nomatch fire.symm.trans hx⟩, served_of_none fire⟩
    unfold FeederLevelsSound
    rw [fire]
    exact Bool.eq_false_iff.2 fitted

theorem freshFire_congr {s t : State} (store : t.store = s.store) (districts : t.districts = s.districts) (f : Feeder) :
    freshFire t f = freshFire s f := by
  have plan := samePlan_of_store store districts f
  unfold freshFire State.fitted
  rw [plan.record, plan.target, effectiveFor_congr (s := s) (by rw [store]) (by rw [store]) (by rw [store])]

/-! ### Commits -/

/-- The curve that a user curve record is. -/
def UserCurveName.curve : UserCurveName → Curve
  | .u1 => .u1
  | .u2 => .u2

theorem breakpoints_congr {s t : State} {named : Curve}
    (h : ∀ u, named = UserCurveName.curve u → t.userCurve u = s.userCurve u) : t.breakpoints named = s.breakpoints named := by
  cases named with
  | u1 => exact congrArg UserCurve.breakpoints (h .u1 rfl)
  | u2 => exact congrArg UserCurve.breakpoints (h .u2 rfl)
  | _ => rfl

/-- Effective settings are read of one group and of the curves that it names (R79). -/
theorem effectiveFor_of_held {s t : State} {f : Feeder} {l : Level} (group : t.group f l = s.group f l)
    (curves : ∀ u, ((s.group f l).phase.curve = UserCurveName.curve u ∨ (s.group f l).earth.curve = UserCurveName.curve u) →
      t.userCurve u = s.userCurve u) : t.effectiveFor f l = s.effectiveFor f l := by
  unfold State.effectiveFor
  dsimp only
  rw [group, breakpoints_congr fun u hu => curves u (.inl hu), breakpoints_congr fun u hu => curves u (.inr hu)]

/-- A state that differs in the store alone, and in it in the content of one record. -/
structure Recorded (r : RecordName) (s b : State) : Prop where
  feeders : b.feeders = s.feeders
  districts : b.districts = s.districts
  held : ∀ k, k ≠ .claims → k ≠ r → heldContent b k = heldContent s k

theorem recorded_committedTo (p : Port) (r : RecordName) (c : RecordContent) (s : State) : Recorded r s (committedTo p r c s) :=
  ⟨rfl, rfl, fun _ claims other => held_of_cellOf claims (cellOf_onCell_of_ne other c _ s.store)⟩

section
variable {r : RecordName} {s b : State}

theorem Recorded.feeder (k : Recorded r s b) (f : Feeder) : b.feeder f = s.feeder f := congrArg (PerFeeder.get · f) k.feeders

theorem Recorded.group (k : Recorded r s b) {f : Feeder} {l : Level} (other : r ≠ .group f l) : b.group f l = s.group f l :=
  RecordContent.group.inj (k.held (.group f l) nofun other.symm)

theorem Recorded.commissioning (k : Recorded r s b) {f : Feeder} (other : r ≠ .commissioning f) : b.commissioning f = s.commissioning f :=
  RecordContent.commissioning.inj (k.held (.commissioning f) nofun other.symm)

theorem Recorded.userCurve (k : Recorded r s b) {u : UserCurveName} (other : r ≠ .userCurve u) : b.userCurve u = s.userCurve u :=
  RecordContent.userCurve.inj (k.held (.userCurve u) nofun other.symm)

/-- A feeder's plan stands through a change of a record that its fire state is not read of. -/
theorem Recorded.plan (k : Recorded r s b) {f : Feeder} (record : r ≠ .commissioning f)
    (group : ∀ x, (s.feeder f).fire = some x → r ≠ .group f x.applied)
    (curve : ∀ x u, (s.feeder f).fire = some x →
      ((s.group f x.applied).phase.curve = UserCurveName.curve u ∨ (s.group f x.applied).earth.curve = UserCurveName.curve u) →
      r ≠ .userCurve u) : SamePlan s b f where
  record := k.commissioning record
  target := by rw [targetLevel, k.commissioning record, k.districts]; rfl
  effective := fun x hx => effectiveFor_of_held (k.group (group x hx)) fun u hu => k.userCurve (curve x u hx hu)

theorem Recorded.loaded (k : Recorded r s b) (h : Poised nobody s) {f : Feeder} (plan : SamePlan s b f) : Loaded b f ∧ Served b f := by
  have same := k.feeder f
  exact ⟨(h.1 f).congr plan (by rw [same]), (h.2 f not_false).congr plan (by rw [same]; exact .refl _)⟩

/-- A committed record other than a commissioning record leaves the levels, and every feeder whose plan it leaves. -/
theorem Recorded.pledged (k : Recorded r s b) (h : Poised nobody s) (record : ∀ f, r ≠ .commissioning f) {late : Feeder → Prop}
    (plan : ∀ f, ¬ late f → SamePlan s b f) : Pledged late b where
  levels := fun f => (h.1 f).1.congr (by rw [k.feeder f]) (k.commissioning (record f)) (by rw [k.districts])
  loaded := fun f hf => (k.loaded h (plan f hf)).1
  served := fun f hf => (k.loaded h (plan f hf)).2

/-- A committed group reaches the feeder that applies it, and no other (R59). -/
theorem Recorded.handOnGroup {f : Feeder} {l : Level} (k : Recorded (.group f l) s b) (h : Poised nobody s) :
    Poised nobody (handOnCommit (.group f l) b) := by
  have own : Pledged (orElse nobody f) b := k.pledged h (fun _ => nofun) fun g hg =>
    k.plan nofun (fun x _ e => hg (.inr (RecordName.group.inj e).1.symm)) fun _ _ _ _ => nofun
  have idle : (∀ x, (b.feeder f).fire = some x → x.applied ≠ l) → Poised nobody b := fun other =>
    (k.pledged h (fun _ => nofun) fun g _ => k.plan nofun (fun x hx e => by
      obtain ⟨rfl, rfl⟩ := RecordName.group.inj e
      exact other x (k.feeder f ▸ hx) rfl) fun _ _ _ _ => nofun).poised
  unfold handOnCommit
  dsimp only
  split
  · next x hx =>
    split
    · exact own.setSettingsPending.poised
    · next waits =>
      refine idle fun y hy e => waits ⟨((own.levels f).fire hy).1, ?_⟩
      cases hx.symm.trans hy
      exact e
  · next none => exact idle fun x hx => nomatch none.symm.trans hx

theorem appliedGroupNames_iff {u : UserCurveName} {f : Feeder} {x : FeederFire} (hx : (b.feeder f).fire = some x) :
    appliedGroupNames b u f = true ↔
      ((b.group f x.applied).phase.curve = UserCurveName.curve u ∨ (b.group f x.applied).earth.curve = UserCurveName.curve u) := by
  cases u <;> simp [appliedGroupNames, hx, UserCurveName.curve]

/-- A committed user curve reaches the fitted feeders whose applied group names it (R59). -/
theorem Recorded.handOnCurve {u : UserCurveName} (k : Recorded (.userCurve u) s b) (h : Poised nobody s) :
    Poised nobody (handOnCommit (.userCurve u) b) := by
  refine Pledged.handed (k.pledged h (fun _ => nofun) fun f hf => k.plan nofun (fun _ _ => nofun) fun x v hx names e => hf ?_)
  cases e
  have hb : (b.feeder f).fire = some x := k.feeder f ▸ hx
  refine List.mem_filter.2 ⟨(b.mem_fittedFeeders f).2 ?_, (appliedGroupNames_iff hb).2 ?_⟩
  · exact (congrArg Commissioning.fitted (k.commissioning nofun)).trans ((h.1 f).1.fire hx).1
  · rwa [k.group nofun]

/-- A commissioning commit sets its feeder at its target with the stored settings, fitted or not (R82). -/
theorem Recorded.handOnCommissioning {f : Feeder} (k : Recorded (.commissioning f) s b) (h : Poised nobody s) :
    Poised nobody (handOnCommit (.commissioning f) b) := by
  have other : ∀ g, g ≠ f → Loaded b g ∧ Served b g := fun g hg =>
    k.loaded h (k.plan (fun e => hg (RecordName.commissioning.inj e).symm) (fun _ _ => nofun) fun _ _ _ _ => nofun)
  obtain ⟨q, form, -⟩ := commissionFeeder_spec b f
  change Poised nobody (commissionFeeder f b)
  generalize commissionFeeder f b = a at form
  have store : a.store = b.store := by rw [form]
  have districts : a.districts = b.districts := by rw [form]
  have feeders : a.feeders = b.feeders.set f (commissionedFeeder b f) := by rw [form]
  have each : ∀ g, Loaded a g ∧ Served a g := fun g => by
    by_cases e : g = f
    · subst e
      refine loaded_and_served_of_fresh (Eq.trans ?_ (freshFire_congr store districts g).symm)
      rw [State.feeder, feeders, PerFeeder.get_set_self]
      rfl
    · have stays : a.feeder g = b.feeder g := by rw [State.feeder, feeders]; exact PerFeeder.get_set_of_ne _ e _
      have plan := samePlan_of_store store districts g
      exact ⟨(other g e).1.congr plan (by rw [stays]), (other g e).2.congr plan (by rw [stays]; exact .refl _)⟩
  exact ⟨fun g => (each g).1, fun g _ => (each g).2⟩

/-- A commit that is taken leaves the feeders poised, whatever its record (R59). -/
theorem Recorded.handOn (k : Recorded r s b) (h : Poised nobody s) : Poised nobody (handOnCommit r b) := by
  have aside : (∀ f, r ≠ .commissioning f) → (∀ f l, r ≠ .group f l) → (∀ u, r ≠ .userCurve u) → Poised nobody b :=
    fun record group curve => (k.pledged h record fun f _ => k.plan (record f) (fun _ _ => group f _) fun _ u _ _ => curve u).poised
  cases r with
  | group f l => exact k.handOnGroup h
  | commissioning f => exact k.handOnCommissioning h
  | userCurve u => exact k.handOnCurve h
  | _ => exact aside (fun _ => nofun) (fun _ _ => nofun) fun _ => nofun

end

end Sys2Proof.Machine
end

