-- ==== Sys2Proof/Proofs/PoisedFrames.lean ====
section
/-! PROOFS. Frames, scans and deadlines leave the feeders poised (R2, R8, R10 to R14, R42, R76, R111 to R116, R131). -/
namespace Sys2Proof.Machine

section
variable {owed : Feeder → Prop} {s : State}

theorem Poised.deliver (h : Poised owed s) (vn : Option Nat) (ns : List HuntNotice) : Poised owed (Machine.deliver vn ns s) :=
  (wholeKeeps_poised owed).deliver vn ns h

theorem poised_huntSettle (vn : Option Nat) {x : State × HuntGo} (h : Poised owed x.1) : Poised owed (huntSettle vn x) :=
  (wholeKeeps_poised owed).huntSettle vn h

theorem Poised.ite {p : Prop} [Decidable p] {t : State} (h : Poised owed s) (k : Poised owed t) : Poised owed (if p then s else t) := by
  split
  · exact h
  · exact k

/-! ### Elements -/

theorem Poised.protectionTrip (h : Poised owed s) (vn : Option Nat) (f : Feeder) (permit : Bool) :
    Poised owed (Machine.protectionTrip vn f permit s) := (h.requestTrip f .protection (some permit)).deliver vn _

theorem Poised.raiseTrip (h : Poised owed s) (vn : Option Nat) (f : Feeder) (r : FeederRecord) (fire : FeederFire) (els : List ElementName) :
    Poised owed (Machine.raiseTrip vn f r fire els s) := by
  unfold Machine.raiseTrip
  split
  · exact h
  · exact Poised.protectionTrip (Poised.broadcast (h.onFeeder f _ ⟨rfl, id⟩) _) vn f _

/-- The elements' report is judged (R42, R76). -/
theorem Poised.reportElements {f : Feeder} (h : Poised (orElse owed f) s) : Poised owed (Machine.reportElements f s) :=
  (h.freely (fun x => { x with pickedUp := x.anyPickedUp }) rfl).judge

theorem Poised.reachElements (h : Poised owed s) (vn : Option Nat) (f : Feeder) (interval : Nat) (r : FeederRecord) :
    Poised owed (Machine.reachElements vn f interval r s) := by
  unfold Machine.reachElements
  dsimp only
  split
  · exact h
  · split
    · exact h
    · exact Poised.reportElements (Poised.raiseTrip ((h.owing f).freely _ rfl) vn f r _ _)

/-! ### Frames -/

/-- A record that moves a measurement state leaves what the feeder's quiescence is read of. -/
theorem busier_measMove (valid : Bool) (x : FeederState) : Busier x (measMove valid x) := by
  rw [measMove_eq]
  exact ⟨rfl, id⟩

theorem Poised.measRecord (h : Poised owed s) (f : Feeder) (valid : Bool) : Poised owed (Machine.measRecord f valid s) := by
  have moved := h.onFeeder f (measMove valid) (busier_measMove valid _)
  unfold Machine.measRecord
  dsimp only
  split
  · exact (moved.broadcast _).placeSystemClaim f .measure
  · split
    · exact (moved.broadcast _).removeSystemClaim f .measure
    · exact moved

theorem Poised.acceptFrame (h : Poised owed s) (fr : MeasFrame) : Poised owed (Machine.acceptFrame fr s) := by
  have linked : Poised owed (acceptOnLink fr s) := by
    unfold acceptOnLink
    dsimp only
    exact Poised.ite h.same (Poised.broadcast h.same _)
  have measured := forFeeders_keeps (Poised owed) (fun f => Machine.measRecord f (fr.records.get f).valid)
    (fun f _ ht => ht.measRecord f _) (acceptOnLink fr s).fittedFeeders _ linked
  have bus : Poised owed { forFeeders (acceptOnLink fr s).fittedFeeders (fun f => Machine.measRecord f (fr.records.get f).valid)
      (acceptOnLink fr s) with bus := { vn := fr.vn, valid := fr.busValid } } := measured.same
  exact (wholeKeeps_poised owed).huntFrame fr
    (forFeeders_keeps (Poised owed) _ (fun f _ ht => ht.reachElements fr.usedVn f fr.interval (fr.records.get f)) _ _ bus)

theorem Poised.deliverUnit (h : Poised owed s) (bs : List Byte) : Poised owed (Machine.deliverUnit bs s) := by
  unfold Machine.deliverUnit
  split
  · exact h
  · exact h.ite (h.acceptFrame _)

theorem Poised.linkLoss (h : Poised owed s) : Poised owed (Machine.linkLoss s) := by
  have down : Poised owed { s with link := .lost, linkDeadline := none, lastSequence := none, bus := { s.bus with valid := false } } := h.same
  have lost := forFeeders_keeps (Poised owed)
    (fun f a => a.onFeeder f fun x => { x with meas := .lost, invalidCount := 3, recoveryCount := 0 })
    (fun f _ ht => ht.onFeeder f _ ⟨rfl, id⟩) s.fittedFeeders _ down
  have told := forFeeders_keeps (Poised owed) (feederLinkLoss s.feeders) (fun f _ ht => by
    unfold feederLinkLoss
    exact (ht.ite (ht.broadcast _)).placeSystemClaim f .measure) s.fittedFeeders _ lost
  exact poised_huntSettle none ((wholeKeeps_poised owed).abortHunt .abortedLink _ (told.broadcast _))

/-! ### Scans -/

theorem Poised.switchingEnd (h : Poised owed s) (f : Feeder) (closedNow : Bool) : Poised owed (Machine.switchingEnd f closedNow s) := by
  have ended := h.onFeeder f (fun y => { y with lastEnd := if closedNow then .closed else .opened }) ⟨rfl, id⟩
  have said : ∀ m, Poised owed (sayExternal f m (s.onFeeder f fun y => { y with lastEnd := if closedNow then .closed else .opened })) :=
    fun _ => ended.broadcast _
  unfold Machine.switchingEnd
  dsimp only
  split
  · exact (ended.completeOperation f _ .done).ite ended
  · exact ((said .opened).judged _ (seqMove_seqExternalOpen f _)).ite
      (((said .closed).judged _ (seqMove_seqExternalClose f _)).ite ended)

theorem Poised.positionChanged (h : Poised owed s) (f : Feeder) : Poised owed (Machine.positionChanged f s) := by
  have restarted : Poised owed (if s.fitted f then s.onFeeder f (restartTimers s.partTime) else s) :=
    Poised.ite (h.onFeeder f _ ⟨rfl, id⟩) h
  unfold Machine.positionChanged
  dsimp only
  split
  · exact restarted.switchingEnd f true
  · exact restarted.switchingEnd f false
  · exact restarted
  · exact restarted

theorem Poised.scanFeeder (h : Poised owed s) (f : Feeder) (raw : ContactLevels) : Poised owed (Machine.scanFeeder f raw s) := by
  have scanned := h.onFeeder f (scanContacts raw) ⟨rfl, id⟩
  have handed : Poised owed (if ((s.onFeeder f (scanContacts raw)).feeder f).position = (s.feeder f).position
      then s.onFeeder f (scanContacts raw) else Machine.positionChanged f (s.onFeeder f (scanContacts raw))) :=
    scanned.ite (scanned.positionChanged f)
  exact (handed.judged _ (seqMove_seqStartPosition f _)).ite handed

theorem Poised.scanInputs {s : State} (h : Poised nobody s) (lv : ScanLevels) : Poised nobody (Machine.scanInputs lv s) := by
  have contacts := forFeeders_keeps (Poised nobody) (fun f => Machine.scanFeeder f (lv.contacts.get f))
    (fun f _ ht => ht.scanFeeder f _) Feeder.all s h
  unfold Machine.scanInputs scanSetProtect
  rw [scanCrewKey_form]
  exact (contacts.scanFireBan lv.fireBan).same

theorem Poised.declareFault (h : Poised owed s) (f : Feeder) (k : FaultKind) : Poised owed (Machine.declareFault f k s) := by
  refine Poised.broadcast (Poised.placeSystemClaim (h.onFeeder f _ ?_) f .breaker) _
  cases k <;> exact ⟨rfl, id⟩

/-! ### Deadlines -/

theorem Poised.endDeadTime (h : Poised owed s) (f : Feeder) : Poised owed (Machine.endDeadTime f s) := by
  have locked : ∀ c d {t : State}, Poised owed t → Poised owed (Machine.judged f (toLockout f c d) t) := fun _ _ _ ht =>
    ht.judged _ (seqMove_arMove f _ _ _ _)
  have closing : Poised owed (Machine.judged f (seqToClosing f) s) := h.judged _ (seqMove_arMove f _ _ _ s)
  have asked : Poised owed (requestReclose f (Machine.judged f (seqToClosing f) s)).1 := closing.requestBlockClose f .reclose _
  unfold Machine.endDeadTime
  refine Poised.ite ?_ (locked _ _ h)
  unfold recloseAnswer
  split
  · exact asked.onFeeder f _ ⟨rfl, id⟩
  · exact locked _ _ asked
  · exact asked
  · exact asked

theorem Poised.operationDue (h : Poised owed s) (kind : OpKind) (w : Position) (f : Feeder) : Poised owed (Machine.operationDue kind w f s) := by
  unfold Machine.operationDue
  dsimp only
  split
  · exact h
  · exact (h.completeOperation f _ _).ite h

theorem Poised.reclaimDue (h : Poised owed s) (f : Feeder) : Poised owed (Machine.reclaimDue f s) :=
  (h.judged _ (seqMove_arMove f _ _ _ s)).ite h

theorem Poised.confirmDue (h : Poised owed s) : Poised owed (Machine.confirmDue s) := by
  unfold Machine.confirmDue
  split
  · exact h
  · exact (poised_huntSettle none ((wholeKeeps_poised owed).confirmExpired _ h)).ite h

theorem Poised.trialWatchDue (h : Poised owed s) : Poised owed (Machine.trialWatchDue s) := by
  unfold Machine.trialWatchDue
  split
  · exact h
  · split
    · exact h
    · exact (poised_huntSettle none ((wholeKeeps_poised owed).restoreFeeder _ h)).ite h

theorem Poised.expireEdit (h : Poised owed s) : Poised owed (Machine.expireEdit s) := by
  unfold Machine.expireEdit
  split
  · exact ((h.onStore _).offer _ _).ite h
  · exact h

/-- A port's lease that ends frees a lock that the hunt did not hold (R120). -/
theorem Poised.lockLeaseDue (h : Poised owed s) (f : Feeder) : Poised owed (Machine.lockLeaseDue f s) := by
  unfold Machine.lockLeaseDue
  split
  · next held => exact (h.changeLock f .free .expired fun _ => by rw [held]; rfl).ite h
  · exact h

theorem Poised.removeClaim (h : Poised owed s) (f : Feeder) (kind : ClaimKind) (p : Port) (tag : Nat) (c : ReleaseCause) :
    Poised owed (Machine.removeClaim f kind p tag c s) := by
  unfold Machine.removeClaim
  split
  · exact Poised.broadcast h.same _
  · exact h

theorem Poised.claimDue (h : Poised owed s) (f : Feeder) (p : Port) (tag : Nat) : Poised owed (Machine.claimDue f p tag s) := by
  unfold Machine.claimDue
  split
  · exact (h.removeClaim _ _ _ _ _).ite h
  · exact h

/-! ### Writes -/

theorem Poised.beginWrite (h : Poised owed s) : Poised owed (Machine.beginWrite s) := by
  unfold Machine.beginWrite
  split
  · have begun := fun w => h.onStore fun st => { st with writing := w }
    exact Poised.ite (Poised.same (begun _)) (begun _)
  · exact h

/-- A write that completes changes no record that is held (R63). -/
theorem Poised.completeWrite {s : State} (h : Poised nobody s) : Poised nobody (Machine.completeWrite s) := by
  cases hw : s.store.writing with
  | none => rwa [show Machine.completeWrite s = s by unfold Machine.completeWrite; rw [hw]]
  | some w =>
    cases hq : s.store.queue with
    | nil => rwa [show Machine.completeWrite s = s by unfold Machine.completeWrite; rw [hw, hq]]
    | cons e rest =>
      have recorded : Recorded .claims s (s.onStore (storeWritten w e rest)) :=
        ⟨rfl, rfl, fun k claims _ => heldContent_completed e.record w.content s claims⟩
      have written : Poised nobody (s.onStore (storeWritten w e rest)) := recorded.handOn h
      rw [completeWrite_spec hw hq]
      obtain ⟨ports, form, -⟩ := answerWritten_ports e.port
        { s with store := storeWritten w e rest s.store, pool := if e.record = .claims then persistClaims s.pool else s.pool }
      rw [form]
      exact written.same

end

end Sys2Proof.Machine
end

