-- ==== Sys2Proof/Proofs/PoisedCommands.lean ====
section
/-! PROOFS. Every command leaves the feeders poised (R76 to R78): the requests and the transfers, the deadlines and frames, the start-ups. -/
namespace Sys2Proof.Machine

section
variable {owed : Feeder → Prop} {s : State}

/-! ### Ports -/

theorem Poised.onPort (h : Poised owed s) (p : Port) (g : PortUnit → PortUnit) : Poised owed (s.onPort p g) := h.same

/-- A transfer leaves the feeders poised if what the port unit makes of it does. -/
theorem Poised.transfer (h : Poised owed s) (p : Port) {act : State → State} (acts : ∀ t, Poised owed t → Poised owed (act t)) :
    Poised owed (Machine.transfer p act s) := by
  unfold Machine.transfer
  split
  · exact h
  · exact h.same
  · exact acts _ h.same

theorem Poised.frameArrives (h : Poised owed s) (p : Port) {check : State → State} (checks : ∀ t, Poised owed t → Poised owed (check t)) :
    Poised owed (Machine.frameArrives p check s) := by
  unfold Machine.frameArrives
  refine h.ite ?_
  split
  · exact checks _ (h.onPort p _)
  · exact checks _ (h.onPort p _)
  · exact h.onPort p _
  · exact h.onPort p _

/-- A request leaves the feeders poised if its owner's action does. -/
theorem Poised.takeRequest (h : Poised owed s) (q : Request) (p : Port) (target : Byte) (payload : List Byte)
    {body : State → State × Reply} (acts : ∀ t, Poised owed t → Poised owed (body t).1) :
    Poised owed (Machine.takeRequest q p target payload body s) := by
  refine h.transfer p fun t ht => ht.frameArrives p fun u hu => ?_
  have renewed : Poised owed (renewNamed q p target.toNat u) := by
    unfold renewNamed
    split
    · exact hu.renewLock _ p
    · exact hu
  have acted := acts _ renewed
  unfold checkRequest
  split
  · exact hu.onPort p _
  · unfold answer
    split
    · exact acted.onPort p _
    · exact acted.onPort p _
    · exact acted

theorem Poised.takeFeederRequest (h : Poised owed s) (q : Request) (p : Port) (target : Byte) (payload : List Byte)
    {body : Feeder → State → State × Reply} (acts : ∀ f t, Poised owed t → Poised owed (body f t).1) :
    Poised owed (Machine.takeRequest q p target payload (onFeederTarget target body) s) := by
  refine h.takeRequest q p target payload fun t ht => ?_
  unfold onFeederTarget
  split
  · exact acts _ t ht
  · exact ht

theorem Poised.takeDistrictRequest (h : Poised owed s) (q : Request) (p : Port) (target : Byte) (payload : List Byte)
    {body : District → State → State × Reply} (acts : ∀ d t, Poised owed t → Poised owed (body d t).1) :
    Poised owed (Machine.takeRequest q p target payload (onDistrictTarget target body) s) := by
  refine h.takeRequest q p target payload fun t ht => ?_
  unfold onDistrictTarget
  split
  · exact acts _ t ht
  · exact ht

/-- An edit request renews the lease first (R56). -/
theorem Poised.takeEditRequest (h : Poised owed s) (q : Request) (p : Port) (target : Byte) (payload : List Byte)
    {body : State → State × Reply} (acts : ∀ t, Poised owed t → Poised owed (body t).1) :
    Poised owed (Machine.takeRequest q p target payload (Machine.takeEdit p body) s) :=
  h.takeRequest q p target payload fun _ ht => acts _ (ht.onStore _)

theorem Poised.fetchAt (h : Poised owed s) (p : Port) (n : Nat) : Poised owed (Machine.fetchAt p n s) := by
  unfold Machine.fetchAt
  split
  · exact h
  · exact h.same
  · split
    · exact h.same
    · exact h.same
    · exact h.same
    · exact Poised.ite h.same h.same

theorem Poised.frameEndsEarly (h : Poised owed s) (p : Port) : Poised owed (Machine.frameEndsEarly p s) := by
  unfold Machine.frameEndsEarly
  refine h.ite ?_
  split <;> exact h.onPort p _

theorem Poised.frameCollides (h : Poised owed s) (p : Port) : Poised owed (Machine.frameCollides p s) := by
  unfold Machine.frameCollides
  refine h.ite ?_
  split
  · exact h
  · exact h
  · exact h.onPort p _
  · exact h.onPort p _

theorem Poised.frameBegins (h : Poised owed s) (p : Port) : Poised owed (Machine.frameBegins p s) := by
  have watched : ∀ b t, Poised owed t → Poised owed (watchStall p b t) := fun _ _ ht => Poised.ite ht.same ht
  unfold Machine.frameBegins
  split
  · exact watched _ _ (h.onPort p _)
  · exact watched _ _ h
  · exact h
  · exact watched _ _ h

theorem Poised.stallDue (h : Poised owed s) : Poised owed (Machine.stallDue s) := by
  unfold Machine.stallDue
  split
  · exact h
  · exact Poised.ite (Poised.ite h.same h.same) h

theorem Poised.crewStalls (h : Poised owed s) (x : StallPoint) : Poised owed (Machine.crewStalls x s) := by
  cases x with
  | underWay => exact h.stallDue.ite h
  | writeAfterAddress => exact h.transfer _ fun _ ht => ht.frameEndsEarly _
  | writeAfterByte => exact h.transfer _ fun _ ht => ht.frameEndsEarly _
  | read => exact h

/-! ### Reads and edits -/

theorem Poised.readEventsBody (h : Poised owed s) (p : Port) (payload : List Byte) : Poised owed (Machine.readEventsBody p payload s).1 := by
  unfold Machine.readEventsBody
  dsimp only
  split
  · exact h
  · exact h.same

theorem Poised.readEffectiveBody (h : Poised owed s) (f : Feeder) : Poised owed (Machine.readEffectiveBody f s).1 := by
  unfold Machine.readEffectiveBody
  split <;> exact h

theorem Poised.readRecordBody (h : Poised owed s) (payload : List Byte) : Poised owed (Machine.readRecordBody payload s).1 := by
  unfold Machine.readRecordBody
  split
  · exact h
  · split
    · split
      · exact h
      · exact h.same
    · exact h

theorem Poised.openEditBody (h : Poised owed s) (p : Port) (payload : List Byte) : Poised owed (Machine.openEditBody p payload s).1 := by
  unfold Machine.openEditBody
  split
  · exact h
  · split
    · exact h
    · split
      · exact h
      · split_ifs
        · exact h
        · exact h
        · exact h.onStore _

theorem Poised.setFieldBody (h : Poised owed s) (p : Port) (payload : List Byte) : Poised owed (Machine.setFieldBody p payload s).1 := by
  unfold Machine.setFieldBody
  split
  · exact h
  · split
    · exact h
    · split
      · exact h
      · exact h.onStore _

theorem Poised.discardEditBody (h : Poised owed s) (p : Port) : Poised owed (Machine.discardEditBody p s).1 := by
  unfold Machine.discardEditBody
  split
  · exact h
  · exact h.onStore _

theorem Poised.setProtectModeBody (h : Poised owed s) (p : Port) (payload : List Byte) :
    Poised owed (Machine.setProtectModeBody p payload s).1 := by
  unfold Machine.setProtectModeBody
  split
  · exact h
  · next m _ =>
    split
    · exact h
    · exact (h.onStore (Store.onCell .protectMode (.protectMode m) _)).onStore _

/-- A commit that is taken is handed on (R59). -/
theorem Poised.commitEditBody {s : State} (h : Poised nobody s) (p : Port) : Poised nobody (Machine.commitEditBody p s).1 := by
  unfold Machine.commitEditBody
  split
  · exact h
  · split_ifs
    · exact h
    · exact h
    · exact h
    · exact h
    · exact (recorded_committedTo p _ _ s).handOn h

/-! ### Switching, claims and the hunt -/

theorem Poised.tripBody (h : Poised owed s) (p : Port) (f : Feeder) : Poised owed (Machine.tripBody p f s).1 := by
  unfold Machine.tripBody
  dsimp only
  split
  · exact h
  · exact (h.requestTrip f _ none).deliver none _

theorem Poised.closeBody (h : Poised owed s) (p : Port) (f : Feeder) : Poised owed (Machine.closeBody p f s).1 := by
  unfold Machine.closeBody
  dsimp only
  split
  · exact h
  · exact (h.requestPortClose f p).deliver none _

/-- A port takes a lock that is free (R117). -/
theorem Poised.takeLockBody (h : Poised owed s) (p : Port) (f : Feeder) : Poised owed (Machine.takeLockBody p f s).1 := by
  unfold Machine.takeLockBody
  dsimp only
  split
  · exact h
  · next unbarred =>
    split
    · exact h.renewLock f p
    · refine h.changeLock f _ .taken fun _ => ?_
      cases held : (s.feeder f).lock with
      | hunt => rw [held] at unbarred; exact absurd rfl unbarred
      | _ => rfl

/-- A port drops the lock that it holds itself (R117). -/
theorem Poised.dropLockBody (h : Poised owed s) (p : Port) (f : Feeder) : Poised owed (Machine.dropLockBody p f s).1 := by
  unfold Machine.dropLockBody
  dsimp only
  split
  · next own =>
    refine h.changeLock f .free .dropped fun _ => ?_
    cases held : (s.feeder f).lock with
    | hunt => rw [held] at own; exact (Bool.false_ne_true own).elim
    | _ => rfl
  · exact h

theorem Poised.claimDone (h : Poised owed s) (p : Port) (kind : ClaimKind) : Poised owed (Machine.claimDone p kind s).1 := by
  unfold Machine.claimDone
  split
  · exact h
  · exact h.onStore _

theorem Poised.placeClaimBody (h : Poised owed s) (p : Port) (payload : List Byte) (f : Feeder) :
    Poised owed (Machine.placeClaimBody p payload f s).1 := by
  unfold Machine.placeClaimBody
  split
  · exact h
  · next o _ =>
    have entered : SeqMove f s (addClaim (newClaim f p o s) s) := by
      obtain ⟨own, others, store, districts⟩ :=
        seqMove_claimEntered f (newClaim f p o s).info { s with pool := s.pool ++ [newClaim f p o s] }
      exact ⟨own, others, store, districts⟩
    split_ifs
    · exact Poised.claimDone h.same p _
    · exact h
    · exact (h.judged _ entered).claimDone p _

theorem Poised.releaseClaimBody (h : Poised owed s) (p : Port) (payload : List Byte) (f : Feeder) :
    Poised owed (Machine.releaseClaimBody p payload f s).1 := by
  unfold Machine.releaseClaimBody
  dsimp only
  split
  · exact h
  · split_ifs
    · exact h
    · exact h
    · exact (h.removeClaim _ _ _ _ _).claimDone p _

theorem Poised.forceReleaseBody (h : Poised owed s) (p : Port) (payload : List Byte) (f : Feeder) :
    Poised owed (Machine.forceReleaseBody p payload f s).1 := by
  unfold Machine.forceReleaseBody
  dsimp only
  split
  · split_ifs
    · exact h
    · exact h
    · exact h
    · exact (h.removeClaim _ _ _ _ _).claimDone p _
  · exact h

theorem Poised.clearClaim (h : Poised owed s) (n : SystemClaim) (barred : Bool) (f : Feeder) :
    Poised owed (Machine.clearClaim n barred f s).1 := by
  unfold Machine.clearClaim
  split
  · exact h.removeSystemClaim f n
  · exact h

theorem Poised.startHuntBody (h : Poised owed s) : Poised owed (Machine.startHuntBody s).1 := by
  unfold Machine.startHuntBody
  split_ifs
  · exact h
  · exact h
  · exact poised_huntSettle none ((wholeKeeps_poised owed).startHunt .requested s h)

theorem Poised.suspendHuntBody (h : Poised owed s) : Poised owed (Machine.suspendHuntBody s).1 := by
  unfold Machine.suspendHuntBody
  split
  · exact h
  · split_ifs
    · exact h
    · exact h
    · exact (wholeKeeps_poised owed).suspendHunt .identify s h
    · exact h.same

theorem Poised.resumeHuntBody (h : Poised owed s) : Poised owed (Machine.resumeHuntBody s).1 := by
  unfold Machine.resumeHuntBody
  split
  · exact h
  · split_ifs
    · exact poised_huntSettle none ((wholeKeeps_poised owed).resumeFrom _ h)
    · exact h.same
    · exact h

theorem Poised.abortHuntBody (h : Poised owed s) : Poised owed (Machine.abortHuntBody s).1 := by
  unfold Machine.abortHuntBody
  split
  · exact h
  · split
    · exact h
    · exact poised_huntSettle none ((wholeKeeps_poised owed).abortHunt .abortedRequest s h)

theorem Poised.whileRunning (h : Poised owed s) {act : State → State} (acts : Poised owed s → Poised owed (act s)) :
    Poised owed (Machine.whileRunning act s) := Poised.ite (acts h) h

end

/-! ### Every command -/

/-- Every command but a start-up leaves the feeders poised. -/
theorem poised_exec {i : Instr} (hi : isStartUp i = false) {s t : State} (run : exec i s = .next t) (h : Poised nobody s) :
    Poised nobody t := by
  have := everywhere
  cases i with
  | powerOn _ => cases hi
  | powerLoss => cases hi
  | resetAsserted => cases hi
  | resetReleased _ => cases hi
  | restart _ _ _ => cases hi
  | measurementFrame bs => exact next_keeps (Poised nobody) run (h.whileRunning fun ht => ht.deliverUnit bs)
  | linkLossDeadline => exact next_keeps (Poised nobody) run (h.whileRunning fun ht => ht.linkLoss.ite ht)
  | inputScan lv => exact next_keeps (Poised nobody) run (h.whileRunning fun ht => ht.scanInputs lv)
  | invalidTimerExpiry f => exact next_keeps (Poised nobody) run (h.whileRunning fun ht => (ht.declareFault f _).ite ht)
  | transitTimerExpiry f => exact next_keeps (Poised nobody) run (h.whileRunning fun ht => (ht.declareFault f _).ite ht)
  | tripDeadline f => exact next_keeps (Poised nobody) run (h.whileRunning fun ht => ht.operationDue _ _ f)
  | closeDeadline f => exact next_keeps (Poised nobody) run (h.whileRunning fun ht => ht.operationDue _ _ f)
  | deadTimeExpiry f => exact next_keeps (Poised nobody) run (h.whileRunning fun ht => (ht.endDeadTime f).ite ht)
  | reclaimExpiry f => exact next_keeps (Poised nobody) run (h.whileRunning fun ht => ht.reclaimDue f)
  | confirmExpiry => exact next_keeps (Poised nobody) run (h.whileRunning fun ht => ht.confirmDue)
  | trialWatchExpiry => exact next_keeps (Poised nobody) run (h.whileRunning fun ht => ht.trialWatchDue)
  | editLeaseExpiry => exact next_keeps (Poised nobody) run (h.whileRunning fun ht => ht.expireEdit)
  | lockLeaseExpiry f => exact next_keeps (Poised nobody) run (h.whileRunning fun ht => ht.lockLeaseDue f)
  | claimExpiry f p tag => exact next_keeps (Poised nobody) run (h.whileRunning fun ht => ht.claimDue f p tag)
  | storeWriteBegins => exact next_keeps (Poised nobody) run (h.whileRunning fun ht => ht.beginWrite)
  | storeWriteComplete => exact next_keeps (Poised nobody) run (h.whileRunning fun ht => ht.completeWrite)
  | loweringApplied f => exact next_keeps (Poised nobody) run (h.whileRunning fun ht => ht.judgeAgain f)
  | fetch p n => exact next_keeps (Poised nobody) run (h.fetchAt p n)
  | badTransferType p _ => exact next_keeps (Poised nobody) run (h.transfer _ fun _ ht => ht.ite (ht.onPort _ _))
  | frameEndedEarly p => exact next_keeps (Poised nobody) run (h.transfer p fun _ ht => ht.frameEndsEarly p)
  | collidedFrame p => exact next_keeps (Poised nobody) run (h.transfer p fun _ ht => ht.frameCollides p)
  | crewStall x => exact next_keeps (Poised nobody) run (h.crewStalls x)
  | badFrame p => exact next_keeps (Poised nobody) run (h.transfer p fun _ ht => ht.frameArrives p fun _ hu => hu.onPort p _)
  | unknownRequest p => exact next_keeps (Poised nobody) run (h.transfer p fun _ ht => ht.frameArrives p fun _ hu => hu.onPort p _)
  | requestFrameBegins p => exact next_keeps (Poised nobody) run (h.transfer p fun _ ht => ht.frameBegins p)
  | identify _ _ _ => exact next_keeps (Poised nobody) run (h.takeRequest _ _ _ _ fun _ ht => ht)
  | readPart _ _ _ => exact next_keeps (Poised nobody) run (h.takeRequest _ _ _ _ fun _ ht => ht)
  | readFeeder _ _ _ => exact next_keeps (Poised nobody) run (h.takeFeederRequest _ _ _ _ fun _ _ ht => ht)
  | readClaims _ _ _ => exact next_keeps (Poised nobody) run (h.takeRequest _ _ _ _ fun _ ht => ht)
  | readEvents p _ bs => exact next_keeps (Poised nobody) run (h.takeRequest _ _ _ _ fun _ ht => ht.readEventsBody p bs)
  | readFire _ _ _ => exact next_keeps (Poised nobody) run (h.takeRequest _ _ _ _ fun _ ht => ht)
  | readEffective _ _ _ => exact next_keeps (Poised nobody) run (h.takeFeederRequest _ _ _ _ fun f _ ht => ht.readEffectiveBody f)
  | readRecord _ _ bs => exact next_keeps (Poised nobody) run (h.takeRequest _ _ _ _ fun _ ht => ht.readRecordBody bs)
  | readStore _ _ _ => exact next_keeps (Poised nobody) run (h.takeRequest _ _ _ _ fun _ ht => ht)
  | readEdit _ _ _ => exact next_keeps (Poised nobody) run (h.takeEditRequest _ _ _ _ fun _ ht => ht)
  | readHunt _ _ _ => exact next_keeps (Poised nobody) run (h.takeRequest _ _ _ _ fun _ ht => ht)
  | trip p _ _ => exact next_keeps (Poised nobody) run (h.takeFeederRequest _ _ _ _ fun f _ ht => ht.tripBody p f)
  | close p _ _ => exact next_keeps (Poised nobody) run (h.takeFeederRequest _ _ _ _ fun f _ ht => ht.closeBody p f)
  | takeLock p _ _ => exact next_keeps (Poised nobody) run (h.takeFeederRequest _ _ _ _ fun f _ ht => ht.takeLockBody p f)
  | dropLock p _ _ => exact next_keeps (Poised nobody) run (h.takeFeederRequest _ _ _ _ fun f _ ht => ht.dropLockBody p f)
  | placeClaim p _ bs => exact next_keeps (Poised nobody) run (h.takeFeederRequest _ _ _ _ fun f _ ht => ht.placeClaimBody p bs f)
  | releaseClaim p _ bs => exact next_keeps (Poised nobody) run (h.takeFeederRequest _ _ _ _ fun f _ ht => ht.releaseClaimBody p bs f)
  | forceRelease p _ bs => exact next_keeps (Poised nobody) run (h.takeFeederRequest _ _ _ _ fun f _ ht => ht.forceReleaseBody p bs f)
  | clearBreakerFail _ _ _ => exact next_keeps (Poised nobody) run (h.takeFeederRequest _ _ _ _ fun f _ ht => ht.clearClaim _ _ f)
  | clearHuntClaim _ _ _ => exact next_keeps (Poised nobody) run (h.takeFeederRequest _ _ _ _ fun f _ ht => ht.clearClaim _ _ f)
  | clearStoreHold _ _ _ => exact next_keeps (Poised nobody) run (h.takeFeederRequest _ _ _ _ fun f _ ht => ht.clearClaim _ _ f)
  | setFireRequest p _ bs => exact next_keeps (Poised nobody) run (h.takeDistrictRequest _ _ _ _ fun d _ ht => ht.setFireRequestBody p bs d)
  | setFloor p _ bs => exact next_keeps (Poised nobody) run (h.takeDistrictRequest _ _ _ _ fun d _ ht => ht.setFloorBody p bs d)
  | setBanLevel p _ bs => exact next_keeps (Poised nobody) run (h.takeDistrictRequest _ _ _ _ fun d _ ht => ht.setBanLevelBody p bs d)
  | openEdit p _ bs => exact next_keeps (Poised nobody) run (h.takeEditRequest _ _ _ _ fun _ ht => ht.openEditBody p bs)
  | setField p _ bs => exact next_keeps (Poised nobody) run (h.takeEditRequest _ _ _ _ fun _ ht => ht.setFieldBody p bs)
  | commitEdit p _ _ => exact next_keeps (Poised nobody) run (h.takeEditRequest _ _ _ _ fun _ ht => ht.commitEditBody p)
  | discardEdit p _ _ => exact next_keeps (Poised nobody) run (h.takeEditRequest _ _ _ _ fun _ ht => ht.discardEditBody p)
  | setProtectMode p _ bs => exact next_keeps (Poised nobody) run (h.takeRequest _ _ _ _ fun _ ht => ht.setProtectModeBody p bs)
  | freezeSettings _ _ _ => exact next_keeps (Poised nobody) run (h.takeRequest _ _ _ _ fun _ ht => ht.onStore _)
  | startHunt _ _ _ => exact next_keeps (Poised nobody) run (h.takeRequest _ _ _ _ fun _ ht => ht.startHuntBody)
  | suspendHunt _ _ _ => exact next_keeps (Poised nobody) run (h.takeRequest _ _ _ _ fun _ ht => ht.suspendHuntBody)
  | resumeHunt _ _ _ => exact next_keeps (Poised nobody) run (h.takeRequest _ _ _ _ fun _ ht => ht.resumeHuntBody)
  | abortHunt _ _ _ => exact next_keeps (Poised nobody) run (h.takeRequest _ _ _ _ fun _ ht => ht.abortHuntBody)

/-- Every fitted feeder starts up at its target with the stored settings (R84). -/
theorem poised_startValues (cause : StartCause) (straps : BitVec 2) (s : State) : Poised nobody (startValues cause straps s) := by
  have each : ∀ f, Loaded (startValues cause straps s) f ∧ Served (startValues cause straps s) f := fun f =>
    loaded_and_served_of_fresh (feederStarted (t := startValues cause straps s) (f := f) (PerFeeder.get_of _ f)).fire
  exact ⟨fun f => (each f).1, fun f _ => (each f).2⟩

end Sys2Proof.Machine

open Sys2Proof Sys2Proof.Machine

/-- Settles O56: with sound levels the feeders are poised; each command leaves them so by the judgements that it ends with, and each start-up
by its values. -/
theorem stepKeepsQuiescence : Obligations.StepKeepsQuiescence := by
  intro s t levels quiescent run
  have kept : Poised nobody t := by
    refine step_keeps (P := Poised nobody) (fun _ _ h => h.same) (fun _ _ h => h.same) (fun i u v run h => ?_) run
      ((quiescentSound_iff levels.1).1 quiescent)
    cases hi : isStartUp i with
    | false => exact poised_exec hi run h
    | true =>
      exact exec_startUp_keeps (fun _ p ev h => h.offer p ev) poised_startValues (fun _ _ h => h.same)
        (fun q p target payload _ _ acts h => h.takeRequest q p target payload acts) hi run h
  exact (quiescentSound_iff fun f => (kept.1 f).1).2 kept
end

