-- ==== Sys2Proof/Proofs/CrewHolds.lean ====
section
/-! PROOFS. What a request leaves of the feeders and the pool, and how a crew HOLD_OPEN claim leaves the pool (R89, R90, R92). -/
namespace Sys2Proof.Machine

/-! ### The owner's action -/

/-- The feeders and the pool after a request: those of a state like the one before it, as they are or as its owner leaves them. Of the
feeders the request itself renews a lock's lease (R119, R175). -/
structure RequestOn (body : State → State × Reply) (s u t : State) : Prop where
  pool : u.pool = s.pool
  feeders : ∀ f, Light (s.feeder f) (u.feeder f)
  left : (t.feeders = u.feeders ∧ t.pool = u.pool) ∨ (t.feeders = (body u).1.feeders ∧ t.pool = (body u).1.pool)

theorem Light.refl (x : FeederState) : Light x x := rfl

theorem renewLock_light (f : Feeder) (p : Port) (s : State) (g : Feeder) : Light (s.feeder g) ((renewLock f p s).feeder g) := by
  rw [renewLock_form]
  by_cases h : g = f
  · subst h
    rw [State.feeder_onFeeder_self]
    rfl
  · rw [State.feeder_onFeeder_of_ne _ h]
    rfl

theorem renewNamed_light (q : Request) (p : Port) (target : Nat) (s : State) (g : Feeder) :
    Light (s.feeder g) ((renewNamed q p target s).feeder g) := by
  unfold renewNamed
  split
  · exact renewLock_light _ p s g
  · exact .refl _

theorem renewNamed_pool (q : Request) (p : Port) (target : Nat) (s : State) : (renewNamed q p target s).pool = s.pool := by
  unfold renewNamed
  split
  · rw [renewLock_form]; rfl
  · rfl

theorem answer_pool (q : Request) (p : Port) (target : Nat) (r : State × Reply) : (answer q p target r).pool = r.1.pool := by
  unfold answer
  split <;> rfl

/-- A request that is not taken leaves the feeders and the pool; one that is taken leaves them as its owner does (R177, R181). -/
theorem requestOn (q : Request) (p : Port) (target : Byte) (payload : List Byte) (body : State → State × Reply) (s : State) :
    ∃ u, RequestOn body s u (takeRequest q p target payload body s) := by
  have still : ∀ t : State, t.feeders = s.feeders → t.pool = s.pool → ∃ u, RequestOn body s u t :=
    fun t feeders pool => ⟨s, rfl, fun _ => .refl _, .inl ⟨feeders, pool⟩⟩
  have checked : ∀ v : State, v.feeders = s.feeders → v.pool = s.pool →
      ∃ u, RequestOn body s u (checkRequest q p target.toNat payload body v) := fun v feeders pool => by
    unfold checkRequest
    split
    · exact still _ feeders pool
    · have light := renewNamed_light q p target.toNat v
      simp only [State.feeder, feeders] at light
      exact ⟨_, (renewNamed_pool q p _ v).trans pool, light, .inr ⟨answer_feeders _ _ _ _, answer_pool _ _ _ _⟩⟩
  unfold takeRequest transfer
  split
  · exact still _ rfl rfl
  · exact still _ rfl rfl
  · unfold frameArrives
    split
    · exact still _ rfl rfl
    · split
      · exact checked _ rfl rfl
      · exact checked _ rfl rfl
      · exact still _ rfl rfl
      · exact still _ rfl rfl

theorem claimDone_feeders (p : Port) (k : ClaimKind) (s : State) : (claimDone p k s).1.feeders = s.feeders := by cases k <;> rfl

theorem claimDone_pool (p : Port) (k : ClaimKind) (s : State) : (claimDone p k s).1.pool = s.pool := by cases k <;> rfl

theorem removeClaim_feeders (f : Feeder) (k : ClaimKind) (h : Port) (tag : Nat) (cause : ReleaseCause) (s : State) :
    (removeClaim f k h tag cause s).feeders = s.feeders := by
  unfold removeClaim
  split
  · exact broadcast_feeders _ _
  · rfl

/-! ### RELEASE_CLAIM -/

/-- The removal of a claim takes out none of another identity. -/
theorem mem_removeClaim {f : Feeder} {k : ClaimKind} {h : Port} {tag : Nat} {s : State} {c : PortClaim} (hc : c ∈ s.pool)
    (other : c.is f k h tag = false) (cause : ReleaseCause) : c ∈ (removeClaim f k h tag cause s).pool := by
  unfold removeClaim
  split
  · rw [claimLeft, broadcast_pool]
    exact (List.mem_eraseP_of_neg (by simp [other])).2 hc
  · exact hc

theorem ClaimKind.ofCode_holdOpen {n : Nat} (h : ClaimKind.ofCode n = some .holdOpen) : n = 1 := by
  unfold ClaimKind.ofCode at h
  split at h <;> simp_all

/-- RELEASE_CLAIM leaves every claim of another identity than the one that it names (R90). -/
theorem mem_releaseClaimBody {p : Port} {payload : List Byte} {f : Feeder} {s : State} {c : PortClaim} (hc : c ∈ s.pool) :
    c ∈ (releaseClaimBody p payload f s).1.pool ∨
      ∃ k, ClaimKind.ofCode (numberAt payload 0 1) = some k ∧ c.is f k p (numberAt payload 1 2) = true := by
  unfold releaseClaimBody
  dsimp only
  split
  · exact .inl hc
  · next k hk =>
    cases alike : c.is f k p (numberAt payload 1 2) with
    | true => exact .inr ⟨k, hk, alike⟩
    | false =>
      refine .inl ?_
      split
      · exact hc
      · split
        · exact hc
        · rw [claimDone_pool]
          exact mem_removeClaim hc alike _

/-- A crew HOLD_OPEN claim stands through a RELEASE_CLAIM but that of the crew which names it (R90). -/
theorem mem_takeReleaseClaim {p : Port} {target : Byte} {payload : List Byte} {s : State} {c : PortClaim} (hc : c ∈ s.pool)
    (hold : c.kind = .holdOpen) (crew : c.holder = .crew) :
    c ∈ (takeRequest .releaseClaim p target payload (onFeederTarget target (releaseClaimBody p payload)) s).pool ∨
      (p = .crew ∧ Feeder.ofNumber target.toNat = some c.feeder ∧ numberAt payload 0 1 = 1 ∧ numberAt payload 1 2 = c.tag) := by
  obtain ⟨u, pool, -, left⟩ := requestOn .releaseClaim p target payload (onFeederTarget target (releaseClaimBody p payload)) s
  rw [← pool] at hc
  rcases left with ⟨-, kept⟩ | ⟨-, acted⟩
  · exact .inl (kept ▸ hc)
  · rw [acted, onFeederTarget]
    split
    · next f named =>
      refine (mem_releaseClaimBody hc).imp_right ?_
      rintro ⟨k, code, alike⟩
      obtain ⟨rfl, rfl, rfl, tag⟩ := (PortClaim.is_iff _ _ _ _ _).1 alike
      exact ⟨crew, named, ClaimKind.ofCode_holdOpen (hold ▸ code), (tag crew).symm⟩
    · exact .inl hc

/-! ### The other commands -/

/-- No command but RELEASE_CLAIM may take out a crew HOLD_OPEN claim (R92). -/
theorem stays_of_noRelease {i : Instr} (other : ∀ p target payload, i ≠ .releaseClaim p target payload) {c : PortClaim}
    (hold : c.kind = .holdOpen) (crew : c.holder = .crew) : ¬ mayLeave i c := by
  unfold mayLeave
  rintro (kind | named)
  · rw [hold] at kind
    cases kind
  · split at named
    · exact other _ _ _ rfl
    · exact named crew
    · exact named

theorem SameClaim.trans {a b c : PortClaim} (h : SameClaim a b) (k : SameClaim b c) : SameClaim a c := by
  obtain ⟨h1, h2, h3, h4⟩ := h
  obtain ⟨k1, k2, k3, k4⟩ := k
  exact ⟨k1.trans h1, k2.trans h2, k3.trans h3, k4.trans h4⟩

/-- The pool holds a claim of the feeder, kind, holder and tag of another. -/
def Stands (c : PortClaim) (s : State) : Prop := ∃ d, d ∈ s.pool ∧ SameClaim c d

/-- The property is read of the pool alone, and a change of the pool that the command may make leaves the claim. -/
theorem stands_keeps {i : Instr} {c : PortClaim} (stays : ∀ d, SameClaim c d → ¬ mayLeave i d) : PartKeeps i (Stands c) where
  still := fun _ _ _ _ _ h => h
  claim := fun _ _ _ _ _ _ h => h
  level := fun _ _ _ _ h => h
  reload := fun _ _ _ _ _ h => h
  offer := fun s p ev h => by rw [Stands, offer_pool]; exact h
  hunt := fun _ _ h => h
  quiet := fun _ _ _ _ _ h => h
  endOp := fun _ _ _ h => h
  trip := fun _ _ _ _ _ _ h => h
  close := fun _ _ _ _ _ _ _ h => h
  join := fun _ _ _ _ _ _ _ _ h => h
  opId := fun _ h => h
  detector := fun _ _ h => h
  lastHunt := fun _ _ h => h
  load := fun _ _ _ h => h
  pend := fun _ _ h => h
  unfit := fun _ _ h => h
  clearStore := fun _ _ _ h => h
  district := fun _ _ _ h => h
  port := fun _ _ _ h => h
  store := fun _ _ _ h => h
  pool := fun _ _ change ⟨d, hd, same⟩ =>
    let ⟨e, he, next⟩ := change.stays d hd (stays d same)
    ⟨e, he, same.trans next⟩
  link := fun _ _ _ _ _ _ h => h
  contacts := fun _ _ _ _ _ h => h
  meas := fun _ _ _ _ _ _ h => h
  inputs := fun _ _ _ _ _ h => h
  drop := fun _ _ _ h => h
  sent := fun _ _ h => h
  crewWrite := fun _ _ h => h
  free := fun _ _ h => h

end Sys2Proof.Machine

open Sys2Proof Sys2Proof.Machine

/-- Settles O58: RELEASE_CLAIM by what it names, every other command by the changes of the pool that it may make. -/
theorem crewHoldIsReleasedByItsCrew : Obligations.CrewHoldIsReleasedByItsCrew := by
  intro i c s t hc hold crew hi run
  by_cases release : ∃ p target payload, i = .releaseClaim p target payload
  · obtain ⟨p, target, payload, rfl⟩ := release
    cases run
    rcases mem_takeReleaseClaim (p := p) (target := target) (payload := payload) hc hold crew with stands | ⟨rfl, named⟩
    · exact .inl ⟨c, stands, rfl, rfl, rfl, rfl⟩
    · exact .inr ⟨target, payload, rfl, named⟩
  · refine .inl (exec_keeps (stands_keeps fun d same => ?_) hi run ⟨c, hc, rfl, rfl, rfl, rfl⟩)
    obtain ⟨-, kind, holder, -⟩ := same
    exact stays_of_noRelease (fun p target payload e => release ⟨p, target, payload, e⟩) (kind.trans hold) (holder.trans crew)

end

