-- ==== Sys2Proof/Proofs/HoldsBarCloses.lean ====
section
/-! PROOFS. No close starts on a feeder that carries a HOLD_OPEN claim (R99, R109, R110): while the claim stands every close is refused, and
what takes the claim away starts none. -/
namespace Sys2Proof.Machine

/-! ### The close in flight -/

/-- A close in flight on the feeder is the one given. -/
def ClosesOnly (f : Feeder) (x : Option InFlight) (s : State) : Prop := closeOutput s f = true → (s.feeder f).inFlight = x

section
variable {f : Feeder} {x : Option InFlight} {s t : State}

theorem ClosesOnly.congr (h : ClosesOnly f x s) (same : (t.feeder f).inFlight = (s.feeder f).inFlight) : ClosesOnly f x t := by
  unfold ClosesOnly closeOutput at h ⊢
  rw [same]
  exact h

theorem closesOnly_of_none (h : (s.feeder f).inFlight = none) : ClosesOnly f x s := by
  intro closing
  simp [closeOutput, h] at closing

theorem closesOnly_of_trip (h : ∀ y, (s.feeder f).inFlight = some y → y.op.kind = .trip) : ClosesOnly f x s := by
  intro closing
  unfold closeOutput at closing
  split at closing
  · next y hy =>
    rw [h y hy] at closing
    cases closing
  · cases closing

/-- A change of one feeder keeps what holds of another, and of its own feeder what the change is shown to leave. -/
theorem ClosesOnly.onFeeder (h : ClosesOnly f x s) (k : Feeder) (g : FeederState → FeederState)
    (own : k = f → ClosesOnly f x (s.onFeeder f g)) : ClosesOnly f x (s.onFeeder k g) := by
  by_cases hk : k = f
  · rw [hk]
    exact own hk
  · exact h.congr (by rw [State.feeder_onFeeder_of_ne s fun e => hk e.symm])

theorem ClosesOnly.besides (h : ClosesOnly f x s) (k : Feeder) (g : FeederState → FeederState)
    (same : (g (s.feeder k)).inFlight = (s.feeder k).inFlight) : ClosesOnly f x (s.onFeeder k g) :=
  h.onFeeder k g fun e => h.congr (by subst e; rw [State.feeder_onFeeder_self, same])

theorem ClosesOnly.offer (h : ClosesOnly f x s) (p : Port) (ev : Event) : ClosesOnly f x (offer p ev s) :=
  h.congr (by rw [feeder_offer])

theorem Still.inFlight {y z : FeederState} (h : Still y z) : z.inFlight = y.inFlight := by
  unfold Still at h
  rw [h]

/-- What the sequencers, the claim table and the fire level unit do starts no operation. -/
theorem closesOnly_core (f : Feeder) (x : Option InFlight) : CoreKeeps Everywhere (ClosesOnly f x) where
  still := fun _ k _ g hg h => h.besides k g hg.inFlight
  claim := fun _ k _ _ _ _ h => h.besides k _ rfl
  level := fun _ k _ _ h => h.besides k _ rfl
  reload := fun _ k _ _ _ h => h.besides k _ rfl
  offer := fun _ p ev h => h.offer p ev
  hunt := fun _ _ h => h

/-- A request starts no close if its owner's action starts none. -/
theorem ClosesOnly.takeRequest (h : ClosesOnly f x s) (q : Request) (p : Port) (target : Byte) (payload : List Byte)
    {body : State → State × Reply} (acts : ∀ u, ClosesOnly f x u → ClosesOnly f x (body u).1) :
    ClosesOnly f x (takeRequest q p target payload body s) := by
  obtain ⟨u, -, light, left⟩ := requestOn q p target payload body s
  have onU : ClosesOnly f x u := h.congr (light f).still.inFlight
  rcases left with ⟨feeders, -⟩ | ⟨feeders, -⟩
  · exact onU.congr (by rw [State.feeder, feeders]; rfl)
  · exact (acts u onU).congr (by rw [State.feeder, feeders]; rfl)

/-! ### What may take a HOLD_OPEN claim away -/

theorem ClosesOnly.releaseClaimBody (h : ClosesOnly f x s) (p : Port) (payload : List Byte) (k : Feeder) :
    ClosesOnly f x (releaseClaimBody p payload k s).1 := by
  unfold Machine.releaseClaimBody
  dsimp only
  split
  · exact h
  · split
    · exact h
    · split
      · exact h
      · exact h.congr (by rw [State.feeder, claimDone_feeders, removeClaim_feeders]; rfl)

theorem ClosesOnly.forceReleaseBody (h : ClosesOnly f x s) (p : Port) (payload : List Byte) (k : Feeder) :
    ClosesOnly f x (forceReleaseBody p payload k s).1 := by
  unfold Machine.forceReleaseBody
  dsimp only
  split
  · split
    · exact h
    · split
      · exact h
      · split
        · exact h
        · exact h.congr (by rw [State.feeder, claimDone_feeders, removeClaim_feeders]; rfl)
  · exact h

theorem ClosesOnly.clearClaim (h : ClosesOnly f x s) (n : SystemClaim) (barred : Bool) (k : Feeder) :
    ClosesOnly f x (clearClaim n barred k s).1 := by
  have := everywhere
  unfold Machine.clearClaim
  split
  · exact (closesOnly_core f x).setClaimOf k n false s h (h.besides k _ rfl)
  · exact h

theorem ClosesOnly.setSettingsPending (h : ClosesOnly f x s) (k : Feeder) : ClosesOnly f x (setSettingsPending k s) := by
  have := everywhere
  exact (closesOnly_core f x).judgeOf k _ (h.besides k _ rfl)

/-- A commissioned feeder has no operation in flight, and the others stand (R126). -/
theorem ClosesOnly.commissionFeeder (h : ClosesOnly f x s) (k : Feeder) : ClosesOnly f x (commissionFeeder k s) := by
  obtain ⟨q, form, -⟩ := commissionFeeder_spec s k
  rw [form]
  by_cases hk : f = k
  · subst hk
    exact closesOnly_of_none (congrArg FeederState.inFlight (PerFeeder.get_set_self s.feeders f (commissionedFeeder s f)))
  · exact h.congr (congrArg FeederState.inFlight (PerFeeder.get_set_of_ne s.feeders hk (commissionedFeeder s k)))

theorem ClosesOnly.commitEditBody (h : ClosesOnly f x s) (p : Port) : ClosesOnly f x (commitEditBody p s).1 := by
  have := everywhere
  have handOn : ∀ (r : RecordName) (b : State), ClosesOnly f x b → ClosesOnly f x (handOnCommit r b) := by
    intro r b hb
    unfold handOnCommit
    split
    · split
      · exact ite_keeps _ (hb.setSettingsPending _) hb
      · exact hb
    · exact forFeeders_keeps (ClosesOnly f x) _ (fun k t ht => ht.setSettingsPending k) _ _ hb
    · exact hb.commissionFeeder _
    · exact hb
  unfold Machine.commitEditBody
  split
  · exact h
  · split_ifs
    · exact h
    · exact h
    · exact h
    · exact h
    · exact handOn _ _ h

end

/-! ### While the claim stands -/

theorem holdsHoldOpen_iff (s : State) (f : Feeder) :
    holdsHoldOpen s f = true ↔ (s.feeder f).claims.store = true ∨ ∃ c, c ∈ s.pool ∧ c.feeder = f ∧ c.kind = .holdOpen := by
  simp only [holdsHoldOpen, blockSet, List.any_append, List.any_map, Bool.or_eq_true, List.any_eq_true, List.mem_filter, portClaims,
    Function.comp, decide_eq_true_eq]
  refine or_congr ⟨fun ⟨n, ⟨_, has⟩, kind⟩ => ?_, fun h => ⟨.store, ⟨by decide, h⟩, rfl⟩⟩ ⟨fun ⟨c, ⟨hc, at_⟩, kind⟩ => ⟨c, hc, at_, kind⟩,
    fun ⟨c, hc, at_, kind⟩ => ⟨c, ⟨hc, at_⟩, kind⟩⟩
  cases n with
  | store => exact has
  | _ => cases kind

/-- The feeder carries a HOLD_OPEN claim, and a close in flight on it is the one given. -/
def Barred (f : Feeder) (x : Option InFlight) (s : State) : Prop := holdsHoldOpen s f = true ∧ ClosesOnly f x s

/-- The command may take a HOLD_OPEN claim away: a release, CLEAR_STORE_HOLD, or the commit of a commissioning record (R90, R92, R98, R101). -/
def mayEndHold : Instr → Bool
  | .releaseClaim _ _ _ => true
  | .forceRelease _ _ _ => true
  | .clearStoreHold _ _ _ => true
  | .commitEdit _ _ _ => true
  | _ => false

theorem not_mayLeave_of_holdOpen {i : Instr} (hi : mayEndHold i = false) {c : PortClaim} (hold : c.kind = .holdOpen) : ¬ mayLeave i c := by
  unfold mayLeave
  rintro (kind | named)
  · rw [hold] at kind
    cases kind
  · split at named
    · cases hi
    · cases hi
    · exact named

theorem not_mayClearStore {i : Instr} (hi : mayEndHold i = false) : ¬ mayClearStore i := by
  unfold mayClearStore
  split
  · cases hi
  · cases hi
  · exact id

section
variable {f : Feeder} {x : Option InFlight} {s t : State}

theorem holdsHoldOpen_congr (pool : t.pool = s.pool) (store : (t.feeder f).claims.store = (s.feeder f).claims.store) :
    holdsHoldOpen t f = holdsHoldOpen s f := by
  rw [Bool.eq_iff_iff, holdsHoldOpen_iff, holdsHoldOpen_iff, pool, store]

/-- A change of feeders that leaves the STORE claims leaves the feeder barred if no close starts on it. -/
theorem Barred.onFeeder (h : Barred f x s) (k : Feeder) (g : FeederState → FeederState)
    (store : (g (s.feeder k)).claims.store = (s.feeder k).claims.store) (own : k = f → ClosesOnly f x (s.onFeeder f g)) :
    Barred f x (s.onFeeder k g) := by
  refine ⟨(holdsHoldOpen_congr (s := s) (t := s.onFeeder k g) rfl ?_).trans h.1, h.2.onFeeder k g own⟩
  by_cases hk : f = k
  · subst hk
    rw [State.feeder_onFeeder_self, store]
  · rw [State.feeder_onFeeder_of_ne s hk]

theorem Barred.besides (h : Barred f x s) (k : Feeder) (g : FeederState → FeederState)
    (store : (g (s.feeder k)).claims.store = (s.feeder k).claims.store := by rfl)
    (same : (g (s.feeder k)).inFlight = (s.feeder k).inFlight := by rfl) : Barred f x (s.onFeeder k g) :=
  h.onFeeder k g store fun e => e ▸ h.2.besides k g same

theorem Barred.offer (h : Barred f x s) (p : Port) (ev : Event) : Barred f x (offer p ev s) :=
  ⟨(holdsHoldOpen_congr (offer_pool _ _ _) (by rw [feeder_offer])).trans h.1, h.2.offer p ev⟩

theorem Still.claims {y z : FeederState} (h : Still y z) : z.claims = y.claims := by
  unfold Still at h
  rw [h]

theorem SystemClaims.store_put {n : SystemClaim} (hn : n ≠ .store) (c : SystemClaims) (on : Bool) : (c.put n on).store = c.store := by
  cases n with
  | store => exact absurd rfl hn
  | _ => rfl

/-- A claim of a HOLD_OPEN kind outlives the changes of the pool of a command that may not take one away. -/
theorem Barred.pool {i : Instr} (hi : mayEndHold i = false) (h : Barred f x s) {pool : List PortClaim} (change : PoolChange i s.pool pool) :
    Barred f x { s with pool := pool } := by
  refine ⟨(holdsHoldOpen_iff _ _).2 (((holdsHoldOpen_iff _ _).1 h.1).imp_right ?_), h.2⟩
  rintro ⟨c, hc, at_, hold⟩
  obtain ⟨d, hd, feeder, kind, -⟩ := change.stays c hc (not_mayLeave_of_holdOpen hi hold)
  exact ⟨d, hd, feeder.trans at_, kind.trans hold⟩

end

/-- Every elementary update of such a command leaves the feeder barred: a close is admitted on no feeder that carries the claim (R110). -/
theorem barred_keeps (f : Feeder) (x : Option InFlight) {i : Instr} (hi : mayEndHold i = false) : PartKeeps i (Barred f x) where
  still := fun _ k _ g hg h => h.besides k g (congrArg SystemClaims.store hg.claims) hg.inFlight
  claim := fun _ k _ _ _ hn h => h.besides k _ (SystemClaims.store_put hn _ _)
  level := fun _ k _ _ h => h.besides k _
  reload := fun _ k _ _ _ h => h.besides k _
  offer := fun _ p ev h => h.offer p ev
  hunt := fun _ _ h => h
  quiet := fun _ k _ g hg h => h.besides k g (congrArg SystemClaims.store hg.claims) hg.inFlight
  endOp := fun s k _ h => h.onFeeder k _ rfl fun _ => closesOnly_of_none (by rw [State.feeder_onFeeder_self])
  trip := fun s k _ op d kind h => h.onFeeder k _ rfl fun _ => closesOnly_of_trip fun y hy => by
    rw [State.feeder_onFeeder_self] at hy
    cases hy
    exact kind
  close := fun s k _ op d _ free h => h.onFeeder k _ rfl fun e => by
    rw [e, h.1] at free
    cases free
  join := fun s k _ y origin permit hy kind h => h.onFeeder k _ rfl fun e => closesOnly_of_trip fun z hz => by
    subst e
    rw [State.feeder_onFeeder_self, hy] at hz
    cases hz
    exact kind
  opId := fun _ h => h
  detector := fun _ _ h => h
  lastHunt := fun _ _ h => h
  load := fun _ k _ h => h.besides k _
  pend := fun _ k h => h.besides k _
  unfit := fun _ k h => h.besides k _
  clearStore := fun clears => absurd clears (not_mayClearStore hi)
  district := fun _ _ _ h => h
  port := fun _ _ _ h => h
  store := fun _ _ _ h => h
  pool := fun _ _ change h => h.pool hi change
  link := fun _ _ _ _ _ _ h => h
  contacts := fun _ _ k _ _ h => h.besides k _
  meas := fun _ _ k _ _ _ h => h.besides k _
  inputs := fun _ _ _ _ _ h => h
  drop := fun _ _ _ h => h
  sent := fun _ _ h => h
  crewWrite := fun _ _ h => h
  free := fun _ _ h => h

/-! ### Every command -/

/-- A start-up leaves no operation in flight (R103). -/
theorem closesOnly_startUp {f : Feeder} {x : Option InFlight} {i : Instr} (hi : isStartUp i = true) {s t : State}
    (run : exec i s = .next t) (h : ClosesOnly f x s) : ClosesOnly f x t :=
  exec_startUp_keeps (fun _ p ev h => h.offer p ev)
    (fun cause straps s => closesOnly_of_none
      (feederStarted (t := startValues cause straps s) (f := f) (PerFeeder.get_of _ f)).switching.1)
    (fun _ _ h => h) (fun q p target payload _ _ acts h => h.takeRequest q p target payload acts) hi run h

/-- A request that may take the claim away starts no operation. -/
theorem closesOnly_endHold {f : Feeder} {x : Option InFlight} {i : Instr} (hi : mayEndHold i = true) {s t : State}
    (run : exec i s = .next t) (h : ClosesOnly f x s) : ClosesOnly f x t := by
  have := everywhere
  cases i with
  | releaseClaim p target payload =>
    exact next_keeps (ClosesOnly f x) run (h.takeRequest _ _ _ _ fun u hu =>
      onFeederTarget_keeps (ClosesOnly f x) target _ (fun k v _ hv => hv.releaseClaimBody p payload k) u hu)
  | forceRelease p target payload =>
    exact next_keeps (ClosesOnly f x) run (h.takeRequest _ _ _ _ fun u hu =>
      onFeederTarget_keeps (ClosesOnly f x) target _ (fun k v _ hv => hv.forceReleaseBody p payload k) u hu)
  | clearStoreHold p target payload =>
    exact next_keeps (ClosesOnly f x) run (h.takeRequest _ _ _ _ fun u hu =>
      onFeederTarget_keeps (ClosesOnly f x) target _ (fun k v _ hv => hv.clearClaim .store false k) u hu)
  | commitEdit p target payload =>
    exact next_keeps (ClosesOnly f x) run (h.takeRequest _ _ _ _ fun u hu => ClosesOnly.commitEditBody (s := renewEdit p u) hu p)
  | _ => cases hi

end Sys2Proof.Machine

open Sys2Proof Sys2Proof.Machine

/-- Settles O59: a start-up leaves nothing in flight, a request that takes the claim away starts nothing, and under any other command the
claim stands and bars every close. -/
theorem noCloseAgainstAHold : Obligations.NoCloseAgainstAHold := by
  intro i f s t hold run
  have before : ClosesOnly f (s.feeder f).inFlight s := fun _ => rfl
  cases start : isStartUp i with
  | true => exact closesOnly_startUp start run before
  | false =>
    cases ends : mayEndHold i with
    | true => exact closesOnly_endHold ends run before
    | false => exact (exec_keeps (barred_keeps f _ ends) start run ⟨(holdsHoldOpen_iff s f).2 hold, before⟩).2

end

