-- ==== Sys2Proof/Proofs/ClaimRequests.lean ====
section
/-! PROOFS. The claim requests (R87 to R92, R96 to R98): the fields of their payloads, what PLACE_CLAIM, RELEASE_CLAIM, FORCE_RELEASE and the
clearing requests make of the pool and of a feeder's system claims, and their refusals. -/
namespace Sys2Proof.Machine

/-! ### Fields of the payloads -/

theorem tagInRange_eq (h : Port) (tag : Nat) : tagInRange h tag = h.tagFits tag := by cases h <;> rfl

theorem tag_lt_of_tagFits {h : Port} {tag : Nat} (fits : h.tagFits tag = true) : tag < 65536 := by
  cases h <;> simp [Port.tagFits] at fits <;> omega

theorem ClaimKind.ofCode_code (k : ClaimKind) : ClaimKind.ofCode k.code = some k := by cases k <;> rfl

theorem ClaimKind.ofCode_none {n : Nat} (h : 2 ≤ n) : ClaimKind.ofCode n = none := by
  unfold ClaimKind.ofCode
  split <;> first | omega | rfl

theorem portOfCode_portCode (h : Port) : portOfCode (portCode h) = some h := by cases h <;> rfl

theorem portOfCode_none {n : Nat} (h : n = 0 ∨ 4 ≤ n) : portOfCode n = none := by
  unfold portOfCode
  split <;> first | omega | rfl

theorem ClaimKind.code_lt (k : ClaimKind) : k.code < 256 := by cases k <;> decide

theorem portCode_lt (h : Port) : portCode h < 256 := by cases h <;> decide

/-- The fields of a RELEASE_CLAIM are read as they were laid out (R192). -/
theorem releasePayload_reads {kind tag : Nat} (hk : kind < 256) (ht : tag < 65536) :
    numberAt (be1 kind ++ be2 tag) 0 1 = kind ∧ numberAt (be1 kind ++ be2 tag) 1 2 = tag := by
  simp [numberAt, be1, be2, readNumber]
  omega

/-- The fields of a FORCE_RELEASE are read as they were laid out (R192). -/
theorem forcePayload_reads {kind holder tag : Nat} (hk : kind < 256) (hh : holder < 256) (ht : tag < 65536) :
    numberAt (be1 kind ++ be1 holder ++ be2 tag) 0 1 = kind ∧ numberAt (be1 kind ++ be1 holder ++ be2 tag) 1 1 = holder ∧
      numberAt (be1 kind ++ be1 holder ++ be2 tag) 2 2 = tag := by
  simp [numberAt, be1, be2, readNumber]
  omega

/-- The tag and the expiry of a PLACE_CLAIM are read as they were laid out, in range or not (R192). -/
theorem claimPayload_reads {k : ClaimKind} {reason tag : Nat} {expiry : Option Nat} (ht : tag < 65536)
    (he : ∀ e, expiry = some e → e < 4294967296) :
    ClaimKind.ofCode (numberAt (claimPayload k reason tag expiry) 0 1) = some k ∧
      numberAt (claimPayload k reason tag expiry) 2 2 = tag ∧ orderedExpiry (claimPayload k reason tag expiry) = expiry := by
  refine ⟨by cases k <;> rfl, ?_, ?_⟩
  · simp [numberAt, claimPayload, be1, be2, readNumber]
    omega
  · cases expiry with
    | none => rfl
    | some e =>
      have hle := he e rfl
      simp [orderedExpiry, numberAt, claimPayload, be1, be2, be4, beOpt, readNumber]
      omega

/-- A tag or an expiry out of its range is refused by the checks of R87. -/
theorem claimOrder_refused {p : Port} {k : ClaimKind} {reason tag : Nat} {expiry : Option Nat} (ht : tag < 65536)
    (he : ∀ e, expiry = some e → e < 4294967296)
    (bad : p.tagFits tag = false ∨ ∃ e, expiry = some e ∧ (k = .holdOpen ∨ e < 60 ∨ 86400 < e)) :
    claimOrder p (claimPayload k reason tag expiry) = none := by
  obtain ⟨hkind, htag, hexpiry⟩ := claimPayload_reads (k := k) (reason := reason) ht he
  simp only [claimOrder, hkind, htag, hexpiry, tagInRange_eq]
  rcases bad with unfit | ⟨e, rfl, bad⟩
  · rw [unfit]
    rfl
  · refine if_neg fun fits => ?_
    simp only [within, Bool.and_eq_true, decide_eq_true_eq] at fits
    obtain ⟨-, ⟨low, high⟩, kind⟩ := fits
    rcases bad with hold | bad
    · rw [hold] at kind
      cases kind
    · omega

/-! ### The claim of an identity -/

theorem findClaim_none {s : State} {f : Feeder} {k : ClaimKind} {h : Port} {tag : Nat}
    (absent : ∀ c, c ∈ s.pool → c.is f k h tag = false) : findClaim s f k h tag = none :=
  List.find?_eq_none.2 fun c hc => by simp [absent c hc]

/-- In a pool without duplicates a claim is the only one of its identity (R86). -/
theorem eq_of_alike {pool : List PortClaim} (h : Distinct pool) {c d : PortClaim} (hc : c ∈ pool) (hd : d ∈ pool)
    (alike : c.alike d = true) : d = c := by
  have unlike : pool.Pairwise fun x y => ¬ x.alike y = true := by simpa only [Distinct, ← PortClaim.alike_iff] using h
  have : Std.Symm fun x y : PortClaim => ¬ x.alike y = true := ⟨fun _ _ hxy hyx => hxy (PortClaim.alike_symm hyx)⟩
  by_contra ne
  exact unlike.forall hc hd (fun e => ne e.symm) alike

theorem findClaim_isSome {s : State} {c : PortClaim} (hc : c ∈ s.pool) :
    (findClaim s c.feeder c.kind c.holder c.tag).isSome = true :=
  List.find?_isSome.2 ⟨c, hc, c.alike_self⟩

/-- The removal of a claim by its identity takes out that claim alone, and is reported (R86, R100). -/
theorem removeClaim_spec {s : State} (sound : PoolSound s) {c : PortClaim} (hc : c ∈ s.pool) (cause : ReleaseCause) :
    removeClaim c.feeder c.kind c.holder c.tag cause s =
      broadcast (.claimReleased c.feeder c.info cause) { s with pool := s.pool.filter fun d => decide (d ≠ c) } := by
  obtain ⟨found, erased⟩ := find_erase_of_distinct sound.2 hc
  have find : findClaim s c.feeder c.kind c.holder c.tag = some c := found
  rw [removeClaim, find, ← erased]
  rfl

/-! ### PLACE_CLAIM -/

section
variable {p : Port} {f : Feeder} {payload : List Byte} {s s₀ : State}

theorem exec_placeClaim (taken : Takes .placeClaim p f.byte payload (listens p s₀)) :
    exec (.placeClaim p f.byte payload) s₀ =
      .next (answer .placeClaim p f.number (placeClaimBody p payload f (namingFeeder f p (listens p s₀)))) :=
  congrArg Host.Outcome.next (taken.onFeeder rfl (placeClaimBody p payload))

/-- Out of a dead time a claim that joins the pool is reported and does no more (R87, R100). -/
theorem addClaim_reported {c : PortClaim} (hd : (s.feeder c.feeder).ar.state ≠ .deadTime) :
    judged c.feeder (addClaim c) s = broadcast (.claimPlaced c.feeder c.info) { s with pool := s.pool ++ [c] } := by
  have added : addClaim c s = broadcast (.claimPlaced c.feeder c.info) { s with pool := s.pool ++ [c] } :=
    claimEntered_other (s := { s with pool := s.pool ++ [c] }) hd _
  rw [judged_same, added]
  rw [added, feeder_broadcast]
  rfl

theorem placeClaimBody_range (bad : claimOrder p payload = none) : placeClaimBody p payload f s = (s, .plain .range) := by
  rw [placeClaimBody, bad]

theorem claimOrder_badKind (bad : 2 ≤ numberAt payload 0 1) : claimOrder p payload = none := by
  rw [claimOrder, ClaimKind.ofCode_none bad]

/-- A full pool refuses a new identity (R87). -/
theorem placeClaimBody_full {o : ClaimOrder} (ordered : claimOrder p payload = some o)
    (absent : ∀ c, c ∈ s.pool → c.is f o.kind p o.tag = false) (full : s.pool.length = 32) :
    placeClaimBody p payload f s = (s, .plain .full) := by
  have size : poolSize ≤ s.pool.length := full.ge
  simp [placeClaimBody, ordered, findClaim_none absent, size]

/-- A placement of the identity of a claim of the pool changes its reason and expiry in place (R88). -/
theorem placeClaimBody_renews {c : PortClaim} (sound : PoolSound s) (hc : c ∈ s.pool) {o : ClaimOrder}
    (ordered : claimOrder c.holder payload = some o) (kind : o.kind = c.kind) (tag : o.tag = c.tag) :
    placeClaimBody c.holder payload c.feeder s = claimDone c.holder c.kind
      { s with pool := s.pool.map fun d =>
          if d = c then { c with reason := o.reason, expiry := o.deadline s.partTime } else d } := by
  have found := findClaim_isSome hc
  have renewed : renewClaim c.feeder c.holder o s =
      { s with pool := s.pool.map fun d => if d = c then { c with reason := o.reason, expiry := o.deadline s.partTime } else d } := by
    refine congrArg (fun l => { s with pool := l }) (List.map_congr_left fun d hd => ?_)
    rw [kind, tag]
    by_cases same : d = c
    · subst same
      exact (if_pos d.alike_self).trans (if_pos rfl).symm
    · exact (if_neg fun alike => same (eq_of_alike sound.2 hc hd alike)).trans (if_neg same).symm
  simp only [placeClaimBody, ordered, kind, tag, found, if_true, renewed]

end

/-! ### RELEASE_CLAIM and FORCE_RELEASE -/

section
variable {p : Port} {f : Feeder} {payload : List Byte} {s s₀ : State}

theorem exec_releaseClaim (taken : Takes .releaseClaim p f.byte payload (listens p s₀)) :
    exec (.releaseClaim p f.byte payload) s₀ =
      .next (answer .releaseClaim p f.number (releaseClaimBody p payload f (namingFeeder f p (listens p s₀)))) :=
  congrArg Host.Outcome.next (taken.onFeeder rfl (releaseClaimBody p payload))

theorem exec_forceRelease (taken : Takes .forceRelease p f.byte payload (listens p s₀)) :
    exec (.forceRelease p f.byte payload) s₀ =
      .next (answer .forceRelease p f.number (forceReleaseBody p payload f (namingFeeder f p (listens p s₀)))) :=
  congrArg Host.Outcome.next (taken.onFeeder rfl (forceReleaseBody p payload))

/-- RELEASE_CLAIM of an identity in range, which the pool holds or not (R90). -/
theorem releaseClaimBody_inRange {k : ClaimKind} {tag : Nat} (fits : p.tagFits tag = true) :
    releaseClaimBody p (be1 k.code ++ be2 tag) f s =
      if (findClaim s f k p tag).isNone then (s, .plain .state) else claimDone p k (removeClaim f k p tag .released s) := by
  obtain ⟨kind, number⟩ := releasePayload_reads k.code_lt (tag_lt_of_tagFits fits)
  simp only [releaseClaimBody, kind, number, ClaimKind.ofCode_code, tagInRange_eq, fits, Bool.true_eq_false, if_false]

theorem releaseClaimBody_range {kind tag : Nat} (hk : kind < 256) (ht : tag < 65536) (bad : 2 ≤ kind ∨ p.tagFits tag = false) :
    releaseClaimBody p (be1 kind ++ be2 tag) f s = (s, .plain .range) := by
  obtain ⟨code, number⟩ := releasePayload_reads hk ht
  simp only [releaseClaimBody, code, number, tagInRange_eq]
  rcases bad with bad | unfit
  · rw [ClaimKind.ofCode_none bad]
  · cases ClaimKind.ofCode kind with
    | none => rfl
    | some k => exact if_pos unfit

/-- FORCE_RELEASE of an identity in range, which the pool holds or not; a HOLD_OPEN claim of the crew is refused (R92). -/
theorem forceReleaseBody_inRange {k : ClaimKind} {h : Port} {tag : Nat} (fits : h.tagFits tag = true) :
    forceReleaseBody p (be1 k.code ++ be1 (portCode h) ++ be2 tag) f s =
      if (findClaim s f k h tag).isNone then (s, .plain .state)
      else if k = .holdOpen ∧ h = .crew then (s, .plain .rights)
      else claimDone p k (removeClaim f k h tag .forced s) := by
  obtain ⟨kind, holder, number⟩ := forcePayload_reads k.code_lt (portCode_lt h) (tag_lt_of_tagFits fits)
  simp only [forceReleaseBody, kind, holder, number, ClaimKind.ofCode_code, portOfCode_portCode, tagInRange_eq, fits,
    Bool.true_eq_false, if_false]

theorem forceReleaseBody_range {kind holder tag : Nat} (hk : kind < 256) (hh : holder < 256) (ht : tag < 65536)
    (bad : 2 ≤ kind ∨ holder = 0 ∨ 4 ≤ holder ∨ ∃ h, portCode h = holder ∧ h.tagFits tag = false) :
    forceReleaseBody p (be1 kind ++ be1 holder ++ be2 tag) f s = (s, .plain .range) := by
  obtain ⟨code, named, number⟩ := forcePayload_reads hk hh ht
  simp only [forceReleaseBody, code, named, number, tagInRange_eq]
  rcases bad with bad | none | high | ⟨h, rfl, unfit⟩
  · rw [ClaimKind.ofCode_none bad]
  · rw [portOfCode_none (.inl none)]
    cases ClaimKind.ofCode kind <;> rfl
  · rw [portOfCode_none (.inr high)]
    cases ClaimKind.ofCode kind <;> rfl
  · rw [portOfCode_portCode]
    cases ClaimKind.ofCode kind with
    | none => rfl
    | some k => exact if_pos unfit

end

/-! ### The clearing requests -/

theorem namingFeeder_positionFault (f : Feeder) (p : Port) (s : State) (g : Feeder) :
    ((namingFeeder f p s).feeder g).positionFault = (s.feeder g).positionFault := by
  rw [namingFeeder_light f p s g]

section
variable {f : Feeder} {s : State}

/-- The system claim is cleared while it is present and not barred, and the clearing is reported (R96 to R98). -/
theorem clearClaim_eq (n : SystemClaim) (barred : Bool) :
    clearClaim n barred f s =
      if (s.feeder f).claims.has n = true ∧ barred = false then
        (broadcast (.claimReleased f (.system n) .cleared)
          (s.onFeeder f fun z => { z with claims := (s.feeder f).claims.put n false }), .ok)
      else (s, .plain .state) := by
  unfold clearClaim
  by_cases clear : (s.feeder f).claims.has n = true ∧ barred = false
  · rw [if_pos clear, if_pos (by simp [clear]), removeSystemClaim, setSystemClaim_false, withoutClaim, if_pos clear.1]
    rfl
  · rw [if_neg clear, if_neg (by simpa using clear)]

/-- A clearing request that is taken, its owner reading the claims and the position fault of the feeder as they stood before it. -/
theorem answer_clearClaim (q : Request) (p : Port) (n : SystemClaim) (barred : Bool) :
    answer q p f.number (clearClaim n barred f (namingFeeder f p s)) =
      if (s.feeder f).claims.has n = true ∧ barred = false then
        respond p .ok [] (broadcast (.claimReleased f (.system n) .cleared)
          ((namingFeeder f p s).onFeeder f fun z => { z with claims := (s.feeder f).claims.put n false }))
      else respond p .state [] (namingFeeder f p s) := by
  have claims : ((namingFeeder f p s).feeder f).claims = (s.feeder f).claims := (namingFeeder_light f p s f).still.claims
  rw [clearClaim_eq, claims]
  split <;> rfl

end

end Sys2Proof.Machine

open Sys2Proof Sys2Proof.Machine

/-- Settles O34: each placement by the first check of R87 that it meets. -/
theorem placementsJoinRenewOrAreRefused : Obligations.PlacementsJoinRenewOrAreRefused := by
  delta Obligations.PlacementsJoinRenewOrAreRefused
  constructor
  · intro p f k reason tag expiry s₀ s hr fits he taken absent room alive deadline c b
    have joined : judged f (addClaim c) (namingFeeder f p s) = b := by
      rw [addClaim_reported (c := c) (by rw [namingFeeder_ar]; exact alive), namingFeeder_pool]
      rfl
    have new : newClaim f p { kind := k, reason := reason, tag := tag, expiry := expiry } (namingFeeder f p s) = c := by
      rw [newClaim, ClaimOrder.deadline, namingFeeder_partTime]
    rw [exec_placeClaim taken, placeClaimBody_new (claimOrder_claimPayload hr fits he) (by rw [namingFeeder_pool]; exact absent)
      (by rw [namingFeeder_pool]; exact room), new, joined]
    cases k <;> rfl
  · intro p f s₀ s
    refine ⟨?_, ?_, fun payload taken bad => ?_⟩
    · rintro c reason expiry hc sound rfl rfl fits hr he taken b
      have renewed : placeClaimBody c.holder (claimPayload c.kind reason c.tag expiry) c.feeder (namingFeeder c.feeder c.holder s) =
          claimDone c.holder c.kind b := by
        refine (placeClaimBody_renews (by rw [PoolSound, namingFeeder_pool]; exact sound) (by rw [namingFeeder_pool]; exact hc)
          (claimOrder_claimPayload hr fits he) rfl rfl).trans (congrArg (claimDone c.holder c.kind) ?_)
        simp only [b, namingFeeder_pool, ClaimOrder.deadline, namingFeeder_partTime]
      rw [exec_placeClaim taken, renewed]
      clear_value b
      cases c.kind <;> rfl
    · refine fun k reason tag expiry hr ht he taken => ⟨fun bad => ?_, fun fits he absent full => ?_⟩
      · rw [exec_placeClaim taken, placeClaimBody_range (claimOrder_refused ht he bad)]
        rfl
      · rw [exec_placeClaim taken, placeClaimBody_full (claimOrder_claimPayload hr fits he) (by rw [namingFeeder_pool]; exact absent)
          (by rw [namingFeeder_pool]; exact full)]
        rfl
    · rw [exec_placeClaim taken, placeClaimBody_range (claimOrder_badKind bad)]
      rfl

/-- Settles O35: a release by the identity that it names in a pool without duplicates, a clearing request by the claim that it reads. -/
theorem claimsAreReleasedAndCleared : Obligations.ClaimsAreReleasedAndCleared := by
  delta Obligations.ClaimsAreReleasedAndCleared
  refine ⟨?_, ?_, ?_⟩
  · intro p s₀ s
    constructor
    · intro c hc sound fits gone done
      have hc' : c ∈ (namingFeeder c.feeder p s).pool := by rw [namingFeeder_pool]; exact hc
      have removed : ∀ cause, removeClaim c.feeder c.kind c.holder c.tag cause (namingFeeder c.feeder p s) = gone cause := fun cause => by
        rw [removeClaim_spec (by rw [PoolSound, namingFeeder_pool]; exact sound) hc', namingFeeder_pool]
      have found : (findClaim (namingFeeder c.feeder p s) c.feeder c.kind c.holder c.tag).isNone = false := by
        rw [← Option.not_isSome, findClaim_isSome hc']
        rfl
      have answered : ∀ q b, answer q p c.feeder.number (claimDone p c.kind b) = done q b := fun q b => by
        dsimp only [done]
        cases c.kind <;> rfl
      refine ⟨fun own taken => ?_, fun taken => ?_⟩
      · subst own
        rw [exec_releaseClaim taken, releaseClaimBody_inRange fits, found, removed, if_neg Bool.false_ne_true]
        exact congrArg Host.Outcome.next (answered _ _)
      · rw [exec_forceRelease taken, forceReleaseBody_inRange fits, found, removed, if_neg Bool.false_ne_true]
        by_cases barred : c.kind = .holdOpen ∧ c.holder = .crew
        · rw [if_pos barred, if_pos barred]
          rfl
        · rw [if_neg barred, if_neg barred]
          exact congrArg Host.Outcome.next (answered _ _)
    · intro f k h tag fits absent
      have missing : findClaim (namingFeeder f p s) f k h tag = none := findClaim_none (by rw [namingFeeder_pool]; exact absent)
      refine ⟨fun own taken => ?_, fun taken => ?_⟩
      · subst own
        rw [exec_releaseClaim taken, releaseClaimBody_inRange fits, missing]
        rfl
      · rw [exec_forceRelease taken, forceReleaseBody_inRange fits, missing]
        rfl
  · intro p f kind holder tag s₀ hk hh ht s fits
    have unfit : ∀ h, ¬ fits h → h.tagFits tag = false := fun h bad => by
      cases h <;> simp [fits, Port.tagFits] at bad ⊢ <;> omega
    refine ⟨fun taken bad => ?_, fun taken bad => ?_⟩
    · rw [exec_releaseClaim taken, releaseClaimBody_range hk ht (bad.imp_right (unfit p))]
      rfl
    · rw [exec_forceRelease taken, forceReleaseBody_range hk hh ht
        (bad.imp_right (.imp_right (.imp_right fun ⟨h, code, no⟩ => ⟨h, code, unfit h no⟩)))]
      rfl
  · intro p f s₀ s x a cleared
    refine ⟨?_, ?_, ?_⟩
    · intro taken
      refine congrArg Host.Outcome.next ((taken.onFeeder rfl (clearClaim .hunt false)).trans ((answer_clearClaim _ _ _ _).trans ?_))
      simp only [and_true]
      rfl
    · intro taken
      refine congrArg Host.Outcome.next ((taken.onFeeder rfl clearBreakerFailBody).trans ((answer_clearClaim _ _ _ _).trans ?_))
      simp only [namingFeeder_positionFault, Option.isSome_eq_false_iff, Option.isNone_iff_eq_none]
      rfl
    · intro taken
      refine congrArg Host.Outcome.next ((taken.onFeeder rfl (clearClaim .store false)).trans ((answer_clearClaim _ _ _ _).trans ?_))
      simp only [and_true]
      rfl

end

