-- ==== Sys2Proof/Proofs/OneFeeder.lean ====
section
/-! PROOFS. The deadlines of a feeder and the requests that name it, while no hunt runs: what the blocks do with them reaches no other
feeder, no claim on another, no district and no hunt (R104, R123, R174). -/
namespace Sys2Proof.Machine

/-- Of another state this one differs in nothing outside a feeder's own: no hunt runs, the other feeders stand, so do the port claims
on them and the districts. -/
structure Beside (f : Feeder) (r s : State) : Prop where
  hunt : s.hunt = none
  others : ∀ g, g ≠ f → s.feeder g = r.feeder g
  claims : ∀ g, g ≠ f → portClaims s g = portClaims r g
  districts : s.districts = r.districts

/-- What is taken out of a list is none of those that another condition selects. -/
theorem filter_eraseP_of_apart {α : Type} {p q : α → Bool} {l : List α} (apart : ∀ a ∈ l, p a = true → q a = false) :
    (l.eraseP p).filter q = l.filter q := by
  obtain same | ⟨a, before, after, -, taken, whole, left⟩ := List.exists_or_eq_self_of_eraseP p l
  · rw [same]
  · have out : ¬ q a = true := by simp [apart a (by simp [whole]) taken]
    rw [left, whole, List.filter_append, List.filter_append, List.filter_cons_of_neg out]

section
variable {f : Feeder} {r s t : State}

/-! ### Elementary updates -/

theorem Beside.same (h : Beside f r s) (hunt : t.hunt = s.hunt := by rfl) (feeders : t.feeders = s.feeders := by rfl)
    (pool : t.pool = s.pool := by rfl) (districts : t.districts = s.districts := by rfl) : Beside f r t where
  hunt := hunt.trans h.hunt
  others := fun g hg => by rw [State.feeder, feeders]; exact h.others g hg
  claims := fun g hg => by rw [portClaims, pool]; exact h.claims g hg
  districts := districts.trans h.districts

theorem Beside.onFeeder (h : Beside f r s) (k : FeederState → FeederState) : Beside f r (s.onFeeder f k) where
  hunt := h.hunt
  others := fun g hg => (State.feeder_onFeeder_of_ne s hg k).trans (h.others g hg)
  claims := h.claims
  districts := h.districts

theorem Beside.broadcast (h : Beside f r s) (ev : Event) : Beside f r (Machine.broadcast ev s) :=
  h.same (broadcast_hunt ev s) (broadcast_feeders ev s) (broadcast_pool ev s) (broadcast_districts ev s)

/-- A change of the claims on the feeder. -/
theorem Beside.pool (h : Beside f r s) {pool : List PortClaim}
    (kept : ∀ g, g ≠ f → pool.filter (fun c => decide (c.feeder = g)) = portClaims s g) : Beside f r { s with pool := pool } where
  hunt := h.hunt
  others := h.others
  claims := fun g hg => (kept g hg).trans (h.claims g hg)
  districts := h.districts

theorem Beside.ite (h : Beside f r s) {p : Prop} [Decidable p] (k : Beside f r t) : Beside f r (if p then s else t) := by
  split
  · exact h
  · exact k

/-! ### Judgements and moves of the sequencer -/

/-- With no hunt a judgement raises no hunt level (R81). -/
theorem Beside.judge (h : Beside f r s) : Beside f r (Machine.judge f s) where
  hunt := (HuntIdle.judge ⟨h.hunt, rfl⟩ f).hunt
  others := fun g hg => (judge_other hg s).trans (h.others g hg)
  claims := by
    have := everywhere
    have shell : SameShell s (Machine.judge f s) := (shell_stays s).judge s f (.refl s)
    simp only [portClaims, shell.pool]
    exact h.claims
  districts := (judge_part f s).districts.trans h.districts

theorem Beside.judged (act : State → State) (h : Beside f r (act s)) : Beside f r (Machine.judged f act s) := by
  unfold Machine.judged
  exact h.ite h.judge

theorem Beside.arMove (h : Beside f r s) (new : ArRecord) (c : ArCause) (d : LockoutDetail) : Beside f r (Machine.arMove f new c d s) := by
  have moved := h.onFeeder fun x => { x with ar := new }
  unfold Machine.arMove
  exact moved.ite (((moved.broadcast _).ite moved).broadcast _)

theorem Beside.seqTripCompletion (h : Beside f r s) (c : Completed) : Beside f r (Machine.seqTripCompletion f c s) := by
  have lockout := fun cause detail => h.arMove { (s.feeder f).ar.enter .lockout s.partTime with cause := some cause } cause detail
  have manual : Beside f r (toOpenManual f s) := h.arMove _ _ _
  have judged : Beside f r (judgeSequence f c.op.permit s) :=
    (lockout _ _).ite ((lockout _ _).ite ((lockout _ _).ite (h.arMove _ _ _)))
  unfold Machine.seqTripCompletion
  dsimp only
  split
  · exact h
  · exact h
  · exact h.ite manual
  · exact Beside.ite (lockout _ _) h
  · exact Beside.ite (lockout _ _) manual
  · exact judged.ite manual
  · exact judged.ite manual
  · exact judged.ite manual
  · exact h.ite manual
  · exact h
  · exact h
  · exact h
  · exact lockout _ _
  · exact h

theorem Beside.seqRecloseCompletion (h : Beside f r s) (c : Completed) : Beside f r (Machine.seqRecloseCompletion f c s) := by
  unfold Machine.seqRecloseCompletion
  refine h.ite ?_
  split
  · exact Beside.ite (h.arMove _ _ _) h
  · exact Beside.ite (h.arMove _ _ _) h
  · exact Beside.ite (h.arMove _ _ _) h
  · exact Beside.ite (h.onFeeder _) h

theorem Beside.seqCloseCompletion (h : Beside f r s) (c : Completed) : Beside f r (Machine.seqCloseCompletion f c s) := by
  unfold Machine.seqCloseCompletion
  split <;> first | exact h | exact h.arMove _ _ _

theorem Beside.seqCompletion (h : Beside f r s) (c : Completed) : Beside f r (Machine.seqCompletion f c s) := by
  unfold Machine.seqCompletion
  split
  · exact h.seqTripCompletion c
  · exact (h.seqRecloseCompletion c).ite (h.seqCloseCompletion c)

/-! ### Claims -/

theorem Beside.claimEntered (h : Beside f r s) (c : ClaimInfo) : Beside f r (Machine.claimEntered f c s) :=
  Beside.ite ((h.broadcast _).arMove _ _ _) (h.broadcast _)

theorem Beside.setSystemClaim (h : Beside f r s) (n : SystemClaim) (on : Bool) : Beside f r (Machine.setSystemClaim f n on s) :=
  h.ite (Beside.ite ((h.onFeeder _).claimEntered _) ((h.onFeeder _).broadcast _))

theorem Beside.placeSystemClaim (h : Beside f r s) (n : SystemClaim) : Beside f r (Machine.placeSystemClaim f n s) :=
  Beside.judged _ (h.setSystemClaim n true)

/-- A claim that is removed is one on the feeder (R86). -/
theorem Beside.removeClaim (h : Beside f r s) (k : ClaimKind) (p : Port) (tag : Nat) (cause : ReleaseCause) :
    Beside f r (Machine.removeClaim f k p tag cause s) := by
  unfold Machine.removeClaim
  split
  · refine (h.pool fun g hg => ?_).broadcast _
    have apart : ∀ c ∈ s.pool, c.is f k p tag = true → decide (c.feeder = g) = false := fun c _ alike =>
      decide_eq_false fun e => hg (e.symm.trans ((PortClaim.is_iff _ _ _ _ _).1 alike).1)
    exact filter_eraseP_of_apart apart
  · exact h

/-- A claim that is added is one on the feeder (R86). -/
theorem Beside.addClaim (h : Beside f r s) {c : PortClaim} (own : c.feeder = f) : Beside f r (Machine.addClaim c s) := by
  subst own
  refine (h.pool fun g hg => ?_).claimEntered _
  rw [List.filter_append, List.filter_singleton, decide_eq_false fun e => hg e.symm]
  exact List.append_nil _

/-- A claim that is renewed is one on the feeder (R88). -/
theorem Beside.renewClaim (h : Beside f r s) (p : Port) (o : ClaimOrder) : Beside f r (Machine.renewClaim f p o s) := by
  refine h.pool fun g hg => ?_
  rw [List.filter_map]
  have same : s.pool.filter ((fun c => decide (c.feeder = g)) ∘ fun c : PortClaim =>
      if c.is f o.kind p o.tag then { c with reason := o.reason, expiry := o.deadline s.partTime } else c) = portClaims s g :=
    List.filter_congr fun c _ => by
      dsimp only [Function.comp]
      split <;> rfl
  rw [same]
  refine (List.map_congr_left fun c hc => ?_).trans (List.map_id _)
  have apart : ¬ c.is f o.kind p o.tag = true := fun alike =>
    hg ((of_decide_eq_true (List.mem_filter.1 hc).2).symm.trans ((PortClaim.is_iff _ _ _ _ _).1 alike).1)
  exact if_neg apart

theorem Beside.claimDone (h : Beside f r s) (p : Port) (k : ClaimKind) : Beside f r (Machine.claimDone p k s).1 := by
  cases k
  · exact h
  · exact h.same

/-! ### Operations and locks -/

theorem Beside.sendOpDone (h : Beside f r s) (c : Completed) (sup : Option (Nat × Origin)) : Beside f r (Machine.sendOpDone f c sup s) := by
  rw [sendOpDone_form]
  exact h.same

theorem Beside.reportCompletion (h : Beside f r s) (c : Completed) (sup : Option (Nat × Origin)) :
    Beside f r (Machine.reportCompletion f c sup s) :=
  Beside.judged _ (((h.onFeeder _).sendOpDone c sup).seqCompletion c)

theorem Beside.admitOp (h : Beside f r s) (kind : OpKind) (o : Origin) (permit : Option Bool) :
    Beside f r (Machine.admitOp f kind o permit s) :=
  Beside.same (h.onFeeder fun x =>
    { x with
      inFlight := some { op := newOperation s kind o permit, deadline := s.partTime + confirmTimeOf s f kind }, transitTimer := none })

theorem Beside.joinTrip (h : Beside f r s) (o : Origin) (permit : Option Bool) : Beside f r (Machine.joinTrip f o permit s) :=
  h.onFeeder _

theorem Beside.completeAlready (h : Beside f r s) (kind : OpKind) (o : Origin) (permit : Option Bool) :
    Beside f r (Machine.completeAlready f kind o permit s).1 := Beside.reportCompletion h.same _ none

theorem Beside.requestTrip (h : Beside f r s) (o : Origin) (permit : Option Bool) : Beside f r (Machine.requestTrip f o permit s).1 := by
  unfold Machine.requestTrip
  split
  · split
    · exact h.joinTrip o permit
    · exact (h.admitOp .trip o permit).reportCompletion _ _
  · split
    · exact h.completeAlready .trip o permit
    · exact h.admitOp .trip o permit

theorem Beside.requestPortClose (h : Beside f r s) (p : Port) : Beside f r (Machine.requestPortClose f p s).1 := by
  unfold Machine.requestPortClose
  dsimp only
  split_ifs
  · exact h
  · exact h
  · exact h
  · exact h.completeAlready .close _ none
  · exact h
  · exact h
  · exact h.admitOp .close _ none

theorem Beside.requestReclose (h : Beside f r s) : Beside f r (Machine.requestReclose f s).1 := by
  unfold Machine.requestReclose requestBlockClose
  dsimp only
  split_ifs
  · exact h
  · exact h
  · exact h.completeAlready .close .reclose none
  · exact h
  · exact h
  · exact h.admitOp .close .reclose none

theorem Beside.completeInFlight (h : Beside f r s) (op : Operation) (o : OpOutcome) : Beside f r (Machine.completeInFlight f op o s).1 :=
  Beside.reportCompletion (Beside.ite (((h.onFeeder _).broadcast _).placeSystemClaim .breaker) (h.onFeeder _)) _ none

theorem Beside.completeOperation (h : Beside f r s) (op : Operation) (o : OpOutcome) :
    Beside f r (Machine.completeOperation f op o s) := by
  have ended := h.completeInFlight op o
  unfold Machine.completeOperation
  dsimp only
  rw [deliver_none none ended.hunt]
  exact Beside.judge (Beside.ite (ended.onFeeder _) ended)

/-- With no hunt there is nobody to tell of what a switching unit did (R114). -/
theorem Beside.switched {x : State × SwitchAnswer × List HuntNotice} (h : Beside f r x.1) : Beside f r (Machine.switched x).1 := by
  show Beside f r (deliver none x.2.2 x.1)
  rwa [deliver_none none h.hunt]

theorem Beside.changeLock (h : Beside f r s) (l : Lock) (c : LockCause) : Beside f r (Machine.changeLock f l c s) :=
  (h.onFeeder _).broadcast _

theorem Beside.renewLock (h : Beside f r s) (p : Port) : Beside f r (Machine.renewLock f p s) := by
  rw [renewLock_form]
  exact h.onFeeder _

/-! ### Deadlines -/

theorem Beside.declareFault (h : Beside f r s) (kind : FaultKind) : Beside f r (Machine.declareFault f kind s) := by
  cases kind
  · rw [declareFault_invalid]
    exact ((h.onFeeder _).placeSystemClaim .breaker).broadcast _
  · rw [declareFault_transit]
    exact ((h.onFeeder _).placeSystemClaim .breaker).broadcast _

theorem Beside.operationDue (h : Beside f r s) (kind : OpKind) (wanted : Position) : Beside f r (Machine.operationDue kind wanted f s) := by
  unfold Machine.operationDue
  dsimp only
  split
  · exact h
  · exact Beside.ite (h.completeOperation _ _) h

theorem Beside.endDeadTime (h : Beside f r s) : Beside f r (Machine.endDeadTime f s) := by
  have asked : Beside f r (Machine.requestReclose f (Machine.judged f (seqToClosing f) s)).1 :=
    (Beside.judged _ (h.arMove _ _ _)).requestReclose
  refine Beside.ite ?_ (Beside.judged _ (h.arMove _ _ _))
  unfold recloseAnswer
  split
  · exact asked.onFeeder _
  · exact Beside.judged _ (asked.arMove _ _ _)
  · exact asked
  · exact asked

theorem Beside.lockLeaseDue (h : Beside f r s) : Beside f r (Machine.lockLeaseDue f s) := by
  unfold Machine.lockLeaseDue
  split
  · exact Beside.ite (h.changeLock _ _) h
  · exact h

theorem Beside.claimDue (h : Beside f r s) (p : Port) (tag : Nat) : Beside f r (Machine.claimDue f p tag s) := by
  unfold Machine.claimDue
  split
  · exact Beside.ite (h.removeClaim _ _ _ _) h
  · exact h

/-! ### Requests -/

/-- A request that names the feeder reaches nothing beside it if its owner's action does not (R119, R174, R181). -/
theorem Beside.takeRequest (h : Beside f r s) (q : Request) (p : Port) {target : Byte} (payload : List Byte)
    (named : Feeder.ofNumber target.toNat = some f) {body : State → State × Reply} (acts : ∀ t, Beside f r t → Beside f r (body t).1) :
    Beside f r (Machine.takeRequest q p target payload body s) := by
  have onPort : ∀ {t : State} (g : PortUnit → PortUnit), Beside f r t → Beside f r (t.onPort p g) := fun _ ht => ht.same
  have checked : ∀ t, Beside f r t → Beside f r (checkRequest q p target.toNat payload body t) := fun t ht => by
    have renewed : Beside f r (renewNamed q p target.toNat t) := by
      unfold renewNamed Request.targetFeeder
      rw [named]
      cases q.targetKind with
      | feeder => exact ht.renewLock p
      | feederOrAll => exact ht.renewLock p
      | _ => exact ht
    have acted := acts _ renewed
    unfold checkRequest
    split
    · exact onPort _ ht
    · unfold answer
      split
      · exact onPort _ acted
      · exact onPort _ acted
      · exact acted
  unfold Machine.takeRequest transfer
  split
  · exact h
  · exact h.same
  · have heard : Beside f r (listens p s) := h.same
    unfold frameArrives
    refine heard.ite ?_
    split
    · exact checked _ (onPort _ heard)
    · exact checked _ (onPort _ heard)
    · exact onPort _ heard
    · exact onPort _ heard

theorem Beside.takeFeederRequest (h : Beside f r s) (q : Request) (p : Port) {target : Byte} (payload : List Byte)
    (named : Feeder.ofNumber target.toNat = some f) {body : Feeder → State → State × Reply}
    (acts : ∀ t, Beside f r t → Beside f r (body f t).1) :
    Beside f r (Machine.takeRequest q p target payload (onFeederTarget target body) s) :=
  h.takeRequest q p payload named fun t ht => by
    rw [onFeederTarget, named]
    exact acts t ht

theorem Beside.tripBody (h : Beside f r s) (p : Port) : Beside f r (Machine.tripBody p f s).1 := by
  unfold Machine.tripBody
  dsimp only
  split
  · exact h
  · exact (h.requestTrip _ _).switched

theorem Beside.closeBody (h : Beside f r s) (p : Port) : Beside f r (Machine.closeBody p f s).1 := by
  unfold Machine.closeBody
  dsimp only
  split
  · exact h
  · exact (h.requestPortClose p).switched

theorem Beside.takeLockBody (h : Beside f r s) (p : Port) : Beside f r (Machine.takeLockBody p f s).1 := by
  unfold Machine.takeLockBody
  dsimp only
  split_ifs
  · exact h
  · exact h.renewLock p
  · exact h.changeLock _ _

theorem Beside.dropLockBody (h : Beside f r s) (p : Port) : Beside f r (Machine.dropLockBody p f s).1 := by
  unfold Machine.dropLockBody
  dsimp only
  split
  · exact h.changeLock _ _
  · exact h

theorem Beside.placeClaimBody (h : Beside f r s) (p : Port) (payload : List Byte) : Beside f r (Machine.placeClaimBody p payload f s).1 := by
  unfold Machine.placeClaimBody
  split
  · exact h
  · split_ifs
    · exact (h.renewClaim p _).claimDone p _
    · exact h
    · exact Beside.claimDone (Beside.judged _ (h.addClaim rfl)) p _

theorem Beside.releaseClaimBody (h : Beside f r s) (p : Port) (payload : List Byte) :
    Beside f r (Machine.releaseClaimBody p payload f s).1 := by
  unfold Machine.releaseClaimBody
  dsimp only
  split
  · exact h
  · split_ifs
    · exact h
    · exact h
    · exact (h.removeClaim _ _ _ _).claimDone p _

theorem Beside.forceReleaseBody (h : Beside f r s) (p : Port) (payload : List Byte) :
    Beside f r (Machine.forceReleaseBody p payload f s).1 := by
  unfold Machine.forceReleaseBody
  dsimp only
  split
  · split_ifs
    · exact h
    · exact h
    · exact h
    · exact (h.removeClaim _ _ _ _).claimDone p _
  · exact h

theorem Beside.clearClaim (h : Beside f r s) (n : SystemClaim) (barred : Bool) : Beside f r (Machine.clearClaim n barred f s).1 := by
  unfold Machine.clearClaim
  split
  · exact h.setSystemClaim n false
  · exact h

theorem Beside.readEffectiveBody (h : Beside f r s) : Beside f r (Machine.readEffectiveBody f s).1 := by
  unfold Machine.readEffectiveBody
  split <;> exact h

end

/-! ### Every command of a feeder -/

/-- A deadline of a feeder and a request that names it reach nothing beside the feeder while no hunt runs. -/
theorem beside_exec {i : Instr} {f : Feeder} {s t : State} (noHunt : s.hunt = none) (about : feederOf i = some f)
    (he : exec i s = .next t) : Beside f s t := by
  have h : Beside f s s := ⟨noHunt, fun _ _ => rfl, fun _ _ => rfl, rfl⟩
  have next : ∀ {u : State}, (Host.Outcome.next u : Host.Outcome State Fault Refusal) = .next t → Beside f s u → Beside f s t :=
    fun he hu => Host.Outcome.next.inj he ▸ hu
  have running : ∀ {act : State → State}, Beside f s (act s) → Beside f s (whileRunning act s) := fun acted => acted.ite h
  cases i with
  | invalidTimerExpiry k => cases about; exact next he (running (Beside.ite (h.declareFault _) h))
  | transitTimerExpiry k => cases about; exact next he (running (Beside.ite (h.declareFault _) h))
  | tripDeadline k => cases about; exact next he (running (h.operationDue _ _))
  | closeDeadline k => cases about; exact next he (running (h.operationDue _ _))
  | deadTimeExpiry k => cases about; exact next he (running (Beside.ite h.endDeadTime h))
  | reclaimExpiry k => cases about; exact next he (running (Beside.ite (Beside.judged _ (h.arMove _ _ _)) h))
  | lockLeaseExpiry k => cases about; exact next he (running h.lockLeaseDue)
  | claimExpiry k p tag => cases about; exact next he (running (h.claimDue p tag))
  | loweringApplied k => cases about; exact next he (running h.judge)
  | readFeeder p _ bs => exact next he (h.takeFeederRequest _ p bs about fun _ ht => ht)
  | readClaims p _ bs => exact next he (h.takeRequest _ p bs about fun _ ht => ht)
  | readEffective p _ bs => exact next he (h.takeFeederRequest _ p bs about fun _ ht => ht.readEffectiveBody)
  | trip p _ bs => exact next he (h.takeFeederRequest _ p bs about fun _ ht => ht.tripBody p)
  | close p _ bs => exact next he (h.takeFeederRequest _ p bs about fun _ ht => ht.closeBody p)
  | takeLock p _ bs => exact next he (h.takeFeederRequest _ p bs about fun _ ht => ht.takeLockBody p)
  | dropLock p _ bs => exact next he (h.takeFeederRequest _ p bs about fun _ ht => ht.dropLockBody p)
  | placeClaim p _ bs => exact next he (h.takeFeederRequest _ p bs about fun _ ht => ht.placeClaimBody p bs)
  | releaseClaim p _ bs => exact next he (h.takeFeederRequest _ p bs about fun _ ht => ht.releaseClaimBody p bs)
  | forceRelease p _ bs => exact next he (h.takeFeederRequest _ p bs about fun _ ht => ht.forceReleaseBody p bs)
  | clearBreakerFail p _ bs => exact next he (h.takeFeederRequest _ p bs about fun _ ht => ht.clearClaim _ _)
  | clearHuntClaim p _ bs => exact next he (h.takeFeederRequest _ p bs about fun _ ht => ht.clearClaim _ _)
  | clearStoreHold p _ bs => exact next he (h.takeFeederRequest _ p bs about fun _ ht => ht.clearClaim _ _)
  | _ => cases about

end Sys2Proof.Machine

open Sys2Proof Sys2Proof.Machine

/-- Settles O60: every block that such a command reaches acts beside no other feeder, and with no hunt nobody is told of it. -/
theorem feederCommandsTouchOneFeeder : Obligations.FeederCommandsTouchOneFeeder := fun _ _ g _ _ noHunt about other he =>
  have h := beside_exec noHunt about he
  ⟨h.others g other, h.claims g other, h.hunt, h.districts⟩

end

