-- ==== Sys2Proof/Proofs/SwitchRequests.lean ====
section
/-! PROOFS. TRIP, CLOSE, TAKE_LOCK and DROP_LOCK (R104 to R109, R117, R119): the lock as the requests meet it, and what the switching unit
makes of a request that passes it. -/
namespace Sys2Proof.Machine

section
variable {p : Port} {f : Feeder} {s s₀ : State}

/-! ### The lock -/

/-- A request at a port that does not hold the feeder's lock renews no lease (R119). -/
theorem namingFeeder_apart (apart : ∀ d, (s.feeder f).lock ≠ .port p d) : namingFeeder f p s = receive p s := by
  unfold namingFeeder renewLock
  split
  · next q d held => exact if_neg fun own => apart d (by rw [← own]; exact held)
  · rfl

/-- A request at the port that holds the feeder's lock renews its lease (R119). -/
theorem namingFeeder_holder {d : Nat} (held : (s.feeder f).lock = .port p d) :
    namingFeeder f p s = receive p (s.onFeeder f fun x => { x with lock := .port p (s.partTime + 300000) }) := by
  have held' : ((receive p s).feeder f).lock = .port p d := held
  simp only [namingFeeder, renewLock, held', if_true]
  rfl

/-- A lock bars a port when the hunt or another port holds it (R119). -/
theorem Lock.bars_port (p q : Port) (d : Nat) : (Lock.port q d).bars p = true ↔ q ≠ p := by simp [Lock.bars]

/-- A lock that bars a port is not the port's own. -/
theorem Lock.apart_of_bars {l : Lock} (barred : l.bars p = true) (d : Nat) : l ≠ .port p d := fun own => by
  rw [own, Lock.bars_port] at barred
  exact barred rfl

/-- The lease's renewal changes nothing of whom the lock bars (R119). -/
theorem namingFeeder_bars (f : Feeder) (p : Port) (s : State) : ((namingFeeder f p s).feeder f).lock.bars p = (s.feeder f).lock.bars p := by
  cases held : (s.feeder f).lock with
  | port q d =>
    by_cases own : q = p
    · subst own
      rw [namingFeeder_holder held, State.feeder, receive, State.onPort]
      simp [Lock.bars]
    · rw [namingFeeder_apart fun d' e => own (by rw [held] at e; cases e; rfl)]
      exact congrArg (Lock.bars · p) held
  | _ =>
    rw [namingFeeder_apart fun d' e => by rw [held] at e; cases e]
    exact congrArg (Lock.bars · p) held

theorem changeLock_receive (f : Feeder) (l : Lock) (c : LockCause) (p : Port) (s : State) :
    changeLock f l c (receive p s) = receive p (changeLock f l c s) := by
  unfold changeLock receive
  rw [← broadcast_onPort]
  rfl

theorem exec_takeLock (taken : Takes .takeLock p f.byte [] (listens p s₀)) :
    exec (.takeLock p f.byte []) s₀ = .next (answer .takeLock p f.number (takeLockBody p f (namingFeeder f p (listens p s₀)))) :=
  congrArg Host.Outcome.next (taken.onFeeder rfl (takeLockBody p))

theorem exec_dropLock (taken : Takes .dropLock p f.byte [] (listens p s₀)) :
    exec (.dropLock p f.byte []) s₀ = .next (answer .dropLock p f.number (dropLockBody p f (namingFeeder f p (listens p s₀)))) :=
  congrArg Host.Outcome.next (taken.onFeeder rfl (dropLockBody p))

/-- TAKE_LOCK once taken, by the lock's holder (R117). -/
theorem answer_takeLock (s : State) :
    answer .takeLock p f.number (takeLockBody p f (namingFeeder f p s)) =
      match (s.feeder f).lock with
      | .free =>
        respond p .ok []
          (broadcast (.lockChange f .nobody (.port p) .taken) (s.onFeeder f fun x => { x with lock := .port p (s.partTime + 300000) }))
      | .port q _ =>
        if q = p then respond p .ok [] (s.onFeeder f fun x => { x with lock := .port p (s.partTime + 300000) })
        else respond p .held [BitVec.ofNat 8 (portCode q)] s
      | .hunt => respond p .held [4#8] s := by
  have refused : ∀ l, (s.feeder f).lock = l → l.bars p = true →
      answer .takeLock p f.number (takeLockBody p f (namingFeeder f p s)) = respond p .held (be1 l.holder.code) s := fun l held barred => by
    have barred' : ((receive p s).feeder f).lock.bars p = true := by rw [← held] at barred; exact barred
    rw [namingFeeder_apart fun d => held ▸ Lock.apart_of_bars barred d, takeLockBody, if_pos barred', ← respond_receive, ← held]
    rfl
  cases held : (s.feeder f).lock with
  | free =>
    have held' : ((receive p s).feeder f).lock = .free := held
    rw [namingFeeder_apart fun d => by rw [held]; exact Lock.noConfusion]
    simp only [takeLockBody, held', Lock.bars, Lock.heldByPort, Bool.false_eq_true, if_false, changeLock_receive]
    refine (respond_receive p .ok [] _).trans ?_
    rw [changeLock, held]
    rfl
  | port q d =>
    dsimp only
    by_cases own : q = p
    · subst own
      rw [if_pos rfl, namingFeeder_holder held]
      simp only [takeLockBody, receive, State.onPort, State.feeder, State.onFeeder, PerFeeder.get_set_self, Lock.bars, Lock.heldByPort,
        renewLock, ne_eq, not_true_eq_false, decide_false, Bool.false_eq_true, if_false, if_true, PerFeeder.set_set]
      exact respond_receive q .ok [] (s.onFeeder f fun x => { x with lock := .port q (s.partTime + 300000) })
    · rw [if_neg own, refused _ held ((Lock.bars_port p q d).2 own)]
      rfl
  | hunt => exact refused _ held rfl

/-- DROP_LOCK once taken, by the lock's holder (R117). -/
theorem answer_dropLock (s : State) :
    answer .dropLock p f.number (dropLockBody p f (namingFeeder f p s)) =
      match (s.feeder f).lock with
      | .port q _ =>
        if q = p then
          respond p .ok [] (broadcast (.lockChange f (.port p) .nobody .dropped) (s.onFeeder f fun x => { x with lock := .free }))
        else respond p .state [] s
      | _ => respond p .state [] s := by
  have refused : ∀ l, (s.feeder f).lock = l → (∀ d, l ≠ .port p d) → (l.heldByPort && !l.bars p) = false →
      answer .dropLock p f.number (dropLockBody p f (namingFeeder f p s)) = respond p .state [] s := fun l held apart out => by
    have out' : ((((receive p s).feeder f).lock).heldByPort && !(((receive p s).feeder f).lock).bars p) = false := by
      rw [← held] at out
      exact out
    rw [namingFeeder_apart fun d => held ▸ apart d, dropLockBody, if_neg (by rw [out']; exact Bool.false_ne_true), ← respond_receive]
    rfl
  cases held : (s.feeder f).lock with
  | free => exact refused _ held (fun _ => Lock.noConfusion) rfl
  | port q d =>
    dsimp only
    by_cases own : q = p
    · subst own
      rw [if_pos rfl, namingFeeder_holder held]
      have lock : ((receive q (s.onFeeder f fun x => { x with lock := .port q (s.partTime + 300000) })).feeder f).lock =
          .port q (s.partTime + 300000) := congrArg FeederState.lock (PerFeeder.get_set_self _ _ _)
      simp only [dropLockBody, lock, Lock.heldByPort, Lock.bars, ne_eq, not_true_eq_false, decide_false, Bool.not_false, Bool.and_self,
        if_true, changeLock_receive]
      refine (respond_receive q .ok [] _).trans ?_
      rw [changeLock, State.feeder_onFeeder_self, State.onFeeder_onFeeder]
      rfl
    · have barred := (Lock.bars_port p q d).2 own
      rw [if_neg own]
      exact refused _ held (Lock.apart_of_bars barred) (by rw [barred]; rfl)
  | hunt => exact refused _ held (fun _ => Lock.noConfusion) rfl

end

end Sys2Proof.Machine

open Sys2Proof Sys2Proof.Machine

/-- Settles O33: the lock as a port's request meets it, by its holder. -/
theorem locksAreTakenAndDropped : Obligations.LocksAreTakenAndDropped := by
  intro p f s₀ s
  refine ⟨fun taken => ?_, fun taken => ?_, rfl⟩
  · rw [exec_takeLock taken]
    exact congrArg Host.Outcome.next (answer_takeLock s)
  · rw [exec_dropLock taken]
    exact congrArg Host.Outcome.next (answer_dropLock s)

end

