-- ==== Sys2Proof/Proofs/TripsAndCloses.lean ====
section
/-! PROOFS. A port's TRIP and CLOSE (R104 to R109, R114): the answer ALREADY, the trip that supersedes a close, and the state in which the
owner of either finds the feeder. -/
namespace Sys2Proof.Machine

/-! ### ALREADY -/

section
variable {f : Feeder} {s : State}

/-- A trip ALREADY reaches a sequencer in DEAD_TIME alone, and a port's or the hunt's close ALREADY none (R128, R135, R137). -/
theorem seqCompletion_already {c : Completed} (already : c.outcome = .already)
    (trip : c.op.kind = .trip → (s.feeder f).ar.state ≠ .deadTime) (close : c.op.kind = .close → c.op.origin ≠ .reclose) :
    seqCompletion f c s = s := by
  unfold seqCompletion
  cases kind : c.op.kind with
  | trip =>
    have awake := trip kind
    dsimp only
    rw [seqTripCompletion, already]
    cases h : (s.feeder f).ar.state <;> first | rfl | exact absurd h awake
  | close =>
    dsimp only
    rw [if_neg (close kind), seqCloseCompletion, already]
    cases (s.feeder f).ar.state <;> rfl

theorem sendOpDone_ar (f g : Feeder) (c : Completed) (sup : Option (Nat × Origin)) (s : State) :
    ((sendOpDone f c sup s).feeder g).ar = (s.feeder g).ar := by
  rw [sendOpDone_form]
  rfl

/-- A port's request answered ALREADY is the last operation under the next op id and is reported to the port; the sequencer and the hunt
take no notice of it (R105, R106, R114). -/
theorem completeAlready_port {kind : OpKind} (p : Port) (awake : kind = .trip → (s.feeder f).ar.state ≠ .deadTime) :
    completeAlready f kind (.port p) none s =
      (sendOpDone f { op := newOperation s kind (.port p) none, outcome := .already, completed := s.partTime } none
        (advanceOpId (s.onFeeder f fun z =>
          { z with lastOp := some { op := newOperation s kind (.port p) none, outcome := .already, completed := s.partTime } })), []) := by
  let c : Completed := { op := newOperation s kind (.port p) none, outcome := .already, completed := s.partTime }
  let u := sendOpDone f c none (advanceOpId (s.onFeeder f fun z => { z with lastOp := some c }))
  have record : (u.feeder f).ar = (s.feeder f).ar :=
    (sendOpDone_ar f f c none _).trans (by
      show ((s.onFeeder f fun z => { z with lastOp := some c }).feeder f).ar = _
      rw [State.feeder_onFeeder_self])
  have still : seqCompletion f c u = u := seqCompletion_already rfl (fun trip => by rw [record]; exact awake trip) fun _ => Origin.noConfusion
  refine Prod.ext (?_ : judged f (seqCompletion f c) u = u) ?_
  · rw [judged_same (by rw [still]), still]
  · show huntNotices f c none = []
    simp [huntNotices, c, newOperation]

end

/-! ### CLOSE -/

/-- A port's CLOSE past the lock, by the checks 2 to 7 (R109). -/
theorem requestPortClose_spec (f : Feeder) (p : Port) (s : State) :
    requestPortClose f p s =
      (let x := s.feeder f
       let close := newOperation s .close (.port p) none
       let c : Completed := { op := close, outcome := .already, completed := s.partTime }
       if x.ar.state = .deadTime ∨ x.ar.state = .closing then (s, .refused .state, [])
       else
         match x.inFlight with
         | some y => (s, .refused (match y.op.kind with | .trip => .state | .close => .busy), [])
         | none =>
           if x.position = .closed then
             (sendOpDone f c none (advanceOpId (s.onFeeder f fun z => { z with lastOp := some c })), .already s.opCounter, [])
           else if x.positionFault ≠ none then (s, .refused .state, [])
           else if x.claims.store = true ∨ (∃ k, k ∈ s.pool ∧ k.feeder = f ∧ k.kind = .holdOpen) then (s, .refused .state, [])
           else
             (advanceOpId (s.onFeeder f fun z =>
               { z with
                 inFlight := some { op := close, deadline := s.partTime + (s.commissioning f).closeConfirm }
                 transitTimer := none }), .admitted s.opCounter, [])) := by
  unfold requestPortClose
  dsimp only
  rw [completeAlready_port p fun trip => OpKind.noConfusion trip]
  simp only [inFlightKind, holdsHoldOpen_iff]
  split
  · rfl
  · cases flying : (s.feeder f).inFlight with
    | none => rfl
    | some y => cases kind : y.op.kind <;> simp [kind]

/-! ### TRIP -/

section
variable {f : Feeder} {s : State}

/-- A request that says nothing of a permit joins a trip in flight (R41, R107). -/
theorem requestTrip_joinsUnasked {y : InFlight} (flying : (s.feeder f).inFlight = some y) (trip : y.op.kind = .trip) (o : Origin) :
    requestTrip f o none s =
      (s.onFeeder f fun z =>
        { z with
          inFlight := some
            { y with
              op := { y.op with
                requesters := if y.op.requesters.contains o then y.op.requesters else y.op.requesters ++ [o] } } },
       .joined y.op.id, []) := by
  have permit : joinPermit y.op.permit none = y.op.permit := by cases y.op.permit <;> rfl
  simp only [requestTrip_joins flying trip, permit, List.contains_eq_mem, decide_eq_true_eq]
  rfl

/-- A trip with nothing in flight on a feeder that is not open is admitted (R104, R106). -/
theorem requestTrip_admits (idle : (s.feeder f).inFlight = none) (shut : (s.feeder f).position ≠ .opened) (o : Origin)
    (permit : Option Bool) :
    requestTrip f o permit s = (admitOp f .trip o permit s, .admitted s.opCounter, []) := by
  simp [requestTrip, idle, shut]

/-- A trip supersedes the close in flight: the close is the last operation, reported with the trip's id and origin, and a sequencer that
was closing under that id holds no close any more (R108, R114, R132). -/
theorem requestTrip_supersedes {y : InFlight} (flying : (s.feeder f).inFlight = some y) (closing : y.op.kind = .close) (o : Origin)
    (permit : Option Bool) :
    let c : Completed := { op := y.op, outcome := .superseded, completed := s.partTime }
    requestTrip f o permit s =
      ((sendOpDone f c (some (s.opCounter, o))
          (advanceOpId (s.onFeeder f fun z =>
            { z with
              inFlight := some
                { op := newOperation s .trip o permit, deadline := s.partTime + (s.commissioning f).tripConfirm }
              transitTimer := none
              lastOp := some c }))).onFeeder f fun z =>
        { z with
          ar :=
            if y.op.origin = .reclose ∧ z.ar.state = .closing ∧ z.ar.closeOp = some y.op.id then { z.ar with closeOp := none }
            else z.ar },
       .admitted s.opCounter, huntNotices f c (some o)) := by
  intro c
  have trip : ¬ y.op.kind = .trip := by rw [closing]; exact OpKind.noConfusion
  have both : (admitOp f .trip o permit s).onFeeder f (fun z => { z with lastOp := some c }) =
      advanceOpId (s.onFeeder f fun z =>
        { z with
          inFlight := some { op := newOperation s .trip o permit, deadline := s.partTime + (s.commissioning f).tripConfirm }
          transitTimer := none
          lastOp := some c }) := by
    simp only [admitOp, confirmTimeOf, advanceOpId, State.onFeeder, PerFeeder.get_set_self, PerFeeder.set_set]
  simp only [requestTrip, flying, if_neg trip, supersede, reportCompletion]
  rw [both]
  refine Prod.ext ?_ rfl
  rw [judged_same, seqCompletion_superseded _ _ _ _ closing]
  rw [seqCompletion_superseded _ _ _ _ closing, State.feeder_onFeeder_self]
  dsimp only
  split <;> rfl

/-- A trip of an open breaker with nothing in flight (R106). -/
theorem requestTrip_portAlready (idle : (s.feeder f).inFlight = none) (opened : (s.feeder f).position = .opened)
    (awake : (s.feeder f).ar.state ≠ .deadTime) (p : Port) :
    let c : Completed := { op := newOperation s .trip (.port p) none, outcome := .already, completed := s.partTime }
    requestTrip f (.port p) none s =
      (sendOpDone f c none (advanceOpId (s.onFeeder f fun z => { z with lastOp := some c })), .already s.opCounter, []) := by
  simp only [requestTrip, idle, opened, if_true, completeAlready_port p fun _ => awake]

end

/-! ### The owner's state -/

section
variable {p : Port} {f : Feeder} {s s₀ : State}

@[simp] theorem namingFeeder_opCounter (f : Feeder) (p : Port) (s : State) : (namingFeeder f p s).opCounter = s.opCounter := by
  simp [namingFeeder, renewLock_form, receive]

@[simp] theorem namingFeeder_commissioning (f g : Feeder) (p : Port) (s : State) :
    (namingFeeder f p s).commissioning g = s.commissioning g := by
  simp [namingFeeder, renewLock_form, receive, State.commissioning]

/-- What the switching unit reads, as it is in another state. -/
structure FindsAlike (f : Feeder) (s a : State) : Prop where
  inFlight : (a.feeder f).inFlight = (s.feeder f).inFlight
  position : (a.feeder f).position = (s.feeder f).position
  fault : (a.feeder f).positionFault = (s.feeder f).positionFault
  ar : (a.feeder f).ar = (s.feeder f).ar
  claims : (a.feeder f).claims = (s.feeder f).claims
  pool : a.pool = s.pool
  opCounter : a.opCounter = s.opCounter
  partTime : a.partTime = s.partTime
  times : a.commissioning f = s.commissioning f

/-- The renewal of a lease and the receipt of a frame change nothing that the switching unit reads (R119, R175). -/
theorem namingFeeder_findsAlike (f : Feeder) (p : Port) (s : State) : FindsAlike f s (namingFeeder f p s) :=
  have light := namingFeeder_light f p s f
  { inFlight := light.still.inFlight
    position := light.acted.position
    fault := namingFeeder_positionFault f p s f
    ar := namingFeeder_ar f p s f
    claims := light.still.claims
    pool := namingFeeder_pool f p s
    opCounter := namingFeeder_opCounter f p s
    partTime := namingFeeder_partTime f p s
    times := namingFeeder_commissioning f f p s }

theorem FindsAlike.operation {a : State} (found : FindsAlike f s a) (kind : OpKind) (o : Origin) (permit : Option Bool) :
    newOperation a kind o permit = newOperation s kind o permit := by
  simp only [newOperation, found.opCounter, found.partTime]

/-- A lock that bars the port is answered HELD, with its holder (R119, R184). -/
theorem respond_heldBy (barred : (s.feeder f).lock.bars p = true) :
    respond p .held (be1 ((namingFeeder f p s).feeder f).lock.holder.code) (namingFeeder f p s) =
      respond p .held (be1 (s.feeder f).lock.holder.code) s := by
  rw [namingFeeder_apart (Lock.apart_of_bars barred)]
  exact respond_receive p _ _ s

theorem exec_close (taken : Takes .close p f.byte [] (listens p s₀)) :
    exec (.close p f.byte []) s₀ = .next (answer .close p f.number (closeBody p f (namingFeeder f p (listens p s₀)))) :=
  congrArg Host.Outcome.next (taken.onFeeder rfl (closeBody p))

theorem exec_trip (taken : Takes .trip p f.byte [] (listens p s₀)) :
    exec (.trip p f.byte []) s₀ = .next (answer .trip p f.number (tripBody p f (namingFeeder f p (listens p s₀)))) :=
  congrArg Host.Outcome.next (taken.onFeeder rfl (tripBody p))

/-- A TRIP that its lock lets by is what the switching unit makes of it (R106, R119). -/
theorem tripBody_admitted (free : p = .crew ∨ (s.feeder f).lock.bars p = false) :
    tripBody p f (namingFeeder f p s) = switched (requestTrip f (.port p) none (namingFeeder f p s)) := by
  have pass : ¬ (p ≠ .crew ∧ ((namingFeeder f p s).feeder f).lock.bars p = true) := by
    rw [namingFeeder_bars]
    rintro ⟨other, barred⟩
    exact free.elim other fun h => by rw [h] at barred; cases barred
  exact if_neg pass

end

end Sys2Proof.Machine

open Sys2Proof Sys2Proof.Machine

/-- Settles O32: the lock, then the checks of the switching unit, on the state in which the owner finds the feeder. -/
theorem portCloseMeetsItsChecks : Obligations.PortCloseMeetsItsChecks := by
  intro p f s₀ s taken
  have found := namingFeeder_findsAlike f p s
  dsimp only
  rw [exec_close taken]
  refine congrArg Host.Outcome.next (?_ : answer .close p f.number (closeBody p f (namingFeeder f p s)) = _)
  rw [closeBody, namingFeeder_bars, requestPortClose_spec]
  dsimp only
  rw [found.ar, found.inFlight, found.position, found.fault, found.claims, found.pool, found.opCounter, found.partTime, found.times,
    found.operation]
  split
  · next held => exact respond_heldBy held
  · split
    · rfl
    · cases (s.feeder f).inFlight with
      | some y =>
        dsimp only
        cases y.op.kind <;> rfl
      | none =>
        dsimp only
        split
        · rfl
        · split
          · rfl
          · split <;> rfl

/-- Settles O31: the rows of R106, on the state in which the owner finds the feeder. -/
theorem tripMeetsTheOperationInFlight : Obligations.TripMeetsTheOperationInFlight := by
  refine ⟨fun p f s₀ => ?_, fun p f s₀ => ?_⟩
  all_goals
    intro s taken
    have found := namingFeeder_findsAlike f p s
    have operation := found.operation .trip (.port p) none
    have opCounter := found.opCounter
    rw [exec_trip taken]
    dsimp only
  · refine ⟨fun other barred => ?_, fun free => ⟨fun y flying kind => ?_, fun idle shut => ?_⟩⟩
    · have held : tripBody p f (namingFeeder f p s) = (namingFeeder f p s, .heldBy ((namingFeeder f p s).feeder f).lock.holder) :=
        if_pos ⟨other, (namingFeeder_bars f p s).trans barred⟩
      rw [held]
      exact congrArg Host.Outcome.next (respond_heldBy barred)
    · rw [tripBody_admitted free, requestTrip_joinsUnasked (found.inFlight.trans flying) kind]
      rfl
    · rw [tripBody_admitted free, requestTrip_admits (found.inFlight.trans idle) (by rw [found.position]; exact shut), admitOp, operation,
        opCounter, confirmTimeOf, found.partTime, found.times, advanceOpId,
        show ((namingFeeder f p s).onFeeder f _).opCounter = s.opCounter from opCounter]
      rfl
  · intro free
    rw [tripBody_admitted free]
    refine ⟨fun y flying kind => ?_, fun idle opened awake => ?_⟩
    · rw [requestTrip_supersedes (found.inFlight.trans flying) kind, operation, opCounter, found.partTime, found.times, switched,
        deliver_notices]
      rfl
    · rw [requestTrip_portAlready (found.inFlight.trans idle) (found.position.trans opened) (by rw [found.ar]; exact awake), operation,
        opCounter, found.partTime]
      rfl

end

