-- ==== Sys2Proof/Proofs/SequencerDeadlines.lean ====
section
/-! PROOFS. The sequencer's deadlines (R131, R132, R134): its moves with their entries, and the RECLOSE close that ends a dead time. -/
namespace Sys2Proof.Machine

/-! ### A move of the sequencer -/

section
variable {f : Feeder} {s t : State}

/-- A move to another state than LOCKOUT replaces the record and sends AR_STATE (R141). -/
theorem arMove_entry {new : ArRecord} (moves : (s.feeder f).ar.state ≠ new.state) (outside : new.state ≠ .lockout) (cause : ArCause)
    (detail : LockoutDetail) :
    arMove f new cause detail s =
      broadcast (.arState f (s.feeder f).ar.state new.state new.shotsUsed new.currentShot (new.deadline <|> new.reclaim) cause)
        (s.onFeeder f fun x => { x with ar := new }) := by
  simp only [arMove, if_neg moves, if_neg outside]

/-- An entry to LOCKOUT keeps the shots used and sends LOCKOUT before AR_STATE (R141, R142). -/
theorem toLockout_entry (outside : (s.feeder f).ar.state ≠ .lockout) (cause : ArCause) (detail : LockoutDetail) :
    toLockout f cause detail s =
      broadcast (.arState f (s.feeder f).ar.state .lockout (s.feeder f).ar.shotsUsed none none cause)
        (broadcast (.lockout f cause (s.feeder f).ar.shotsUsed detail)
          (s.onFeeder f fun x =>
            { x with
              ar := { ArRecord.bare .lockout s.partTime with shotsUsed := (s.feeder f).ar.shotsUsed, cause := some cause } })) := by
  simp only [toLockout, arMove, ArRecord.enter, ArRecord.bare, if_neg outside, if_true]
  rfl

/-- A move of the sequencer leaves nothing pending where nothing was (R76). -/
theorem SeqMove.nothingPending (moved : SeqMove f s t) (rest : NothingPending s f) : NothingPending t f :=
  rest.congr (by rw [moved.own]) moved.districts (by rw [moved.store])

/-- A feeder whose sequencer is in no quiet state is not quiescent, so a judgement of it does nothing (R76). -/
theorem judge_restless (restless : (s.feeder f).ar.state.quiet = false) : judge f s = s := by
  have q : quiescent s f = false := by simp [quiescent, restless]
  simp [judge, q]

theorem judged_restless {act : State → State} (restless : ((act s).feeder f).ar.state.quiet = false) : judged f act s = act s := by
  simp only [judged, judge_restless restless, ite_self]

/-- With nothing pending the judgement of an entry to LOCKOUT does nothing (R76). -/
theorem judged_toLockout (rest : NothingPending s f) (cause : ArCause) (detail : LockoutDetail) :
    judged f (toLockout f cause detail) s = toLockout f cause detail s :=
  judged_nothing ((seqMove_arMove f _ _ _ s).nothingPending rest)

end

/-! ### The end of a dead time -/

/-- The state after a dead time's end with an empty block set: CLOSING, the shot k spent (R131). -/
def closingNow (f : Feeder) (k : Nat) (s : State) : State :=
  broadcast (.arState f .deadTime .closing k (some k) none .deadTimeExpired)
    (s.onFeeder f fun x => { x with ar := { ArRecord.bare .closing s.partTime with shotsUsed := k, currentShot := some k } })

section
variable {f : Feeder} {s : State} {k : Nat}

theorem closingNow_feeder (f : Feeder) (k : Nat) (s : State) :
    (closingNow f k s).feeder f =
      { s.feeder f with ar := { ArRecord.bare .closing s.partTime with shotsUsed := k, currentShot := some k } } := by
  rw [closingNow, feeder_broadcast, State.feeder_onFeeder_self]

@[simp] theorem closingNow_inFlight (f : Feeder) (k : Nat) (s : State) :
    ((closingNow f k s).feeder f).inFlight = (s.feeder f).inFlight := by
  rw [closingNow_feeder]

@[simp] theorem closingNow_position (f : Feeder) (k : Nat) (s : State) :
    ((closingNow f k s).feeder f).position = (s.feeder f).position := by
  rw [closingNow_feeder]
  rfl

@[simp] theorem closingNow_positionFault (f : Feeder) (k : Nat) (s : State) :
    ((closingNow f k s).feeder f).positionFault = (s.feeder f).positionFault := by
  rw [closingNow_feeder]

@[simp] theorem closingNow_opCounter (f : Feeder) (k : Nat) (s : State) : (closingNow f k s).opCounter = s.opCounter := by
  simp [closingNow]

@[simp] theorem closingNow_partTime (f : Feeder) (k : Nat) (s : State) : (closingNow f k s).partTime = s.partTime := by
  simp [closingNow]

@[simp] theorem closingNow_commissioning (f g : Feeder) (k : Nat) (s : State) :
    (closingNow f k s).commissioning g = s.commissioning g := by
  simp [closingNow, State.commissioning]

/-- The sequencer's move changes nothing of the block set (R85, R127). -/
theorem closingNow_blockSet (f : Feeder) (k : Nat) (s : State) : blockSet (closingNow f k s) f = blockSet s f := by
  have pool : (closingNow f k s).pool = s.pool := by simp [closingNow]
  simp only [blockSet, portClaims, pool, closingNow_feeder]

theorem NothingPending.closingNow (rest : NothingPending s f) : NothingPending (closingNow f k s) f := by
  refine rest.congr (by rw [closingNow_feeder]) ?_ ?_ <;> simp [Machine.closingNow]

/-- The dead time ends in CLOSING with its shot spent; the feeder is not quiescent there (R76, R131). -/
theorem judged_seqToClosing (waits : (s.feeder f).ar.state = .deadTime) (shot : (s.feeder f).ar.currentShot = some k) :
    judged f (seqToClosing f) s = closingNow f k s := by
  have moved : seqToClosing f s = closingNow f k s := by
    have outside : (s.feeder f).ar.state ≠ .closing := by rw [waits]; exact ArState.noConfusion
    rw [seqToClosing, arMove_entry outside ArState.noConfusion, waits, shot, closingNow]
    simp only [ArRecord.enter, waits]
    rfl
  rw [judged_restless, moved]
  rw [moved, closingNow_feeder]
  rfl

/-- With an empty block set a dead time's end asks for the RECLOSE close (R131). -/
theorem endDeadTime_empty (waits : (s.feeder f).ar.state = .deadTime) (shot : (s.feeder f).ar.currentShot = some k)
    (empty : blockSet s f = []) : endDeadTime f s = recloseAnswer f (requestReclose f (closingNow f k s)) := by
  rw [endDeadTime, blockSetEmpty, empty, judged_seqToClosing waits shot]
  rfl

/-- A RECLOSE close is in CLOSING, whose op id goes with the admission (R110, R132). -/
theorem recloseAnswer_admitted (empty : blockSet s f = []) (idle : (s.feeder f).inFlight = none) (apart : (s.feeder f).position ≠ .closed)
    (sound : (s.feeder f).positionFault = none) :
    recloseAnswer f (requestReclose f (closingNow f k s)) =
      advanceOpId ((closingNow f k s).onFeeder f fun x =>
        { x with
          inFlight := some
            { op := newOperation s .close .reclose none, deadline := s.partTime + (s.commissioning f).closeConfirm }
          transitTimer := none
          ar := { x.ar with closeOp := some s.opCounter } }) := by
  have free : blockSetEmpty (closingNow f k s) f = true := by rw [blockSetEmpty, closingNow_blockSet, empty]; rfl
  have answer : requestReclose f (closingNow f k s) = (admitOp f .close .reclose none (closingNow f k s), .admitted s.opCounter) := by
    simp [requestReclose, requestBlockClose, inFlightKind, idle, apart, sound, free]
  rw [answer]
  simp only [recloseAnswer, admitOp, newOperation, confirmTimeOf, advanceOpId, State.onFeeder, PerFeeder.get_set_self, PerFeeder.set_set,
    closingNow_opCounter, closingNow_partTime, closingNow_commissioning]

/-- A RECLOSE close refused in CLOSING takes the sequencer to LOCKOUT, when the feeder is busy or nothing is pending (R76, R132). -/
theorem recloseAnswer_refused {reason : RefusalReason} (answer : requestReclose f (closingNow f k s) = (closingNow f k s, .refused reason))
    (settled : (s.feeder f).inFlight ≠ none ∨ NothingPending s f) :
    recloseAnswer f (requestReclose f (closingNow f k s)) =
      broadcast (.arState f .closing .lockout k none none .closeRefused)
        (broadcast (.lockout f .closeRefused k { reason := some reason })
          ((closingNow f k s).onFeeder f fun x =>
            { x with ar := { ArRecord.bare .lockout s.partTime with shotsUsed := k, cause := some .closeRefused } })) := by
  have entry := toLockout_entry (f := f) (s := closingNow f k s) (by rw [closingNow_feeder]; exact ArState.noConfusion) .closeRefused
    { reason := some reason }
  rw [closingNow_feeder, closingNow_partTime] at entry
  have judgement : judged f (toLockout f .closeRefused { reason := some reason }) (closingNow f k s) =
      toLockout f .closeRefused { reason := some reason } (closingNow f k s) := by
    rcases settled with busy | rest
    · have still : ((toLockout f .closeRefused { reason := some reason } (closingNow f k s)).feeder f).inFlight ≠ none := by
        rw [toLockout, (seqMove_arMove f _ _ _ _).own, closingNow_inFlight]
        exact busy
      simp only [judged, judge_busy still, ite_self]
    · exact judged_toLockout rest.closingNow _ _
  rw [answer]
  exact judgement.trans entry

theorem requestReclose_busy {y : InFlight} (flying : (s.feeder f).inFlight = some y) :
    requestReclose f (closingNow f k s) =
      (closingNow f k s, .refused (match y.op.kind with | .trip => .state | .close => .busy)) := by
  cases kind : y.op.kind <;> simp [requestReclose, requestBlockClose, inFlightKind, flying, kind]

theorem requestReclose_fault (idle : (s.feeder f).inFlight = none) (apart : (s.feeder f).position ≠ .closed)
    (fault : (s.feeder f).positionFault ≠ none) : requestReclose f (closingNow f k s) = (closingNow f k s, .refused .state) := by
  simp [requestReclose, requestBlockClose, inFlightKind, idle, apart, fault]

/-- A RECLOSE close ALREADY takes the sequencer on to RECLAIM, which is not quiet (R76, R114, R132). -/
theorem recloseAnswer_already (idle : (s.feeder f).inFlight = none) (shut : (s.feeder f).position = .closed) :
    recloseAnswer f (requestReclose f (closingNow f k s)) =
      broadcast (.arState f .closing .reclaim k none (some (s.partTime + reclaimTime s f)) .reclosed)
        (advanceOpId ((closingNow f k s).onFeeder f fun x =>
          { x with
            lastOp := some { op := newOperation s .close .reclose none, outcome := .already, completed := s.partTime }
            ar := { ArRecord.bare .reclaim s.partTime with shotsUsed := k, reclaim := some (s.partTime + reclaimTime s f) } })) := by
  let c : Completed := { op := newOperation s .close .reclose none, outcome := .already, completed := s.partTime }
  let u := (advanceOpId (closingNow f k s)).onFeeder f fun x => { x with lastOp := some c }
  have answer : requestReclose f (closingNow f k s) = ((completeAlready f .close .reclose none (closingNow f k s)).1, .already s.opCounter) := by
    simp [requestReclose, requestBlockClose, inFlightKind, idle, shut]
  have report : (completeAlready f .close .reclose none (closingNow f k s)).1 = judged f (seqCompletion f c) u := by
    simp only [completeAlready, newOperation, closingNow_opCounter, closingNow_partTime]
    rfl
  have feeder : u.feeder f =
      { s.feeder f with
        lastOp := some c, ar := { ArRecord.bare .closing s.partTime with shotsUsed := k, currentShot := some k } } := by
    show ((advanceOpId (closingNow f k s)).onFeeder f fun x => { x with lastOp := some c }).feeder f = _
    rw [State.feeder_onFeeder_self]
    show (fun x => { x with lastOp := some c }) ((closingNow f k s).feeder f) = _
    rw [closingNow_feeder]
  have time : u.partTime = s.partTime := closingNow_partTime f k s
  have moved : seqCompletion f c u = toReclaim f k .reclosed u := by
    simp only [seqCompletion, c, newOperation, seqRecloseCompletion, feeder]
    rfl
  have entry : toReclaim f k .reclosed u =
      broadcast (.arState f .closing .reclaim k none (some (s.partTime + reclaimTime s f)) .reclosed)
        (u.onFeeder f fun x =>
          { x with
            ar := { ArRecord.bare .reclaim s.partTime with shotsUsed := k, reclaim := some (s.partTime + reclaimTime s f) } }) := by
    have outside : (u.feeder f).ar.state ≠ .reclaim := by rw [feeder]; exact ArState.noConfusion
    have reclaim : reclaimTime u f = reclaimTime s f := by simp only [reclaimTime, feeder]
    rw [toReclaim, arMove_entry outside ArState.noConfusion, reclaim, time, feeder]
    rfl
  rw [answer]
  refine report.trans ?_
  rw [judged_restless, moved, entry]
  · simp only [u, State.onFeeder_onFeeder]
    rfl
  · rw [moved, entry, feeder_broadcast, State.feeder_onFeeder_self]
    rfl

/-- A claim present at a dead time's end takes the sequencer to LOCKOUT, with its name (R131). -/
theorem endDeadTime_blocked {claim : ClaimInfo} {rest : List ClaimInfo} (blocked : blockSet s f = claim :: rest) (settled : NothingPending s f) :
    endDeadTime f s = toLockout f .blocked { claim := some claim } s := by
  rw [endDeadTime, blockSetEmpty, blocked]
  exact judged_toLockout settled _ _

/-! ### The deadlines -/

variable {d : Nat}

theorem exec_deadTimeExpiry (running : s.phase = .running) (waits : (s.feeder f).ar.state = .deadTime)
    (deadline : (s.feeder f).ar.deadline = some d) :
    exec (.deadTimeExpiry f) s = .next (if d ≤ s.partTime then endDeadTime f s else s) := by
  show Host.Outcome.next (whileRunning (deadTimeDue f) s) = _
  simp only [whileRunning, running, if_true, deadTimeDue, waits, deadline, reached_some, true_and]

theorem exec_reclaimExpiry (running : s.phase = .running) (waits : (s.feeder f).ar.state = .reclaim)
    (deadline : (s.feeder f).ar.reclaim = some d) :
    exec (.reclaimExpiry f) s = .next (if d ≤ s.partTime then judged f (seqReclaimExpiry f) s else s) := by
  show Host.Outcome.next (whileRunning (reclaimDue f) s) = _
  simp only [whileRunning, running, if_true, reclaimDue, waits, deadline, reached_some, true_and]

/-- RECLAIM ends in READY with no shots used (R134). -/
theorem judged_seqReclaimExpiry (waits : (s.feeder f).ar.state = .reclaim) (rest : NothingPending s f) :
    judged f (seqReclaimExpiry f) s =
      broadcast (.arState f .reclaim .ready 0 none none .reclaimExpired)
        (s.onFeeder f fun x => { x with ar := ArRecord.bare .ready s.partTime }) := by
  have outside : (s.feeder f).ar.state ≠ .ready := by rw [waits]; exact ArState.noConfusion
  have moved : SeqMove f s (seqReclaimExpiry f s) := seqMove_arMove f _ _ _ s
  rw [judged_nothing (moved.nothingPending rest), seqReclaimExpiry, arMove_entry outside ArState.noConfusion, waits]
  simp only [ArRecord.enter, waits]
  rfl

end

end Sys2Proof.Machine

open Sys2Proof Sys2Proof.Machine

/-- Settles O17: a dead time by the block set and the answer of the RECLOSE close, and a reclaim time. -/
theorem sequencerDeadlinesAct : Obligations.SequencerDeadlinesAct := by
  refine ⟨fun f d k s running waits deadline shot => ?_, fun f d s running waits deadline rest => ?_⟩
  · rw [exec_deadTimeExpiry running waits deadline]
    refine ⟨fun early => by rw [if_neg (Nat.not_le.2 early)], fun due empty idle apart sound => ?_, fun due empty => ?_,
      fun claim rest due blocked settled => ?_⟩
    all_goals rw [if_pos due]
    · rw [endDeadTime_empty waits shot empty, recloseAnswer_admitted empty idle apart sound]
      rfl
    · rw [endDeadTime_empty waits shot empty]
      refine ⟨fun y flying => ?_, fun idle shut => ?_, fun idle apart fault settled => ?_⟩
      · rw [recloseAnswer_refused (requestReclose_busy flying) (.inl (by simp [flying]))]
        rfl
      · rw [recloseAnswer_already idle shut]
        rfl
      · rw [recloseAnswer_refused (requestReclose_fault idle apart fault) (.inr settled)]
        rfl
    · rw [endDeadTime_blocked blocked settled, toLockout_entry (by rw [waits]; exact ArState.noConfusion), waits]
      rfl
  · rw [exec_reclaimExpiry running waits deadline, judged_seqReclaimExpiry waits rest]

end

