-- ==== Sys2Proof/Proofs/HuntCompletions.lean ====
section
/-! PROOFS. The hunt's own completions (R114, R154, R158, R160, R162): what each makes of the hunt's record, and the lock that is dropped
with it. -/
namespace Sys2Proof.Machine

section
variable {f : Feeder} {s : State} {h r : HuntRun} {i : Identified}

/-! ### Changes of a hunt's record and of its feeder -/

theorem State.onHunt_some (hh : s.hunt = some h) (g : HuntRun → HuntRun) : s.onHunt g = { s with hunt := some (g h) } := by
  rw [State.onHunt, hh]
  rfl

/-- The hunt drops its lock after it has changed its record and the feeder, with entries of its own before LOCK_CHANGE (R118). -/
theorem huntDropLock_after {y : FeederState} {evs : List Event} (rest : NothingPending s f) (held : y.lock = .hunt)
    (fire : y.fire = (s.feeder f).fire) :
    huntDropLock f { s with hunt := some r, feeders := s.feeders.set f y, queues := said evs s } =
      { s with
        hunt := some { r with locked := none }
        feeders := s.feeders.set f { y with lock := .free }
        queues := said (evs ++ [lockDropped f]) s } := by
  let t : State := { s with hunt := some r, feeders := s.feeders.set f y, queues := said evs s }
  have feeder : t.feeder f = y := PerFeeder.get_set_self _ _ _
  have queues : said [lockDropped f] t = said (evs ++ [lockDropped f]) s := said_append evs _ rfl rfl rfl
  have feeders : t.feeders.set f { y with lock := .free } = s.feeders.set f { y with lock := .free } := PerFeeder.set_set _ _ _ _
  refine (huntDropLock_spec (s := t) (by rw [feeder]; exact held) (rest.congr (by rw [feeder, fire]) rfl rfl)).trans ?_
  rw [feeder, queues, feeders]
  rfl

/-- The hunt drops its lock after it has changed its record alone (R118). -/
theorem huntDropLock_alone (rest : NothingPending s f) (held : (s.feeder f).lock = .hunt) :
    huntDropLock f { s with hunt := some r } =
      { s with
        hunt := some { r with locked := none }
        feeders := s.feeders.set f { s.feeder f with lock := .free }
        queues := said [lockDropped f] s } := by
  have dropped := huntDropLock_after (r := r) (evs := []) rest held rfl
  rwa [show s.feeders.set f (s.feeder f) = s.feeders from PerFeeder.set_get _ _, said_nil] at dropped

/-- A step of the hunt with another record leads where it leads: the record alone is replaced. -/
theorem LeadsWith.ofRecord {x : State × HuntGo} {g : HuntGo} {r' : HuntRun} {y : FeederState} {ops : Nat} {evs : List Event}
    (leads : LeadsWith { s with hunt := some r } x g r' f y ops evs) : LeadsWith s x g r' f y ops evs := by
  have entries : said evs { s with hunt := some r } = said evs s := said_congr _ rfl rfl rfl
  rw [LeadsWith, entries] at leads
  exact leads

/-- A change of hunt state on a record of the hunt's (R195). -/
theorem setHuntState_record (new : HuntState) (d : HuntDetail) :
    setHuntState new d { s with hunt := some r } =
      { s with
        hunt := some { r with state := new, resume := if new = .suspended then r.resume else none }
        queues := said (huntMoved s r.state new d) s } := by
  have queues : said (huntMoved { s with hunt := some r } r.state new d) { s with hunt := some r } = said (huntMoved s r.state new d) s :=
    said_congr _ rfl rfl rfl
  rw [setHuntState_spec (h := r) rfl, queues]

/-- A found feeder gets its HUNT claim, and its lock is freed (R162). -/
theorem foundFeeder_freed (rest : NothingPending s f) (held : (s.feeder f).lock = .hunt) (awake : (s.feeder f).ar.state ≠ .deadTime) :
    huntDropLock f (placeSystemClaim f .hunt { s with hunt := some r }) =
      { s with
        hunt := some { r with locked := none }
        feeders := s.feeders.set f { s.feeder f with claims := { (s.feeder f).claims with hunt := true }, lock := .free }
        queues := said ((if (s.feeder f).claims.hunt = true then [] else [.claimPlaced f (.system .hunt)]) ++ [lockDropped f]) s } := by
  have entries := said_congr (s := s) (t := { s with hunt := some r })
    (if (s.feeder f).claims.hunt = true then [] else [.claimPlaced f (.system .hunt)]) rfl rfl rfl
  have placed : placeSystemClaim f .hunt { s with hunt := some r } =
      { s with
        hunt := some r
        feeders := s.feeders.set f { s.feeder f with claims := { (s.feeder f).claims with hunt := true } }
        queues := said (if (s.feeder f).claims.hunt = true then [] else [.claimPlaced f (.system .hunt)]) s } := by
    rw [← entries]
    exact placeSystemClaim_hunt (s := { s with hunt := some r }) awake
  have dropped := huntDropLock_after (r := r) (y := { s.feeder f with claims := { (s.feeder f).claims with hunt := true } })
    (evs := if (s.feeder f).claims.hunt = true then [] else [.claimPlaced f (.system .hunt)]) rest held rfl
  exact (congrArg (huntDropLock f) placed).trans dropped

/-! ### The trip of the identified feeder -/

/-- The identified feeder is open after a dropout was seen: it is found (R154, R162). -/
theorem isolateDone_found (hh : s.hunt = some h) (hi : h.identified = some i) (rest : NothingPending s f)
    (held : (s.feeder f).lock = .hunt) (seen : h.dropoutSeen = some true) (awake : (s.feeder f).ar.state ≠ .deadTime) :
    LeadsWith s (isolateDone h f .done s) .finish
      (resulting { stepEnded h with op := none, identified := some { i with isolate := .found }, locked := none } .foundIdentified) f
      { s.feeder f with claims := { (s.feeder f).claims with hunt := true }, lock := .free } s.opCounter
      ((if (s.feeder f).claims.hunt = true then [] else [.claimPlaced f (.system .hunt)]) ++ [lockDropped f]) := by
  simp only [isolateDone, seen, decide_true, if_true, foundOn, setPending, endStep, setIsolate, State.onHunt, hh, Option.map_some, hi]
  exact congrArg (·, HuntGo.finish) (foundFeeder_freed rest held awake)

/-- The identified feeder is open with no dropout seen: the hunt goes to CONFIRM (R154). -/
theorem isolateDone_confirm (hh : s.hunt = some h) (hs : h.state = .isolate) (unseen : h.dropoutSeen ≠ some true)
    (going : h.pendingResult = none) :
    Leads s (isolateDone h f .done s) .wait
      { stepEnded h with
        state := .confirm, op := none, resume := none, deadline := some (s.partTime + (s.huntSettings h.level).confirmTime) }
      (huntMoved s .isolate .confirm {}) := by
  have still : h.pendingResult.isSome = false := by rw [going]; rfl
  simp only [isolateDone, decide_eq_false unseen, still, Bool.false_eq_true, if_false, if_true, endStep, State.onHunt, hh,
    Option.map_some]
  rw [setHuntState_record]
  dsimp only
  rw [hs]
  rfl

/-- The identified feeder is open with a result pending, and the hunt ends (R154, R161). -/
theorem isolateDone_pending (hh : s.hunt = some h) (unseen : h.dropoutSeen ≠ some true) (settled : h.pendingResult ≠ none) :
    Leads s (isolateDone h f .done s) .finish { stepEnded h with op := none } [] := by
  simp only [isolateDone, decide_eq_false unseen, Option.isSome_iff_ne_none.2 settled, Bool.false_eq_true, if_false, if_true, endStep,
    State.onHunt, hh, Option.map_some]
  rfl

/-- The trip of the identified feeder has not opened it: the lock is dropped, and the hunt ends or goes to trial entry (R154). -/
theorem isolateDone_failed {outcome : OpOutcome} (hh : s.hunt = some h) (hi : h.identified = some i) (rest : NothingPending s f)
    (held : (s.feeder f).lock = .hunt) (failed : outcome ≠ .done) :
    let left : HuntRun :=
      { stepEnded h with
        op := none, identified := some { i with isolate := if outcome = .already then .skippedOpen else .tripFailed }, locked := none }
    LeadsWith s (isolateDone h f outcome s)
      (if h.pendingResult = none ∧ h.dropoutSeen ≠ some true then .trialEntry none none else .finish)
      (if h.pendingResult = none ∧ h.dropoutSeen = some true then resulting left .clearedSpontaneous else left) f
      { s.feeder f with lock := .free } s.opCounter [lockDropped f] := by
  simp only [isolateDone, if_neg failed, endStep, setIsolate, setPending, State.onHunt, hh, Option.map_some, hi]
  rw [huntDropLock_alone rest held]
  cases hr : h.pendingResult with
  | some res => simp [LeadsWith, stepEnded, hr]
  | none => by_cases seen : h.dropoutSeen = some true <;> simp [LeadsWith, seen, resulting, stepEnded, hr]

/-! ### The trip of a candidate -/

/-- The candidate is open: the hunt watches it (R158). -/
theorem trialTripDone_watch {c : Nat} (hh : s.hunt = some h) (hs : h.state = .trialOpen) (going : h.pendingResult = none) :
    Leads s (trialTripDone h c f .done s) .wait
      { h with
        state := .trialWatch, op := none, resume := none, deadline := some (s.partTime + (s.huntSettings h.level).trialWatchTime)
        tripInWatch := some false }
      (huntMoved s .trialOpen .trialWatch {}) := by
  have still : h.pendingResult.isSome = false := by rw [going]; rfl
  simp only [trialTripDone, still, Bool.false_eq_true, if_false, if_true, State.onHunt, hh, Option.map_some]
  rw [setHuntState_record]
  dsimp only
  rw [hs]
  rfl

/-- The candidate is open with a result pending: it is restored (R158, R160). -/
theorem trialTripDone_restores {c : Nat} (hh : s.hunt = some h) (hs : h.state = .trialOpen) (settled : h.pendingResult ≠ none)
    (held : (s.feeder f).lock = .hunt) (may : HuntMayClose s f) :
    LeadsWith s (trialTripDone h c f .done s) .wait
      { stepEnded h with state := .trialRestore, op := some (huntOp s .close f), resume := none } f (huntClosing s f)
      (nextOpId s.opCounter) (huntMoved s .trialOpen .trialRestore {}) := by
  simp only [trialTripDone, Option.isSome_iff_ne_none.2 settled, if_true, State.onHunt_some hh]
  rw [← hs]
  exact (restoreFeeder_close (s := { s with hunt := some { h with op := none } }) rfl (may.congr rfl rfl) held).ofRecord

/-- The trip of a candidate has not opened it (R158). -/
theorem trialTripDone_failed {c : Nat} {outcome : OpOutcome} (hh : s.hunt = some h) (rest : NothingPending s f)
    (held : (s.feeder f).lock = .hunt) (failed : outcome ≠ .done) :
    LeadsWith s (trialTripDone h c f outcome s) .boundary { concluded h c .tripFailed with locked := none } f
      { s.feeder f with lock := .free } s.opCounter [lockDropped f] := by
  simp only [trialTripDone, if_neg failed, State.onHunt_some hh]
  rw [concludeCandidate_spec (h := { h with op := none }) rfl]
  exact congrArg (·, HuntGo.boundary) (huntDropLock_alone rest held)

/-! ### The close of a restore -/

/-- The outcome of a restore's close (R160, R163). -/
theorem concludeRestore_candidate {c : Nat} (hh : s.hunt = some h) (hc : h.current = some c) (rest : NothingPending s f)
    (held : (s.feeder f).lock = .hunt) (healthy : Bool) :
    LeadsWith s (concludeRestore f healthy s) .boundary
      { concluded h c (if healthy then .healthyRestored else .stranded) with locked := none } f { s.feeder f with lock := .free } s.opCounter
      [lockDropped f] := by
  simp only [concludeRestore, hh, hc]
  rw [concludeCandidate_spec hh]
  exact congrArg (·, HuntGo.boundary) (huntDropLock_alone rest held)

theorem concludeRestore_identified (hh : s.hunt = some h) (hc : h.current = none) (hi : h.identified = some i) (rest : NothingPending s f)
    (held : (s.feeder f).lock = .hunt) (healthy : Bool) :
    LeadsWith s (concludeRestore f healthy s) .finish
      { h with
        identified := some { i with endRestore := some (if healthy then .healthyRestored else .stranded) }, op := none, locked := none } f
      { s.feeder f with lock := .free } s.opCounter [lockDropped f] := by
  simp only [concludeRestore, hh, hc, setEndRestore, State.onHunt, Option.map_some, hi]
  exact congrArg (·, HuntGo.finish) (huntDropLock_alone rest held)

/-! ### The completion that reaches the hunt -/

theorem huntOpDone_other {op : HuntOp} (hh : s.hunt = some h) (ho : h.op = some op) {id : Nat} {kind : OpKind} (outcome : OpOutcome)
    (superseding : Option Origin) (other : ¬ (op.feeder = f ∧ op.id = id ∧ op.kind = kind)) :
    huntOpDone f id kind outcome superseding s = (s, .wait) := by
  simp only [huntOpDone, hh, ho, if_neg other]

theorem huntOpDone_isolate {op : HuntOp} (hh : s.hunt = some h) (ho : h.op = some op) (hs : h.state = .isolate) (outcome : OpOutcome)
    (superseding : Option Origin) :
    huntOpDone op.feeder op.id op.kind outcome superseding s = isolateDone h op.feeder outcome s := by
  simp only [huntOpDone, hh, ho, hs, and_self, if_true]

theorem huntOpDone_trialOpen {op : HuntOp} {c : Nat} (hh : s.hunt = some h) (ho : h.op = some op) (hs : h.state = .trialOpen)
    (hc : h.current = some c) (outcome : OpOutcome) (superseding : Option Origin) :
    huntOpDone op.feeder op.id op.kind outcome superseding s = trialTripDone h c op.feeder outcome s := by
  simp only [huntOpDone, hh, ho, hs, hc, and_self, if_true]

theorem huntOpDone_trialRestore {op : HuntOp} (hh : s.hunt = some h) (ho : h.op = some op) (hs : h.state = .trialRestore)
    (outcome : OpOutcome) (superseding : Option Origin) :
    huntOpDone op.feeder op.id op.kind outcome superseding s = concludeRestore op.feeder (decide (outcome = .done)) s := by
  simp only [huntOpDone, hh, ho, hs, and_self, if_true]

end

end Sys2Proof.Machine

open Sys2Proof Sys2Proof.Machine

/-- Settles O47: the completion of the hunt's own operation, by the hunt's state. -/
theorem huntTakesItsCompletions : Obligations.HuntTakesItsCompletions := by
  intro h op outcome superseding s hh ho
  refine ⟨fun f id kind other => huntOpDone_other hh ho outcome superseding other, fun held rest => ?_⟩
  dsimp only
  refine ⟨fun hs i hi => ?_, fun hs c hc => ?_, fun hs => ?_⟩
  · rw [huntOpDone_isolate hh ho hs]
    refine ⟨?_, ?_, ?_, fun failed => isolateDone_failed hh hi rest held failed⟩
    · rintro rfl seen awake
      exact isolateDone_found hh hi rest held seen awake
    · rintro rfl unseen going
      exact isolateDone_confirm hh hs unseen going
    · rintro rfl unseen settled
      exact isolateDone_pending hh unseen settled
  · rw [huntOpDone_trialOpen hh ho hs hc]
    refine ⟨?_, ?_, fun failed => trialTripDone_failed hh rest held failed⟩
    · rintro rfl going
      exact trialTripDone_watch hh hs going
    · rintro rfl settled may
      exact trialTripDone_restores hh hs settled held may
  · rw [huntOpDone_trialRestore hh ho hs]
    refine ⟨fun c hc => ?_, fun i hc hi => ?_⟩
    · simpa only [decide_eq_true_eq] using concludeRestore_candidate hh hc rest held (decide (outcome = .done))
    · simpa only [decide_eq_true_eq] using concludeRestore_identified hh hc hi rest held (decide (outcome = .done))

end

