-- ==== Sys2Proof/Proofs/TrialTurns.lean ====
section
/-! PROOFS. Trial entry and the candidates' turns (R156, R157, R165), in any state of the hunt. -/
namespace Sys2Proof.Machine

section
variable {f : Feeder} {s : State} {h : HuntRun}

/-- A change of the hunt's record, then of its state (R195). -/
theorem setHuntState_onHunt (hh : s.hunt = some h) (new : HuntState) (d : HuntDetail) (g : HuntRun → HuntRun) :
    setHuntState new d (s.onHunt g) =
      { s with
        hunt := some { g h with state := new, resume := if new = .suspended then (g h).resume else none }
        queues := said (huntMoved s (g h).state new d) s } := by
  rw [State.onHunt_some hh, setHuntState_record]

theorem endStep_onHunt (hh : s.hunt = some h) (g : HuntRun → HuntRun) : (endStep s).onHunt g = s.onHunt fun r => g (stepEnded r) := by
  rw [endStep_spec hh, State.onHunt_some rfl, State.onHunt_some hh]

/-- A hunt is suspended at a resume point (R165). -/
theorem suspendHunt_leads (hh : s.hunt = some h) (point : ResumePoint) :
    Leads s (suspendHunt point s, .wait) .wait { stepEnded h with state := .suspended, pendingSuspend := false, resume := some point }
      (huntMoved s h.state .suspended { resume := some point }) := by
  rw [suspendHunt, endStep_onHunt hh, setHuntState_onHunt hh]
  rfl

/-! ### Trial entry -/

variable {sums : Option (Nat × Nat × Option Feeder)} {cause : Option HuntCause}

/-- A pending result ends the hunt at trial entry (R161). -/
theorem trialEntry_settled (hh : s.hunt = some h) (settled : h.pendingResult ≠ none) : trialEntry sums cause s = (s, .finish) := by
  simp only [trialEntry, hh, Option.isSome_iff_ne_none.2 settled, if_true]

theorem trialEntry_suspends (hh : s.hunt = some h) (going : h.pendingResult = none) (suspend : h.pendingSuspend = true) :
    trialEntry sums cause s = (suspendHunt .trialEntry s, .wait) := by
  simp only [trialEntry, hh, going, suspend, Option.isSome_none, Bool.false_eq_true, if_false, if_true]

/-- With trial enable no the hunt ends NOT_FOUND, and only the sums of a window are reported (R156, log 53). -/
theorem trialEntry_disabled (hh : s.hunt = some h) (going : h.pendingResult = none) (on : h.pendingSuspend = false)
    (disabled : (s.huntSettings h.level).trialEnable = false) :
    Leads s (trialEntry sums cause s) .finish
      (if sums = none then resulting (stepEnded h) .notFound
       else { resulting (stepEnded h) .notFound with state := .trialOpen, resume := none })
      (if sums = none then [] else huntMoved s h.state .trialOpen { sums := sums, cause := cause }) := by
  have entry : trialEntry sums cause s =
      (setPending .notFound (if sums.isSome then setHuntState .trialOpen { sums := sums, cause := cause } (endStep s) else endStep s),
        .finish) := by
    simp only [trialEntry, hh, going, on, huntLevelSettings, disabled, Option.isSome_none, Bool.false_eq_true, if_false, if_true]
  rw [entry]
  cases sums with
  | none =>
    rw [if_neg (by simp), if_pos rfl, if_pos rfl, endStep_spec hh, setPending_notFound rfl]
    rfl
  | some x =>
    rw [if_pos (by simp), if_neg (by simp), if_neg (by simp), endStep_spec hh, setHuntState_record, setPending_notFound rfl]
    rfl

/-- With trial enable yes the candidates are listed and named (R156). -/
theorem trialEntry_lists (hh : s.hunt = some h) (going : h.pendingResult = none) (on : h.pendingSuspend = false)
    (enabled : (s.huntSettings h.level).trialEnable = true) :
    Leads s (trialEntry sums cause s) .boundary
      { stepEnded h with state := .trialOpen, candidates := some (candidateList s h), resume := none }
      (huntMoved s h.state .trialOpen { sums := sums, cause := cause, candidates := some (candidateList s h) }) := by
  have entry : trialEntry sums cause s =
      (setHuntState .trialOpen { sums := sums, cause := cause, candidates := some (candidateList s h) }
        ((endStep s).onHunt fun r => { r with candidates := some (candidateList s h), resume := none }), .boundary) := by
    simp only [trialEntry, hh, going, on, huntLevelSettings, enabled, Option.isSome_none, Bool.false_eq_true, Bool.true_eq_false, if_false]
  rw [entry, endStep_onHunt hh, setHuntState_onHunt hh]
  rfl

/-! ### The boundary before a turn -/

theorem nextCandidate_settled (hh : s.hunt = some h) (settled : h.pendingResult ≠ none) : nextCandidate s = (s, .finish) := by
  simp only [nextCandidate, hh, Option.isSome_iff_ne_none.2 settled, if_true]

/-- With no candidate left the hunt ends NOT_FOUND (R157). -/
theorem nextCandidate_exhausted (hh : s.hunt = some h) (going : h.pendingResult = none)
    (tried : ∀ c, c ∈ h.candidates.getD [] → c.outcome ≠ .notTried) : Leads s (nextCandidate s) .finish (resulting h .notFound) [] := by
  have exhausted : nextUntried h = none := List.findIdx?_eq_none_iff.2 fun c hc => decide_eq_false (tried c hc)
  simp only [nextCandidate, hh, going, exhausted, Option.isSome_none, Bool.false_eq_true, if_false]
  exact congrArg (·, HuntGo.finish) (setPending_notFound hh)

section
variable {i : Nat} {c : Candidate} (hh : s.hunt = some h) (going : h.pendingResult = none) (next : nextUntried h = some i)
include hh going next

theorem nextCandidate_suspends (suspend : h.pendingSuspend = true) : nextCandidate s = (suspendHunt .nextCandidate s, .wait) := by
  simp only [nextCandidate, hh, going, next, suspend, Option.isSome_none, Bool.false_eq_true, if_false, if_true]

/-- Trial enable that has become no ends the hunt NOT_FOUND (R157). -/
theorem nextCandidate_disabled (on : h.pendingSuspend = false) (disabled : (s.huntSettings h.level).trialEnable = false) :
    Leads s (nextCandidate s) .finish (resulting h .notFound) [] := by
  simp only [nextCandidate, hh, going, next, on, huntLevelSettings, disabled, Option.isSome_none, Bool.false_eq_true, if_false, if_true]
  exact congrArg (·, HuntGo.finish) (setPending_notFound hh)

theorem nextCandidate_turn (on : h.pendingSuspend = false) (enabled : (s.huntSettings h.level).trialEnable = true)
    (hc : h.candidateAt i = some c) : nextCandidate s = candidateTurn i c.feeder s := by
  simp only [nextCandidate, hh, going, next, on, huntLevelSettings, enabled, hc, Option.isSome_none, Bool.false_eq_true,
    Bool.true_eq_false, if_false]

end

/-! ### A turn -/

variable {i : Nat}

/-- A turn whose first failing check skips the candidate (R157). -/
theorem candidateTurn_skips (hh : s.hunt = some h) {o : CandidateOutcome}
    (skip : candidateTurn i f s = (concludeCandidate i o s, .boundary)) : Leads s (candidateTurn i f s) .boundary (concluded h i o) [] := by
  rw [skip, concludeCandidate_spec hh]
  rfl

/-- A turn whose candidate passes the checks (R157). -/
theorem candidateTurn_passes (lock : (s.feeder f).lock.heldByPort = false) (fitted : s.fitted f = true)
    (closed : (s.feeder f).position = .closed) (free : RestoreFree s f) : candidateTurn i f s = tripCandidate i f s := by
  simp only [candidateTurn, lock, fitted, closed, (restoreBlocked_iff s f).2 free, Bool.false_eq_true, Bool.true_eq_false, if_false, ne_eq,
    not_true_eq_false, or_self]

/-- A candidate in its turn, in TRIAL_OPEN and under the hunt's lock, when its trip is requested (R157). -/
def turnTaken (s : State) (h : HuntRun) (i : Nat) (f : Feeder) : State :=
  { s with
    hunt := some { h with state := .trialOpen, current := some i, resume := none, locked := some f }
    feeders := s.feeders.set f { s.feeder f with lock := .hunt }
    queues := said (huntMoved s h.state .trialOpen {} ++ lockTaken s f) s }

theorem turnTaken_feeder (s : State) (h : HuntRun) (i : Nat) (f : Feeder) :
    (turnTaken s h i f).feeder f = { s.feeder f with lock := .hunt } := PerFeeder.get_set_self _ _ _

/-- A candidate's turn takes its lock and asks for its trip (R118, R157). -/
theorem tripCandidate_taken (hh : s.hunt = some h) (lock : (s.feeder f).lock.heldByPort = false) :
    tripCandidate i f s = tripAnswered i f (requestTrip f .hunt none (turnTaken s h i f)) := by
  let b : State :=
    { s with
      hunt := some { h with state := .trialOpen, current := some i, resume := none }
      queues := said (huntMoved s h.state .trialOpen {}) s }
  have opened : setHuntState .trialOpen {} (s.onHunt fun r => { r with current := some i, resume := none }) = b :=
    setHuntState_onHunt hh .trialOpen {} _
  have entries : said (lockTaken b f) b = said (huntMoved s h.state .trialOpen {} ++ lockTaken s f) s := said_append _ _ rfl rfl rfl
  have taken : huntTakeLock f b = some (turnTaken s h i f) := by
    rw [huntTakeLock_spec (by exact lock), entries]
    rfl
  unfold tripCandidate
  rw [opened]
  dsimp only
  rw [taken]
  rfl

/-- A candidate's trip that is admitted (R106, R157). -/
theorem tripCandidate_admitted (hh : s.hunt = some h) (may : HuntMayTrip s f) :
    LeadsWith s (tripCandidate i f s) .wait
      { h with
        state := .trialOpen, current := some i, resume := none, locked := some f
        op := some { id := s.opCounter, kind := .trip, feeder := f } }
      f (huntTripping s f) (nextOpId s.opCounter) (huntMoved s h.state .trialOpen {} ++ lockTaken s f) := by
  have feeder := turnTaken_feeder s h i f
  have feeders : (turnTaken s h i f).feeders.set f (huntTripping s f) = s.feeders.set f (huntTripping s f) := PerFeeder.set_set _ _ _ _
  rw [LeadsWith, tripCandidate_taken hh may.lock, requestTrip_hunt (by rw [feeder]; exact may.closed) (by rw [feeder]; exact may.idle),
    feeder, ← feeders]
  rfl

/-- A candidate whose trip is in flight already: the hunt joins it (R107, R157). -/
theorem tripCandidate_joined {y : InFlight} (hh : s.hunt = some h) (lock : (s.feeder f).lock.heldByPort = false)
    (flying : (s.feeder f).inFlight = some y) (trip : y.op.kind = .trip) :
    LeadsWith s (tripCandidate i f s) .wait
      { h with
        state := .trialOpen, current := some i, resume := none, locked := some f
        op := some { id := y.op.id, kind := .trip, feeder := f } }
      f
      { s.feeder f with
        lock := .hunt
        inFlight := some
          { y with
            op := { y.op with
              requesters := if y.op.requesters.contains .hunt then y.op.requesters else y.op.requesters ++ [.hunt] } } }
      s.opCounter (huntMoved s h.state .trialOpen {} ++ lockTaken s f) := by
  have feeder := turnTaken_feeder s h i f
  have feeders (z : FeederState) : (turnTaken s h i f).feeders.set f z = s.feeders.set f z := PerFeeder.set_set _ _ _ _
  rw [LeadsWith, tripCandidate_taken hh lock, requestTrip_joinsUnasked (by rw [feeder]; exact flying) trip, State.onFeeder, feeders,
    show (turnTaken s h i f).feeders.get f = { s.feeder f with lock := .hunt } from feeder]
  rfl

end

end Sys2Proof.Machine

open Sys2Proof Sys2Proof.Machine

/-- Settles O48: trial entry by what is pending and by trial enable, and a turn by what fails first. -/
theorem trialTakesItsCandidates : Obligations.TrialTakesItsCandidates := by
  refine ⟨fun sums cause h s hh => ⟨trialEntry_settled hh, fun going suspend => ?_, trialEntry_disabled hh, fun going on enabled => ?_⟩,
    fun h s hh => ⟨nextCandidate_settled hh, nextCandidate_exhausted hh, fun i c going hc untried before => ?_⟩⟩
  · rw [trialEntry_suspends hh going suspend]
    exact suspendHunt_leads hh .trialEntry
  · exact ⟨_, candidateList_trial s h, trialEntry_lists hh going on enabled⟩
  · have next : nextUntried h = some i := nextUntried_first hc untried before
    refine ⟨fun suspend => ?_, nextCandidate_disabled hh going next, fun on enabled => ?_⟩
    · rw [nextCandidate_suspends hh going next suspend]
      exact suspendHunt_leads hh .nextCandidate
    · dsimp only
      rw [nextCandidate_turn hh going next on enabled hc]
      refine ⟨fun held => ?_, fun lock open_ => ?_, fun lock fitted closed barred => ?_, fun may free => ?_,
        fun y lock fitted closed free flying trip => ?_⟩
      · exact candidateTurn_skips hh (if_pos held)
      · exact candidateTurn_skips hh (by simp only [candidateTurn, lock, Bool.false_eq_true, if_false, if_pos open_])
      · have blocked : restoreBlocked s c.feeder = true := by
          rw [← restoreBlocked_iff, Bool.not_eq_false] at barred
          exact barred
        exact candidateTurn_skips hh (by
          simp only [candidateTurn, lock, fitted, closed, blocked, Bool.false_eq_true, Bool.true_eq_false, if_false, if_true, ne_eq,
            not_true_eq_false, or_self])
      · rw [candidateTurn_passes may.lock may.fitted may.closed free]
        exact tripCandidate_admitted hh may
      · rw [candidateTurn_passes lock fitted closed free]
        exact tripCandidate_joined hh lock flying trip

end

