-- ==== Sys2Proof/Proofs/HuntDeadlines.lean ====
section
/-! PROOFS. The hunt's step deadlines in CONFIRM and TRIAL_WATCH (R155, R159), and what follows them at once: a suspension, the first
candidate's trip, or a restore. -/
namespace Sys2Proof.Machine

section
variable {f g : Feeder} {s t u : State} {h : HuntRun} {i : Identified}

/-! ### A trial from its entry, whatever the hunt holds -/

/-- What makes a feeder a candidate is read from the store, the positions and the measurement states (R156). -/
theorem MayBeTried.congr_iff (store : t.store = s.store) (position : ∀ k, (t.feeder k).position = (s.feeder k).position)
    (meas : ∀ k, (t.feeder k).meas = (s.feeder k).meas) (barred : Option Feeder) (f : Feeder) :
    MayBeTried t barred f ↔ MayBeTried s barred f := by
  simp only [MayBeTried, State.fitted, State.commissioning, store, position, meas]

theorem TriedBefore.congr_iff (store : t.store = s.store) (f g : Feeder) : TriedBefore t f g ↔ TriedBefore s f g := by
  simp only [TriedBefore, State.commissioning, store]

theorem FirstCandidate.congr (store : t.store = s.store) (position : ∀ k, (t.feeder k).position = (s.feeder k).position)
    (meas : ∀ k, (t.feeder k).meas = (s.feeder k).meas) {barred : Option Feeder} (first : FirstCandidate s barred g) :
    FirstCandidate t barred g := by
  have may := MayBeTried.congr_iff store position meas barred
  exact ⟨(may g).2 first.1, fun k hk apart => (TriedBefore.congr_iff store g k).2 (first.2 k ((may k).1 hk) apart)⟩

theorem TrialList.congr (store : t.store = s.store) (position : ∀ k, (t.feeder k).position = (s.feeder k).position)
    (meas : ∀ k, (t.feeder k).meas = (s.feeder k).meas) {barred : Option Feeder} {cs : List Candidate} (list : TrialList t barred cs) :
    TrialList s barred cs where
  members k := (list.members k).trans (MayBeTried.congr_iff store position meas barred k)
  untried := list.untried
  ordered := list.ordered.imp (TriedBefore.congr_iff store _ _).1

/-- A trial that is entered with a first candidate that may be tripped begins with its trip (R156, R157). -/
theorem trialBegun_settled {sums : Option (Nat × Nat × Option Feeder)} {cause : Option HuntCause} (hh : u.hunt = some h)
    (going : h.pendingResult = none) (on : h.pendingSuspend = false) (enabled : (u.huntSettings h.level).trialEnable = true)
    (first : FirstCandidate u (barredFeeder h) g) (may : HuntMayTrip u g) (free : RestoreFree u g) (vn : Option Nat) :
    TrialBegun u (huntSettle vn (u, .trialEntry sums cause)) h (barredFeeder h) g ∧
      ∀ k, k ≠ g → (huntSettle vn (u, .trialEntry sums cause)).feeder k = u.feeder k := by
  have list := candidateList_trial u h
  obtain ⟨rest, head⟩ := list.first first
  have entered := trialEntry_lists (sums := sums) (cause := cause) hh going on enabled
  have settled : huntSettle vn (u, .trialEntry sums cause) = huntRun vn 39 (trialEntry sums cause u) := huntRun_trialEntry _ _ _ _ _
  generalize candidateList u h = cs at list head entered
  generalize huntMoved u _ _ _ = evs at entered
  let listed : HuntRun := { stepEnded h with state := .trialOpen, candidates := some cs, resume := none }
  let v : State := { u with hunt := some listed, queues := said evs u }
  have candidate : (listed.candidates.getD [])[0]? = some { feeder := g, outcome := .notTried } := by
    show cs[0]? = _
    rw [head]
    rfl
  have next : nextUntried listed = some 0 := nextUntried_first candidate rfl fun j _ hj => absurd hj (Nat.not_lt_zero j)
  have turn : nextCandidate v = candidateTurn 0 g v := nextCandidate_turn (s := v) (h := listed) rfl going next on enabled candidate
  have passes : candidateTurn 0 g v = tripCandidate 0 g v := candidateTurn_passes (s := v) may.lock may.fitted may.closed free
  have trips := tripCandidate_admitted (s := v) (h := listed) (i := 0) rfl ⟨may.fitted, may.lock, may.closed, may.idle⟩
  rw [settled, show trialEntry sums cause u = (v, .boundary) from entered, huntRun_boundary, turn, passes, trips, huntRun_wait]
  exact ⟨⟨⟨cs, list, rfl⟩, PerFeeder.get_set_self _ _ _, rfl⟩, fun k apart => PerFeeder.get_set_of_ne _ apart _⟩

/-! ### The end restore of the identified feeder -/

/-- What admits a hunt close on a feeder whose lock alone has changed. -/
theorem HuntMayClose.ofLock {l : Lock} (may : HuntMayClose s f) (feeder : t.feeder f = { s.feeder f with lock := l })
    (pool : t.pool = s.pool) (free : l.heldByPort = false) : HuntMayClose t f where
  lock := by rw [feeder]; exact free
  idle := by rw [feeder]; exact may.idle
  apart := by rw [feeder]; exact may.apart
  sound := by rw [feeder]; exact may.sound
  free := by
    have restore := may.free
    unfold RestoreFree at *
    rw [feeder, pool]
    exact restore

/-- A hunt that ends with no candidate in its turn restores the identified feeder that it has left open (R163). -/
theorem finishHunt_restoresIdentified {res : HuntResult} (vn : Option Nat) (hh : u.hunt = some h) (settled : h.pendingResult = some res)
    (other : res ≠ .foundIdentified) (hc : h.current = none) (hi : h.identified = some i) (unjudged : i.endRestore = none)
    (left : i.isolate = .misidentified ∨ i.isolate = .opened) : finishHunt vn u = restoreIdentified i.feeder u := by
  have candidate : candidateToRestore h = none := by rw [candidateToRestore, hc]
  have identified : identifiedToRestore h = some i.feeder := by simp only [identifiedToRestore, hi]; exact if_pos ⟨unjudged, left⟩
  simp only [finishHunt, hh, settled, if_neg other, candidate, identified]

/-- The identified feeder's restore takes its lock and has its close in flight (R118, R160, R163). -/
theorem restoreIdentified_begins (hh : u.hunt = some h) (fitted : u.fitted f = true) (opened : (u.feeder f).position = .opened)
    (may : HuntMayClose u f) :
    ∃ t, restoreIdentified f u = (t, .wait) ∧ RestoreBegun u t { h with locked := some f } f := by
  let v : State :=
    { u with
      feeders := u.feeders.set f { u.feeder f with lock := .hunt }
      hunt := some { h with locked := some f }
      queues := said (lockTaken u f) u }
  have feeder : v.feeder f = { u.feeder f with lock := .hunt } := PerFeeder.get_set_self _ _ _
  have taken : huntTakeLock f u = some v := by rw [huntTakeLock_spec may.lock, hh]; rfl
  have pass : ¬ (u.fitted f = false ∨ (u.feeder f).lock.heldByPort = true) := by simp [fitted, may.lock]
  have start : restoreIdentified f u = restoreFeeder f v := by simp only [restoreIdentified, if_neg pass, opened, taken]
  have closes := restoreFeeder_close (s := v) (h := { h with locked := some f }) rfl (may.ofLock feeder rfl rfl) (by rw [feeder])
  have closing : huntClosing v f = huntClosing u f := by rw [huntClosing, feeder]; rfl
  rw [LeadsWith, closing] at closes
  refine ⟨_, start.trans closes, ⟨rfl, ⟨PerFeeder.get_set_self _ _ _, fun k apart => ?_⟩, rfl⟩⟩
  exact (PerFeeder.get_set_of_ne _ apart _).trans (PerFeeder.get_set_of_ne _ apart _)

/-! ### The confirm deadline -/

/-- The hunt's record when the identified feeder is MISIDENTIFIED (R155). -/
def missedRecord (h : HuntRun) (i : Identified) : HuntRun :=
  { stepEnded h with identified := some { i with isolate := .misidentified }, locked := none }

/-- The state in which a missed confirmation goes to trial entry: the identified feeder is left open, its lock free (R155). -/
def missedState (s : State) (h : HuntRun) (i : Identified) : State :=
  { s with
    hunt := some (missedRecord h i)
    feeders := s.feeders.set i.feeder { s.feeder i.feeder with lock := .free }
    queues := said [lockDropped i.feeder] s }

theorem confirmExpired_missed (hh : s.hunt = some h) (hi : h.identified = some i) (held : (s.feeder i.feeder).lock = .hunt)
    (rest : NothingPending s i.feeder) : confirmExpired h s = (missedState s h i, .trialEntry none none) := by
  simp only [confirmExpired, hi, endStep, setIsolate, State.onHunt, hh, Option.map_some]
  exact congrArg (·, HuntGo.trialEntry none none) (huntDropLock_alone rest held)

theorem missedState_self (s : State) (h : HuntRun) (i : Identified) :
    (missedState s h i).feeder i.feeder = { s.feeder i.feeder with lock := .free } := PerFeeder.get_set_self _ _ _

theorem missedState_other (s : State) (h : HuntRun) (i : Identified) (apart : g ≠ i.feeder) :
    (missedState s h i).feeder g = s.feeder g := PerFeeder.get_set_of_ne _ apart _

theorem missedState_position (s : State) (h : HuntRun) (i : Identified) (k : Feeder) :
    ((missedState s h i).feeder k).position = (s.feeder k).position := by
  by_cases own : k = i.feeder
  · rw [own, missedState_self]
    rfl
  · rw [missedState_other s h i own]

theorem missedState_meas (s : State) (h : HuntRun) (i : Identified) (k : Feeder) :
    ((missedState s h i).feeder k).meas = (s.feeder k).meas := by
  by_cases own : k = i.feeder
  · rw [own, missedState_self]
  · rw [missedState_other s h i own]

theorem barredFeeder_missed (h : HuntRun) (i : Identified) : barredFeeder (missedRecord h i) = some i.feeder := rfl

/-- A missed confirmation with a suspend pending suspends the hunt at trial entry (R155, R165). -/
theorem missed_suspends (going : h.pendingResult = none) (suspend : h.pendingSuspend = true) :
    ∃ t, huntSettle none (missedState s h i, .trialEntry none none) = t ∧
      t.hunt = some
        { missedRecord h i with state := .suspended, pendingSuspend := false, resume := some .trialEntry } ∧
      OnlyFeeder s t i.feeder { s.feeder i.feeder with lock := .free } := by
  have settled : huntSettle none (missedState s h i, .trialEntry none none) = huntRun none 39 (trialEntry none none (missedState s h i)) :=
    huntRun_trialEntry _ _ _ _ _
  have stopped := suspendHunt_leads (s := missedState s h i) (h := missedRecord h i) rfl .trialEntry
  rw [settled, trialEntry_suspends (h := missedRecord h i) rfl going suspend, stopped, huntRun_wait]
  exact ⟨_, rfl, rfl, missedState_self s h i, fun k apart => missedState_other s h i apart⟩

/-- A missed confirmation goes on to the trial of the first candidate (R155 to R157). -/
theorem missed_tries (going : h.pendingResult = none) (on : h.pendingSuspend = false)
    (enabled : (s.huntSettings h.level).trialEnable = true) (first : FirstCandidate s (some i.feeder) g) (may : HuntMayTrip s g)
    (free : RestoreFree s g) :
    let missed : HuntRun := { h with identified := some { i with isolate := .misidentified } }
    let t := huntSettle none (missedState s h i, .trialEntry none none)
    TrialBegun s t missed (some i.feeder) g ∧ t.feeder i.feeder = { s.feeder i.feeder with lock := .free } ∧
      ∀ k, k ≠ i.feeder → k ≠ g → t.feeder k = s.feeder k := by
  intro missed t
  obtain ⟨-, -, -, -, unbarred, -⟩ := first.1
  have apart : g ≠ i.feeder := fun own => unbarred (by rw [own])
  have feeder : (missedState s h i).feeder g = s.feeder g := missedState_other s h i apart
  have store : (missedState s h i).store = s.store := rfl
  have position := missedState_position s h i
  have meas := missedState_meas s h i
  have firstHere : FirstCandidate (missedState s h i) (some i.feeder) g := FirstCandidate.congr store position meas first
  have mayHere : HuntMayTrip (missedState s h i) g :=
    ⟨may.fitted, by rw [feeder]; exact may.lock, by rw [feeder]; exact may.closed, by rw [feeder]; exact may.idle⟩
  have freeHere : RestoreFree (missedState s h i) g := by
    unfold RestoreFree at *
    rw [feeder]
    exact free
  obtain ⟨begun, others⟩ := trialBegun_settled (u := missedState s h i) (h := missedRecord h i) (sums := none) (cause := none) rfl going on
    enabled firstHere mayHere freeHere none
  obtain ⟨cs, list, hunt⟩ := begun.hunt
  refine ⟨⟨⟨cs, list.congr store position meas, hunt⟩, ?_, begun.opId⟩, ?_, fun k hk hg => ?_⟩
  · rw [begun.feeder, huntTripping, feeder]
    rfl
  · rw [others _ apart.symm, missedState_self]
  · rw [others k hg, missedState_other s h i hk]

/-- A missed confirmation with trial enable no ends the hunt NOT_FOUND, and the identified feeder is restored first (R156, R163). -/
theorem missed_restores (going : h.pendingResult = none) (on : h.pendingSuspend = false)
    (disabled : (s.huntSettings h.level).trialEnable = false) (hc : h.current = none) (unjudged : i.endRestore = none)
    (fitted : s.fitted i.feeder = true) (opened : (s.feeder i.feeder).position = .opened) (may : HuntMayClose s i.feeder) :
    let missed : HuntRun := { h with identified := some { i with isolate := .misidentified } }
    RestoreBegun s (huntSettle none (missedState s h i, .trialEntry none none)) { resulting missed .notFound with locked := some i.feeder }
      i.feeder := by
  let ended : HuntRun := resulting (stepEnded (missedRecord h i)) .notFound
  let v : State := { missedState s h i with hunt := some ended }
  have entered : trialEntry none none (missedState s h i) = (v, .finish) :=
    trialEntry_disabled (s := missedState s h i) (h := missedRecord h i) (sums := none) (cause := none) rfl going on disabled
  have feeder : v.feeder i.feeder = { s.feeder i.feeder with lock := .free } := missedState_self s h i
  have ends : finishHunt none v = restoreIdentified i.feeder v :=
    finishHunt_restoresIdentified (u := v) (h := ended) (i := { i with isolate := .misidentified }) none rfl rfl HuntResult.noConfusion hc rfl
      unjudged (.inl rfl)
  obtain ⟨t, restores, begun⟩ := restoreIdentified_begins (u := v) (h := ended) (f := i.feeder) rfl fitted
    (by rw [feeder]; exact opened) (may.ofLock feeder rfl rfl)
  have settled : huntSettle none (missedState s h i, .trialEntry none none) = huntRun none 39 (trialEntry none none (missedState s h i)) :=
    huntRun_trialEntry _ _ _ _ _
  rw [settled, entered, huntRun_finish, ends, restores, huntRun_wait]
  obtain ⟨own, others⟩ := begun.feeder
  refine ⟨begun.hunt, ⟨?_, fun k apart => (others k apart).trans (missedState_other s h i apart)⟩, begun.opId⟩
  rw [own, huntClosing, feeder]
  rfl

/-! ### The deadlines -/

variable {d : Nat}

theorem exec_confirmExpiry (running : s.phase = .running) (hh : s.hunt = some h) (hs : h.state = .confirm) (deadline : h.deadline = some d) :
    exec .confirmExpiry s = .next (if d ≤ s.partTime then huntSettle none (confirmExpired h s) else s) := by
  show Host.Outcome.next (whileRunning confirmDue s) = _
  simp only [whileRunning, running, if_true, confirmDue, hh, hs, deadline, reached_some, true_and]

theorem exec_trialWatchExpiry (running : s.phase = .running) (hh : s.hunt = some h) (hs : h.state = .trialWatch)
    (deadline : h.deadline = some d) (current : h.currentFeeder = some f) :
    exec .trialWatchExpiry s = .next (if d ≤ s.partTime then huntSettle none (restoreFeeder f s) else s) := by
  show Host.Outcome.next (whileRunning trialWatchDue s) = _
  simp only [whileRunning, running, if_true, trialWatchDue, hh, hs, deadline, current, reached_some, true_and]

/-- At the watch deadline the candidate's restore begins (R159, R160). -/
theorem watched_restores (hh : s.hunt = some h) (held : (s.feeder f).lock = .hunt) (may : HuntMayClose s f) :
    RestoreBegun s (huntSettle none (restoreFeeder f s)) h f := by
  have closes := restoreFeeder_close hh may held
  rw [closes, huntSettle_wait]
  exact ⟨rfl, ⟨PerFeeder.get_set_self _ _ _, fun k apart => PerFeeder.get_set_of_ne _ apart _⟩, rfl⟩

end

end Sys2Proof.Machine

open Sys2Proof Sys2Proof.Machine

/-- Settles O45: the deadline of CONFIRM, by what follows the missed confirmation, and that of TRIAL_WATCH. -/
theorem huntDeadlinesAct : Obligations.HuntDeadlinesAct := by
  refine ⟨fun h d i s running hh hs deadline hi => ?_, fun h d j c s running hh hs deadline hj hc => ?_⟩
  · rw [exec_confirmExpiry running hh hs deadline]
    refine ⟨fun early => by rw [if_neg (Nat.not_le.2 early)], fun due going held rest => ?_⟩
    rw [if_pos due, confirmExpired_missed hh hi held rest]
    refine ⟨fun suspend => ?_, fun on enabled g first may free => ?_, fun on disabled hc unjudged fitted opened may => ?_⟩
    · obtain ⟨t, settled, hunt, feeder⟩ := missed_suspends (s := s) (i := i) going suspend
      exact ⟨t, congrArg Host.Outcome.next settled, hunt, feeder⟩
    · exact ⟨_, rfl, missed_tries going on enabled first may free⟩
    · exact ⟨_, rfl, missed_restores going on disabled hc unjudged fitted opened may⟩
  · have current : h.currentFeeder = some c.feeder := by
      simp only [HuntRun.currentFeeder, hj, HuntRun.candidateAt, hc, Option.map_some]
    rw [exec_trialWatchExpiry running hh hs deadline current]
    refine ⟨fun early => by rw [if_neg (Nat.not_le.2 early)], fun due held may => ?_⟩
    rw [if_pos due]
    exact ⟨_, rfl, watched_restores hh held may⟩

end

