-- ==== Sys2Proof/Proofs/SequencerCompletions.lean ====
section
/-! PROOFS. What a completion makes of the sequencer's record (R127, R128, R132, R133, R135 to R137): first the record that each move leaves,
then the move that each completion makes in each state. -/
namespace Sys2Proof.Machine

section
variable {f : Feeder} {c : Completed} {s : State}

/-! ### The record after a move -/

/-- On entry from another state only the shots used are kept (R123). -/
theorem ArRecord.enter_of_ne {r : ArRecord} {st : ArState} (moves : r.state ≠ st) (now : Nat) :
    r.enter st now = { ArRecord.bare st now with shotsUsed := r.shotsUsed } := by
  rw [ArRecord.enter, if_neg moves]

theorem toLockout_record (outside : (s.feeder f).ar.state ≠ .lockout) (cause : ArCause) (detail : LockoutDetail) :
    ((toLockout f cause detail s).feeder f).ar =
      { ArRecord.bare .lockout s.partTime with shotsUsed := (s.feeder f).ar.shotsUsed, cause := some cause } := by
  rw [toLockout, arMove_record, ArRecord.enter_of_ne outside]

theorem toOpenManual_record (outside : (s.feeder f).ar.state ≠ .openManual) :
    ((toOpenManual f s).feeder f).ar = { ArRecord.bare .openManual s.partTime with shotsUsed := (s.feeder f).ar.shotsUsed } := by
  rw [toOpenManual, arMove_record, ArRecord.enter_of_ne outside]

theorem toReclaim_record (outside : (s.feeder f).ar.state ≠ .reclaim) (shots : Nat) (cause : ArCause) :
    ((toReclaim f shots cause s).feeder f).ar =
      { ArRecord.bare .reclaim s.partTime with shotsUsed := shots, reclaim := some (s.partTime + reclaimTime s f) } := by
  rw [toReclaim, arMove_record, ArRecord.enter_of_ne outside]

/-- RECLAIM that is entered again keeps its entry time and takes the new deadline (log 23). -/
theorem toReclaim_record_again (waits : (s.feeder f).ar.state = .reclaim) (shots : Nat) (cause : ArCause) :
    ((toReclaim f shots cause s).feeder f).ar =
      { ArRecord.bare .reclaim s.partTime with
        shotsUsed := shots, reclaim := some (s.partTime + reclaimTime s f), since := (s.feeder f).ar.since } := by
  rw [toReclaim, arMove_record, ArRecord.enter, if_pos waits]
  rfl

/-- The first check of the sequence that fails is the cause of LOCKOUT; with none DEAD_TIME begins, for the next shot (R127). -/
theorem judgeSequence_record (permit : Option Bool) (outside : (s.feeder f).ar.state ≠ .lockout)
    (moves : (s.feeder f).ar.state ≠ .deadTime) :
    let r := (s.feeder f).ar
    let locked (cause : ArCause) : ArRecord :=
      { ArRecord.bare .lockout s.partTime with shotsUsed := r.shotsUsed, cause := some cause }
    ((judgeSequence f permit s).feeder f).ar =
      if permit ≠ some true then locked .noPermit
      else if shotCount s f ≤ r.shotsUsed then locked .noShots
      else if blockSet s f ≠ [] then locked .blocked
      else
        { ArRecord.bare .deadTime s.partTime with
          shotsUsed := r.shotsUsed, currentShot := some (r.shotsUsed + 1),
          deadline := some (s.partTime + deadTimeOf s f (r.shotsUsed + 1)) } := by
  intro r locked
  have blocked : (blockSetEmpty s f = false) ↔ blockSet s f ≠ [] := by simp [blockSetEmpty]
  simp only [judgeSequence, blocked]
  split_ifs
  · exact toLockout_record outside _ _
  · exact toLockout_record outside _ _
  · exact toLockout_record outside _ _
  · rw [arMove_record, ArRecord.enter_of_ne moves]

/-! ### Trips -/

section
variable (trip : c.op.kind = .trip)
include trip

theorem seqCompletion_trip : seqCompletion f c s = seqTripCompletion f c s := by
  rw [seqCompletion, trip]

section
variable (done : c.outcome = .done)
include done

/-- A protection trip in READY, CLOSING or RECLAIM is judged (R127). -/
theorem protectionTrip_judged (protection : c.op.requesters.contains .protection = true)
    (h : (s.feeder f).ar.state = .ready ∨ (s.feeder f).ar.state = .closing ∨ (s.feeder f).ar.state = .reclaim) :
    seqCompletion f c s = judgeSequence f c.op.permit s := by
  rw [seqCompletion_trip trip]
  rcases h with h | h | h <;> simp only [seqTripCompletion, done, h, protection, if_true]

/-- A breaker that a protection trip finds closed there was closed by a path the sequencer did not run (R128). -/
theorem protectionTrip_outside (protection : c.op.requesters.contains .protection = true)
    (h : (s.feeder f).ar.state = .openManual ∨ (s.feeder f).ar.state = .deadTime) :
    seqCompletion f c s = toLockout f .tripOutsideSequence {} s := by
  rw [seqCompletion_trip trip]
  rcases h with h | h <;> simp only [seqTripCompletion, done, h, protection, if_true]

theorem protectionTrip_kept (protection : c.op.requesters.contains .protection = true)
    (h : (s.feeder f).ar.state = .lockout ∨ (s.feeder f).ar.state = .starting ∨ (s.feeder f).ar.state = .outOfService) :
    seqCompletion f c s = s := by
  rw [seqCompletion_trip trip]
  rcases h with h | h | h <;> simp only [seqTripCompletion, done, h, protection, if_true]

/-- A trip without PROTECTION among its requesters opens by hand (R135). -/
theorem requestedTrip_opens (requested : c.op.requesters.contains .protection = false)
    (h : (s.feeder f).ar.state = .ready ∨ (s.feeder f).ar.state = .deadTime ∨ (s.feeder f).ar.state = .closing ∨
      (s.feeder f).ar.state = .reclaim ∨ (s.feeder f).ar.state = .lockout) :
    seqCompletion f c s = toOpenManual f s := by
  rw [seqCompletion_trip trip]
  rcases h with h | h | h | h | h <;> simp only [seqTripCompletion, done, h, requested, Bool.false_eq_true, if_false]

theorem requestedTrip_kept (requested : c.op.requesters.contains .protection = false)
    (h : (s.feeder f).ar.state = .openManual ∨ (s.feeder f).ar.state = .starting ∨ (s.feeder f).ar.state = .outOfService) :
    seqCompletion f c s = s := by
  rw [seqCompletion_trip trip]
  rcases h with h | h | h <;> simp only [seqTripCompletion, done, h, requested, Bool.false_eq_true, if_false]

end

/-- A trip ALREADY ends a dead time by hand, unless it is a protection trip (R128, R135). -/
theorem tripAlready_deadTime (already : c.outcome = .already) (waits : (s.feeder f).ar.state = .deadTime) :
    seqCompletion f c s = if c.op.requesters.contains .protection then s else toOpenManual f s := by
  rw [seqCompletion_trip trip]
  simp only [seqTripCompletion, already, waits]

theorem tripFailed_locks (failed : c.outcome = .failed)
    (h : (s.feeder f).ar.state = .ready ∨ (s.feeder f).ar.state = .closing ∨ (s.feeder f).ar.state = .reclaim ∨
      (s.feeder f).ar.state = .openManual) :
    seqCompletion f c s = toLockout f .tripFailed { opId := some c.op.id } s := by
  rw [seqCompletion_trip trip]
  rcases h with h | h | h | h <;> simp only [seqTripCompletion, failed, h]

theorem tripFailed_kept (failed : c.outcome = .failed)
    (h : (s.feeder f).ar.state = .lockout ∨ (s.feeder f).ar.state = .starting ∨ (s.feeder f).ar.state = .outOfService) :
    seqCompletion f c s = s := by
  rw [seqCompletion_trip trip]
  rcases h with h | h | h <;> simp only [seqTripCompletion, failed, h]

end

/-! ### Closes -/

section
variable (close : c.op.kind = .close)
include close

section
variable (reclose : c.op.origin = .reclose)
include reclose

theorem seqCompletion_reclose : seqCompletion f c s = seqRecloseCompletion f c s := by
  rw [seqCompletion, close]
  exact if_pos reclose

theorem reclose_outside_closing (outside : (s.feeder f).ar.state ≠ .closing) : seqCompletion f c s = s := by
  rw [seqCompletion_reclose close reclose, seqRecloseCompletion, if_pos outside]

/-- In CLOSING a completion of the RECLOSE close acts under the op id that the record holds, and ALREADY while it holds none (R132, R133). -/
theorem reclose_closing (closing : (s.feeder f).ar.state = .closing) :
    let r := (s.feeder f).ar
    let own := r.closeOp = some c.op.id
    let reclosed : ArRecord :=
      { ArRecord.bare .reclaim s.partTime with shotsUsed := r.shotsUsed, reclaim := some (s.partTime + reclaimTime s f) }
    let new := ((seqCompletion f c s).feeder f).ar
    (c.outcome = .done → new = if own then reclosed else r) ∧
    (c.outcome = .failed →
      new =
        if own then { ArRecord.bare .lockout s.partTime with shotsUsed := r.shotsUsed, cause := some .closeFailed } else r) ∧
    (c.outcome = .superseded → new = if own then { r with closeOp := none } else r) ∧
    (c.outcome = .already → new = if r.closeOp = none then reclosed else r) := by
  intro r own reclosed new
  have moves : (s.feeder f).ar.state ≠ .reclaim := by rw [closing]; exact ArState.noConfusion
  have unlocked : (s.feeder f).ar.state ≠ .lockout := by rw [closing]; exact ArState.noConfusion
  have taken : seqCompletion f c s = _ := (seqCompletion_reclose close reclose).trans (if_neg (not_not.2 closing))
  refine ⟨fun outcome => ?_, fun outcome => ?_, fun outcome => ?_, fun outcome => ?_⟩
  all_goals
    simp only [new, taken, outcome]
    split_ifs
  · exact toReclaim_record moves _ _
  · rfl
  · exact toLockout_record unlocked _ _
  · rfl
  · rw [State.feeder_onFeeder_self]
  · rfl
  · exact toReclaim_record moves _ _
  · rfl

end

section
variable (request : c.op.origin ≠ .reclose)
include request

theorem seqCompletion_request : seqCompletion f c s = seqCloseCompletion f c s := by
  rw [seqCompletion, close]
  exact if_neg request

/-- A port's or the hunt's close DONE begins the reclaim time with no shot left (R137). -/
theorem requestedClose_reclaims (done : c.outcome = .done)
    (h : ((s.feeder f).ar.state = .ready ∨ (s.feeder f).ar.state = .deadTime ∨ (s.feeder f).ar.state = .lockout ∨
      (s.feeder f).ar.state = .openManual) ∨ (s.feeder f).ar.state = .reclaim) :
    seqCompletion f c s = toReclaim f (shotCount s f) .closedByRequest s := by
  rw [seqCompletion_request close request]
  rcases h with (h | h | h | h) | h <;> simp only [seqCloseCompletion, done, h]

theorem requestedClose_locks (failed : c.outcome = .failed)
    (h : (s.feeder f).ar.state = .ready ∨ (s.feeder f).ar.state = .reclaim ∨ (s.feeder f).ar.state = .openManual) :
    seqCompletion f c s = toLockout f .closeFailed { opId := some c.op.id } s := by
  rw [seqCompletion_request close request]
  rcases h with h | h | h <;> simp only [seqCloseCompletion, failed, h]

theorem requestedClose_failed_lockout (failed : c.outcome = .failed) (locked : (s.feeder f).ar.state = .lockout) :
    seqCompletion f c s = s := by
  rw [seqCompletion_request close request]
  simp only [seqCloseCompletion, failed, locked]

/-- Neither outcome of a port's or the hunt's close reaches the record in any state (R137). -/
theorem requestedClose_kept (h : c.outcome = .already ∨ c.outcome = .superseded) : seqCompletion f c s = s := by
  rw [seqCompletion_request close request]
  rcases h with h | h <;> cases hs : (s.feeder f).ar.state <;> simp only [seqCloseCompletion, h, hs]

theorem requestedClose_unstarted (h : (s.feeder f).ar.state = .starting ∨ (s.feeder f).ar.state = .outOfService) :
    seqCompletion f c s = s := by
  rw [seqCompletion_request close request]
  rcases h with h | h <;> simp only [seqCloseCompletion, h]

end

end

end

end Sys2Proof.Machine

open Sys2Proof Sys2Proof.Machine

/-- Settles O16: by the kind and the outcome of the completion, each a move whose record is known. -/
theorem sequencerTakesCompletions : Obligations.SequencerTakesCompletions := by
  intro f c s r new protection locked
  have kept (still : seqCompletion f c s = s) : new = r := congrArg (fun t : State => (t.feeder f).ar) still
  have leaves {t : State} {a : ArRecord} (moved : seqCompletion f c s = t) (record : (t.feeder f).ar = a) : new = a :=
    (congrArg (fun t : State => (t.feeder f).ar) moved).trans record
  refine ⟨fun trip done elements => ⟨fun h => ?_, fun h => ?_, fun h => kept (protectionTrip_kept trip done elements h)⟩,
    fun trip done requested => ⟨fun h => ?_, fun h => kept (requestedTrip_kept trip done requested h)⟩,
    fun trip already => ?_, fun trip failed => ⟨fun h => ?_, fun h => kept (tripFailed_kept trip failed h)⟩,
    fun close reclose closing => ?_, fun close reclose outside => kept (reclose_outside_closing close reclose outside),
    fun close request => ⟨fun done => ⟨fun h => ?_, fun h => ?_⟩, fun failed => ⟨fun h => ?_, fun h => ?_⟩,
      fun h => kept (requestedClose_kept close request h), fun h => kept (requestedClose_unstarted close request h)⟩⟩
  · have unlocked : r.state ≠ .lockout := fun e => by simp [e] at h
    have moves : r.state ≠ .deadTime := fun e => by simp [e] at h
    exact leaves (protectionTrip_judged trip done elements h) (judgeSequence_record _ unlocked moves)
  · have unlocked : r.state ≠ .lockout := fun e => by simp [e] at h
    exact leaves (protectionTrip_outside trip done elements h) (toLockout_record unlocked _ _)
  · have moves : r.state ≠ .openManual := fun e => by simp [e] at h
    exact leaves (requestedTrip_opens trip done requested h) (toOpenManual_record moves)
  · by_cases waits : r.state = .deadTime
    · have taken := tripAlready_deadTime trip already waits
      cases requesters : protection with
      | true =>
        rw [if_neg (by simp)]
        exact kept (taken.trans (if_pos requesters))
      | false =>
        have moves : r.state ≠ .openManual := fun e => by simp [e] at waits
        rw [if_pos ⟨waits, rfl⟩]
        exact leaves (taken.trans (if_neg (Bool.eq_false_iff.1 requesters))) (toOpenManual_record moves)
    · rw [if_neg fun e => waits e.1]
      exact kept (seqCompletion_already already (fun _ => waits) fun close => by simp [trip] at close)
  · have unlocked : r.state ≠ .lockout := fun e => by simp [e] at h
    exact leaves (tripFailed_locks trip failed h) (toLockout_record unlocked _ _)
  · obtain ⟨done, failed, superseded, already⟩ := reclose_closing close reclose closing
    intro own reclosed
    cases outcome : c.outcome with
    | done => exact done outcome
    | failed => exact failed outcome
    | superseded => exact superseded outcome
    | already => exact already outcome
  · have moves : r.state ≠ .reclaim := fun e => by simp [e] at h
    exact leaves (requestedClose_reclaims close request done (.inl h)) (toReclaim_record moves _ _)
  · exact leaves (requestedClose_reclaims close request done (.inr h)) (toReclaim_record_again h _ _)
  · have unlocked : r.state ≠ .lockout := fun e => by simp [e] at h
    exact leaves (requestedClose_locks close request failed h) (toLockout_record unlocked _ _)
  · exact kept (requestedClose_failed_lockout close request failed h)

end

