-- ==== Sys2Proof/Proofs/HuntDropouts.lean ====
section
/-! PROOFS. A dropout of the displacement detector: how it reaches the hunt (R146), and what each state of the hunt makes of it (R150, R154,
R155, R158, R159, R161, R162, R166). -/
namespace Sys2Proof.Machine

section
variable {f : Feeder} {s : State} {h : HuntRun} {i : Identified} {j : Nat} {c : Candidate}

/-! ### The detector -/

/-- Below dropout the detector is QUIET with nothing accumulated (R145, R146). -/
theorem detectorNext_dropout {vn : Nat} (below : vn < (s.huntSettings (detectorLevel s)).dropout) (interval : Nat) :
    detectorNext vn interval s = { state := .quiet, amount := 0 } := by
  have unpicked : ¬ (s.huntSettings (detectorLevel s)).vnPickup ≤ vn := by unfold HuntSettings.dropout at below; omega
  rw [detectorNext, detectorMove_spec, if_neg unpicked]
  exact if_pos below

/-- A dropout reaches the hunt at the frame's Vn, told of a displacement alone (R146, R147). -/
theorem detectorFrame_dropout {vn : Nat} (displaced : s.detector.state ≠ .quiet)
    (below : vn < (s.huntSettings (detectorLevel s)).dropout) (interval : Nat) :
    detectorFrame vn true interval s = huntSettle (some vn) (huntDropout
      { s with
        detector := { state := .quiet, amount := 0 }
        queues := said
          (if s.detector.state = .timing then []
           else [.huntState s.detector.state .quiet (huntState s) (huntState s) (detectorLevel s) { vn := some vn }]) s }) := by
  have told : detectorTold vn interval s =
      { s with
        detector := { state := .quiet, amount := 0 }
        queues := said [.huntState s.detector.state .quiet (huntState s) (huntState s) (detectorLevel s) { vn := some vn }] s } := by
    rw [detectorTold, detectorNext_dropout below]
  rw [detectorFrame_valid]
  dsimp only
  rw [detectorNext_dropout below, told, if_neg fun entered => DetectorState.noConfusion entered.1, if_pos ⟨rfl, displaced⟩]
  by_cases timing : s.detector.state = .timing
  · rw [if_pos timing, if_pos timing]
    rfl
  · rw [if_neg timing, if_neg timing]

/-! ### The hunt, by its state -/

/-- A result is made pending, which cancels a pending suspend (R161). -/
theorem setPending_spec (hh : s.hunt = some h) (res : HuntResult) : setPending res s = { s with hunt := some (resulting h res) } := by
  rw [setPending, State.onHunt_some hh]
  rfl

/-- A step ends with a result. -/
theorem setPending_endStep (hh : s.hunt = some h) (res : HuntResult) :
    setPending res (endStep s) = { s with hunt := some (resulting (stepEnded h) res) } := by
  rw [endStep_spec hh, setPending_spec rfl]

/-- The identified feeder's isolate outcome is set (R154, R155). -/
theorem setIsolate_spec (hh : s.hunt = some h) (hi : h.identified = some i) (o : IsolateOutcome) :
    setIsolate o s = { s with hunt := some { h with identified := some { i with isolate := o } } } := by
  simp only [setIsolate, State.onHunt_some hh, hi, Option.map_some]

theorem setCandidate_spec (hh : s.hunt = some h) (j : Nat) (o : CandidateOutcome) :
    setCandidate j o s = { s with hunt := some (outcomeAt h j o) } := by
  rw [setCandidate, State.onHunt_some hh]
  rfl

/-- The current candidate's feeder is the one at its place of the list. -/
theorem currentFeeder_of_candidate (hj : h.current = some j) (hc : (h.candidates.getD [])[j]? = some c) :
    h.currentFeeder = some c.feeder := by
  simp only [HuntRun.currentFeeder, hj, HuntRun.candidateAt, hc, Option.map_some]

/-- A found result ends the step, places the HUNT claim and frees the lock (R162). -/
theorem foundOn_leads (hh : s.hunt = some h) (res : HuntResult) (held : (s.feeder f).lock = .hunt) (rest : NothingPending s f)
    (awake : (s.feeder f).ar.state ≠ .deadTime) :
    LeadsWith s (foundOn f res s) .finish { resulting (stepEnded h) res with locked := none } f
      { s.feeder f with lock := .free, claims := { (s.feeder f).claims with hunt := true } } s.opCounter
      ((if (s.feeder f).claims.hunt = true then [] else [.claimPlaced f (.system .hunt)]) ++ [lockDropped f]) := by
  rw [foundOn, setPending_endStep hh]
  exact congrArg (·, HuntGo.finish) (foundFeeder_freed rest held awake)

/-- In IDENTIFY a dropout ends the hunt, its window discarded (R150). -/
theorem huntDropout_identify (hh : s.hunt = some h) (hs : h.state = .identify) :
    Leads s (huntDropout s) .finish (resulting (stepEnded h) .clearedSpontaneous) [] := by
  have step : huntDropout s = (setPending .clearedSpontaneous (endStep s), .finish) := by simp only [huntDropout, hh, hs]
  rw [step, setPending_endStep hh]
  rfl

/-- In SUSPENDED a dropout ends the hunt (R166). -/
theorem huntDropout_suspended (hh : s.hunt = some h) (hs : h.state = .suspended) :
    Leads s (huntDropout s) .finish (resulting h .clearedSpontaneous) [] := by
  have step : huntDropout s = (setPending .clearedSpontaneous s, .finish) := by simp only [huntDropout, hh, hs]
  rw [step, setPending_spec hh]
  rfl

/-- In ISOLATE a dropout is seen (R154). -/
theorem huntDropout_isolate (hh : s.hunt = some h) (hs : h.state = .isolate) :
    Leads s (huntDropout s) .wait { h with dropoutSeen := some true } [] := by
  have step : huntDropout s = (s.onHunt fun r => { r with dropoutSeen := some true }, .wait) := by simp only [huntDropout, hh, hs]
  rw [step, State.onHunt_some hh]
  rfl

/-- While an operation of the trial is in flight a dropout is the pending result, unless there is one (R158, R161). -/
theorem huntDropout_inTrial (hh : s.hunt = some h) (hs : h.state = .trialOpen ∨ h.state = .trialRestore) :
    Leads s (huntDropout s) .wait (if h.pendingResult = none then resulting h .clearedSpontaneous else h) [] := by
  have step : huntDropout s = (setPendingIfNone .clearedSpontaneous s, .wait) := by
    rcases hs with hs | hs <;> simp only [huntDropout, hh, hs]
  simp only [step, setPendingIfNone, hh, setPending_spec hh]
  split_ifs
  · rfl
  · rw [Leads, said_nil, ← hh]

/-! ### In CONFIRM -/

section
variable (hh : s.hunt = some h) (hs : h.state = .confirm) (hi : h.identified = some i) (held : (s.feeder i.feeder).lock = .hunt)
  (rest : NothingPending s i.feeder)
include hh hs hi held rest

/-- A dropout finds the identified feeder while it is OPEN (R155). -/
theorem huntDropout_confirms (opened : (s.feeder i.feeder).position = .opened) (awake : (s.feeder i.feeder).ar.state ≠ .deadTime) :
    LeadsWith s (huntDropout s) .finish
      { resulting (stepEnded h) .foundIdentified with identified := some { i with isolate := .found }, locked := none } i.feeder
      { s.feeder i.feeder with lock := .free, claims := { (s.feeder i.feeder).claims with hunt := true } } s.opCounter
      ((if (s.feeder i.feeder).claims.hunt = true then [] else [.claimPlaced i.feeder (.system .hunt)]) ++ [lockDropped i.feeder]) := by
  have step : huntDropout s = foundOn i.feeder .foundIdentified (setIsolate .found s) := by
    simp only [huntDropout, hh, hs, hi, opened, if_true]
  rw [step, setIsolate_spec hh hi]
  exact (foundOn_leads (s := { s with hunt := some { h with identified := some { i with isolate := .found } } }) rfl .foundIdentified held
    rest awake).ofRecord

/-- A dropout that finds the identified feeder not OPEN clears the hunt (R155). -/
theorem huntDropout_notOpen (shut : (s.feeder i.feeder).position ≠ .opened) :
    LeadsWith s (huntDropout s) .finish
      { resulting (stepEnded h) .clearedSpontaneous with identified := some { i with isolate := .notOpen }, locked := none } i.feeder
      { s.feeder i.feeder with lock := .free } s.opCounter [lockDropped i.feeder] := by
  have step : huntDropout s =
      (huntDropLock i.feeder (setIsolate .notOpen (setPending .clearedSpontaneous (endStep s))), .finish) := by
    simp only [huntDropout, hh, hs, hi, if_neg shut]
  have cleared : (resulting (stepEnded h) .clearedSpontaneous).identified = some i := hi
  rw [step, setPending_endStep hh, setIsolate_spec rfl cleared]
  exact congrArg (·, HuntGo.finish) (huntDropLock_alone rest held)

end

/-! ### In TRIAL_WATCH -/

section
variable (hh : s.hunt = some h) (hs : h.state = .trialWatch) (hj : h.current = some j) (hc : (h.candidates.getD [])[j]? = some c)
include hh hs hj hc

/-- A candidate that is not OPEN at the dropout gets no close (R159, log 14). -/
theorem huntDropout_moved (shut : (s.feeder c.feeder).position ≠ .opened) :
    Leads s (huntDropout s) .finish { resulting (stepEnded h) .clearedSpontaneous with state := .trialRestore, resume := none }
      (huntMoved s .trialWatch .trialRestore {}) := by
  have step : huntDropout s = (setHuntState .trialRestore {} (setPending .clearedSpontaneous (endStep s)), .finish) := by
    simp only [huntDropout, hh, hs, hj, currentFeeder_of_candidate hj hc, ne_eq, shut, not_false_eq_true, if_true]
  rw [step, setPending_endStep hh, setHuntState_record, ← hs]
  rfl

/-- A protection trip in the watch takes the dropout for itself (R159). -/
theorem huntDropout_byProtection (opened : (s.feeder c.feeder).position = .opened) (tripped : h.tripInWatch = some true) :
    Leads s (huntDropout s) .finish (resulting (stepEnded h) .clearedByProtection) [] := by
  have step : huntDropout s = (setPending .clearedByProtection (endStep s), .finish) := by
    simp only [huntDropout, hh, hs, hj, currentFeeder_of_candidate hj hc, opened, tripped, ne_eq, not_true_eq_false, if_false, if_true]
  rw [step, setPending_endStep hh]
  rfl

/-- Otherwise the candidate is found (R159, R162). -/
theorem huntDropout_finds (opened : (s.feeder c.feeder).position = .opened) (quiet : h.tripInWatch ≠ some true)
    (held : (s.feeder c.feeder).lock = .hunt) (rest : NothingPending s c.feeder) (awake : (s.feeder c.feeder).ar.state ≠ .deadTime) :
    LeadsWith s (huntDropout s) .finish
      { resulting (stepEnded (outcomeAt h j .found)) .foundByTrial with current := none, locked := none } c.feeder
      { s.feeder c.feeder with lock := .free, claims := { (s.feeder c.feeder).claims with hunt := true } } s.opCounter
      ((if (s.feeder c.feeder).claims.hunt = true then [] else [.claimPlaced c.feeder (.system .hunt)]) ++ [lockDropped c.feeder]) := by
  have step : huntDropout s =
      foundOn c.feeder .foundByTrial ((setCandidate j .found s).onHunt fun r => { r with current := none }) := by
    simp only [huntDropout, hh, hs, hj, currentFeeder_of_candidate hj hc, opened, if_neg quiet, ne_eq, not_true_eq_false, if_false]
  rw [step, setCandidate_spec hh, State.onHunt_some rfl]
  exact (foundOn_leads (s := { s with hunt := some { outcomeAt h j .found with current := none } }) rfl .foundByTrial held rest
    awake).ofRecord

/-- A protection trip of another feeder in the watch is noted (R159). -/
theorem huntProtectionTrip_watch (f : Feeder) :
    huntProtectionTrip f s = if f = c.feeder then s else { s with hunt := some { h with tripInWatch := some true } } := by
  rw [huntProtectionTrip_spec hh, hs, if_neg HuntState.noConfusion, currentFeeder_of_candidate hj hc]
  by_cases own : f = c.feeder
  · rw [if_pos own, if_neg fun other => other.2 (congrArg some own.symm), ← hh]
  · rw [if_neg own, if_pos ⟨rfl, fun same => own (Option.some.inj same).symm⟩]

end

end

end Sys2Proof.Machine

open Sys2Proof Sys2Proof.Machine

/-- Settles O49: the dropout at the detector, then by the state of the hunt that it reaches. -/
theorem dropoutActsByTheStep : Obligations.DropoutActsByTheStep := by
  refine ⟨fun vn interval s displaced below => detectorFrame_dropout displaced below interval, fun h s hh => ?_,
    fun f h i c s hh hs hj hc => huntProtectionTrip_watch hh hs hj hc f⟩
  exact ⟨huntDropout_identify hh, huntDropout_suspended hh, huntDropout_isolate hh, huntDropout_inTrial hh,
    fun hs i hi held rest => ⟨huntDropout_confirms hh hs hi held rest, huntDropout_notOpen hh hs hi held rest⟩,
    fun hs i c hj hc => ⟨huntDropout_moved hh hs hj hc, huntDropout_byProtection hh hs hj hc, huntDropout_finds hh hs hj hc⟩⟩
end

