-- ==== Sys2Proof/Proofs/HuntEnds.lean ====
section
/-! PROOFS. The end of a hunt (R147, R160, R163, R164, R171): the restore of the current candidate, the restore of the identified feeder,
and what IDLE leaves of the hunt and the detector. -/
namespace Sys2Proof.Machine

section
variable {f : Feeder} {s : State} {h : HuntRun} {i : Identified} {j : Nat} {c : Candidate} {res : HuntResult} {vn : Option Nat}

/-! ### Steps in turn -/

/-- A step of the hunt after entries and changes of the hunt's record and of the feeder that the step leaves as given. -/
theorem LeadsWith.after {r : Option HuntRun} {fs : PerFeeder FeederState} {x : State × HuntGo} {g : HuntGo} {r' : HuntRun}
    {y : FeederState} {ops : Nat} {before evs : List Event} (feeders : fs.set f y = s.feeders.set f y)
    (leads : LeadsWith { s with hunt := r, feeders := fs, queues := said before s } x g r' f y ops evs) :
    LeadsWith s x g r' f y ops (before ++ evs) := by
  have entries : said evs { s with hunt := r, feeders := fs, queues := said before s } = said (before ++ evs) s :=
    said_append before evs rfl rfl rfl
  rw [LeadsWith, entries, feeders] at leads
  exact leads

theorem huntMoved_congr {t : State} (detector : t.detector = s.detector) (level : detectorLevel t = detectorLevel s) (old new : HuntState)
    (d : HuntDetail) : huntMoved t old new d = huntMoved s old new d := by
  rw [huntMoved, huntMoved, detector, level]

/-- A lock that changes leaves the detector level (R145). -/
theorem detectorLevel_ofLock (s : State) (f : Feeder) (l : Lock) (r : Option HuntRun) (q : PerPort (List EventEntry)) :
    detectorLevel { s with feeders := s.feeders.set f { s.feeder f with lock := l }, hunt := r, queues := q } = detectorLevel s := by
  refine detectorLevel_congr (fun k => ?_) rfl
  change ((s.feeders.set f { s.feeder f with lock := l }).get k).fire = _
  by_cases own : k = f
  · rw [own, PerFeeder.get_set_self]
  · rw [PerFeeder.get_set_of_ne _ own]
    rfl

/-! ### Restores -/

/-- A hunt close of an open breaker with nothing in flight is refused for a position fault or by the restore rule (R110). -/
theorem requestHuntClose_refused (opened : (s.feeder f).position = .opened) (idle : (s.feeder f).inFlight = none)
    (barred : (s.feeder f).positionFault ≠ none ∨ ¬ RestoreFree s f) : ∃ reason, requestHuntClose f s = (s, .refused reason) := by
  by_cases blocked : restoreBlocked s f = true
  · exact requestHuntClose_barred (by rw [opened]; exact Position.noConfusion) blocked
  · have fault : (s.feeder f).positionFault ≠ none :=
      barred.resolve_right fun apart => apart ((restoreBlocked_iff s f).1 (Bool.eq_false_iff.2 blocked))
    cases held : (s.feeder f).lock.heldByPort <;>
      simp [requestHuntClose, requestBlockClose, inFlightKind, held, idle, opened, fault]

/-- A restore whose close is refused is STRANDED in TRIAL_RESTORE, at once (R160). -/
theorem restoreFeeder_refused (hh : s.hunt = some h) (opened : (s.feeder f).position = .opened) (idle : (s.feeder f).inFlight = none)
    (barred : (s.feeder f).positionFault ≠ none ∨ ¬ RestoreFree s f) :
    restoreFeeder f s = concludeRestore f false
      { s with
        hunt := some { stepEnded h with state := .trialRestore, resume := none }
        queues := said (huntMoved s h.state .trialRestore {}) s } := by
  let restoring : State :=
    { s with
      hunt := some { stepEnded h with state := .trialRestore, resume := none }
      queues := said (huntMoved s h.state .trialRestore {}) s }
  have entered : setHuntState .trialRestore {} (endStep s) = restoring := by
    rw [endStep_spec hh, setHuntState_record]
    rfl
  obtain ⟨reason, refused⟩ := requestHuntClose_refused (s := restoring) opened idle barred
  simp only [restoreFeeder, entered, refused]
  rfl

/-- A candidate whose close is refused is STRANDED, and the next turn follows (R160). -/
theorem restoreFeeder_strands (hh : s.hunt = some h) (hj : h.current = some j) (held : (s.feeder f).lock = .hunt)
    (rest : NothingPending s f) (opened : (s.feeder f).position = .opened) (idle : (s.feeder f).inFlight = none)
    (barred : (s.feeder f).positionFault ≠ none ∨ ¬ RestoreFree s f) :
    LeadsWith s (restoreFeeder f s) .boundary
      { concluded (stepEnded h) j .stranded with state := .trialRestore, resume := none, locked := none } f
      { s.feeder f with lock := .free } s.opCounter (huntMoved s h.state .trialRestore {} ++ [lockDropped f]) := by
  let restoring : State :=
    { s with
      hunt := some { stepEnded h with state := .trialRestore, resume := none }
      queues := said (huntMoved s h.state .trialRestore {}) s }
  rw [restoreFeeder_refused hh opened idle barred]
  exact .after rfl (concludeRestore_candidate (s := restoring) rfl hj rest held false)

/-! ### The current candidate -/

section
variable (hh : s.hunt = some h) (pending : h.pendingResult = some res) (other : res ≠ .foundIdentified)
include hh pending other

/-- The current candidate is restored first (R163). -/
theorem finishHunt_current (hj : h.current = some j) (hc : (h.candidates.getD [])[j]? = some c) (untried : c.outcome = .notTried) :
    finishHunt vn s =
      if (s.feeder c.feeder).position = .opened then restoreFeeder c.feeder s
      else outcomeWithoutRestore c.feeder
        (concludeCandidate j (if (s.feeder c.feeder).position = .closed then .healthyRestored else .stranded)) s := by
  have candidate : candidateToRestore h = some (j, c.feeder) := by
    simp only [candidateToRestore, hj, HuntRun.candidateAt, hc, untried, if_true]
  simp only [finishHunt, hh, pending, if_neg other, candidate]

end

/-- A candidate that is not OPEN gets no close (R163, log 14). -/
theorem candidate_concluded (hh : s.hunt = some h) (held : (s.feeder f).lock = .hunt) (rest : NothingPending s f) (o : CandidateOutcome) :
    LeadsWith s (outcomeWithoutRestore f (concludeCandidate j o) s) .finish { concluded h j o with locked := none } f
      { s.feeder f with lock := .free } s.opCounter [lockDropped f] := by
  rw [outcomeWithoutRestore, concludeCandidate_spec hh]
  exact congrArg (·, HuntGo.finish) (huntDropLock_alone rest held)

/-! ### The identified feeder -/

theorem setEndRestore_spec (hh : s.hunt = some h) (hi : h.identified = some i) (o : EndRestore) :
    setEndRestore o s = { s with hunt := some { h with identified := some { i with endRestore := some o } } } := by
  simp only [setEndRestore, State.onHunt_some hh, hi, Option.map_some]

/-- The identified feeder gets no close when it is apart from the hunt or not OPEN (R163). -/
theorem restoreIdentified_judged
    (judged : (s.fitted f = false ∨ (s.feeder f).lock.heldByPort = true) ∨ (s.feeder f).position ≠ .opened) :
    restoreIdentified f s =
      outcomeWithoutRestore f
        (setEndRestore
          (if ¬ (s.fitted f = false ∨ (s.feeder f).lock.heldByPort = true) ∧ (s.feeder f).position = .closed then .notNeeded
           else .stranded)) s := by
  by_cases apart : s.fitted f = false ∨ (s.feeder f).lock.heldByPort = true
  · rw [if_neg fun near => near.1 apart]
    exact if_pos apart
  · have moved : (s.feeder f).position ≠ .opened := judged.resolve_left apart
    simp only [restoreIdentified, if_neg apart]
    cases position : (s.feeder f).position with
    | opened => exact absurd position moved
    | closed => rw [if_pos ⟨apart, rfl⟩]
    | transit => rw [if_neg fun shut => Position.noConfusion shut.2]
    | invalid => rw [if_neg fun shut => Position.noConfusion shut.2]

/-- An outcome that is set without a close leaves a lock that the hunt does not hold (R118, R163). -/
theorem endRestore_kept (hh : s.hunt = some h) (hi : h.identified = some i) (unheld : (s.feeder f).lock ≠ .hunt) (o : EndRestore) :
    Leads s (outcomeWithoutRestore f (setEndRestore o) s) .finish { h with identified := some { i with endRestore := some o } } [] := by
  rw [outcomeWithoutRestore, setEndRestore_spec hh hi]
  exact congrArg (·, HuntGo.finish)
    (huntDropLock_other (s := { s with hunt := some { h with identified := some { i with endRestore := some o } } }) unheld)

theorem endRestore_freed (hh : s.hunt = some h) (hi : h.identified = some i) (held : (s.feeder f).lock = .hunt)
    (rest : NothingPending s f) (o : EndRestore) :
    LeadsWith s (outcomeWithoutRestore f (setEndRestore o) s) .finish
      { h with identified := some { i with endRestore := some o }, locked := none } f { s.feeder f with lock := .free } s.opCounter
      [lockDropped f] := by
  rw [outcomeWithoutRestore, setEndRestore_spec hh hi]
  exact congrArg (·, HuntGo.finish) (huntDropLock_alone rest held)

/-- The identified feeder's lock is taken and its close is in flight, and nothing else changes (R118, R160, R163). -/
theorem restoreIdentified_closes (hh : s.hunt = some h) (fitted : s.fitted f = true) (opened : (s.feeder f).position = .opened)
    (may : HuntMayClose s f) :
    LeadsWith s (restoreIdentified f s) .wait
      { stepEnded h with state := .trialRestore, op := some (huntOp s .close f), resume := none, locked := some f } f (huntClosing s f)
      (nextOpId s.opCounter) (lockTaken s f ++ huntMoved s h.state .trialRestore {}) := by
  let v : State :=
    { s with
      feeders := s.feeders.set f { s.feeder f with lock := .hunt }
      hunt := some { h with locked := some f }
      queues := said (lockTaken s f) s }
  have feeder : v.feeder f = { s.feeder f with lock := .hunt } := PerFeeder.get_set_self _ _ _
  have taken : huntTakeLock f s = some v := by rw [huntTakeLock_spec may.lock, hh]; rfl
  have pass : ¬ (s.fitted f = false ∨ (s.feeder f).lock.heldByPort = true) := by simp [fitted, may.lock]
  have start : restoreIdentified f s = restoreFeeder f v := by simp only [restoreIdentified, if_neg pass, opened, taken]
  have closing : huntClosing v f = huntClosing s f := by rw [huntClosing, feeder]; rfl
  have moved : huntMoved v h.state .trialRestore {} = huntMoved s h.state .trialRestore {} :=
    huntMoved_congr (s := s) (t := v) rfl (detectorLevel_ofLock s f .hunt _ _) _ _ _
  rw [start, ← closing, ← moved]
  exact .after (PerFeeder.set_set _ _ _ _)
    (restoreFeeder_close (s := v) (h := { h with locked := some f }) rfl (may.ofLock feeder rfl rfl) (by rw [feeder]))

/-! ### IDLE -/

/-- The state in which a hunt is over, before the detector acts on the result (R164). -/
def huntIdle (s : State) (h : HuntRun) (r : HuntReport) : State :=
  { s with
    hunt := none, lastHunt := some r
    queues := said [.huntState s.detector.state s.detector.state h.state .idle (detectorLevel s) {}, .huntResult r] s }

/-- The hunt becomes IDLE, and the detector acts on the result (R164). -/
theorem becomeIdle_spec (vn : Option Nat) (h : HuntRun) (res : HuntResult) (s : State) :
    becomeIdle vn h res s =
      if res.leavesUnresolved then (detectorUnresolved vn (huntIdle s h (huntReport s h res)), .wait)
      else if s.detector.state = .detected ∧ huntEnabled s = true then startHunt .detected (huntIdle s h (huntReport s h res))
      else (huntIdle s h (huntReport s h res), .wait) := by
  have ended (r : HuntReport) :
      broadcast (.huntResult r) (sayHunt h.state .idle {} { s with hunt := none, lastHunt := some r }) = huntIdle s h r := by
    rw [broadcast_said, sayHunt, broadcast_said, said_congr (s := s) (t := { s with hunt := none, lastHunt := some r }) _ rfl rfl rfl]
    exact congrArg (fun q => ({ s with hunt := none, lastHunt := some r, queues := q } : State)) (said_append [_] [_] rfl rfl rfl)
  rw [becomeIdle, ended]
  rfl

theorem leavesUnresolved_iff (res : HuntResult) :
    res.leavesUnresolved = true ↔ res = .notFound ∨ res = .abortedRequest ∨ res = .abortedLink := by
  cases res <;> simp [HuntResult.leavesUnresolved]

/-- With no restore left to make the hunt becomes IDLE (R163, R164). -/
theorem finishHunt_ends (hh : s.hunt = some h) (pending : h.pendingResult = some res)
    (done : res = .foundIdentified ∨ NothingToRestore h) : finishHunt vn s = becomeIdle vn h res s := by
  by_cases found : res = .foundIdentified
  · simp only [finishHunt, hh, pending, if_pos found]
  · obtain ⟨hj, judged⟩ := done.resolve_left found
    have candidate : candidateToRestore h = none := by rw [candidateToRestore, hj]
    have identified : identifiedToRestore h = none := by
      unfold identifiedToRestore
      split
      next i hi =>
        refine if_neg fun open_ => ?_
        rcases judged i hi with done | ⟨missed, opened⟩
        · exact done open_.1
        · exact open_.2.elim missed opened
      next => rfl
    simp only [finishHunt, hh, pending, if_neg found, candidate, identified]

/-- A displacement that stands after the hunt is UNRESOLVED, and said so (R164). -/
theorem detectorUnresolved_idle (r : HuntReport) :
    detectorUnresolved vn (huntIdle s h r) =
      if s.detector.state = .quiet then huntIdle s h r
      else
        { huntIdle s h r with
          detector := { s.detector with state := .unresolved }
          queues := said [.huntState s.detector.state .unresolved .idle .idle (detectorLevel s) { vn := vn }] (huntIdle s h r) } := by
  rw [detectorUnresolved]
  refine ite_congr rfl (fun _ => rfl) fun _ => ?_
  rw [broadcast_said]
  exact congrArg (fun q => ({ huntIdle s h r with detector := { s.detector with state := .unresolved }, queues := q } : State))
    (said_congr _ rfl rfl rfl)

end

end Sys2Proof.Machine

open Sys2Proof Sys2Proof.Machine

/-- Settles O50: the candidate's restore, the identified feeder's, and the end by the result that the hunt leaves. -/
theorem huntEndsWithItsRestores : Obligations.HuntEndsWithItsRestores := by
  intro vn h res s hh pending go restoring
  refine ⟨fun other j c hj hc untried held => ?_, fun other i hj hi unjudged left => ?_, fun done => ?_⟩
  · dsimp only
    rw [show go = _ from finishHunt_current hh pending other hj hc untried]
    refine ⟨fun opened may => ?_, fun opened idle barred rest => ?_, fun shut rest => ?_⟩
    · rw [if_pos opened]
      exact restoreFeeder_close hh may held
    · rw [if_pos opened]
      exact restoreFeeder_strands hh hj held rest opened idle barred
    · rw [if_neg shut]
      exact candidate_concluded hh held rest _
  · dsimp only
    rw [show go = _ from finishHunt_restoresIdentified vn hh pending other hj hi unjudged left]
    refine ⟨fun judged => ?_, fun near opened may => ?_⟩
    · rw [restoreIdentified_judged judged]
      exact ⟨fun unheld => endRestore_kept hh hi unheld _, fun held rest => endRestore_freed hh hi held rest _⟩
    · have fitted : s.fitted i.feeder = true := Bool.not_eq_false _ ▸ fun unfitted => near (.inl unfitted)
      exact restoreIdentified_closes (h := h) hh fitted opened may
  · intro report idle set again
    have same : huntReport s h res = report := by
      cases res <;> simp only [huntReport, foundFeeder, pending, report, endedHunt]
    have ended : huntIdle s h report = idle := rfl
    have enabled : s.detector.state = .detected ∧ huntEnabled s = true ↔ again :=
      and_congr_right fun _ => Bool.or_eq_true _ _ ▸ Iff.rfl
    rw [show go = becomeIdle vn h res s from finishHunt_ends hh pending done, becomeIdle_spec, same]
    by_cases unresolved : res = .notFound ∨ res = .abortedRequest ∨ res = .abortedLink
    · rw [if_pos unresolved, if_pos ((leavesUnresolved_iff res).2 unresolved), detectorUnresolved_idle, ended]
    · rw [if_neg unresolved, if_neg fun leaves => unresolved ((leavesUnresolved_iff res).1 leaves)]
      refine ⟨fun rests => if_neg fun c => rests (enabled.1 c), fun starts disabled => ?_, fun starts identifies => ?_⟩
      · rw [if_pos (enabled.2 starts)]
        exact startHunt_trial disabled
      · have detected : (huntIdle s h report).detector.state = .detected := starts.1
        rw [if_pos (enabled.2 starts), startHunt_identify (s := huntIdle s h report) identifies, detected]
        rfl
end

