-- ==== Sys2Proof/Proofs/HuntRequests.lean ====
section
/-! PROOFS. START_HUNT, SUSPEND_HUNT, RESUME_HUNT and ABORT_HUNT (R149, R165, R167, R168): what each makes of the hunt by its state, and the
steps that follow at once. -/
namespace Sys2Proof.Machine

section
variable {p : Port} {f g : Feeder} {s t u s₀ : State} {h : HuntRun} {i : Identified} {j : Nat} {c : Candidate} {res : HuntResult}
  {vn : Option Nat}

/-! ### The answer -/

/-- A request whose owner keeps within the shell of the part leaves its response alone at the port (R177). -/
theorem answeredAt_within (shell : SameShell (receive p s) t) (st : Status) (payload : List Byte) :
    answeredAt (s.ports.get p) st payload ((respond p st payload t).ports.get p) := by
  have ports : t.ports = (receive p s).ports := by unfold SameShell at shell; rw [shell]
  change PerPort.get (t.ports.set p (PortUnit.respond st payload (t.ports.get p))) p = _
  rw [PerPort.get_set_self, ports]
  change PortUnit.respond st payload ((s.ports.set p _).get p) = _
  rw [PerPort.get_set_self]
  rfl

/-- The steps that a hunt takes keep within the shell of the part. -/
theorem huntSettle_within {x : State × HuntGo} (shell : SameShell s x.1) (vn : Option Nat) : SameShell s (huntSettle vn x) := by
  have := everywhere
  exact (shell_stays s).huntSettle vn x shell

/-- The response to a request whose owner changes the hunt and sends one entry. -/
theorem respond_moved (p : Port) (ev : Event) (r : Option HuntRun) (s : State) :
    respond p .ok [] { receive p s with hunt := r, queues := said [ev] (receive p s) } =
      respond p .ok [] (broadcast ev { s with hunt := r }) := by
  have entries : said [ev] (receive p s) = said [ev] { s with hunt := r } := said_congr _ rfl rfl rfl
  rw [broadcast_said, entries]
  exact respond_receive p .ok [] { s with hunt := r, queues := said [ev] { s with hunt := r } }

theorem TrialBegun.answered {r : Option HuntRun} {b : Option Feeder} (begun : TrialBegun { receive p s with hunt := r } t h b g)
    (st : Status) (payload : List Byte) : TrialBegun s (respond p st payload t) h b g := by
  obtain ⟨cs, list, hunt⟩ := begun.hunt
  have listed := TrialList.congr (s := s) (t := { receive p s with hunt := r }) rfl (fun _ => rfl) (fun _ => rfl) list
  exact ⟨⟨cs, listed, hunt⟩, begun.feeder, begun.opId⟩

theorem RestoreBegun.answered {r : Option HuntRun} (begun : RestoreBegun { receive p s with hunt := r } t h f) (st : Status)
    (payload : List Byte) : RestoreBegun s (respond p st payload t) h f :=
  ⟨begun.hunt, begun.feeder, begun.opId⟩

theorem HuntOver.answered {r : Option HuntRun} (ended : HuntOver { receive p s with hunt := r } t h res) (st : Status)
    (payload : List Byte) : HuntOver s (respond p st payload t) h res :=
  ⟨ended.hunt, ended.report, ended.detector, ended.feeders⟩

/-- A restore ends the step, so the hunt's record counts without it. -/
theorem RestoreBegun.ofStep {r : HuntRun} (begun : RestoreBegun s t r f) (same : stepEnded r = stepEnded h) : RestoreBegun s t h f :=
  ⟨same ▸ begun.hunt, begun.feeder, begun.opId⟩

/-! ### START_HUNT -/

theorem exec_startHunt (taken : Takes .startHunt p 0#8 [] (listens p s₀)) :
    exec (.startHunt p 0#8 []) s₀ = .next (answer .startHunt p 0 (startHuntBody (receive p (listens p s₀)))) :=
  congrArg Host.Outcome.next (taken.plain (.inl rfl) startHuntBody)

theorem startHuntBody_busy (running : s.hunt.isSome = true) : startHuntBody s = (s, .plain .busy) := if_pos running

section
variable (idle : s.hunt = none)
include idle

theorem startHuntBody_refused (refused : s.detector.state = .quiet ∨ s.link ≠ .up ∨ huntEnabled s = false) :
    startHuntBody s = (s, .plain .state) := by
  rw [startHuntBody, idle]
  exact if_pos refused

theorem startHuntBody_starts (allowed : ¬ (s.detector.state = .quiet ∨ s.link ≠ .up ∨ huntEnabled s = false)) :
    startHuntBody s = (huntSettle none (startHunt .requested s), .ok) := by
  rw [startHuntBody, idle]
  exact if_neg allowed

end

theorem huntEnabled_eq_false (s : State) :
    huntEnabled s = false ↔
      (s.huntSettings (detectorLevel s)).identifyEnable = false ∧ (s.huntSettings (detectorLevel s)).trialEnable = false :=
  Bool.or_eq_false_iff

/-! ### SUSPEND_HUNT -/

theorem exec_suspendHunt (taken : Takes .suspendHunt p 0#8 [] (listens p s₀)) :
    exec (.suspendHunt p 0#8 []) s₀ = .next (answer .suspendHunt p 0 (suspendHuntBody (receive p (listens p s₀)))) :=
  congrArg Host.Outcome.next (taken.plain (.inl rfl) suspendHuntBody)

theorem suspendHuntBody_none (idle : s.hunt = none) : suspendHuntBody s = (s, .plain .state) := by simp only [suspendHuntBody, idle]

theorem suspendHuntBody_settled (hh : s.hunt = some h) (settled : h.pendingResult.isSome = true) :
    suspendHuntBody s = (s, .plain .state) := by
  simp only [suspendHuntBody, hh]
  exact if_pos (.inr settled)

/-- A hunt in progress that no result ends is suspended at once in IDENTIFY, and at a later boundary in any other step (R165). -/
theorem suspendHuntBody_going (hh : s.hunt = some h) (active : h.state ≠ .idle) (going : h.pendingResult = none) :
    suspendHuntBody s =
      if h.state = .suspended ∨ h.pendingSuspend = true then (s, .ok)
      else if h.state = .identify then (suspendHunt .identify s, .ok)
      else ({ s with hunt := some { h with pendingSuspend := true } }, .ok) := by
  simp only [suspendHuntBody, hh, State.onHunt_some hh]
  refine if_neg fun ended => ended.elim active fun settled => ?_
  rw [going] at settled
  exact Bool.noConfusion settled

/-! ### RESUME_HUNT -/

theorem exec_resumeHunt (taken : Takes .resumeHunt p 0#8 [] (listens p s₀)) :
    exec (.resumeHunt p 0#8 []) s₀ = .next (answer .resumeHunt p 0 (resumeHuntBody (receive p (listens p s₀)))) :=
  congrArg Host.Outcome.next (taken.plain (.inl rfl) resumeHuntBody)

theorem resumeHuntBody_none (idle : s.hunt = none) : resumeHuntBody s = (s, .plain .state) := by simp only [resumeHuntBody, idle]

/-- A resume of a hunt that is not SUSPENDED cancels a pending suspend (R167). -/
theorem resumeHuntBody_running (hh : s.hunt = some h) (running : h.state ≠ .suspended) :
    resumeHuntBody s =
      if h.pendingSuspend = true then ({ s with hunt := some { h with pendingSuspend := false } }, .ok) else (s, .plain .state) := by
  simp only [resumeHuntBody, hh, if_neg running, State.onHunt_some hh]

theorem resumeHuntBody_suspended (hh : s.hunt = some h) (suspended : h.state = .suspended) :
    resumeHuntBody s = (huntSettle none (resumeFrom h s), .ok) := by
  simp only [resumeHuntBody, hh, if_pos suspended]

/-- A hunt resumed in IDENTIFY begins a new window (R167). -/
theorem resumeFrom_identify (hh : s.hunt = some h) (suspended : h.state = .suspended) (point : h.resume = some .identify)
    (enabled : (s.huntSettings h.level).identifyEnable = true) :
    resumeFrom h s =
      ({ s with
          hunt := some
            { h with
              state := .identify, resume := none
              window := some { length := (s.huntSettings h.level).identifyWindow, counted := 0, sums := .of fun _ => 0 } }
          queues := said [.huntState s.detector.state s.detector.state .suspended .identify (detectorLevel s) {}] s }, .wait) := by
  have resumed : resumeFrom h s =
      (setHuntState .identify {} (beginWindow { s with hunt := some { h with resume := none } }), .wait) := by
    simp only [resumeFrom, point, huntLevelSettings, enabled, if_true, State.onHunt_some hh]
  have begun : beginWindow { s with hunt := some { h with resume := none } } =
      { s with
        hunt := some
          { h with
            resume := none
            window := some { length := (s.huntSettings h.level).identifyWindow, counted := 0, sums := .of fun _ => 0 } } } := rfl
  rw [resumed, begun, setHuntState_record]
  dsimp only
  rw [suspended]
  rfl

/-- A hunt resumed at trial entry, or in IDENTIFY when identify enable has become no (R165, R167). -/
theorem resumeFrom_trial (hh : s.hunt = some h)
    (point : h.resume = some .trialEntry ∨ (h.resume = some .identify ∧ (s.huntSettings h.level).identifyEnable = false)) :
    resumeFrom h s = ({ s with hunt := some { h with resume := none } }, .trialEntry none none) := by
  rcases point with point | ⟨point, disabled⟩
  · simp only [resumeFrom, point, State.onHunt_some hh]
  · simp only [resumeFrom, point, huntLevelSettings, disabled, Bool.false_eq_true, if_false, State.onHunt_some hh]

theorem resumeFrom_next (hh : s.hunt = some h) (point : h.resume = some .nextCandidate) :
    resumeFrom h s = ({ s with hunt := some { h with resume := none } }, .boundary) := by
  simp only [resumeFrom, point, State.onHunt_some hh]

/-- At the boundary the next candidate that passes its checks is tripped (R157). -/
theorem huntSettle_boundary (hh : s.hunt = some h) (going : h.pendingResult = none) (on : h.pendingSuspend = false)
    (enabled : (s.huntSettings h.level).trialEnable = true) (hc : (h.candidates.getD [])[j]? = some c) (next : nextUntried h = some j)
    (may : HuntMayTrip s c.feeder) (free : RestoreFree s c.feeder) :
    huntSettle vn (s, .boundary) =
      { s with
        hunt := some
          { h with
            state := .trialOpen, current := some j, resume := none, locked := some c.feeder, op := some (huntOp s .trip c.feeder) }
        feeders := s.feeders.set c.feeder (huntTripping s c.feeder)
        opCounter := nextOpId s.opCounter
        queues := said (huntMoved s h.state .trialOpen {} ++ lockTaken s c.feeder) s } := by
  have turn : nextCandidate s = tripCandidate j c.feeder s :=
    (nextCandidate_turn hh going next on enabled hc).trans (candidateTurn_passes may.lock may.fitted may.closed free)
  have settled : huntSettle vn (s, .boundary) = huntRun vn 39 (nextCandidate s) := huntRun_boundary _ _ _
  rw [settled, turn, tripCandidate_admitted hh may, huntRun_wait]
  rfl

/-! ### ABORT_HUNT -/

theorem exec_abortHunt (taken : Takes .abortHunt p 0#8 [] (listens p s₀)) :
    exec (.abortHunt p 0#8 []) s₀ = .next (answer .abortHunt p 0 (abortHuntBody (receive p (listens p s₀)))) :=
  congrArg Host.Outcome.next (taken.plain (.inl rfl) abortHuntBody)

theorem abortHuntBody_none (idle : s.hunt = none) : abortHuntBody s = (s, .plain .state) := by simp only [abortHuntBody, idle]

theorem abortHuntBody_active (hh : s.hunt = some h) (active : h.state ≠ .idle) :
    abortHuntBody s = (huntSettle none (abortHunt .abortedRequest s), .ok) := by
  simp only [abortHuntBody, hh, if_neg active]

/-- A result pending already stands (R161, R168). -/
theorem abortHunt_settled (hh : s.hunt = some h) (settled : h.pendingResult.isSome = true) : abortHunt res s = (s, .wait) := by
  rw [abortHunt_spec hh, if_pos (.inl settled)]

section
variable (hh : s.hunt = some h) (active : h.state ≠ .idle) (going : h.pendingResult = none)
include hh active going

theorem abortHunt_going :
    abortHunt res s =
      if h.state = .isolate ∨ h.state = .trialOpen ∨ h.state = .trialRestore then ({ s with hunt := some (resulting h res) }, .wait)
      else if h.state = .suspended then ({ s with hunt := some (resulting h res) }, .finish)
      else ({ s with hunt := some (resulting (stepEnded h) res) }, .finish) := by
  rw [abortHunt_spec hh]
  exact if_neg fun ended => ended.elim (by rw [going]; exact Bool.noConfusion) active

/-- With no operation of its own in flight an aborted hunt ends; a suspended one has no step to end (R168). -/
theorem abortHunt_ends (isolate : h.state ≠ .isolate) (open_ : h.state ≠ .trialOpen) (restore : h.state ≠ .trialRestore) :
    ∃ r, stepEnded r = resulting (stepEnded h) res ∧ abortHunt res s = ({ s with hunt := some r }, .finish) := by
  rw [abortHunt_going hh active going, if_neg fun waits => waits.elim isolate fun trial => trial.elim open_ restore]
  split_ifs
  · exact ⟨_, rfl, rfl⟩
  · exact ⟨_, rfl, rfl⟩

end

/-! ### The end that follows at once -/

section
variable (hh : u.hunt = some h) (pending : h.pendingResult = some .abortedRequest)
include hh pending

/-- An aborted hunt with no restore to make is over (R164, R171). -/
theorem aborted_over (done : NothingToRestore h) : HuntOver u (huntSettle vn (u, .finish)) h .abortedRequest := by
  have settled : huntSettle vn (u, .finish) = huntRun vn 39 (finishHunt vn u) := huntRun_finish _ _ _
  have report : huntReport u h .abortedRequest = endedHunt u h .abortedRequest := by
    simp only [huntReport, foundFeeder, pending, endedHunt]
  rw [settled, finishHunt_ends hh pending (.inr done), becomeIdle_spec,
    if_pos (by decide), huntRun_wait, detectorUnresolved_idle, report]
  split
  · next quiet => exact ⟨rfl, rfl, (if_pos quiet).symm, rfl⟩
  · next displaced => exact ⟨rfl, rfl, (if_neg displaced).symm, rfl⟩

/-- An aborted hunt restores its current candidate first (R160, R163). -/
theorem aborted_restoresCandidate (hj : h.current = some j) (hc : (h.candidates.getD [])[j]? = some c) (untried : c.outcome = .notTried)
    (held : (u.feeder c.feeder).lock = .hunt) (opened : (u.feeder c.feeder).position = .opened) (may : HuntMayClose u c.feeder) :
    RestoreBegun u (huntSettle vn (u, .finish)) h c.feeder := by
  have settled : huntSettle vn (u, .finish) = huntRun vn 39 (finishHunt vn u) := huntRun_finish _ _ _
  rw [settled, finishHunt_current hh pending HuntResult.noConfusion hj hc untried, if_pos opened, restoreFeeder_close hh may held,
    huntRun_wait]
  exact ⟨rfl, ⟨PerFeeder.get_set_self _ _ _, fun k apart => PerFeeder.get_set_of_ne _ apart _⟩, rfl⟩

/-- An aborted hunt restores the identified feeder that it has left open (R160, R163). -/
theorem aborted_restoresIdentified (hj : h.current = none) (hi : h.identified = some i) (unjudged : i.endRestore = none)
    (left : i.isolate = .misidentified ∨ i.isolate = .opened) (fitted : u.fitted i.feeder = true)
    (opened : (u.feeder i.feeder).position = .opened) (may : HuntMayClose u i.feeder) :
    RestoreBegun u (huntSettle vn (u, .finish)) { h with locked := some i.feeder } i.feeder := by
  have settled : huntSettle vn (u, .finish) = huntRun vn 39 (finishHunt vn u) := huntRun_finish _ _ _
  rw [settled, finishHunt_restoresIdentified vn hh pending HuntResult.noConfusion hj hi unjudged left,
    restoreIdentified_closes hh fitted opened may, huntRun_wait]
  exact ⟨rfl, ⟨PerFeeder.get_set_self _ _ _, fun k apart => PerFeeder.get_set_of_ne _ apart _⟩, rfl⟩

end

end

end Sys2Proof.Machine

open Sys2Proof Sys2Proof.Machine

/-- Settles O42: the refusals, then the first step by identify enable. -/
theorem startHuntBeginsItsFirstStep : Obligations.StartHuntBeginsItsFirstStep := by
  intro p s₀ s taken set refused fresh
  have run : exec (.startHunt p 0#8 []) s₀ = .next (answer .startHunt p 0 (startHuntBody (receive p s))) := exec_startHunt taken
  clear_value s
  have refuses : (s.detector.state = .quiet ∨ s.link ≠ .up ∨ huntEnabled s = false) ↔ refused :=
    or_congr_right (or_congr_right (huntEnabled_eq_false s))
  refine ⟨fun busy => ?_, fun idle refusal => ?_, fun idle allowed identifies => ?_, fun idle allowed skips => ?_⟩
  · rw [run, startHuntBody_busy (s := receive p s) busy]
    exact congrArg Host.Outcome.next (respond_receive p .busy [] s)
  · rw [run, startHuntBody_refused (s := receive p s) idle (refuses.2 refusal)]
    exact congrArg Host.Outcome.next (respond_receive p .state [] s)
  · rw [run, startHuntBody_starts (s := receive p s) idle fun c => allowed (refuses.1 c),
      startHunt_identify (s := receive p s) identifies, huntSettle_wait]
    exact congrArg Host.Outcome.next (respond_moved p _ _ s)
  · let u : State := { receive p s with hunt := some fresh }
    have enabled : set.trialEnable = true := by
      rw [← Bool.not_eq_false]
      exact fun disabled => allowed (.inr (.inr ⟨skips, disabled⟩))
    have starts : exec (.startHunt p 0#8 []) s₀ =
        .next (respond p .ok [] (huntSettle none (u, .trialEntry none (some .requested)))) := by
      rw [run, startHuntBody_starts (s := receive p s) idle fun c => allowed (refuses.1 c),
        startHunt_trial (s := receive p s) skips]
      rfl
    have answered := answeredAt_within (p := p) (s := s) (huntSettle_within (x := (u, .trialEntry none (some .requested))) rfl none) .ok []
    refine ⟨fun g first may free => ?_, fun nobody => ?_⟩
    · obtain ⟨begun, others⟩ := trialBegun_settled (u := u) (h := fresh) (sums := none) (cause := some .requested) rfl rfl rfl enabled
        (first.congr (s := s) rfl (fun _ => rfl) fun _ => rfl) ⟨may.fitted, may.lock, may.closed, may.idle⟩ free none
      exact ⟨_, starts, begun.answered .ok [], others, answered⟩
    · have ended := trial_over (u := u) (h := fresh) rfl ⟨rfl, rfl, rfl, rfl⟩ enabled
        (fun g may => nobody g ((MayBeTried.congr_iff (s := s) rfl (fun _ => rfl) (fun _ => rfl) none g).1 may)) none (some .requested)
      exact ⟨_, starts, ended.answered .ok [], answered⟩

/-- Settles O43: a suspend by the hunt's step, and a resume by the resume point. -/
theorem suspendAndResumeActByTheState : Obligations.SuspendAndResumeActByTheState := by
  intro p s₀ s
  refine ⟨fun taken => ?_, fun taken => ?_⟩
  · have run : exec (.suspendHunt p 0#8 []) s₀ = .next (answer .suspendHunt p 0 (suspendHuntBody (receive p s))) :=
      exec_suspendHunt taken
    clear_value s
    refine ⟨fun idle => ?_, fun h hh active => ⟨fun settled => ?_, fun going again => ?_, fun going on identify => ?_,
      fun going on later unsuspended => ?_⟩⟩
    · rw [run, suspendHuntBody_none (s := receive p s) idle]
      exact congrArg Host.Outcome.next (respond_receive p .state [] s)
    · rw [run, suspendHuntBody_settled (s := receive p s) hh settled]
      exact congrArg Host.Outcome.next (respond_receive p .state [] s)
    · rw [run, suspendHuntBody_going (s := receive p s) hh active going, if_pos again]
      exact congrArg Host.Outcome.next (respond_receive p .ok [] s)
    · have stops := suspendHunt_leads (s := receive p s) hh .identify
      have moved : huntMoved (receive p s) h.state .suspended { resume := some .identify } =
          [.huntState s.detector.state s.detector.state .identify .suspended (detectorLevel s) { resume := some .identify }] := by
        rw [identify]
        rfl
      rw [moved] at stops
      rw [run, suspendHuntBody_going (s := receive p s) hh active going, if_neg (by simp [identify, on]), if_pos identify,
        (Prod.mk.inj stops).1]
      exact congrArg Host.Outcome.next (respond_moved p _ _ s)
    · rw [run, suspendHuntBody_going (s := receive p s) hh active going, if_neg (by simp [unsuspended, on]), if_neg later]
      exact congrArg Host.Outcome.next (respond_receive p .ok [] { s with hunt := some { h with pendingSuspend := true } })
  · have run : exec (.resumeHunt p 0#8 []) s₀ = .next (answer .resumeHunt p 0 (resumeHuntBody (receive p s))) := exec_resumeHunt taken
    clear_value s
    refine ⟨fun idle => ?_, fun h hh => ⟨fun running => ?_, fun suspended point enabled => ?_, fun suspended going on enabled =>
      ⟨fun point g first may free => ?_, fun point j c hc untried before may free => ?_⟩⟩⟩
    · rw [run, resumeHuntBody_none (s := receive p s) idle]
      exact congrArg Host.Outcome.next (respond_receive p .state [] s)
    · rw [run, resumeHuntBody_running (s := receive p s) hh running]
      split_ifs
      · exact congrArg Host.Outcome.next (respond_receive p .ok [] { s with hunt := some { h with pendingSuspend := false } })
      · exact congrArg Host.Outcome.next (respond_receive p .state [] s)
    · rw [run, resumeHuntBody_suspended (s := receive p s) hh suspended,
        resumeFrom_identify (s := receive p s) hh suspended point enabled, huntSettle_wait]
      exact congrArg Host.Outcome.next (respond_moved p _ _ s)
    · let u : State := { receive p s with hunt := some { h with resume := none } }
      have resumes : exec (.resumeHunt p 0#8 []) s₀ = .next (respond p .ok [] (huntSettle none (u, .trialEntry none none))) := by
        rw [run, resumeHuntBody_suspended (s := receive p s) hh suspended, resumeFrom_trial (s := receive p s) hh point]
        rfl
      obtain ⟨begun, others⟩ := trialBegun_settled (u := u) (h := { h with resume := none }) (sums := none) (cause := none) rfl going on
        enabled (first.congr (s := s) rfl (fun _ => rfl) fun _ => rfl) ⟨may.fitted, may.lock, may.closed, may.idle⟩ free none
      obtain ⟨hunt, feeder, opId⟩ := begun.answered .ok []
      exact ⟨_, resumes, ⟨hunt, feeder, opId⟩, others, answeredAt_within (huntSettle_within rfl none) .ok []⟩
    · let u : State := { receive p s with hunt := some { h with resume := none } }
      have resumes : exec (.resumeHunt p 0#8 []) s₀ = .next (respond p .ok [] (huntSettle none (u, .boundary))) := by
        rw [run, resumeHuntBody_suspended (s := receive p s) hh suspended, resumeFrom_next (s := receive p s) hh point]
        rfl
      have answered := answeredAt_within (p := p) (s := s) (huntSettle_within (x := (u, .boundary)) rfl none) .ok []
      have tripped := huntSettle_boundary (s := u) (h := { h with resume := none }) (vn := none) rfl going on enabled hc
        (nextUntried_first hc untried before) ⟨may.fitted, may.lock, may.closed, may.idle⟩ free
      rw [tripped] at resumes answered
      exact ⟨_, resumes, rfl, ⟨PerFeeder.get_set_self _ _ _, fun k apart => PerFeeder.get_set_of_ne _ apart _⟩, rfl, answered⟩

/-- Settles O44: by the hunt's state, then by the end restore that comes first. -/
theorem abortActsByTheState : Obligations.AbortActsByTheState := by
  intro p s₀ s taken
  have run : exec (.abortHunt p 0#8 []) s₀ = .next (answer .abortHunt p 0 (abortHuntBody (receive p s))) := exec_abortHunt taken
  clear_value s
  refine ⟨fun idle => ?_, fun h hh active => ⟨fun settled => ?_, fun going waits => ?_, fun going isolate open_ restore => ?_⟩⟩
  · rw [run, abortHuntBody_none (s := receive p s) idle]
    exact congrArg Host.Outcome.next (respond_receive p .state [] s)
  · rw [run, abortHuntBody_active (s := receive p s) hh active, abortHunt_settled (s := receive p s) hh settled, huntSettle_wait]
    exact congrArg Host.Outcome.next (respond_receive p .ok [] s)
  · rw [run, abortHuntBody_active (s := receive p s) hh active, abortHunt_going (s := receive p s) hh active going, if_pos waits,
      huntSettle_wait]
    exact congrArg Host.Outcome.next (respond_receive p .ok [] { s with hunt := some (resulting h .abortedRequest) })
  · obtain ⟨r, same, ends⟩ := abortHunt_ends (s := receive p s) (res := .abortedRequest) hh active going isolate open_ restore
    let u : State := { receive p s with hunt := some r }
    have aborts : exec (.abortHunt p 0#8 []) s₀ = .next (respond p .ok [] (huntSettle none (u, .finish))) := by
      rw [run, abortHuntBody_active (s := receive p s) hh active, ends]
      rfl
    have shell : SameShell (receive p s) (huntSettle none (u, .finish)) := huntSettle_within rfl none
    have answered := answeredAt_within shell .ok []
    have pending : r.pendingResult = some .abortedRequest := (congrArg HuntRun.pendingResult same :)
    have current : r.current = h.current := (congrArg HuntRun.current same :)
    have identified : r.identified = h.identified := (congrArg HuntRun.identified same :)
    have candidates : r.candidates = h.candidates := (congrArg HuntRun.candidates same :)
    refine ⟨fun done => ?_, fun j c hj hc untried held opened may => ?_, fun i hj hi unjudged left fitted opened may => ?_⟩
    · have report : endedHunt u r .abortedRequest = endedHunt s h .abortedRequest :=
        (congrArg (endedHunt s · .abortedRequest) same :)
      have ended : HuntOver u (huntSettle none (u, .finish)) r .abortedRequest :=
        aborted_over rfl pending (by rwa [NothingToRestore, current, identified])
      exact ⟨_, aborts, ⟨ended.hunt, report ▸ ended.report, ended.detector, ended.feeders⟩, shell.pool, shell.store, answered⟩
    · have begun : RestoreBegun u (huntSettle none (u, .finish)) r c.feeder :=
        aborted_restoresCandidate rfl pending (current.trans hj) (by rwa [candidates]) untried held opened
          ⟨may.lock, may.idle, may.apart, may.sound, may.free⟩
      exact ⟨_, aborts, (begun.ofStep (h := resulting (stepEnded h) .abortedRequest) same).answered .ok [], answered⟩
    · have begun : RestoreBegun u (huntSettle none (u, .finish)) { r with locked := some i.feeder } i.feeder :=
        aborted_restoresIdentified rfl pending (current.trans hj) (identified.trans hi) unjudged left fitted opened
          ⟨may.lock, may.idle, may.apart, may.sound, may.free⟩
      let aborted : HuntRun := { resulting (stepEnded h) .abortedRequest with locked := some i.feeder }
      have locked : stepEnded { r with locked := some i.feeder } = stepEnded aborted :=
        (congrArg (fun x : HuntRun => { x with locked := some i.feeder }) same :)
      exact ⟨_, aborts, (begun.ofStep locked).answered .ok [], answered⟩
end

