-- ==== Sys2Proof/Proofs/IdentifyWindow.lean ====
section
/-! PROOFS. The identify window (R150 to R153): the frame that the detector leaves to it, the sums, the judgement at its last frame, and the
entry to ISOLATE or to the trial. -/
namespace Sys2Proof.Machine

section
variable {f g : Feeder} {s : State} {h r : HuntRun} {w : Window} {n : Nat} {sums : PerFeeder Nat}

/-! ### The frame that the detector leaves to the hunt -/

/-- At or above dropout the detector is QUIET only if it was (R145, R146). -/
theorem detectorNext_quiet {vn interval : Nat} (above : (s.huntSettings (detectorLevel s)).dropout ≤ vn)
    (quiet : (detectorNext vn interval s).state = .quiet) : s.detector.state = .quiet := by
  have apart : ¬ vn < (s.huntSettings (detectorLevel s)).vnPickup - (s.huntSettings (detectorLevel s)).hysteresis := Nat.not_lt.2 above
  rw [detectorNext, detectorMove_spec, if_neg apart] at quiet
  split_ifs at quiet
  · exact quiet
  · exact quiet

/-- A frame that is no dropout moves the detector and nothing else while a hunt is in progress (R146, R147). -/
theorem detectorFrame_undropped {vn : Nat} {valid : Bool} (hh : s.hunt = some h)
    (undropped : valid = false ∨ (s.huntSettings (detectorLevel s)).dropout ≤ vn) (interval : Nat) :
    ∃ d q, detectorFrame vn valid interval s = { s with detector := d, queues := q } := by
  cases valid with
  | false => exact ⟨s.detector, s.queues, rfl⟩
  | true =>
    have above := undropped.resolve_left Bool.noConfusion
    by_cases entered : (detectorNext vn interval s).state = .detected ∧ s.detector.state ≠ .detected
    · exact ⟨_, _, detectorFrame_told entered (.inl (hh ▸ Option.some_ne_none h))⟩
    · have still := detectorFrame_still entered (.inr (or_iff_not_imp_left.2 fun c => detectorNext_quiet above (not_not.1 c)))
      split at still
      · exact ⟨_, _, still⟩
      · exact ⟨_, s.queues, still⟩

/-- A frame reaches the window of a hunt in IDENTIFY that the detector leaves there (R150, log 38). -/
theorem huntFrame_counts {fr : MeasFrame} (hh : s.hunt = some h) (hs : h.state = .identify)
    (kept : (detectorFrame fr.vn fr.busValid fr.interval s).hunt = s.hunt) :
    huntFrame fr s = huntSettle fr.usedVn
      (countFrame (.of fun f => (fr.records.get f).scored) (detectorFrame fr.vn fr.busValid fr.interval s)) := by
  have opens {t : State} (ht : t.hunt = some h) : windowOpen t = true := by simp only [windowOpen, huntState, ht, hs, decide_true]
  rw [huntFrame, opens hh, opens (kept.trans hh)]
  rfl

/-! ### The sums -/

/-- A frame's score: the sum of each fitted CLOSED feeder grows by its residual current when its record counts (R150). -/
theorem scoreFrame_spec (s : State) (fr : MeasFrame) (sums : PerFeeder Nat) :
    scoreFrame s (.of fun f => (fr.records.get f).scored) sums = .of fun f =>
      let r := fr.records.get f
      sums.get f +
        (if s.fitted f = true ∧ (s.feeder f).position = .closed ∧ r.valid = true ∧ r.saturated = false ∧ r.direction = .forward
         then r.residual else 0) := by
  unfold scoreFrame
  congr 1
  funext f
  simp only [PerFeeder.get_of, FeederRecord.scored, decide_eq_true_eq]
  split_ifs <;> rfl

/-- The feeder of the highest sum, the lowest-numbered of equals (R151). -/
def BestSum (s : State) (sums : PerFeeder Nat) (f : Feeder) : Prop :=
  s.fitted f = true ∧ ∀ g, s.fitted g = true → sums.get g ≤ sums.get f ∧ (g.number < f.number → sums.get g < sums.get f)

/-- The highest sum of the other feeders, 0 when there is none (R151). -/
def SecondSum (s : State) (sums : PerFeeder Nat) (f : Feeder) (n : Nat) : Prop :=
  (∀ g, s.fitted g = true → g ≠ f → sums.get g ≤ n) ∧ (n = 0 ∨ ∃ g, s.fitted g = true ∧ g ≠ f ∧ n = sums.get g)

/-- A window identifies a feeder: its sum is the highest and reaches the threshold, and the ratio to every other (R151). -/
def Identifies (s : State) (set : HuntSettings) (w : Window) (f : Feeder) : Prop :=
  BestSum s w.sums f ∧ set.identifyThreshold * w.length ≤ w.sums.get f ∧
    ∀ g, s.fitted g = true → g ≠ f → set.identifyRatio * w.sums.get g ≤ 100 * w.sums.get f

theorem BestSum.unique (bf : BestSum s sums f) (bg : BestSum s sums g) : f = g := by
  obtain ⟨ff, overF⟩ := bf
  obtain ⟨fg, overG⟩ := bg
  have same : f.number = g.number := by
    have ⟨le, lt⟩ := overF g fg
    have ⟨le', lt'⟩ := overG f ff
    omega
  have names := congrArg Feeder.ofNumber same
  rw [Feeder.ofNumber_number, Feeder.ofNumber_number] at names
  exact Option.some.inj names

theorem SecondSum.unique {m : Nat} (hn : SecondSum s sums f n) (hm : SecondSum s sums f m) : n = m := by
  have below {a b : Nat} (ha : SecondSum s sums f a) (hb : SecondSum s sums f b) : a ≤ b := by
    rcases ha.2 with zero | ⟨g, fitted, apart, same⟩
    · omega
    · rw [same]
      exact hb.1 g fitted apart
  exact Nat.le_antisymm (below hn hm) (below hm hn)

/-- The first fitted feeder that no sum exceeds is the best (R151). -/
theorem bestSum_of_highestSum (found : highestSum sums s.fittedFeeders = some f) : BestSum s sums f := by
  have numbered : s.fittedFeeders.Pairwise fun a b => a.number < b.number :=
    (show Feeder.all.Pairwise fun a b => a.number < b.number by decide).filter _
  obtain ⟨highest, before, after, split, lower⟩ := List.find?_eq_some_iff_append.1 found
  have top : ∀ g, s.fitted g = true → sums.get g ≤ sums.get f := fun g fitted => by
    simpa using List.all_eq_true.1 highest g ((s.mem_fittedFeeders g).2 fitted)
  refine ⟨(s.mem_fittedFeeders f).1 (by rw [split]; simp), fun g fitted => ⟨top g fitted, fun less => ?_⟩⟩
  rw [split] at numbered
  have listed : g ∈ before ∨ g = f ∨ g ∈ after := by
    simpa [split] using (s.mem_fittedFeeders g).2 fitted
  have first : g ∈ before := by
    rcases listed with listed | rfl | listed
    · exact listed
    · omega
    · have later := List.rel_of_pairwise_cons (List.pairwise_append.1 numbered).2.1 listed
      omega
  have beaten := lower g first
  simp only [Bool.not_eq_true', List.all_eq_false, decide_eq_true_eq, Nat.not_le] at beaten
  obtain ⟨k, fitted', more⟩ := beaten
  exact Nat.lt_of_lt_of_le more (top k ((s.mem_fittedFeeders k).1 fitted'))

theorem highestSum_of_bestSum (best : BestSum s sums f) : highestSum sums s.fittedFeeders = some f := by
  cases found : highestSum sums s.fittedFeeders with
  | some g => rw [(bestSum_of_highestSum found).unique best]
  | none =>
    refine absurd (List.find?_eq_none.1 found f ((s.mem_fittedFeeders f).2 best.1)) (not_not.2 ?_)
    exact List.all_eq_true.2 fun g fitted => decide_eq_true (best.2 g ((s.mem_fittedFeeders g).1 fitted)).1

/-- The highest of the other feeders' sums is the greatest of their list. -/
theorem secondSum_foldl (s : State) (sums : PerFeeder Nat) (f : Feeder) :
    SecondSum s sums f (((s.fittedFeeders.filter fun g => decide (g ≠ f)).map sums.get).foldl max 0) := by
  have others {g : Feeder} : g ∈ s.fittedFeeders.filter (fun g => decide (g ≠ f)) ↔ s.fitted g = true ∧ g ≠ f := by
    rw [List.mem_filter, s.mem_fittedFeeders, decide_eq_true_eq]
  obtain ⟨reached, bound⟩ := List.max?_eq_some_iff.1
    (List.max?_cons' (x := 0) (xs := (s.fittedFeeders.filter fun g => decide (g ≠ f)).map sums.get))
  refine ⟨fun g fitted apart => bound _ (List.mem_cons_of_mem _ (List.mem_map_of_mem (others.2 ⟨fitted, apart⟩))),
    (List.mem_cons.1 reached).imp_right fun listed => ?_⟩
  obtain ⟨g, member, same⟩ := List.mem_map.1 listed
  exact ⟨g, (others.1 member).1, (others.1 member).2, same.symm⟩

/-- The judgement of a window with a best feeder (R151). -/
theorem windowSums_best (best : BestSum s sums f) (second : SecondSum s sums f n) :
    windowSums sums s.fittedFeeders = (sums.get f, n, some f) := by
  rw [windowSums, highestSum_of_bestSum best, second.unique (secondSum_foldl s sums f)]

/-- Without a best feeder a window has no sums (R151). -/
theorem windowSums_none (unfitted : ∀ f, ¬ BestSum s sums f) : windowSums sums s.fittedFeeders = (0, 0, none) := by
  cases found : highestSum sums s.fittedFeeders with
  | some f => exact absurd (bestSum_of_highestSum found) (unfitted f)
  | none => rw [windowSums, found]

/-- The ratio to the second sum is the ratio to every other (R151). -/
theorem ratio_iff (second : SecondSum s sums f n) (ratio : Nat) :
    ratio * n ≤ 100 * sums.get f ↔ ∀ g, s.fitted g = true → g ≠ f → ratio * sums.get g ≤ 100 * sums.get f := by
  refine ⟨fun le g fitted apart => (Nat.mul_le_mul_left ratio (second.1 g fitted apart)).trans le, fun each => ?_⟩
  rcases second.2 with rfl | ⟨g, fitted, apart, rfl⟩
  · exact Nat.zero_le _
  · exact each g fitted apart

/-! ### The window's last frame -/

/-- A frame is counted and scored, and judged when it is the window's last (R150, R151). -/
theorem countFrame_counts (hh : s.hunt = some h) (hs : h.state = .identify) (hw : h.window = some w) (rs : PerFeeder ScoredRecord) :
    countFrame rs s =
      let counted : Window := { w with counted := w.counted + 1, sums := scoreFrame s rs w.sums }
      if w.length ≤ w.counted + 1 then endWindow h counted { s with hunt := some { h with window := some counted } }
      else ({ s with hunt := some { h with window := some counted } }, .wait) := by
  simp only [countFrame, hh, hs, hw, State.onHunt_some hh]

/-- A window that identifies a feeder leads to ISOLATE (R151). -/
theorem endWindow_identifies (hr : s.hunt = some r) (identifies : Identifies s (s.huntSettings h.level) w f)
    (second : SecondSum s w.sums f n) :
    endWindow h w s = enterIsolate f (w.sums.get f, n, some f) { s with hunt := some { r with sums := some w.sums } } := by
  obtain ⟨best, threshold, ratio⟩ := identifies
  simp only [endWindow, windowSums_best best second, huntLevelSettings, State.onHunt_some hr]
  exact if_pos ⟨threshold, (ratio_iff second _).2 ratio⟩

/-- Any other window leads to the trial, with its sums (R151). -/
theorem endWindow_inconclusive (hr : s.hunt = some r) (unidentified : ∀ f, ¬ Identifies s (s.huntSettings h.level) w f) :
    ∃ s1 s2 first,
      endWindow h w s = ({ s with hunt := some { r with sums := some w.sums } }, .trialEntry (some (s1, s2, first)) none) ∧
      (∀ f, BestSum s w.sums f → first = some f ∧ s1 = w.sums.get f ∧ SecondSum s w.sums f s2) ∧
      ((∀ f, s.fitted f = false) → s1 = 0 ∧ s2 = 0 ∧ first = none) := by
  by_cases someBest : ∃ f, BestSum s w.sums f
  · obtain ⟨f, best⟩ := someBest
    have second := secondSum_foldl s w.sums f
    generalize ((s.fittedFeeders.filter fun g => decide (g ≠ f)).map w.sums.get).foldl max 0 = n at second
    refine ⟨w.sums.get f, n, some f, ?_, fun g other => ?_, fun unfitted => ?_⟩
    · simp only [endWindow, windowSums_best best second, huntLevelSettings, State.onHunt_some hr]
      exact if_neg fun met => unidentified f ⟨best, met.1, (ratio_iff second _).1 met.2⟩
    · obtain rfl := best.unique other
      exact ⟨rfl, rfl, second⟩
    · exact absurd best.1 (by rw [unfitted f]; exact Bool.noConfusion)
  · have nobody : ∀ f, ¬ BestSum s w.sums f := fun f best => someBest ⟨f, best⟩
    refine ⟨0, 0, none, ?_, fun f best => absurd best (nobody f), fun _ => ⟨rfl, rfl, rfl⟩⟩
    simp only [endWindow, windowSums_none nobody, State.onHunt_some hr]

/-! ### The entry to ISOLATE -/

/-- A step of the hunt with another record leads where it leads: the record alone is replaced. -/
theorem Leads.ofRecord {x : State × HuntGo} {go : HuntGo} {r' : HuntRun} {evs : List Event}
    (leads : Leads { s with hunt := some r } x go r' evs) : Leads s x go r' evs := by
  have entries : said evs { s with hunt := some r } = said evs s := said_congr _ rfl rfl rfl
  rw [Leads, entries] at leads
  exact leads

/-- The hunt's record in ISOLATE, with the outcome of the identified feeder (R153). -/
def isolating (h : HuntRun) (f : Feeder) (o : IsolateOutcome) : HuntRun :=
  { stepEnded h with state := .isolate, identified := some { feeder := f, isolate := o, endRestore := none }, resume := none }

/-- The state at the entry to ISOLATE, before the identified feeder is judged (R153). -/
def isolateEntered (s : State) (h : HuntRun) (f : Feeder) (sums : Nat × Nat × Option Feeder) : State :=
  { s with
    hunt := some { isolating h f .opened with dropoutSeen := some false }
    queues := said (huntMoved s .identify .isolate { sums := some sums }) s }

variable {z : Nat × Nat × Option Feeder}

theorem isolateEntered_spec (hh : s.hunt = some h) (hs : h.state = .identify) (f : Feeder) (z : Nat × Nat × Option Feeder) :
    setHuntState .isolate { sums := some z }
      ((endStep s).onHunt fun r =>
        { r with identified := some { feeder := f, isolate := .opened, endRestore := none }, dropoutSeen := some false }) =
      isolateEntered s h f z := by
  rw [endStep_onHunt hh, setHuntState_onHunt hh, isolateEntered, ← hs]
  rfl

/-- A skipped feeder's outcome is set, and the step ends (R153). -/
theorem isolateEntered_skips (o : IsolateOutcome) :
    endStep (setIsolate o (isolateEntered s h f z)) =
      { s with hunt := some (isolating h f o), queues := said (huntMoved s .identify .isolate { sums := some z }) s } := by
  rw [setIsolate_spec (s := isolateEntered s h f z) rfl rfl, endStep_spec rfl]
  rfl

/-- An identified feeder that is not CLOSED is skipped (R153). -/
theorem enterIsolate_notClosed (hh : s.hunt = some h) (hs : h.state = .identify) (moved : (s.feeder f).position ≠ .closed) :
    Leads s (enterIsolate f z s) (.trialEntry none none) (isolating h f .skippedOpen)
      (huntMoved s .identify .isolate { sums := some z }) := by
  rw [Leads, ← isolateEntered_skips, ← isolateEntered_spec hh hs]
  exact if_pos (.inr moved)

/-- The state in which the hunt holds the identified feeder's lock and asks for its trip (R118, R153). -/
def isolateTaken (s : State) (h : HuntRun) (f : Feeder) (sums : Nat × Nat × Option Feeder) : State :=
  { s with
    hunt := some { isolating h f .opened with dropoutSeen := some false, locked := some f }
    feeders := s.feeders.set f { s.feeder f with lock := .hunt }
    queues := said (huntMoved s .identify .isolate { sums := some sums } ++ lockTaken s f) s }

theorem isolateTaken_feeder (s : State) (h : HuntRun) (f : Feeder) (z : Nat × Nat × Option Feeder) :
    (isolateTaken s h f z).feeder f = { s.feeder f with lock := .hunt } := PerFeeder.get_set_self _ _ _

section
variable (hh : s.hunt = some h) (hs : h.state = .identify) (fitted : s.fitted f = true) (closed : (s.feeder f).position = .closed)
include hh hs fitted closed

/-- An identified feeder whose lock a port holds is skipped (R153). -/
theorem enterIsolate_locked (held : (s.feeder f).lock.heldByPort = true) :
    Leads s (enterIsolate f z s) (.trialEntry none none) (isolating h f .skippedLocked)
      (huntMoved s .identify .isolate { sums := some z }) := by
  have pass : ¬ (s.fitted f = false ∨ (s.feeder f).position ≠ .closed) := by simp [fitted, closed]
  have refused : huntTakeLock f (isolateEntered s h f z) = none := by
    have same : (isolateEntered s h f z).feeder f = s.feeder f := rfl
    cases lock : (s.feeder f).lock with
    | port q d => simp only [huntTakeLock, same, lock]
    | _ => rw [lock] at held; exact Bool.noConfusion held
  simp only [enterIsolate, isolateEntered_spec hh hs, if_neg pass, refused, isolateEntered_skips, Leads]

/-- An identified feeder whose lock no port holds is locked, and its trip is asked for; one that is in flight is waited for (R118, R153). -/
theorem enterIsolate_waits {u : State} {id : Nat} {answer : SwitchAnswer} (lock : (s.feeder f).lock.heldByPort = false)
    (trips : requestTrip f .hunt none (isolateTaken s h f z) = (u, answer, []))
    (flies : answer = .admitted id ∨ answer = .joined id) :
    enterIsolate f z s = (u.onHunt fun x => { x with op := some { id := id, kind := .trip, feeder := f } }, .wait) := by
  have pass : ¬ (s.fitted f = false ∨ (s.feeder f).position ≠ .closed) := by simp [fitted, closed]
  have entries : said (lockTaken (isolateEntered s h f z) f) (isolateEntered s h f z) =
      said (huntMoved s .identify .isolate { sums := some z } ++ lockTaken s f) s := said_append _ _ rfl rfl rfl
  have taken : huntTakeLock f (isolateEntered s h f z) = some (isolateTaken s h f z) := by
    rw [huntTakeLock_spec (by exact lock), entries]
    rfl
  rcases flies with rfl | rfl <;>
    simp only [enterIsolate, isolateEntered_spec hh hs, if_neg pass, taken, trips]

/-- An identified feeder that joins a trip in flight (R107, R153). -/
theorem enterIsolate_joins {y : InFlight} (lock : (s.feeder f).lock.heldByPort = false) (flying : (s.feeder f).inFlight = some y)
    (trip : y.op.kind = .trip) :
    LeadsWith s (enterIsolate f z s) .wait
      { isolating h f .opened with
        dropoutSeen := some false, locked := some f, op := some { id := y.op.id, kind := .trip, feeder := f } }
      f
      { s.feeder f with
        lock := .hunt
        inFlight := some
          { y with
            op := { y.op with
              requesters := if y.op.requesters.contains .hunt then y.op.requesters else y.op.requesters ++ [.hunt] } } }
      s.opCounter (huntMoved s .identify .isolate { sums := some z } ++ lockTaken s f) := by
  have feeder := isolateTaken_feeder s h f z
  have feeders (x : FeederState) : (isolateTaken s h f z).feeders.set f x = s.feeders.set f x := PerFeeder.set_set _ _ _ _
  have joins := requestTrip_joinsUnasked (s := isolateTaken s h f z) (by rw [feeder]; exact flying) trip .hunt
  rw [LeadsWith, enterIsolate_waits hh hs fitted closed lock joins (.inr rfl), State.onFeeder, feeders,
    show (isolateTaken s h f z).feeders.get f = { s.feeder f with lock := .hunt } from feeder]
  rfl

end

/-- An identified feeder whose trip is admitted (R106, R153). -/
theorem enterIsolate_trips (hh : s.hunt = some h) (hs : h.state = .identify) (may : HuntMayTrip s f) :
    LeadsWith s (enterIsolate f z s) .wait
      { isolating h f .opened with dropoutSeen := some false, locked := some f, op := some (huntOp s .trip f) } f (huntTripping s f)
      (nextOpId s.opCounter) (huntMoved s .identify .isolate { sums := some z } ++ lockTaken s f) := by
  have feeder := isolateTaken_feeder s h f z
  have feeders : (isolateTaken s h f z).feeders.set f (huntTripping s f) = s.feeders.set f (huntTripping s f) := PerFeeder.set_set _ _ _ _
  have admits := requestTrip_hunt (s := isolateTaken s h f z) (by rw [feeder]; exact may.closed) (by rw [feeder]; exact may.idle)
  rw [LeadsWith, enterIsolate_waits hh hs may.fitted may.closed may.lock admits (.inl rfl), feeder, ← feeders]
  rfl

/-- A protection trip begins the window again (R152). -/
theorem huntProtectionTrip_identify (hh : s.hunt = some h) (hs : h.state = .identify) (f : Feeder) :
    huntProtectionTrip f s =
      { s with
        hunt := some
          { h with window := some { length := (s.huntSettings h.level).identifyWindow, counted := 0, sums := .of fun _ => 0 } } } := by
  rw [huntProtectionTrip_spec hh, if_pos hs]

end

end Sys2Proof.Machine

open Sys2Proof Sys2Proof.Machine

/-- Settles O46: what the detector leaves of the frame, then the count, and at the last frame the judgement and the entry it leads to. -/
theorem identifyWindowIsJudged : Obligations.IdentifyWindowIsJudged := by
  refine ⟨fun h w fr s hh hs hw undropped => ?_, fun f h s hh hs => huntProtectionTrip_identify hh hs f⟩
  obtain ⟨d, q, left⟩ := detectorFrame_undropped hh undropped fr.interval
  have reached := huntFrame_counts (fr := fr) hh hs (by rw [left])
  intro set sums counted best identified second t a vn
  have counts : t = huntSettle fr.usedVn (countFrame (.of fun f => (fr.records.get f).scored) a) := reached
  have detected : a = { s with detector := d, queues := q } := left
  clear_value t a
  subst detected
  rw [countFrame_counts (s := { s with detector := d, queues := q }) hh hs hw, scoreFrame_spec] at counts
  refine ⟨rfl, fun early => ?_, fun last => ⟨fun f n identifies next => ?_, fun unidentified => ?_⟩⟩
  · rw [counts, if_neg (Nat.not_le.2 early), huntSettle_wait]
    rfl
  · let b : State := { s with detector := d, queues := q }
    let entered : HuntRun := { h with window := some counted, sums := some sums }
    let z : Nat × Nat × Option Feeder := (sums.get f, n, some f)
    have judged : t = huntSettle fr.usedVn (enterIsolate f z { b with hunt := some entered }) := by
      rw [counts, if_pos last]
      exact congrArg (huntSettle fr.usedVn)
        (endWindow_identifies (r := { h with window := some counted }) (s := { b with hunt := some { h with window := some counted } })
          (h := h) (w := counted) rfl identifies next)
    have fitted : s.fitted f = true := by
      obtain ⟨⟨fitted, -⟩, -⟩ := identifies
      exact fitted
    rw [judged]
    refine ⟨fun may => ?_, fun y closed lock flying trip => ?_, fun o skips => ?_⟩
    · have trips := (enterIsolate_trips (s := { b with hunt := some entered }) (h := entered) (z := z) rfl hs
        ⟨may.fitted, may.lock, may.closed, may.idle⟩).ofRecord (s := b)
      rw [trips, huntSettle_wait]
      rfl
    · have joins := (enterIsolate_joins (s := { b with hunt := some entered }) (h := entered) (z := z) rfl hs fitted closed lock
        flying trip).ofRecord (s := b)
      rw [joins, huntSettle_wait]
      rfl
    · have leads : Leads b (enterIsolate f z { b with hunt := some entered }) (.trialEntry none none) (isolating entered f o)
          (huntMoved b .identify .isolate { sums := some z }) := by
        rcases skips with ⟨rfl, moved⟩ | ⟨rfl, closed, held⟩
        · exact (enterIsolate_notClosed (s := { b with hunt := some entered }) rfl hs moved).ofRecord (s := b)
        · exact (enterIsolate_locked (s := { b with hunt := some entered }) rfl hs fitted closed held).ofRecord (s := b)
      exact congrArg (huntSettle fr.usedVn) leads
  · let ended : State := { s with detector := d, queues := q, hunt := some { h with window := some counted } }
    obtain ⟨s1, s2, first, ends, best, unfitted⟩ := endWindow_inconclusive (s := ended) (h := h) (w := counted) rfl unidentified
    refine ⟨s1, s2, first, ?_, best, unfitted⟩
    rw [counts, if_pos last]
    exact congrArg (huntSettle fr.usedVn) ends
end
